-- ==== Sys2Proof/Word.lean ====
section
/-! DEFINITION. The word types of the station: what the manual treats as bits. -/

namespace Sys2Proof

/-- One byte, as it stands in staging memory and in every format of chapter 12. -/
abbrev Byte := BitVec 8

/-- A 16-bit field: segment sequences, round numbers, incarnations. -/
abbrev Half := BitVec 16

/-- A 32-bit field: branch codes, record numbers, chunk sequences, counters. -/
abbrev Word := BitVec 32

/-- The 64-bit `bytes accepted` of a stream. -/
abbrev Wide := BitVec 64

/-- A SHA-256 digest read as a big-endian number, first digest byte most significant (R36). -/
abbrev Fingerprint := BitVec 256

end Sys2Proof
end

