-- ==== Sys2Proof/Syntax.lean ====
section
/-! DEFINITION. The commands: one constructor for each row of spec/opcode_table.json, with the operands that the
outside gives with it. Commands that are events of the station's own units (an engine takes a byte, an append's copy
ends, a timer reaches its point) name the thing they happen to where there can be several. -/

namespace Sys2Proof

/-- The steps of the part (95_what_each_step_holds.md), each whole and indivisible. -/
inductive Instr where
  /-- OPEN_SEGMENT (R5): the header's fields (R171). -/
  | openSegment (stream : Byte) (sequence : Half) (branch windowBase windowSize : Word)
  /-- DATA_SEGMENT (R8): the header's fields and the payload bytes taken with it (R172). -/
  | dataSegment (stream : Byte) (sequence : Half) (payload : List Byte)
  /-- CLOSE_SEGMENT (R11). -/
  | closeSegment (stream : Byte) (sequence : Half)
  /-- ABORT_SEGMENT (R15). -/
  | abortSegment (stream : Byte)
  /-- MALFORMED_SEGMENT (R3): a kind that is none of the four, or a stream above 15; bytes 0 to 3 of the header,
  bytes 2 and 3 read as a sequence whatever the kind (log entry 35). -/
  | malformedSegment (kind stream : Byte) (sequence : Half)
  /-- RESET_ASSERT (R162). -/
  | resetAssert
  /-- RESET_RELEASE (R162). -/
  | resetRelease
  /-- SETTINGS_LOADED (R163): whether every byte was acknowledged, and the bytes read. -/
  | settingsLoaded (acknowledged : Bool) (image : List Byte)
  /-- CLEAR_WALK_STEP (R54). -/
  | clearWalkStep
  /-- HOLD_ASSERT (R164). -/
  | holdAssert
  /-- HOLD_RELEASE (R164). -/
  | holdRelease
  /-- ENGINE_ASSIGN (R20): the arbiter makes one assignment. -/
  | engineAssign
  /-- ENGINE_TAKE_BYTE (R29): the named engine takes one byte. -/
  | engineTakeByte (engine : Fin 4)
  /-- FINGERPRINT_COMPLETE (R35). -/
  | fingerprintComplete
  /-- INDEX_SERVICE_START (R42). -/
  | indexServiceStart
  /-- SCRUB_STEP_START (R44). -/
  | scrubStepStart
  /-- RESOLUTION_LOOKUP_COMPLETE (R58). -/
  | resolutionLookupComplete
  /-- ANSWER_LOOKUP_COMPLETE (R97). -/
  | answerLookupComplete
  /-- INSERT_COMPLETE (R50). -/
  | insertComplete
  /-- SCRUB_STEP_COMPLETE (R53). -/
  | scrubStepComplete
  /-- COMPARE_A_EXPIRY (R69): the ask entry named by its tag. -/
  | compareAExpiry (tag : Byte)
  /-- COMPARE_B_EXPIRY (R72): the ask entry named by its tag. -/
  | compareBExpiry (tag : Byte)
  /-- APPEND_COMPLETE (R127): the append in flight into container `slot` at payload offset `offset`. -/
  | appendComplete (slot offset : Nat)
  /-- ATTEMPT_START (R81). -/
  | attemptStart
  /-- FRAME_COMPLETE (R81): this station's own frame is complete. -/
  | frameComplete
  /-- COLLISION (R82): the first differing bit, counted from 1. -/
  | collision (bit : Nat)
  /-- JAM_END (R83). -/
  | jamEnd
  /-- ASK_RECEIVED (R95): the fields of the frame. -/
  | askReceived (sender tag : Byte) (fingerprint : Fingerprint)
  /-- HAVE_RECEIVED (R70): the fields of the frame. -/
  | haveReceived (sender target tag : Byte) (fingerprint : Fingerprint) (incarnation slot ordinal : Half) (sealedByte : Byte)
  /-- CLAIM_RECEIVED (R70): the fields of the frame. -/
  | claimReceived (sender : Byte) (fingerprint : Fingerprint) (incarnation slot ordinal : Half) (sealedByte : Byte)
  /-- CANDIDATE_FRAME (R90, R92): the bits gathered from the line, in order. -/
  | candidateFrame (bits : List Bool)
  /-- SEAL_TIMER_EXPIRY (R136). -/
  | sealTimerExpiry
  /-- DRIVE_END (R136). -/
  | driveEnd
  /-- PULSE_DETECTED (R137). -/
  | pulseDetected
  /-- SEAL_LINE_HIGH (R137). -/
  | sealLineHigh
  /-- COMPLETION (R143): the status byte of the completion, whose bytes 1 to 3 are unused (R175, log entry 34). -/
  | completion (status : Byte)
  /-- READ_STATUS (R167). -/
  | readStatus
  /-- READ_REPORT (R169). -/
  | readReport
  /-- ACK_EVENTS (R168). -/
  | ackEvents (mask : Byte)
  /-- RECIPE_TAKEN (R110). -/
  | recipeTaken (stream : Byte) (count : Word)
  /-- PURGE (R154). -/
  | purge (slot : Half)
  /-- READ_STREAM (R167). -/
  | readStream (stream : Byte)
  /-- UNKNOWN_COMMAND (R166): a code that names no command. -/
  | unknownCommand (code : Byte)
  /-- TRANSACTION_DISCARDED (R166): deselection before the command's last byte. -/
  | transactionDiscarded
  /-- SEAL_LINE_LOW (R137). -/
  | sealLineLow
  /-- FRAME_BEGINS (R90): another station begins driving the idle bus. -/
  | frameBegins
  deriving DecidableEq, Repr

end Sys2Proof
end

