-- ==== Sys2Proof/Decode.lean ====
section
/-! DEFINITION. The decoder of table words. The table of this block gives no row any bits: the commands are segments,
transactions, frames, completions and events on the station's own links, lines and clocks (log entry 1). The links' own
byte formats are read in Machine/Operands.lean. -/

namespace Sys2Proof

/-- The command that a word spells by the table's bits. No row of the table gives bits, so no word spells one. -/
def decodeTableWord (_nbits _w : Nat) : Option Instr := none

end Sys2Proof
end

