-- ==== Sys2Proof/Config.lean ====
section
/-! DEFINITION. The free values: constants without a body for what the manual leaves open. Nothing in Lean can
evaluate them, so no statement rests on a value of theirs. Each use consumes one number of the model's own counter
`State.choices`, so that two uses are not tied to each other. -/

namespace Sys2Proof

/-- Free choice number `n`, item `i`: the order in which things of one step are taken where the manual names no
order (R151, R169; log entry 12). DESIGN CHOICE, safe: any order is allowed. -/
opaque Config.freeChoice : Nat → Nat → Nat

/-- The next chunk sequence after 4,294,967,295: R26 raises it by 1 and R102 bounds it by 2^32 − 1; no rule says what
it becomes (log entry 13). DESIGN CHOICE, safe. -/
opaque Config.freeChunkSequence : Nat → Word

/-- The `bytes accepted` of a stream past 2^64 − 1: the table of section 1.2 gives no rule for it (log entry 13). DESIGN CHOICE, safe. -/
opaque Config.freeBytesAccepted : Nat → Wide

/-- The four address bytes of a RECIPE_WRITE whose store address does not fit 32 bits (R105, R175; log entry 14).
DESIGN CHOICE, safe. -/
opaque Config.freeStoreAddress : Nat → Word

/-- What a bucket holds after RESET cut the request that was rewriting it: R55 says `any state` (log entry 15). Each
entry is a fingerprint, a container slot and an ordinal. DESIGN CHOICE, safe. -/
opaque Config.freeBucket : Nat → List (Fingerprint × Nat × Nat)

end Sys2Proof
end

