-- ==== Sys2Proof/Machine/State.lean ====
section
/-! DEFINITION. The state of one DS-416 station as plain data, block by block in the manual's own order, the reasons a
command can stop, and the state right after reset. -/

namespace Sys2Proof.Machine

/-! ## Sparse tables and memories -/

/-- A table over the natural numbers that lists only the keys whose value is not the default, keys strictly rising.
Staging memory, index memory and the container table are held in this form (operations in Machine/Sparse.lean). -/
abbrev Sparse (α : Type) := List (Nat × α)

/-! ## Chapter 1 and 2: streams, chunking, fingerprints -/

/-- The five station states (section 11.1), in the order of their codes (R177). -/
inductive StationState where
  | reset | loading | clearing | running | holding
  deriving DecidableEq, Repr

/-- The five stream states (section 1.2), in the order of their codes (R177). `opened` is the manual's OPEN. -/
inductive StreamState where
  | idle | opened | closing | aborting | faulted
  deriving DecidableEq, Repr

/-- NORMAL or SURVEY (R6). -/
inductive StreamKind where
  | normal | survey
  deriving DecidableEq, Repr

/-- How a seal round ended (R140). -/
inductive RoundStatus where
  | clean | broken
  deriving DecidableEq, Repr

/-- An owed MARK: a round number with its status (R112). -/
structure Mark where
  round : Half
  status : RoundStatus
  deriving DecidableEq, Repr

/-- The eight 32-bit chaining words of SHA-256 (R31). -/
structure Chain where
  (a b c d e f g h : Word)
  deriving DecidableEq, Repr

/-- The initial chaining words of the published SHA-256 standard (FIPS 180-4), which R31 names. PRESUMED (log entry 21). -/
def Chain.initial : Chain :=
  { a := 0x6a09e667#32, b := 0xbb67ae85#32, c := 0x3c6ef372#32, d := 0xa54ff53a#32
    e := 0x510e527f#32, f := 0x9b05688c#32, g := 0x1f83d9ab#32, h := 0x5be0cd19#32 }

/-- A running digest (R31): chaining words, the bytes not yet forming a 64-byte block, and the bytes taken. -/
structure Digest where
  chain : Chain
  block : List Byte
  taken : Nat
  deriving DecidableEq, Repr

/-- The running digest of a chunk with no bytes taken (R31). -/
def Digest.initial : Digest := { chain := Chain.initial, block := [], taken := 0 }

/-- The chunker context (R18, R24, R31): the sums, the window and its position, the current chunk's length, the current
pending slot, the running digest and the resume offset. -/
structure ChunkerContext where
  sumA : Nat
  sumB : Nat
  window : Vector Byte 32
  position : Fin 32
  length : Nat
  slot : Option (Fin 32)
  digest : Digest
  resume : Option Nat
  deriving DecidableEq, Repr

/-- The chunker context after reset and after an accepted OPEN (R4, R7). -/
def ChunkerContext.initial : ChunkerContext :=
  { sumA := 0, sumB := 0, window := Vector.replicate 32 0#8, position := 0, length := 0, slot := none
    digest := Digest.initial, resume := none }

/-- What a segment queue entry is: a DATA with its payload length, or a CLOSE (R10, R11). -/
inductive EntryKind where
  | data (length : Nat)
  | close
  deriving DecidableEq, Repr

/-- One entry of a segment queue (R10, R13): the queue slot it takes, its sequence and what it is. -/
structure QueueEntry where
  slot : Fin 64
  sequence : Half
  kind : EntryKind
  deriving DecidableEq, Repr

/-- The phases of a pending slot (R102). -/
inductive Phase where
  | chunking | hashing | checking | waiting | resolved
  deriving DecidableEq, Repr

/-- How a chunk was resolved (section 4.1). -/
inductive Disposition where
  | localNew | localDup | remote | surveyNew | surveyDup
  deriving DecidableEq, Repr

/-- Where a chunk lives (R62): station, incarnation, container slot, ordinal. -/
structure Location where
  station : Byte
  incarnation : Half
  slot : Nat
  ordinal : Nat
  deriving DecidableEq, Repr

/-- A pending slot in use (R102). Its staging extent is fixed by the stream and the slot's number (R30). -/
structure PendingSlot where
  number : Fin 32
  sequence : Word
  length : Nat
  fingerprint : Option Fingerprint
  phase : Phase
  disposition : Option Disposition
  location : Option Location
  holderSealed : Option Bool
  deriving DecidableEq, Repr

/-- The three kinds of recipe record (R174). -/
inductive RecordKind where
  | chunk | mark | last
  deriving DecidableEq, Repr

/-- A recipe write in flight (R105): kind, record number and, for a CHUNK, the pending slot. -/
structure WriteInFlight where
  kind : RecordKind
  number : Word
  slot : Option (Fin 32)
  deriving DecidableEq, Repr

/-- The end progress of a stream's emitter (R105). -/
inductive EndProgress where
  | none | due | issued
  deriving DecidableEq, Repr

/-- A stream context with its segment queue, pending list and emitter state (sections 1.2, 6.1, R105). The pending slots
in use are the members of `pending`, oldest first; every other number from 0 to 31 is free (R102). -/
structure Stream where
  state : StreamState
  branch : Word
  kind : StreamKind
  windowBase : Word
  windowSize : Word
  written : Word
  taken : Word
  expected : Half
  lastAccepted : Half
  nextChunk : Word
  current : Option Nat
  owedMark : Option Mark
  bytesAccepted : Wide
  chunks : Word
  localNew : Word
  localDup : Word
  remote : Word
  surveyNew : Word
  surveyDup : Word
  chunker : ChunkerContext
  queue : List QueueEntry
  nextQueueSlot : Fin 64
  pending : List PendingSlot
  writeInFlight : Option WriteInFlight
  endProgress : EndProgress
  deriving DecidableEq, Repr

/-- A stream after reset (R4, R13, R102, R105). -/
def Stream.initial : Stream :=
  { state := .idle, branch := 0, kind := .normal, windowBase := 0, windowSize := 0, written := 0, taken := 0
    expected := 1, lastAccepted := 0, nextChunk := 0, current := none, owedMark := none, bytesAccepted := 0
    chunks := 0, localNew := 0, localDup := 0, remote := 0, surveyNew := 0, surveyDup := 0
    chunker := ChunkerContext.initial, queue := [], nextQueueSlot := 0, pending := [], writeInFlight := none
    endProgress := .none }

/-- A chunking engine (R18): FREE, or SERVING a stream with its working chunker context and the position of the next
payload byte of the head DATA. -/
inductive Engine where
  | free
  | serving (stream : Fin 16) (context : ChunkerContext) (position : Nat)
  deriving DecidableEq, Repr

/-- What becomes of a digest's result: written and handed on, or dropped after an abort, which waits for it (R16, R37), or
dropped after a fault, which an abort that follows does not wait for (R38). -/
inductive DigestFate where
  | kept | awaited | dropped
  deriving DecidableEq, Repr

/-- A running digest handed to the Fingerprint Unit (R34, R35). Only the one being completed, the oldest, can have lost
its stream: it runs to its end and its result is dropped (R37, R38). -/
structure DigestJob where
  stream : Fin 16
  slot : Fin 32
  digest : Digest
  fate : DigestFate
  deriving DecidableEq, Repr

/-! ## Chapter 3: the Chunk Index -/

/-- An index entry (R41). -/
structure IndexEntry where
  fingerprint : Fingerprint
  slot : Nat
  ordinal : Nat
  deriving DecidableEq, Repr

/-- An index request (R42). A resolution lookup carries its void mark (R48). An insert names its ask entry by tag. -/
inductive IndexRequest where
  | lookup (fingerprint : Fingerprint) (stream : Fin 16) (slot : Fin 32) (sequence : Word) (kind : StreamKind) (void : Bool)
  | answer (fingerprint : Fingerprint) (asker tag : Byte)
  | insert (fingerprint : Fingerprint) (slot ordinal length : Nat) (tag : Byte)
  deriving DecidableEq, Repr

/-- What the Chunk Index is serving (R42, R44). -/
inductive Service where
  | nothing
  | request (r : IndexRequest)
  | scrub (bucket : Nat)
  deriving DecidableEq, Repr

/-- The two producers of index requests (R43). -/
inductive Producer where
  | resolution | answer
  deriving DecidableEq, Repr

/-- The Chunk Index: index memory by bucket number, the request queue, the request or scrub step in service, both
producers' held requests and the entry arbiter's last producer (R40 to R44). -/
structure Index where
  buckets : Sparse (List IndexEntry)
  queue : List IndexRequest
  service : Service
  heldResolution : List IndexRequest
  heldAnswer : List IndexRequest
  lastProducer : Producer
  deriving DecidableEq, Repr

/-- The Chunk Index after reset (R55), with index memory listing nothing. -/
def Index.initial : Index :=
  { buckets := [], queue := [], service := .nothing, heldResolution := [], heldAnswer := [], lastProducer := .resolution }

/-! ## Chapter 4: the ask table -/

/-- A waiter: a stream and one of its pending slots (R63). -/
abbrev Waiter := Fin 16 × Fin 32

/-- The states of an ask entry in use (R63). -/
inductive AskState where
  | sending | asked | reasked | yielded | storing
  deriving DecidableEq, Repr

/-- An ask entry's timer (R68): stopped, or running since a moment with compare A and compare B each armed or not. -/
inductive AskTimer where
  | stopped
  | running (since : Nat) (armedA armedB : Bool)
  deriving DecidableEq, Repr

/-- An ask entry in use (R63). -/
structure AskEntry where
  fingerprint : Fingerprint
  tag : Byte
  state : AskState
  yielded : Bool
  timer : AskTimer
  found : Option Location
  waiters : List Waiter
  storingWaiter : Option Waiter
  deriving DecidableEq, Repr

/-- The Resolution Unit: the ask entries in use in the order they were made, the next-tag counter (R64) and the ask-wait
queue (R60). The table has 64 places; those not listed are free (log entry 20). -/
structure Resolution where
  entries : List AskEntry
  nextTag : Byte
  waitQueue : List Waiter
  deriving DecidableEq, Repr

/-- The Resolution Unit after reset (R80). -/
def Resolution.initial : Resolution := { entries := [], nextTag := 0, waitQueue := [] }

/-! ## Chapter 5: the Peer Bus Interface -/

/-- A frame to send, with its fields complete (R85). The sender is this station. -/
inductive Frame where
  | ask (tag : Byte) (fingerprint : Fingerprint)
  | holds (target tag : Byte) (fingerprint : Fingerprint) (incarnation : Half) (slot ordinal : Nat) (holderSealed : Bool)
  | claim (fingerprint : Fingerprint) (incarnation : Half) (slot ordinal : Nat)
  deriving DecidableEq, Repr

/-- A place of the transmit queue: a frame and its attempt count (R85). -/
structure TxFrame where
  frame : Frame
  attempts : Nat
  deriving DecidableEq, Repr

/-- The transmitter's states (R87). WAITING for a retry holds the last end of jam and the wait of R83; SENDING and
JAMMING hold the moment they began, from which the bit position follows. -/
inductive Transmitter where
  | empty
  | waiting (retry : Option (Nat × Nat))
  | sending (since : Nat)
  | jamming (since : Nat)
  deriving DecidableEq, Repr

/-- The line as the other stations leave it: idle since a moment, or driven by another station since a moment. -/
inductive BusLine where
  | idle (since : Nat)
  | driven (since : Nat)
  deriving DecidableEq, Repr

/-- The receiver: not gathering, or gathering a candidate frame (R90). -/
inductive Receiver where
  | listening | gathering
  deriving DecidableEq, Repr

/-- A received ASK in the answer queue (R96). -/
structure AnswerEntry where
  asker : Byte
  tag : Byte
  fingerprint : Fingerprint
  deriving DecidableEq, Repr

/-- The Peer Bus Interface (R85 to R87, R91, R96): the line, the moment from which this station has watched it, the transmit
queue, the ASK holding line as (tag, fingerprint) pairs, the transmitter, the receiver, the answer queue and whether an
answer lookup is outstanding. -/
structure PeerBus where
  line : BusLine
  watchedSince : Nat
  txQueue : List TxFrame
  askHolding : List (Byte × Fingerprint)
  transmitter : Transmitter
  receiver : Receiver
  answerQueue : List AnswerEntry
  answerOutstanding : Bool
  deriving DecidableEq, Repr

/-- The Peer Bus Interface after reset (R100), on a line idle since moment 0. -/
def PeerBus.initial : PeerBus :=
  { line := .idle 0, watchedSince := 0, txQueue := [], askHolding := [], transmitter := .empty, receiver := .listening
    answerQueue := [], answerOutstanding := false }

/-! ## Chapter 7: containers -/

/-- The six states of a container slot (R118). `opened` is the manual's OPEN, `seals` its SEALING, `sealed` its SEALED. -/
inductive ContainerState where
  | free | opened | seals | sealed | retired | lost
  deriving DecidableEq, Repr

/-- The five seal reasons (R128). -/
inductive SealReason where
  | full | close | round | hold | abort
  deriving DecidableEq, Repr

/-- An append in flight (R126): its place, what it copies, and the ask entry that requested it, named by tag. -/
structure Append where
  offset : Nat
  length : Nat
  fingerprint : Fingerprint
  stream : Fin 16
  slot : Fin 32
  tag : Byte
  deriving DecidableEq, Repr

/-- A container slot's table entry (R118). `sealRequested` is the pending seal request with its reason, cleared at SEALING
(R129); `sealedFor` keeps the reason the header carries, which the LOST report names (R131, R155; log entry 18). -/
structure Container where
  state : ContainerState
  area : Option Nat
  owner : Option (Fin 16)
  count : Nat
  payload : Nat
  fill : Nat
  inFlight : List Append
  sealRequested : Option SealReason
  sealedFor : Option SealReason
  references : Nat
  round : Option Half
  deriving DecidableEq, Repr

/-- A FREE slot: every field at its reset value (R118). -/
def Container.initial : Container :=
  { state := .free, area := none, owner := none, count := 0, payload := 0, fill := 0, inFlight := []
    sealRequested := none, sealedFor := none, references := 0, round := none }

/-- An append requested and not yet issued (R73, R123). -/
structure AppendRequest where
  tag : Byte
  stream : Fin 16
  slot : Fin 32
  fingerprint : Fingerprint
  length : Nat
  deriving DecidableEq, Repr

/-- The Container Manager (R118, R121, R122, R124): the container table (an unlisted slot is FREE), the FREE count, the
allocation cursor and the open-wait queue. An assembly area is held by the container whose `area` names it (R120). -/
structure ContainerManager where
  table : Sparse Container
  freeSlots : Nat
  cursor : Nat
  openWait : List AppendRequest
  deriving DecidableEq, Repr

/-- The Container Manager after reset (R133); the FREE count becomes S when S is loaded. -/
def ContainerManager.initial : ContainerManager := { table := [], freeSlots := 0, cursor := 0, openWait := [] }

/-! ## Chapter 8: the Seal Unit -/

/-- The seal modes (R135). -/
inductive SealMode where
  | off | follow | drive
  deriving DecidableEq, Repr

/-- The drive of the seal line (R134): idle, or pulling the line low since a moment. -/
inductive Drive where
  | idle
  | driving (since : Nat)
  deriving DecidableEq, Repr

/-- The detect state (R134, R137). -/
inductive Detect where
  | lineHigh
  | lowUndetected (since : Nat)
  | lowDetected
  deriving DecidableEq, Repr

/-- The Seal Unit (R134). `timer` is none when stopped and else the moment it was started. `period` counts units of
0.1 ms. Mode and period are taken from the settings. -/
structure SealUnit where
  mode : SealMode
  period : Nat
  timer : Option Nat
  drive : Drive
  detect : Detect
  counter : Half
  inProgress : Option Half
  members : List Nat
  roundLost : Bool
  roundAgain : Bool
  lostCarry : Bool
  lastCompleted : Half
  lastStatus : RoundStatus
  lastBroken : Half
  deriving DecidableEq, Repr

/-- The Seal Unit after reset (R134). -/
def SealUnit.initial : SealUnit :=
  { mode := .off, period := 0, timer := none, drive := .idle, detect := .lineHigh, counter := 0, inProgress := none
    members := [], roundLost := false, roundAgain := false, lostCarry := false, lastCompleted := 0
    lastStatus := .clean, lastBroken := 0 }

/-! ## Chapter 9: the Store Port -/

/-- A RECIPE_WRITE handed to the Store Port (R145). -/
structure RecipeWrite where
  stream : Fin 16
  kind : RecordKind
  number : Word
  address : Word
  bytes : List Byte
  deriving DecidableEq, Repr

/-- The port state with the outstanding recipe write (R144). -/
inductive PortState where
  | idle
  | recipe (stream : Fin 16) (kind : RecordKind) (number : Word)
  | burst
  deriving DecidableEq, Repr

/-- A container in the flush queue (R147). -/
structure FlushJob where
  slot : Nat
  length : Nat
  header : List Byte
  deriving DecidableEq, Repr

/-- The active flush (R144). -/
structure ActiveFlush where
  slot : Nat
  length : Nat
  header : List Byte
  next : Nat
  error : Bool
  deriving DecidableEq, Repr

/-- The Store Port (R144). -/
structure StorePort where
  port : PortState
  recipeQueue : List RecipeWrite
  ahead : Nat
  flushQueue : List FlushJob
  active : Option ActiveFlush
  deriving DecidableEq, Repr

/-- The Store Port after reset (R144). -/
def StorePort.initial : StorePort := { port := .idle, recipeQueue := [], ahead := 0, flushQueue := [], active := none }

/-! ## Chapter 10: the Scrub Walker -/

/-- The walker states (R156), in the order of their codes (R177). -/
inductive WalkerState where
  | idle | walking | reporting
  deriving DecidableEq, Repr

/-- The Scrub Walker (R156). -/
structure Walker where
  state : WalkerState
  position : Nat
  snapshot : List Nat
  reportList : List Nat
  completed : Half
  deriving DecidableEq, Repr

/-- The Scrub Walker after reset (R156). -/
def Walker.initial : Walker := { state := .idle, position := 0, snapshot := [], reportList := [], completed := 0 }

/-! ## Chapter 11: settings, events, reports -/

/-- The credit threshold (R14, R163). -/
inductive Credit where
  | off | four | sixteen | thirtyTwo
  deriving DecidableEq, Repr

/-- The settings in force (R163). Compare A and B in µs, the store region size in units of 65,536 bytes. -/
structure Settings where
  station : Byte
  incarnation : Half
  mode : SealMode
  sealP : Nat
  sealC : Nat
  compareA : Nat
  compareB : Nat
  lMin : Nat
  nT : Nat
  lMax : Nat
  exponent : Nat
  indexExponent : Nat
  slots : Nat
  slotsLow : Nat
  credit : Credit
  recipeBase : Nat
  recipeSize : Nat
  storeUnits : Nat
  enables : Byte
  deriving DecidableEq, Repr

/-- The settings-in-force group before LOADING ends: it reads 0 throughout, and so do the enables (R167). -/
def Settings.zero : Settings :=
  { station := 0, incarnation := 0, mode := .off, sealP := 0, sealC := 0, compareA := 0, compareB := 0, lMin := 0
    nT := 0, lMax := 0, exponent := 0, indexExponent := 0, slots := 0, slotsLow := 0, credit := .off, recipeBase := 0
    recipeSize := 0, storeUnits := 0, enables := 0 }

/-- A report (R169). -/
inductive Report where
  | closed (stream : Fin 16) (branch : Word) (bytes : Wide)
      (chunks localNew localDup remote surveyNew surveyDup written : Word)
  | aborted (stream : Fin 16) (branch : Word) (bytes : Wide) (chunks : Word)
  | faulted (stream : Fin 16) (branch : Word) (bytes : Wide) (nextSegment : Half) (firstUnwritten written : Word)
  | lost (slot : Nat) (reason : SealReason) (round : Half) (count payload : Nat)
  | purged (slot : Nat) (walks : Half)
  deriving DecidableEq, Repr

/-- The Management Port: the eight event flags in the bit order of R170, the report queue and the list of held reports
(R168, R169). `fresh` gathers the reports of the step under way and is empty between steps (log entry 12). -/
structure Management where
  flags : Byte
  reports : List Report
  held : List Report
  fresh : List Report
  attn : Bool
  deriving DecidableEq, Repr

/-- The Management Port after reset (R168, R169). -/
def Management.initial : Management := { flags := 0, reports := [], held := [], fresh := [], attn := false }

/-! ## Outputs -/

/-- What the station has put out: one message as its bytes on the intake link (R172), on the store port (R175) and on the
management port (R177); on the peer bus the bits it drove in one run, a frame, a frame cut short, or a jam (R81, R82,
R100). -/
inductive Output where
  | intake (bytes : List Byte)
  | bus (bits : List Bool)
  | store (bytes : List Byte)
  | management (bytes : List Byte)
  deriving DecidableEq, Repr

/-! ## The whole station -/

/-- The state of the station and the queue of commands that wait. `now` is the model's clock in bit times of the peer
bus, 0.04 µs each (log entry 3); `choices` numbers the free values used so far (log entry 11); `sent` is what the
station has put out, oldest first (log entry 5). -/
@[ext]
structure State where
  station : StationState
  hold : Bool
  quiet : Bool
  settings : Settings
  clearPosition : Nat
  streams : Vector Stream 16
  engines : Vector Engine 4
  lastAssigned : Fin 16
  digestQueue : List DigestJob
  index : Index
  resolution : Resolution
  bus : PeerBus
  containers : ContainerManager
  sealUnit : SealUnit
  sealLineLow : Bool
  store : StorePort
  walker : Walker
  management : Management
  staging : Sparse Byte
  now : Nat
  choices : Nat
  sent : List Output
  pending : List Instr
  deriving DecidableEq, Repr

/-- A command never ends in a fault on this station: the manual names no condition that stops it, and every refusal it
describes is a reply or a dropped frame. Nobody raises a fault; having none is safe in no direction that a claim could
use, since a step then always answers a next state or a refusal by name. -/
inductive Fault where
  deriving DecidableEq, Repr

/-- Why a command has no meaning. -/
inductive Refusal where
  /-- Raised by `exec` for a command whose meaning is not written yet. Safe: nothing is claimed of it. No arm raises it. -/
  | notModelled (mnemonic : String)
  deriving DecidableEq, Repr

/-- The station right after reset: RESET asserted, every block at the values of its own chapter, index and staging memory
listing nothing, the inputs HOLD released and the seal line high (log entries 6 to 9), no command waiting. -/
def State.reset : State :=
  { station := .reset, hold := false, quiet := false, settings := Settings.zero, clearPosition := 0
    streams := Vector.replicate 16 Stream.initial, engines := Vector.replicate 4 Engine.free, lastAssigned := 15
    digestQueue := [], index := Index.initial, resolution := Resolution.initial, bus := PeerBus.initial
    containers := ContainerManager.initial, sealUnit := SealUnit.initial, sealLineLow := false
    store := StorePort.initial, walker := Walker.initial, management := Management.initial, staging := []
    now := 0, choices := 0, sent := [], pending := [] }

end Sys2Proof.Machine
end

