-- ==== Sys2Proof/Machine/Sparse.lean ====
section
/-! DEFINITION. Reading and writing a sparse table, in its one canonical form: keys strictly rising, no entry equal to
what an unlisted key reads as. -/

namespace Sys2Proof.Machine

/-- What the table holds at `key`; `default` where it lists nothing. -/
def Sparse.find {α : Type} (default : α) (key : Nat) : Sparse α → α
  | [] => default
  | (k, x) :: rest => if k = key then x else Sparse.find default key rest

/-- Places an entry before the first larger key. -/
def Sparse.place {α : Type} (key : Nat) (value : α) : Sparse α → Sparse α
  | [] => [(key, value)]
  | (k, x) :: rest => if key < k then (key, value) :: (k, x) :: rest else (k, x) :: Sparse.place key value rest

/-- Writes `value` at `key`. Writing the default removes the entry. -/
def Sparse.put {α : Type} [DecidableEq α] (default : α) (key : Nat) (value : α) (table : Sparse α) : Sparse α :=
  if value = default then table.filter (fun e => e.1 ≠ key)
  else Sparse.place key value (table.filter (fun e => e.1 ≠ key))

/-- The canonical form holds. -/
def Sparse.wf {α : Type} [DecidableEq α] (default : α) : Sparse α → Bool
  | [] => true
  | (k, x) :: rest => x ≠ default && rest.all (fun e => k < e.1) && Sparse.wf default rest

/-! ## Staging memory (section 4 of the introduction, R10, R30, R120)

An unlisted byte of staging memory reads as 0 (log entry 7). -/

/-- What a byte of staging memory that nothing has written reads as. -/
abbrev stagingDefault : Byte := 0#8

/-- One byte of staging memory. -/
def readByte (m : Sparse Byte) (address : Nat) : Byte := m.find stagingDefault address

/-- Writes one byte of staging memory. -/
def writeByte (m : Sparse Byte) (address : Nat) (b : Byte) : Sparse Byte := m.put stagingDefault address b

/-- `count` bytes from `address`, lowest address first. -/
def readBytes (m : Sparse Byte) (address : Nat) : Nat → List Byte
  | 0 => []
  | count + 1 => readByte m address :: readBytes m (address + 1) count

/-- Writes bytes from `address` upward. -/
def writeBytes (m : Sparse Byte) (address : Nat) : List Byte → Sparse Byte
  | [] => m
  | b :: rest => writeBytes (writeByte m address b) (address + 1) rest

/-- The canonical form of staging memory. -/
def Memory.wf (m : Sparse Byte) : Bool := Sparse.wf stagingDefault m

/-- The 8 KiB place of a stream's queue slot in the segment payload region (R10). -/
def segmentPlace (stream : Fin 16) (slot : Fin 64) : Nat := (stream.val * 64 + slot.val) * 8192

/-- The staging extent of pending slot j of stream s: extent s × 32 + j of 64 KiB each, after the 8 MiB of segment
payloads (R30). DEDUCED: the regions lie in the order of the introduction's table from address 0 (log entry 7). -/
def stagingExtent (stream : Fin 16) (slot : Fin 32) : Nat := 8388608 + (stream.val * 32 + slot.val) * 65536

/-- The payload part of an assembly area, in number order after the chunk staging extents (R120). -/
def areaPayload (area : Nat) : Nat := 41943040 + area * 4243456

/-- The directory part of an assembly area: 1,024 entries of 48 bytes after its payload part (R120). DEDUCED: the
payload part comes first (log entry 7). -/
def areaDirectory (area : Nat) : Nat := areaPayload area + 4194304

end Sys2Proof.Machine
end

