-- ==== Sys2Proof/Machine/Sha256.lean ====
section
/-! DEFINITION. The SHA-256 computation of R31 and R35. The manual names the published standard and does not restate it:
the initial words (in Machine/State.lean), the constants, the compression and the padding here are FIPS 180-4's. PRESUMED
(log entry 21). -/

namespace Sys2Proof.Machine

/-- The sixty-four round constants of SHA-256. -/
def shaConstants : List Word :=
  [0x428a2f98#32, 0x71374491#32, 0xb5c0fbcf#32, 0xe9b5dba5#32, 0x3956c25b#32, 0x59f111f1#32, 0x923f82a4#32, 0xab1c5ed5#32,
   0xd807aa98#32, 0x12835b01#32, 0x243185be#32, 0x550c7dc3#32, 0x72be5d74#32, 0x80deb1fe#32, 0x9bdc06a7#32, 0xc19bf174#32,
   0xe49b69c1#32, 0xefbe4786#32, 0x0fc19dc6#32, 0x240ca1cc#32, 0x2de92c6f#32, 0x4a7484aa#32, 0x5cb0a9dc#32, 0x76f988da#32,
   0x983e5152#32, 0xa831c66d#32, 0xb00327c8#32, 0xbf597fc7#32, 0xc6e00bf3#32, 0xd5a79147#32, 0x06ca6351#32, 0x14292967#32] ++
  [0x27b70a85#32, 0x2e1b2138#32, 0x4d2c6dfc#32, 0x53380d13#32, 0x650a7354#32, 0x766a0abb#32, 0x81c2c92e#32, 0x92722c85#32,
   0xa2bfe8a1#32, 0xa81a664b#32, 0xc24b8b70#32, 0xc76c51a3#32, 0xd192e819#32, 0xd6990624#32, 0xf40e3585#32, 0x106aa070#32,
   0x19a4c116#32, 0x1e376c08#32, 0x2748774c#32, 0x34b0bcb5#32, 0x391c0cb3#32, 0x4ed8aa4a#32, 0x5b9cca4f#32, 0x682e6ff3#32,
   0x748f82ee#32, 0x78a5636f#32, 0x84c87814#32, 0x8cc70208#32, 0x90befffa#32, 0xa4506ceb#32, 0xbef9a3f7#32, 0xc67178f2#32]

/-- A 32-bit word rotated right. -/
def rotr (x : Word) (n : Nat) : Word := x.rotateRight n

/-- The next word of the message schedule from the sixteen before it. -/
def shaExtend (w : List Word) : Word :=
  let w0 := w.getD 0 0; let w1 := w.getD 1 0; let w9 := w.getD 9 0; let w14 := w.getD 14 0
  (rotr w14 17 ^^^ rotr w14 19 ^^^ (w14 >>> 10)) + w9 + (rotr w1 7 ^^^ rotr w1 18 ^^^ (w1 >>> 3)) + w0

/-- One round with constant `k` and schedule word `w`. -/
def shaRound (k w : Word) (s : Chain) : Chain :=
  let t1 := s.h + (rotr s.e 6 ^^^ rotr s.e 11 ^^^ rotr s.e 25) + ((s.e &&& s.f) ^^^ (~~~ s.e &&& s.g)) + k + w
  let t2 := (rotr s.a 2 ^^^ rotr s.a 13 ^^^ rotr s.a 22) + ((s.a &&& s.b) ^^^ (s.a &&& s.c) ^^^ (s.b &&& s.c))
  { a := t1 + t2, b := s.a, c := s.b, d := s.c, e := s.d + t1, f := s.e, g := s.f, h := s.g }

/-- The rounds over the remaining constants, with the sliding window of sixteen schedule words. -/
def shaRounds : List Word → List Word → Chain → Chain
  | [], _, s => s
  | k :: ks, w, s => shaRounds ks (w.tail ++ [shaExtend w]) (shaRound k (w.getD 0 0) s)

/-- The big-endian 32-bit words of a block. -/
def blockWords : List Byte → List Word
  | a :: b :: c :: d :: rest => (a ++ b ++ c ++ d : Word) :: blockWords rest
  | _ => []

/-- The SHA-256 compression of one 64-byte block into the chaining words. -/
def Chain.compress (s : Chain) (block : List Byte) : Chain :=
  let r := shaRounds shaConstants (blockWords block) s
  { a := s.a + r.a, b := s.b + r.b, c := s.c + r.c, d := s.d + r.d
    e := s.e + r.e, f := s.f + r.f, g := s.g + r.g, h := s.h + r.h }

/-- Feeds one byte into a running digest; each time 64 bytes have gathered the block is compressed (R31). -/
def Digest.feed (d : Digest) (y : Byte) : Digest :=
  let block := d.block ++ [y]
  if block.length = 64 then { chain := d.chain.compress block, block := [], taken := d.taken + 1 }
  else { d with block := block, taken := d.taken + 1 }

/-- Feeds bytes in order. -/
def Digest.feedAll (d : Digest) (ys : List Byte) : Digest := ys.foldl Digest.feed d

/-- The padding of R35 for `taken` bytes, `held` of them not yet in a full block: 0x80, zero bytes to 56 modulo 64, and the
length in bits as a 64-bit big-endian number. -/
def shaPadding (held taken : Nat) : List Byte :=
  0x80#8 :: List.replicate ((119 - held) % 64) 0#8 ++
    (List.range 8).map (fun i => BitVec.ofNat 8 ((taken * 8) / 256 ^ (7 - i)))

/-- The eight final chaining words, each big-endian, in order, as one 256-bit number (R35, R36). -/
def Chain.fingerprint (s : Chain) : Fingerprint :=
  s.a ++ s.b ++ s.c ++ s.d ++ s.e ++ s.f ++ s.g ++ s.h

/-- The fingerprint of a running digest: the padding is appended and the resulting one or two blocks compressed (R35). -/
def Digest.finish (d : Digest) : Fingerprint :=
  (d.feedAll (shaPadding d.block.length d.taken)).chain.fingerprint

end Sys2Proof.Machine
end

