-- ==== Sys2Proof/Machine/Formats.lean ====
section
/-! DEFINITION. The byte layouts of chapter 12 that the station produces, and the frame check of R89. Multi-byte numbers
are little-endian, fingerprints are the 32 digest bytes in digest order, unused bytes are 0 (R170). -/

namespace Sys2Proof.Machine

/-- A number as `width` bytes, least significant first. -/
def leBytes : Nat → Nat → List Byte
  | 0, _ => []
  | width + 1, x => BitVec.ofNat 8 x :: leBytes width (x / 256)

/-- The number that bytes spell, least significant first. -/
def leNat : List Byte → Nat
  | [] => 0
  | b :: rest => b.toNat + 256 * leNat rest

/-- The 32 digest bytes of a fingerprint, in digest order. -/
def fingerprintBytes (f : Fingerprint) : List Byte := (leBytes 32 f.toNat).reverse

/-- The fingerprint that 32 digest bytes spell. -/
def fingerprintOf (bytes : List Byte) : Fingerprint := BitVec.ofNat 256 (leNat bytes.reverse)

/-- Unused bytes. -/
def unused (n : Nat) : List Byte := List.replicate n 0#8

/-- A Bool as the byte 1 or 0. -/
def flagByte (b : Bool) : Byte := if b then 1#8 else 0#8

/-! ## Codes -/

/-- The status codes of replies on the intake link (R172). -/
inductive ReplyStatus where
  | accepted | duplicate | full | sequence | notOpen | busy | range | length | holding | faulted | notReady
  deriving DecidableEq, Repr

/-- R172's status codes. -/
def ReplyStatus.code : ReplyStatus → Byte
  | .accepted => 0 | .duplicate => 1 | .full => 2 | .sequence => 3 | .notOpen => 4 | .busy => 5
  | .range => 6 | .length => 7 | .holding => 8 | .faulted => 9 | .notReady => 10

/-- The kinds of segment and their codes (R171). -/
inductive SegmentKind where
  | opens | data | close | abort
  deriving DecidableEq, Repr

/-- R171's kind codes. -/
def SegmentKind.code : SegmentKind → Byte
  | .opens => 1 | .data => 2 | .close => 3 | .abort => 4

/-- R177's codes of the station state. -/
def StationState.code : StationState → Byte
  | .reset => 0 | .loading => 1 | .clearing => 2 | .running => 3 | .holding => 4

/-- R177's codes of the stream state. -/
def StreamState.code : StreamState → Byte
  | .idle => 0 | .opened => 1 | .closing => 2 | .aborting => 3 | .faulted => 4

/-- R177's codes of the stream kind. -/
def StreamKind.code : StreamKind → Byte
  | .normal => 0 | .survey => 1

/-- CLEAN 0, BROKEN 1 (R174, R177). -/
def RoundStatus.code : RoundStatus → Byte
  | .clean => 0 | .broken => 1

/-- R177's codes of the walker state. -/
def WalkerState.code : WalkerState → Byte
  | .idle => 0 | .walking => 1 | .reporting => 2

/-- R176's codes of the seal mode. -/
def SealMode.code : SealMode → Byte
  | .off => 0 | .follow => 1 | .drive => 2

/-- R176's codes of the credit threshold. -/
def Credit.code : Credit → Byte
  | .off => 0 | .four => 1 | .sixteen => 2 | .thirtyTwo => 3

/-- R175's seal reason codes. -/
def SealReason.code : SealReason → Byte
  | .full => 1 | .close => 2 | .round => 3 | .hold => 4 | .abort => 5

/-- R174's disposition codes; a survey disposition never stands in a record. -/
def Disposition.code : Disposition → Byte
  | .localNew => 1 | .localDup => 2 | .remote => 3 | .surveyNew => 0 | .surveyDup => 0

/-- The settle field of a CHUNK record (R108): BY_ROUND carries its round. -/
inductive Settle where
  | settled
  | byRound (round : Half)
  | holderPending
  | lost
  deriving DecidableEq, Repr

/-- R174's settle codes. -/
def Settle.code : Settle → Byte
  | .settled => 0 | .byRound _ => 1 | .holderPending => 2 | .lost => 3

/-- The settle round, 0 but for BY_ROUND (R107). -/
def Settle.round : Settle → Half
  | .byRound r => r
  | .settled => 0 | .holderPending => 0 | .lost => 0

/-- The status codes of management replies (R177). -/
inductive CommandStatus where
  | ok | none | notReady | range | notSealed | inUse | unknown
  deriving DecidableEq, Repr

/-- R177's reply status codes. -/
def CommandStatus.code : CommandStatus → Byte
  | .ok => 0 | .none => 1 | .notReady => 2 | .range => 3 | .notSealed => 4 | .inUse => 5 | .unknown => 6

/-! ## Intake link (R172) -/

/-- A segment reply. -/
def replyBytes (stream kind : Byte) (sequence : Half) (status : ReplyStatus) (free : Nat) : List Byte :=
  [1#8, stream, kind, status.code] ++ leBytes 2 sequence.toNat ++ [BitVec.ofNat 8 free, 0#8]

/-- A credit notice. -/
def creditBytes (stream : Fin 16) (free : Nat) : List Byte :=
  [2#8, BitVec.ofNat 8 stream.val, 0#8, 0#8, 0#8, 0#8, BitVec.ofNat 8 free, 0#8]

/-! ## Peer frames (R89, R173) -/

/-- One bit into the frame check register (R89): shift left, and combine with 0x1021 when the bit shifted out differs
from the incoming one. -/
def checkBit (r : Half) (bit : Bool) : Half :=
  if (r.msb != bit) then (r <<< 1) ^^^ 0x1021#16 else r <<< 1

/-- The bits of a byte, most significant first. -/
def byteBits (b : Byte) : List Bool := (List.range 8).map (fun i => b.getMsbD i)

/-- The bits of bytes in sending order (R81). -/
def bitsOf (bytes : List Byte) : List Bool := bytes.flatMap byteBits

/-- The frame check over header and body bytes (R89). -/
def frameCheck (bytes : List Byte) : Half := (bitsOf bytes).foldl checkBit 0xFFFF#16

/-- The header and body of a frame from station `sender` (R173). -/
def Frame.body (sender : Byte) : Frame → List Byte
  | .ask tag f => [1#8, sender, tag] ++ fingerprintBytes f
  | .holds target tag f inc slot ordinal holderSealed =>
    [2#8, sender, target, tag] ++ fingerprintBytes f ++ leBytes 2 inc.toNat ++ leBytes 2 slot ++ leBytes 2 ordinal ++
      [flagByte holderSealed]
  | .claim f inc slot ordinal =>
    [3#8, sender] ++ fingerprintBytes f ++ leBytes 2 inc.toNat ++ leBytes 2 slot ++ leBytes 2 ordinal ++ [0#8]

/-- Bytes followed by their frame check, little-endian (R89). -/
def withCheck (body : List Byte) : List Byte := body ++ leBytes 2 (frameCheck body).toNat

/-- The bytes of a frame on the line. -/
def Frame.bytes (sender : Byte) (f : Frame) : List Byte := withCheck (f.body sender)

/-- The bits of a frame in the order they are driven (R81). -/
def Frame.bits (sender : Byte) (f : Frame) : List Bool := bitsOf (f.bytes sender)

/-- The jam: 32 bits that alternate driven-high and driven-low, the first driven-high (R82). -/
def jamBits : List Bool := (List.range 32).map (fun i => i % 2 == 0)

/-- How many bits a frame has, frame check included (R81). -/
def Frame.bitCount : Frame → Nat
  | .ask _ _ => 296
  | .holds _ _ _ _ _ _ _ => 360
  | .claim _ _ _ _ => 344

/-! ## Recipe records (R174) -/

/-- A CHUNK record. -/
def chunkRecord (number sequence : Word) (length : Nat) (disposition : Disposition) (l : Location) (settle : Settle)
    (f : Fingerprint) : List Byte :=
  [1#8, disposition.code, l.station, settle.code] ++ leBytes 4 number.toNat ++ leBytes 4 sequence.toNat ++
    leBytes 4 length ++ leBytes 2 l.incarnation.toNat ++ leBytes 2 l.slot ++ leBytes 2 l.ordinal ++
    leBytes 2 settle.round.toNat ++ unused 8 ++ fingerprintBytes f

/-- A MARK record (R111). -/
def markRecord (number : Word) (m : Mark) : List Byte :=
  [2#8, m.status.code] ++ leBytes 2 m.round.toNat ++ leBytes 4 number.toNat ++ unused 56

/-- The END record of a stream (R113). -/
def endRecord (x : Stream) (counter : Half) : List Byte :=
  [3#8] ++ unused 3 ++ leBytes 4 x.written.toNat ++ leBytes 4 x.branch.toNat ++ leBytes 8 x.bytesAccepted.toNat ++
    leBytes 4 x.chunks.toNat ++ leBytes 4 x.localNew.toNat ++ leBytes 4 x.localDup.toNat ++ leBytes 4 x.remote.toNat ++
    leBytes 4 x.nextChunk.toNat ++ leBytes 2 counter.toNat ++ unused 22

/-! ## Containers and store transactions (R175) -/

/-- A container header, formed when the container turns SEALING (R129). -/
def containerHeader (settings : Settings) (slot : Nat) (c : Container) (reason : SealReason) : List Byte :=
  [settings.station, reason.code] ++ leBytes 2 settings.incarnation.toNat ++ leBytes 2 slot ++ leBytes 2 c.count ++
    leBytes 4 c.payload ++ leBytes 2 (c.round.getD 0).toNat ++ unused 50

/-- A directory entry of 48 bytes (R127). -/
def directoryEntry (f : Fingerprint) (offset length : Nat) : List Byte :=
  fingerprintBytes f ++ leBytes 4 offset ++ leBytes 4 length ++ unused 8

/-- A RECIPE_WRITE transaction. -/
def recipeTransaction (w : RecipeWrite) : List Byte :=
  [1#8, 0#8, 0#8, 0#8] ++ leBytes 4 w.address.toNat ++ w.bytes

/-- A CONTAINER_WRITE transaction carrying one burst. -/
def burstTransaction (lastBurst : Bool) (slot offset : Nat) (bytes : List Byte) : List Byte :=
  [2#8, flagByte lastBurst] ++ leBytes 2 slot ++ leBytes 4 offset ++ leBytes 4 bytes.length ++ bytes

/-! ## Management replies (R177) -/

/-- A reply: the status byte, and data only with OK. -/
def managementReply (status : CommandStatus) (data : List Byte) : List Byte :=
  if status = .ok then status.code :: data else [status.code]

/-- A report's kind and fields in the order R169 lists them. -/
def Report.bytes : Report → List Byte
  | .closed i branch bytes chunks n d r sn sd written =>
    [1#8, BitVec.ofNat 8 i.val] ++ leBytes 4 branch.toNat ++ leBytes 8 bytes.toNat ++ leBytes 4 chunks.toNat ++
      leBytes 4 n.toNat ++ leBytes 4 d.toNat ++ leBytes 4 r.toNat ++ leBytes 4 sn.toNat ++ leBytes 4 sd.toNat ++
      leBytes 4 written.toNat
  | .aborted i branch bytes chunks =>
    [2#8, BitVec.ofNat 8 i.val] ++ leBytes 4 branch.toNat ++ leBytes 8 bytes.toNat ++ leBytes 4 chunks.toNat
  | .faulted i branch bytes nextSegment firstUnwritten written =>
    [3#8, BitVec.ofNat 8 i.val, 1#8] ++ leBytes 4 branch.toNat ++ leBytes 8 bytes.toNat ++
      leBytes 2 nextSegment.toNat ++ leBytes 4 firstUnwritten.toNat ++ leBytes 4 written.toNat
  | .lost slot reason round count payload =>
    [4#8] ++ leBytes 2 slot ++ [reason.code] ++ leBytes 2 round.toNat ++ leBytes 2 count ++ leBytes 4 payload
  | .purged slot walks => [5#8] ++ leBytes 2 slot ++ leBytes 2 walks.toNat

/-- The settings-in-force group of READ_STATUS in the order of R167. -/
def Settings.statusBytes (t : Settings) : List Byte :=
  [t.station] ++ leBytes 2 t.incarnation.toNat ++ [t.mode.code, BitVec.ofNat 8 t.sealP] ++ leBytes 2 t.sealC ++
    leBytes 2 t.compareA ++ leBytes 2 t.compareB ++ leBytes 2 t.lMin ++ leBytes 4 t.nT ++ leBytes 4 t.lMax ++
    [BitVec.ofNat 8 t.exponent, BitVec.ofNat 8 t.indexExponent] ++ leBytes 2 t.slots ++ leBytes 2 t.slotsLow ++
    [t.credit.code] ++ leBytes 4 t.recipeBase ++ leBytes 4 t.recipeSize ++ leBytes 4 t.storeUnits

/-- The fields of READ_STATUS in the order of R167, in the widths of R177. DEDUCED: the number of held reports takes two
bytes and the walk position four, the widths their ranges need (log entry 16). DEDUCED (log entry 32): every field shows
its value as it stands, in CLEARING too, where R167's sentence that all but the settings group show reset values until
RUNNING and R168's that SETTINGS_DEFAULT and ATTN may stand from the end of LOADING do not agree on flags, enables and
ATTN. -/
def State.statusBytes (s : State) : List Byte :=
  [s.station.code, flagByte s.hold, flagByte s.quiet, flagByte s.management.attn] ++
    [s.management.flags, s.settings.enables] ++
    [BitVec.ofNat 8 s.management.reports.length] ++ leBytes 2 s.management.held.length ++
    s.settings.statusBytes ++
    leBytes 2 s.containers.freeSlots ++ leBytes 2 s.containers.cursor ++
    leBytes 2 s.sealUnit.counter.toNat ++ leBytes 2 (s.sealUnit.inProgress.getD 0).toNat ++
    leBytes 2 s.sealUnit.lastCompleted.toNat ++ [s.sealUnit.lastStatus.code] ++ leBytes 2 s.sealUnit.lastBroken.toNat ++
    [s.walker.state.code] ++ leBytes 4 s.walker.position ++ leBytes 2 s.walker.snapshot.length ++
    leBytes 2 s.walker.completed.toNat ++
    [BitVec.ofNat 8 s.resolution.entries.length] ++ leBytes 2 s.resolution.waitQueue.length

/-- The fields of READ_STREAM in the order of R167. DEDUCED: an absent optional field takes its full width, all 0
(log entry 16). -/
def Stream.statusBytes (x : Stream) : List Byte :=
  [x.state.code, x.kind.code] ++ leBytes 4 x.branch.toNat ++ leBytes 4 x.windowBase.toNat ++
    leBytes 4 x.windowSize.toNat ++ leBytes 4 x.written.toNat ++ leBytes 4 x.taken.toNat ++
    leBytes 2 x.expected.toNat ++ leBytes 2 x.lastAccepted.toNat ++ leBytes 4 x.nextChunk.toNat ++
    leBytes 8 x.bytesAccepted.toNat ++ leBytes 4 x.chunks.toNat ++ leBytes 4 x.localNew.toNat ++
    leBytes 4 x.localDup.toNat ++ leBytes 4 x.remote.toNat ++ leBytes 4 x.surveyNew.toNat ++
    leBytes 4 x.surveyDup.toNat ++
    (match x.owedMark with
      | some m => [1#8] ++ leBytes 2 m.round.toNat ++ [m.status.code]
      | none => unused 4) ++
    [BitVec.ofNat 8 (64 - x.queue.length), BitVec.ofNat 8 x.pending.length] ++
    (match x.current with
      | some j => [1#8] ++ leBytes 2 j
      | none => unused 3)

end Sys2Proof.Machine
end

