-- ==== Sys2Proof/Machine/Operands.lean ====
section
/-! DEFINITION. The operands that arrive as raw bytes or bits, read and clamped as the manual says: the settings image
(R163, R176), a candidate frame (R90, R92, R173), and the segments and management commands as byte streams (R171, R172,
R177). -/

namespace Sys2Proof.Machine

/-! ## The settings image (R163, R176) -/

/-- A value below the range is raised to its lower end, a value above is lowered to its upper end. -/
def clampTo (low high value : Nat) : Nat := max low (min high value)

/-- The number in a field of the image. -/
def imageField (image : List Byte) (offset width : Nat) : Nat := leNat ((image.drop offset).take width)

/-- The image is valid when every byte was acknowledged and the signature is 0x5D2A (R163). -/
def imageValid (acknowledged : Bool) (image : List Byte) : Bool :=
  acknowledged && image.length == 64 && imageField image 0 2 == 0x5D2A

/-- OFF 0, FOLLOW 1, DRIVE 2; any other value is taken as FOLLOW (R135, R176). -/
def sealModeOf : Nat → SealMode
  | 0 => .off
  | 2 => .drive
  | _ => .follow

/-- OFF 0, 4 is 1, 16 is 2, 32 is 3; any other code is taken as OFF (R163, R176). -/
def creditOf : Nat → Credit
  | 1 => .four
  | 2 => .sixteen
  | 3 => .thirtyTwo
  | _ => .off

/-- The free slot count a credit threshold names; none when OFF (R14). -/
def Credit.count : Credit → Option Nat
  | .off => none
  | .four => some 4
  | .sixteen => some 16
  | .thirtyTwo => some 32

/-- The values of a valid image, clamped in the order of R163 by the ranges of R28, R40, R68, R118, R122 and R135. -/
def Settings.ofImage (image : List Byte) : Settings :=
  let compareA := clampTo 20 5000 (imageField image 10 2)
  let lMin := clampTo 256 16384 (imageField image 16 4)
  let lMax := clampTo lMin 65536 (imageField image 24 4)
  let slots := clampTo 64 4096 (imageField image 28 2)
  { station := BitVec.ofNat 8 (min 15 (imageField image 2 1))
    incarnation := BitVec.ofNat 16 (imageField image 4 2)
    mode := sealModeOf (imageField image 3 1)
    sealP := max 10 (imageField image 6 1)
    sealC := max 1 (imageField image 8 2)
    compareA := compareA
    compareB := clampTo (compareA + 20) 20000 (imageField image 12 2)
    lMin := lMin
    nT := clampTo lMin lMax (imageField image 20 4)
    lMax := lMax
    exponent := clampTo 8 15 (imageField image 7 1)
    indexExponent := clampTo 12 20 (imageField image 14 1)
    slots := slots
    slotsLow := min slots (imageField image 30 2)
    credit := creditOf (imageField image 15 1)
    recipeBase := imageField image 32 4 / 64 * 64
    recipeSize := imageField image 36 4 / 64 * 64
    storeUnits := imageField image 40 4
    enables := image.getD 44 0 }

/-- The defaults of R163. -/
def Settings.defaults : Settings :=
  { station := 0, incarnation := 0, mode := .drive, sealP := 250, sealC := 2400, compareA := 300, compareB := 900
    lMin := 2048, nT := 8192, lMax := 32768, exponent := 13, indexExponent := 16, slots := 1024, slotsLow := 32
    credit := .sixteen, recipeBase := 0, recipeSize := 67108864, storeUnits := 66305, enables := 0xFF#8 }

/-- The settings the loader takes from what it read (R163). -/
def Settings.load (acknowledged : Bool) (image : List Byte) : Settings :=
  if imageValid acknowledged image then Settings.ofImage image else Settings.defaults

/-! ## Candidate frames (R90, R92) -/

/-- The byte that eight bits spell, most significant first. -/
def byteOfBits (b7 b6 b5 b4 b3 b2 b1 b0 : Bool) : Byte :=
  BitVec.ofNat 8 (b7.toNat * 128 + b6.toNat * 64 + b5.toNat * 32 + b4.toNat * 16 + b3.toNat * 8 + b2.toNat * 4 +
    b1.toNat * 2 + b0.toNat)

/-- The bytes of gathered bits; none when they do not make a whole number of bytes (R90). -/
def bytesOfBits : List Bool → Option (List Byte)
  | [] => some []
  | b7 :: b6 :: b5 :: b4 :: b3 :: b2 :: b1 :: b0 :: rest =>
    (bytesOfBits rest).map (byteOfBits b7 b6 b5 b4 b3 b2 b1 b0 :: ·)
  | _ => none

/-- A received frame by kind, with its sender. -/
inductive Received where
  | ask (sender tag : Byte) (fingerprint : Fingerprint)
  | holds (sender target tag : Byte) (fingerprint : Fingerprint) (incarnation slot ordinal : Half) (sealedByte : Byte)
  | claim (sender : Byte) (fingerprint : Fingerprint) (incarnation slot ordinal : Half) (sealedByte : Byte)
  deriving DecidableEq, Repr

/-- The sender of a received frame. -/
def Received.sender : Received → Byte
  | .ask sender _ _ => sender
  | .holds sender _ _ _ _ _ _ _ => sender
  | .claim sender _ _ _ _ _ => sender

/-- The bits of a received frame on the line, frame check included (R81). -/
def Received.bitCount : Received → Nat
  | .ask _ _ _ => 296
  | .holds _ _ _ _ _ _ _ _ => 360
  | .claim _ _ _ _ _ _ => 344

/-- The 16-bit field at `offset` of a frame. -/
def frameHalf (bytes : List Byte) (offset : Nat) : Half := BitVec.ofNat 16 (leNat ((bytes.drop offset).take 2))

/-- The fingerprint at `offset` of a frame. -/
def frameFingerprint (bytes : List Byte) (offset : Nat) : Fingerprint := fingerprintOf ((bytes.drop offset).take 32)

/-- R92, step 1: the length and the kind byte agree; the fields by R173. -/
def readFrame (bytes : List Byte) : Option Received :=
  let kind := bytes.getD 0 0
  let sender := bytes.getD 1 0
  if bytes.length = 37 ∧ kind = 1#8 then
    some (.ask sender (bytes.getD 2 0) (frameFingerprint bytes 3))
  else if bytes.length = 45 ∧ kind = 2#8 then
    some (.holds sender (bytes.getD 2 0) (bytes.getD 3 0) (frameFingerprint bytes 4) (frameHalf bytes 36)
      (frameHalf bytes 38) (frameHalf bytes 40) (bytes.getD 42 0))
  else if bytes.length = 43 ∧ kind = 3#8 then
    some (.claim sender (frameFingerprint bytes 2) (frameHalf bytes 34) (frameHalf bytes 36) (frameHalf bytes 38)
      (bytes.getD 40 0))
  else none

/-- R92, step 2: the carried check equals the one computed over header and body. -/
def checkAgrees (bytes : List Byte) : Bool :=
  frameHalf bytes (bytes.length - 2) == frameCheck (bytes.take (bytes.length - 2))

/-- R92, step 3: the ranges of the fields. -/
def Received.inRange : Received → Bool
  | .ask sender _ _ => sender.toNat ≤ 15
  | .holds sender target _ _ _ slot ordinal b =>
    sender.toNat ≤ 15 && target.toNat ≤ 15 && slot.toNat ≤ 4095 && ordinal.toNat ≤ 1023 && b.toNat ≤ 1
  | .claim sender _ _ slot ordinal b =>
    sender.toNat ≤ 15 && slot.toNat ≤ 4095 && ordinal.toNat ≤ 1023 && b.toNat == 0

/-- The frame in gathered bits after R90's whole-byte rule and steps 1 and 2 of R92; none when they drop it. -/
def candidateOf (bits : List Bool) : Option Received :=
  match bytesOfBits bits with
  | some bytes => if checkAgrees bytes then readFrame bytes else none
  | none => none

/-! ## Segments and management commands as byte streams (R171, R172, R177)

The commands of the model carry the fields; these two readers say how the bytes on the links spell them. -/

/-- The first segment on the intake link, and the bytes after it: 16 header bytes, and for kind 0x02 as many payload
bytes as the payload length field gives (R172). None while the segment is not yet received whole. Header bytes 2 and 3 are read
as a sequence for a kind that is none of the four too (DEDUCED, log entry 35). -/
def takeSegment (link : List Byte) : Option (Instr × List Byte) :=
  if link.length < 16 then none
  else
    let kind := link.getD 0 0
    let stream := link.getD 1 0
    let sequence : Half := BitVec.ofNat 16 (imageField link 2 2)
    let rest := link.drop 16
    let length := if kind = 2#8 then imageField link 4 2 else 0
    if rest.length < length then none
    else
      let command : Instr :=
        if kind = 1#8 ∧ stream.toNat ≤ 15 then
          .openSegment stream sequence (BitVec.ofNat 32 (imageField link 4 4)) (BitVec.ofNat 32 (imageField link 8 4))
            (BitVec.ofNat 32 (imageField link 12 4))
        else if kind = 2#8 ∧ stream.toNat ≤ 15 then .dataSegment stream sequence (rest.take length)
        else if kind = 3#8 ∧ stream.toNat ≤ 15 then .closeSegment stream sequence
        else if kind = 4#8 ∧ stream.toNat ≤ 15 then .abortSegment stream
        else .malformedSegment kind stream sequence
      some (command, rest.drop length)

/-- The command that one management transaction's bytes spell (R166, R177): TRANSACTION_DISCARDED when it ended before
the command's last byte. -/
def takeManagement : List Byte → Instr
  | [] => .transactionDiscarded
  | code :: arguments =>
    match code.toNat, arguments with
    | 1, _ => .readStatus
    | 2, _ => .readReport
    | 3, mask :: _ => .ackEvents mask
    | 4, stream :: c0 :: c1 :: c2 :: c3 :: _ => .recipeTaken stream (BitVec.ofNat 32 (leNat [c0, c1, c2, c3]))
    | 5, s0 :: s1 :: _ => .purge (BitVec.ofNat 16 (leNat [s0, s1]))
    | 6, stream :: _ => .readStream stream
    | 3, [] => .transactionDiscarded
    | 4, _ => .transactionDiscarded
    | 5, _ => .transactionDiscarded
    | 6, [] => .transactionDiscarded
    | _, _ => .unknownCommand code

end Sys2Proof.Machine
end

