-- ==== Sys2Proof/Machine/Flags.lean ====
section
/-! DEFINITION. The eight event flags, ATTN and QUIET (R122, R165, R168, R170). -/

namespace Sys2Proof.Machine

/-- The event flags in the bit order of R170. -/
inductive EventFlag where
  | settingsDefault | stationClash | busAbandon | storeFault | indexDisplaced | slotsLow | slotsOut | reportReady
  deriving DecidableEq, Repr

/-- A flag's bit in the byte of R170. -/
def EventFlag.mask : EventFlag → Byte
  | .settingsDefault => 0x01#8
  | .stationClash => 0x02#8
  | .busAbandon => 0x04#8
  | .storeFault => 0x08#8
  | .indexDisplaced => 0x10#8
  | .slotsLow => 0x20#8
  | .slotsOut => 0x40#8
  | .reportReady => 0x80#8

/-- The station is RUNNING or HOLDING. -/
def State.active (s : State) : Bool := s.station = .running || s.station = .holding

/-- The station is LOADING or CLEARING. -/
def State.starting (s : State) : Bool := s.station = .loading || s.station = .clearing

/-- Sets a latched flag, whatever the enables say (R168). -/
def State.latch (s : State) (f : EventFlag) : State :=
  { s with management := { s.management with flags := s.management.flags ||| f.mask } }

/-- The level flags whose conditions hold (R122, R168). The slot conditions are evaluated once S is loaded. -/
def State.levelFlags (s : State) : Byte :=
  (if s.station ≠ .reset ∧ s.station ≠ .loading ∧ s.containers.freeSlots ≤ s.settings.slotsLow
    then EventFlag.slotsLow.mask else 0) |||
  (if s.station ≠ .reset ∧ s.station ≠ .loading ∧ s.containers.freeSlots = 0 then EventFlag.slotsOut.mask else 0) |||
  (if s.management.reports ≠ [] then EventFlag.reportReady.mask else 0)

/-- A container is non-empty when it has a completed append or one in flight (R119). -/
def Container.nonEmpty (c : Container) : Bool := c.count ≠ 0 || c.inFlight ≠ []

/-- The Store Port has neither a flush nor a recipe write in flight (R152). -/
def StorePort.clear (p : StorePort) : Bool :=
  p.port = .idle && p.recipeQueue = [] && p.flushQueue = [] && p.active = none

/-- The condition for QUIET (R165). -/
def State.quietHolds (s : State) : Bool :=
  s.station = .holding &&
  s.containers.table.all (fun e => !(e.2.state = .opened && e.2.nonEmpty)) &&
  s.containers.openWait.isEmpty &&
  s.containers.table.all (fun e => e.2.inFlight.isEmpty) &&
  s.store.clear

/-- The last part of every step: the level flags follow their conditions, ATTN follows the flags and their enables, and
QUIET follows its condition, all in the same step (R165, R168). -/
def State.refresh (s : State) : State :=
  let flags := (s.management.flags &&& 0x1F#8) ||| s.levelFlags
  { s with
    quiet := s.quietHolds
    management := { s.management with flags := flags, attn := (flags &&& s.settings.enables) ≠ 0#8 } }

end Sys2Proof.Machine
end

