-- ==== Sys2Proof/Machine/Ops.lean ====
section
/-! DEFINITION. The operations shared by every block: reading and writing streams, engines and containers, putting a
message out, the free choices of order, the reports with what their entry completes, and the model's clock. -/

namespace Sys2Proof.Machine

/-! ## Accessors -/

/-- The context of stream `i`. -/
def State.stream (s : State) (i : Fin 16) : Stream := s.streams[i]

/-- Changes the context of stream `i`. -/
def State.setStream (s : State) (i : Fin 16) (x : Stream) : State := { s with streams := s.streams.set i x }

/-- Applies a change to stream `i`. -/
def State.modStream (s : State) (i : Fin 16) (f : Stream → Stream) : State := s.setStream i (f (s.stream i))

/-- The state of engine `e`. -/
def State.engine (s : State) (e : Fin 4) : Engine := s.engines[e]

/-- Changes engine `e`. -/
def State.setEngine (s : State) (e : Fin 4) (x : Engine) : State := { s with engines := s.engines.set e x }

/-- The container table's entry of a slot; an unlisted slot is FREE. -/
def State.container (s : State) (slot : Nat) : Container := s.containers.table.find Container.initial slot

/-- Changes the container table's entry of a slot. -/
def State.setContainer (s : State) (slot : Nat) (c : Container) : State :=
  { s with containers := { s.containers with table := s.containers.table.put Container.initial slot c } }

/-- The entries of a bucket, oldest first (R41). -/
def State.bucket (s : State) (b : Nat) : List IndexEntry := s.index.buckets.find [] b

/-- Rewrites a bucket. -/
def State.setBucket (s : State) (b : Nat) (entries : List IndexEntry) : State :=
  { s with index := { s.index with buckets := s.index.buckets.put [] b entries } }

/-- The free slot count of a stream's segment queue (R13). -/
def Stream.freeQueueSlots (x : Stream) : Nat := 64 - x.queue.length

/-- The pending slot in use with a number. -/
def Stream.slot? (x : Stream) (p : Fin 32) : Option PendingSlot := x.pending.find? (fun q => q.number = p)

/-- Applies a change to a pending slot in use. -/
def Stream.modSlot (x : Stream) (p : Fin 32) (f : PendingSlot → PendingSlot) : Stream :=
  { x with pending := x.pending.map (fun q => if q.number = p then f q else q) }

/-- The lowest-numbered free pending slot (R26). -/
def Stream.lowestFreeSlot (x : Stream) : Option (Fin 32) :=
  (List.finRange 32).find? (fun p => x.pending.all (fun q => q.number ≠ p))

/-- Frees a pending slot wherever it stands; the others keep their order (R103). -/
def Stream.freeSlot (x : Stream) (p : Fin 32) : Stream :=
  { x with pending := x.pending.filter (fun q => q.number ≠ p) }

/-- The stream number of a byte; none above 15 (R3, R166). -/
def streamOf (b : Byte) : Option (Fin 16) := if h : b.toNat < 16 then some ⟨b.toNat, h⟩ else none

/-- Puts a message out. -/
def State.send (s : State) (o : Output) : State := { s with sent := s.sent ++ [o] }

/-! ## The clock (log entry 3)

The clock counts bit times of 0.04 µs. A command that is the arrival of a moment moves the clock forward to the earliest
time at which the manual lets that moment come. -/

/-- Moves the clock forward to `t`, never back. -/
def State.clockTo (s : State) (t : Nat) : State := { s with now := max s.now t }

/-- Bit times in a number of µs. -/
def microseconds (n : Nat) : Nat := 25 * n

/-! ## Free choices of order (log entry 12) -/

/-- Some permutation of a list, given by free numbers. -/
def shuffle {α : Type} (key : Nat → Nat) : List α → List α
  | [] => []
  | [x] => [x]
  | x :: y :: rest => (shuffle key (y :: rest)).insertIdx (key rest.length % (rest.length + 2)) x

/-- The members of a list in a free order, and the state with the choice used up. A list of one member has one order. -/
def State.anyOrder {α : Type} (s : State) (l : List α) : List α × State :=
  if l.length ≤ 1 then (l, s)
  else (shuffle (Config.freeChoice s.choices) l, { s with choices := s.choices + 1 })

/-! ## The Scrub Walker's start (R157) -/

/-- The RETIRED slots, in rising order. -/
def State.retiredSlots (s : State) : List Nat :=
  (s.containers.table.filter (fun e => e.2.state = .retired)).map (·.1)

/-- A walk starts: the snapshot is the set of RETIRED slots, the position 0 (R157). -/
def State.startWalk (s : State) : State :=
  { s with walker := { s.walker with state := .walking, position := 0, snapshot := s.retiredSlots } }

/-- With the report list empty, REPORTING ends: a new walk if any slot is RETIRED, IDLE otherwise (R158). -/
def State.leaveReporting (s : State) : State :=
  if s.walker.state = .reporting ∧ s.walker.reportList = [] then
    if s.retiredSlots = [] then { s with walker := { s.walker with state := .idle } } else s.startWalk
  else s

/-! ## Reports (R169) -/

/-- A stream returns to IDLE: its state, current container, owed MARK and segment queue change, and its emitter holds
nothing; every other field keeps its value (R4, R105). -/
def Stream.toIdle (x : Stream) : Stream :=
  { x with state := .idle, current := none, owedMark := none, queue := [], writeInFlight := none, endProgress := .none }

/-- What the entry of a report into the report queue completes: a stream turns IDLE (R12, R16), the walker's report list
shrinks and REPORTING may end (R158). -/
def State.reportEntered (s : State) : Report → State
  | .closed i _ _ _ _ _ _ _ _ _ => s.modStream i Stream.toIdle
  | .aborted i _ _ _ => s.modStream i Stream.toIdle
  | .faulted _ _ _ _ _ _ => s
  | .lost _ _ _ _ _ => s
  | .purged slot _ =>
    ({ s with walker := { s.walker with reportList := s.walker.reportList.erase slot } } : State).leaveReporting

/-- A report enters the report queue. -/
def State.enterReport (s : State) (r : Report) : State :=
  ({ s with management := { s.management with reports := s.management.reports ++ [r] } } : State).reportEntered r

/-- A report made joins the held list when that list is not empty or the queue holds 32 reports, and enters the queue
otherwise (R169). -/
def State.placeReport (s : State) (r : Report) : State :=
  if s.management.held = [] ∧ s.management.reports.length < 32 then s.enterReport r
  else { s with management := { s.management with held := s.management.held ++ [r] } }

/-- A block makes a report in the step under way. -/
def State.makeReport (s : State) (r : Report) : State :=
  { s with management := { s.management with fresh := s.management.fresh ++ [r] } }

/-- The report was made by the Container Manager. -/
def Report.isLost : Report → Bool
  | .lost _ _ _ _ _ => true
  | .closed _ _ _ _ _ _ _ _ _ _ => false
  | .aborted _ _ _ _ => false
  | .faulted _ _ _ _ _ _ => false
  | .purged _ _ => false

/-- Puts the members of `others`, in their order, at free positions among `base`. -/
def interleave (key : Nat → Nat) : List Report → List Report → List Report
  | [], base => base
  | x :: others, base =>
    let p := key others.length % (base.length + 1)
    base.take p ++ x :: interleave key others (base.drop p)

/-- The order in which the reports of one step are placed. Each block's reports keep the order that block's rule gives;
the Container Manager's LOST reports and another block's may stand in either order (R169, log entry 12). -/
def State.reportOrder (s : State) : List Report × State :=
  let lost := s.management.fresh.filter Report.isLost
  let others := s.management.fresh.filter (fun r => !r.isLost)
  let emptied : State := { s with management := { s.management with fresh := [] } }
  if lost = [] then (others, emptied)
  else if others = [] then (lost, emptied)
  else (interleave (Config.freeChoice s.choices) others lost, { emptied with choices := s.choices + 1 })

/-- The reports made in this step are placed (R169). -/
def State.placeReports (s : State) : State :=
  s.reportOrder.1.foldl State.placeReport s.reportOrder.2

/-- A report with the stream it ends held for room, or made in this step (R12, R16). -/
def State.awaitsReport (s : State) (p : Report → Bool) : Bool :=
  s.management.held.any p || s.management.fresh.any p

/-- The report is the CLOSED report of a stream. -/
def Report.closes (i : Fin 16) : Report → Bool
  | .closed j _ _ _ _ _ _ _ _ _ => j = i
  | .aborted _ _ _ _ => false
  | .faulted _ _ _ _ _ _ => false
  | .lost _ _ _ _ _ => false
  | .purged _ _ => false

/-- The report is the ABORTED report of a stream. -/
def Report.aborts (i : Fin 16) : Report → Bool
  | .closed _ _ _ _ _ _ _ _ _ _ => false
  | .aborted j _ _ _ => j = i
  | .faulted _ _ _ _ _ _ => false
  | .lost _ _ _ _ _ => false
  | .purged _ _ => false

/-- The CLOSED report of a stream (R113, R114). -/
def Stream.closedReport (x : Stream) (i : Fin 16) : Report :=
  .closed i x.branch x.bytesAccepted x.chunks x.localNew x.localDup x.remote x.surveyNew x.surveyDup x.written

end Sys2Proof.Machine
end

