-- ==== Sys2Proof/Machine/Containers.lean ====
section
/-! DEFINITION. The Container Manager of chapter 7: seals, appends requested, issued and completed, and the open-wait
queue. Handing a container to the Store Port places it in the flush queue; the arbiter looks at the end of the step
(Machine/Settle.lean, log entry 10). -/

namespace Sys2Proof.Machine

/-! ## Seals (R128, R129) -/

/-- The flush length of a container (R129). -/
def Container.flushLength (c : Container) : Nat := 64 + c.count * 48 + c.payload

/-- The owner stream's current container becomes absent if it names this container (R128). -/
def State.dropCurrent (s : State) (slot : Nat) : Option (Fin 16) → State
  | some i => s.modStream i (fun x => if x.current = some slot then { x with current := none } else x)
  | none => s

/-- A container turns SEALING: owner and seal request are cleared, the header is formed and the container goes to the
flush queue (R129). -/
def State.turnSealing (s : State) (slot : Nat) (reason : SealReason) : State :=
  let c := s.container slot
  let s1 := (s.dropCurrent slot c.owner).setContainer slot
    { c with state := .seals, owner := none, sealRequested := none, sealedFor := some reason }
  { s1 with store := { s1.store with flushQueue := s1.store.flushQueue ++
      [{ slot := slot, length := c.flushLength, header := containerHeader s.settings slot c reason }] } }

/-- A seal request (R128). It changes nothing on a container already seal requested or not OPEN. -/
def State.sealRequest (s : State) (slot : Nat) (reason : SealReason) : State :=
  let c := s.container slot
  if c.state = .opened ∧ c.sealRequested = none then
    if c.inFlight = [] then s.turnSealing slot reason
    else (s.dropCurrent slot c.owner).setContainer slot { c with sealRequested := some reason }
  else s

/-- The stream's current container, if it has one, is seal requested; it then has none (R15, R113, R115). -/
def State.sealCurrent (s : State) (i : Fin 16) (reason : SealReason) : State :=
  match (s.stream i).current with
  | some slot => (s.sealRequest slot reason).modStream i (fun x => { x with current := none })
  | none => s

/-! ## Appends (R123 to R126) -/

/-- The fit check of R123. -/
def Container.fits (c : Container) (length : Nat) : Bool :=
  c.fill + length ≤ 4194304 && c.count + c.inFlight.length < 1024

/-- An append is issued: its place is reserved at the fill mark and its copy begins (R126). -/
def State.issueAppend (s : State) (slot : Nat) (r : AppendRequest) : State :=
  let c := s.container slot
  s.setContainer slot { c with
    fill := c.fill + r.length
    inFlight := c.inFlight ++ [{ offset := c.fill, length := r.length, fingerprint := r.fingerprint, stream := r.stream
                                 slot := r.slot, tag := r.tag }] }

/-- A request joins the tail of the open-wait queue (R124). -/
def State.joinOpenWait (s : State) (r : AppendRequest) : State :=
  { s with containers := { s.containers with openWait := s.containers.openWait ++ [r] } }

/-- The Container Manager takes an append request (R123). The open-wait queue is served at the end of the step. -/
def State.requestAppend (s : State) (r : AppendRequest) : State :=
  if s.containers.openWait.any (fun q => q.stream = r.stream) then s.joinOpenWait r
  else
    match (s.stream r.stream).current with
    | some slot =>
      if (s.container slot).fits r.length then s.issueAppend slot r
      else (s.sealRequest slot .full).joinOpenWait r
    | none => s.joinOpenWait r

/-- The stream's owner field names an OPEN container (R119, R124). -/
def State.ownsOpen (s : State) (i : Fin 16) : Bool :=
  s.containers.table.any (fun e => e.2.state = .opened && e.2.owner = some i)

/-- The first FREE slot of `count` slots from `from`, counting modulo S (R121). -/
def State.firstFreeSlot (s : State) (start : Nat) : Nat → Option Nat
  | 0 => none
  | count + 1 =>
    if (s.container start).state = .free then some start
    else s.firstFreeSlot (if start + 1 = s.settings.slots then 0 else start + 1) count

/-- The lowest-numbered free assembly area (R120, R121). -/
def State.lowestFreeArea (s : State) : Option Nat :=
  (List.range 20).find? (fun a => s.containers.table.all (fun e => e.2.area ≠ some a))

/-- A container is opened for stream `i` in a slot with an area (R121). -/
def State.openContainer (s : State) (slot area : Nat) (i : Fin 16) : State :=
  let s1 := s.setContainer slot { Container.initial with state := .opened, area := some area, owner := some i }
  let s2 : State := { s1 with containers := { s1.containers with
    freeSlots := s1.containers.freeSlots - 1
    cursor := if slot + 1 = s.settings.slots then 0 else slot + 1 } }
  s2.modStream i (fun x => { x with current := some slot })

/-- Later requests of the same stream are issued into the new container while they fit; at the first that does not, the
container is seal requested for FULL, and that request and those behind it stay (R124). -/
def State.issueFollowers (s : State) (slot : Nat) (i : Fin 16) : List AppendRequest → State × List AppendRequest
  | [] => (s, [])
  | r :: rest =>
    if r.stream = i then
      if (s.container slot).fits r.length then (s.issueAppend slot r).issueFollowers slot i rest
      else (s.sealRequest slot .full, r :: rest)
    else
      let (s1, kept) := s.issueFollowers slot i rest
      (s1, r :: kept)

/-- The first ready request of a list, with the others (R124). -/
def State.firstReady (s : State) : List AppendRequest → Option (AppendRequest × List AppendRequest)
  | [] => none
  | r :: rest =>
    if s.ownsOpen r.stream then (s.firstReady rest).map (fun (q, others) => (q, r :: others))
    else some (r, rest)

/-- The oldest ready request is served, as long as there is one, a FREE slot and a free area (R124). Each service takes one
request out of the queue, so as many services as the queue is long are enough. -/
def State.serveOpenWaitUpTo (s : State) : Nat → State
  | 0 => s
  | services + 1 =>
    match s.firstReady s.containers.openWait, s.firstFreeSlot s.containers.cursor s.settings.slots, s.lowestFreeArea with
    | some (r, others), some slot, some area =>
      let s1 := (s.openContainer slot area r.stream).issueAppend slot r
      let (s2, kept) := s1.issueFollowers slot r.stream others
      ({ s2 with containers := { s2.containers with openWait := kept } } : State).serveOpenWaitUpTo services
    | _, _, _ => s

/-- The open-wait queue is looked at (R124). -/
def State.serveOpenWait (s : State) : State := s.serveOpenWaitUpTo s.containers.openWait.length

/-- A request is withdrawn: the requests behind it close up (R125). -/
def State.withdrawAppend (s : State) (tag : Byte) : State :=
  { s with containers := { s.containers with openWait := s.containers.openWait.filter (fun r => r.tag ≠ tag) } }

/-- An append of a chunk of the stream is in flight into some container (R16). -/
def State.appendInFlight (s : State) (i : Fin 16) : Bool :=
  s.containers.table.any (fun e => e.2.inFlight.any (fun a => a.stream = i))

/-! ## Pending-reference counts (R132) -/

/-- Raises a container's pending-reference count by `n`. -/
def State.raiseReferences (s : State) (slot n : Nat) : State :=
  s.setContainer slot { s.container slot with references := (s.container slot).references + n }

/-- Lowers a container's pending-reference count by 1. -/
def State.lowerReferences (s : State) (slot : Nat) : State :=
  s.setContainer slot { s.container slot with references := (s.container slot).references - 1 }

/-- What a pending slot's chunk holds of a container: a chunk resolved LOCAL_NEW or LOCAL_DUP holds one unit of the
container its location names (R62, R104). -/
def PendingSlot.heldContainer (p : PendingSlot) : Option Nat :=
  if p.phase = .resolved ∧ (p.disposition = some .localNew ∨ p.disposition = some .localDup) then
    p.location.map (·.slot)
  else none

/-- The unit that a discarded or recorded chunk held is taken away (R104, R109). -/
def State.releaseChunk (s : State) (p : PendingSlot) : State :=
  match p.heldContainer with
  | some slot => s.lowerReferences slot
  | none => s

end Sys2Proof.Machine
end

