-- ==== Sys2Proof/Machine/ChunkIndex.lean ====
section
/-! DEFINITION. The Chunk Index of chapter 3: buckets, live and dead entries, the request queue with its two producers. -/

namespace Sys2Proof.Machine

/-- The bucket of a fingerprint: its top k bits (R40). -/
def bucketOf (k : Nat) (f : Fingerprint) : Nat := f.toNat >>> (256 - k)

/-- The bucket of a fingerprint under the k in force. -/
def State.bucketNumber (s : State) (f : Fingerprint) : Nat := bucketOf s.settings.indexExponent f

/-- An entry is live while its slot is OPEN, SEALING or SEALED (R41). -/
def ContainerState.live : ContainerState → Bool
  | .opened => true
  | .seals => true
  | .sealed => true
  | .free => false
  | .retired => false
  | .lost => false

/-- The live entries of a bucket, in their order (R45). -/
def State.liveEntries (s : State) (b : Nat) : List IndexEntry :=
  (s.bucket b).filter (fun e => (s.container e.slot).state.live)

/-- Lazy removal: every dead entry of the bucket is removed and the rest close up (R45). -/
def State.removeDead (s : State) (b : Nat) : State := s.setBucket b (s.liveEntries b)

/-- The entry of a bucket with a fingerprint. -/
def hitIn (entries : List IndexEntry) (f : Fingerprint) : Option IndexEntry :=
  entries.find? (fun e => e.fingerprint = f)

/-! ## The request queue (R42, R43) -/

/-- The held requests of a producer. -/
def Index.heldOf (x : Index) : Producer → List IndexRequest
  | .resolution => x.heldResolution
  | .answer => x.heldAnswer

/-- A request enters the queue; the entry arbiter keeps its producer (R43). -/
def Index.enter (x : Index) (p : Producer) (r : IndexRequest) : Index :=
  { x with queue := x.queue ++ [r], lastProducer := p }

/-- A producer makes a request: it enters at once when the queue has room and nothing of that producer is held, and is
held otherwise (R43). -/
def Index.make (x : Index) (p : Producer) (r : IndexRequest) : Index :=
  if x.heldOf p = [] ∧ x.queue.length < 64 then x.enter p r
  else
    match p with
    | .resolution => { x with heldResolution := x.heldResolution ++ [r] }
    | .answer => { x with heldAnswer := x.heldAnswer ++ [r] }

/-- A freed queue slot goes to a held request: to the producer other than the one whose request entered last when both
hold some, else to the one that does (R43). -/
def Index.refill (x : Index) : Index :=
  match x.heldResolution, x.heldAnswer with
  | [], [] => x
  | r :: rest, [] => ({ x with heldResolution := rest } : Index).enter .resolution r
  | [], a :: more => ({ x with heldAnswer := more } : Index).enter .answer a
  | r :: rest, a :: more =>
    if x.lastProducer = .resolution then ({ x with heldAnswer := more } : Index).enter .answer a
    else ({ x with heldResolution := rest } : Index).enter .resolution r

/-- A producer of this station makes a request. -/
def State.makeRequest (s : State) (p : Producer) (r : IndexRequest) : State := { s with index := s.index.make p r }

/-- Sets the void mark of a resolution lookup of stream `i` (R48). -/
def IndexRequest.voidFor (i : Fin 16) : IndexRequest → IndexRequest
  | .lookup f j p q kind void => .lookup f j p q kind (void || j = i)
  | .answer f asker tag => .answer f asker tag
  | .insert f slot ordinal length tag => .insert f slot ordinal length tag

/-- Every resolution lookup of an aborted or faulted stream is voided: waiting, held or in service (R48). -/
def Index.voidLookups (x : Index) (i : Fin 16) : Index :=
  { x with
    queue := x.queue.map (IndexRequest.voidFor i)
    heldResolution := x.heldResolution.map (IndexRequest.voidFor i)
    service := match x.service with
      | .nothing => .nothing
      | .request r => .request (r.voidFor i)
      | .scrub b => .scrub b }

/-- The service ends (R42). -/
def State.endService (s : State) : State := { s with index := { s.index with service := .nothing } }

/-! ## Inserts (R50, R51) -/

/-- The entries of a bucket after an insert, and whether the oldest was displaced, from its live entries (R50, R51). -/
def insertInto (live : List IndexEntry) (e : IndexEntry) : List IndexEntry × Bool :=
  let others := live.filter (fun x => x.fingerprint ≠ e.fingerprint)
  if 8 ≤ others.length then (others.tail ++ [e], true) else (others ++ [e], false)

end Sys2Proof.Machine
end

