-- ==== Sys2Proof/Machine/PeerBusUnit.lean ====
section
/-! DEFINITION. The Peer Bus Interface's queues and transmitter (R81 to R88), shared by the commands of chapters 4 and 5. -/

namespace Sys2Proof.Machine

/-- A frame enters the transmit queue after the newest; an EMPTY transmitter turns WAITING (R86, R87). -/
def PeerBus.enqueue (b : PeerBus) (f : Frame) : PeerBus :=
  { b with
    txQueue := b.txQueue ++ [{ frame := f, attempts := 0 }]
    transmitter := if b.transmitter = .empty then .waiting none else b.transmitter }

/-- The queue holds fewer than 32 frames and the ASK holding line is empty (R86). -/
def PeerBus.room (b : PeerBus) : Bool := b.txQueue.length < 32 && b.askHolding = []

/-- A first ASK enters the queue when there is room, and goes to the tail of the ASK holding line otherwise (R86). -/
def PeerBus.handAsk (b : PeerBus) (tag : Byte) (f : Fingerprint) : PeerBus :=
  if b.room then b.enqueue (.ask tag f) else { b with askHolding := b.askHolding ++ [(tag, f)] }

/-- A HAVE or a CLAIM enters the queue when there is room, and is dropped otherwise (R86). -/
def PeerBus.handOrDrop (b : PeerBus) (f : Frame) : PeerBus := if b.room then b.enqueue f else b

/-- The places freed in the transmit queue are taken by the head of the ASK holding line, in order (R86). -/
def PeerBus.refill (b : PeerBus) : PeerBus :=
  let n := 32 - b.txQueue.length
  { b with
    txQueue := b.txQueue ++ (b.askHolding.take n).map (fun p => { frame := .ask p.1 p.2, attempts := 0 })
    askHolding := b.askHolding.drop n }

/-- The frame is an ASK with this tag and fingerprint that has not begun its first attempt (R88). -/
def TxFrame.removable (tag : Byte) (f : Fingerprint) (t : TxFrame) : Bool :=
  t.frame = .ask tag f && t.attempts = 0

/-- Every ASK with a tag and fingerprint is removed from the holding line, and from the transmit queue while its attempt
count is 0; freed places are refilled, and a transmitter left without a frame turns EMPTY (R88). -/
def PeerBus.removeAsk (b : PeerBus) (tag : Byte) (f : Fingerprint) : PeerBus :=
  let b1 := ({ b with
    txQueue := b.txQueue.filter (fun t => !t.removable tag f)
    askHolding := b.askHolding.filter (fun p => p ≠ (tag, f)) } : PeerBus).refill
  { b1 with transmitter := if b1.txQueue = [] then .empty else b1.transmitter }

/-- The head frame leaves the queue, sent or abandoned: the freed place is refilled, and the next head waits for its first
attempt (R86, R87). -/
def PeerBus.dropHead (b : PeerBus) : PeerBus :=
  let b1 := ({ b with txQueue := b.txQueue.tail } : PeerBus).refill
  { b1 with transmitter := if b1.txQueue = [] then .empty else .waiting none }

/-- The attempt count of the head frame rises by 1 (R87). -/
def PeerBus.countAttempt (b : PeerBus) : PeerBus :=
  { b with txQueue := match b.txQueue with
      | [] => []
      | t :: rest => { t with attempts := t.attempts + 1 } :: rest }

/-- The bit times for which the line must have been idle before a frame begins: 1 µs (R81, R90). -/
def idleGap : Nat := microseconds 1

/-- The back-off wait of R83 in bit times, after the collision that ended attempt `n`. -/
def backoffWait (station : Byte) (n : Nat) : Nat := microseconds ((station.toNat + 1) * 2 + (n - 1) * 32)

/-- This station has seen the line idle for 1 µs by `moment`, on a line that has been idle since `idle`: the gap is counted
from the moment it entered RUNNING at the earliest (R91, log entry 24). -/
def PeerBus.seesGap (b : PeerBus) (idle moment : Nat) : Bool := max idle b.watchedSince + idleGap ≤ moment

/-- What the transmitter has driven at `moment` of the run it is in: the bits of the head frame, or of the jam, up to the
bit it has reached (R82, R100). -/
def PeerBus.drivenBits (b : PeerBus) (station : Byte) (moment : Nat) : List Bool :=
  match b.transmitter, b.txQueue with
  | .sending since, t :: _ => (t.frame.bits station).take (moment - since)
  | .jamming since, _ => jamBits.take (moment - since)
  | _, _ => []

/-- The first moment at which the head frame's next attempt may begin on a line idle since `idle` (R81, R83). -/
def earliestAttempt (idle : Nat) : Option (Nat × Nat) → Nat
  | none => idle + idleGap
  | some (jamEnd, wait) => max (idle + idleGap) (jamEnd + wait)

end Sys2Proof.Machine
end

