-- ==== Sys2Proof/Machine/Resolve.lean ====
section
/-! DEFINITION. The Resolution Unit of chapter 4: ask entries made, joined and freed, chunks resolved, the ask-wait queue
worked, and the yield check. -/

namespace Sys2Proof.Machine

/-! ## Finding entries -/

/-- The ask entry with a fingerprint (R57, R59). -/
def State.askFor (s : State) (f : Fingerprint) : Option AskEntry :=
  s.resolution.entries.find? (fun e => e.fingerprint = f)

/-- The ask entry with a tag. -/
def State.askTagged (s : State) (tag : Byte) : Option AskEntry :=
  s.resolution.entries.find? (fun e => e.tag = tag)

/-- Replaces the ask entry that carries `e.tag`. -/
def State.setAsk (s : State) (e : AskEntry) : State :=
  { s with resolution := { s.resolution with
    entries := s.resolution.entries.map (fun x => if x.tag = e.tag then e else x) } }

/-- The chunk in a waiter's pending slot. -/
def State.chunkOf (s : State) (w : Waiter) : Option PendingSlot := (s.stream w.1).slot? w.2

/-- The fingerprint of a waiter's chunk. -/
def State.fingerprintOf (s : State) (w : Waiter) : Option Fingerprint := (s.chunkOf w).bind (·.fingerprint)

/-- The phase of a waiter's pending slot becomes `p`. -/
def State.setPhase (s : State) (w : Waiter) (p : Phase) : State :=
  s.modStream w.1 (fun x => x.modSlot w.2 (fun q => { q with phase := p }))

/-! ## Resolving a chunk (R62) -/

/-- Resolving writes the result into the pending slot and turns its phase to RESOLVED (R62). -/
def State.resolveChunk (s : State) (w : Waiter) (d : Disposition) (l : Option Location) (holder : Option Bool) : State :=
  s.modStream w.1 (fun x => x.modSlot w.2 (fun q =>
    { q with phase := .resolved, disposition := some d, location := l, holderSealed := holder }))

/-- Every waiter of a list is resolved alike, in list order. -/
def State.resolveAll (s : State) (ws : List Waiter) (d : Disposition) (l : Location) (holder : Option Bool) : State :=
  ws.foldl (fun t w => t.resolveChunk w d (some l) holder) s

/-! ## Making entries (R59, R60, R64, R65) -/

/-- The first of `count` tags at or after `tag` that no entry in use holds, counting modulo 256 (R64). -/
def Resolution.freeTag (r : Resolution) (tag : Byte) : Nat → Byte
  | 0 => tag
  | count + 1 => if r.entries.any (fun e => e.tag = tag) then r.freeTag (tag + 1) count else tag

/-- A chunk joins an entry: its pair goes to the tail of the waiter list and its pending slot turns WAITING (R57, R59). -/
def State.joinAsk (s : State) (e : AskEntry) (w : Waiter) : State :=
  (s.setAsk { e with waiters := e.waiters ++ [w] }).setPhase w .waiting

/-- A new entry for fingerprint `f`, with the chunk that makes it and every pair of the ask-wait queue with the same
fingerprint as waiters; its ASK is handed to the Peer Bus Interface (R64, R65). -/
def State.makeAsk (s : State) (f : Fingerprint) (w : Waiter) : State :=
  let tag := s.resolution.freeTag s.resolution.nextTag 256
  let drawn := s.resolution.waitQueue.filter (fun v => s.fingerprintOf v = some f)
  let e : AskEntry := { fingerprint := f, tag := tag, state := .sending, yielded := false, timer := .stopped
                        found := none, waiters := w :: drawn, storingWaiter := none }
  let s1 : State := { s with
    resolution := { s.resolution with
      entries := s.resolution.entries ++ [e]
      nextTag := tag + 1
      waitQueue := s.resolution.waitQueue.filter (fun v => s.fingerprintOf v ≠ some f) }
    bus := s.bus.handAsk tag f }
  s1.setPhase w .waiting

/-- The re-check of R59: the chunk joins a matching entry, makes a new one, or waits for one. -/
def State.recheck (s : State) (f : Fingerprint) (w : Waiter) : State :=
  match s.askFor f with
  | some e => s.joinAsk e w
  | none =>
    if s.resolution.entries.length < 64 then s.makeAsk f w
    else
      ({ s with resolution := { s.resolution with waitQueue := s.resolution.waitQueue ++ [w] } } : State).setPhase w .waiting

/-- The working of the ask-wait queue, at most `turns` heads: the head repeats the re-check and leaves, until the queue is
empty or the head matches no entry while all 64 are in use (R60). -/
def State.workWaitQueueUpTo (s : State) : Nat → State
  | 0 => s
  | turns + 1 =>
    match s.resolution.waitQueue with
    | [] => s
    | w :: rest =>
      match s.fingerprintOf w with
      | none => s
      | some f =>
        let s1 : State := { s with resolution := { s.resolution with waitQueue := rest } }
        match s.askFor f with
        | some e => (s1.joinAsk e w).workWaitQueueUpTo turns
        | none => if s.resolution.entries.length < 64 then (s1.makeAsk f w).workWaitQueueUpTo turns else s

/-- The ask-wait queue is worked (R60). -/
def State.workWaitQueue (s : State) : State := s.workWaitQueueUpTo s.resolution.waitQueue.length

/-- Freeing an entry: its unsent ASK is removed, the entry and its tag become free, and the ask-wait queue is worked
(R66). -/
def State.freeAsk (s : State) (e : AskEntry) : State :=
  let s1 : State := { s with
    bus := s.bus.removeAsk e.tag e.fingerprint
    resolution := { s.resolution with entries := s.resolution.entries.filter (fun x => x.tag ≠ e.tag) } }
  s1.workWaitQueue

/-! ## Storing (R72, R73) -/

/-- The append request of a storing waiter (R73). -/
def State.appendRequestFor (s : State) (e : AskEntry) (w : Waiter) : AppendRequest :=
  { tag := e.tag, stream := w.1, slot := w.2, fingerprint := e.fingerprint
    length := match s.chunkOf w with
      | some q => q.length
      | none => 0 }

/-- The first waiter becomes the storing waiter and an append is requested for it; an entry without waiters is freed
(R72, R73, R75). -/
def State.storeOrFree (s : State) (e : AskEntry) : State :=
  match e.waiters with
  | [] => s.freeAsk e
  | w :: _ =>
    let e1 : AskEntry := { e with state := .storing, timer := .stopped, found := none, storingWaiter := some w }
    (s.setAsk e1).requestAppend (s.appendRequestFor e1 w)

/-! ## Received frames (R70, R71) -/

/-- A HAVE or CLAIM for `f`: unless the entry is STORING, every waiter is resolved REMOTE and the entry is freed (R70). -/
def State.remoteFound (s : State) (f : Fingerprint) (l : Location) (holder : Bool) : State :=
  match s.askFor f with
  | none => s
  | some e =>
    if e.state = .storing then s
    else (s.resolveAll e.waiters .remote l (some holder)).freeAsk e

/-- The yield check lets an ASK pass unless this station is storing its fingerprint (R71). -/
def State.askPasses (s : State) (f : Fingerprint) : Bool :=
  match s.askFor f with
  | none => true
  | some e => e.state ≠ .storing

/-- An entry yields once, to a lower-numbered station's ASK, in SENDING, ASKED or REASKED (R71). -/
def AskEntry.mayYield (e : AskEntry) : Bool :=
  (e.state = .sending || e.state = .asked || e.state = .reasked) && !e.yielded

/-- The yield check's effect on the entry for the ASK's fingerprint (R71). -/
def State.yieldTo (s : State) (sender : Byte) (f : Fingerprint) : State :=
  match s.askFor f with
  | none => s
  | some e =>
    if e.mayYield ∧ sender.toNat < s.settings.station.toNat then
      let s1 : State := { s with bus := s.bus.removeAsk e.tag e.fingerprint }
      s1.setAsk { e with state := .yielded, yielded := true, timer := .running s.now false true }
    else s

/-- An ASK has left the transmit queue: an entry in SENDING with its tag and fingerprint turns ASKED and its timer starts
with both compares armed (R67). -/
def State.askLeft (s : State) (tag : Byte) (f : Fingerprint) : State :=
  match s.askTagged tag with
  | none => s
  | some e =>
    if e.fingerprint = f ∧ e.state = .sending then
      s.setAsk { e with state := .asked, timer := .running s.now true true }
    else s

/-! ## Aborts and faults (R73, R77) -/

/-- A waiter is of stream `i`. -/
def Waiter.ofStream (i : Fin 16) (w : Waiter) : Bool := w.1 = i

/-- The stream's pairs leave every waiter list and the ask-wait queue; the others close up (R77). -/
def State.removeWaiters (s : State) (i : Fin 16) : State :=
  { s with resolution := { s.resolution with
    entries := s.resolution.entries.map (fun e => { e with waiters := e.waiters.filter (fun w => !Waiter.ofStream i w) })
    waitQueue := s.resolution.waitQueue.filter (fun w => !Waiter.ofStream i w) } }

/-- The tags of the entries whose append is requested, not yet issued, for a chunk of stream `i` (R73). -/
def State.withdrawnTags (s : State) (i : Fin 16) : List Byte :=
  (s.containers.openWait.filter (fun r => r.stream = i)).map (·.tag)

/-- An unissued append is withdrawn and requested again for the entry's next waiter, or the entry is freed (R73, R125). -/
def State.withdrawFor (s : State) (tag : Byte) : State :=
  let s1 := s.withdrawAppend tag
  match s1.askTagged tag with
  | none => s1
  | some e => s1.storeOrFree e

/-- The waiters of an aborted or faulted stream leave, and the appends requested for them are withdrawn; where several are,
they are taken in a free order (R73, R77, log entry 12). -/
def State.dropWaiters (s : State) (i : Fin 16) : State :=
  let (tags, s1) := (s.removeWaiters i).anyOrder (s.withdrawnTags i)
  tags.foldl State.withdrawFor s1

end Sys2Proof.Machine
end

