-- ==== Sys2Proof/Machine/Streams.lean ====
section
/-! DEFINITION. What chapters 1, 2 and 6 do to a stream's pending list and work: the end of a chunk, the discard on abort
or fault, the releases an aborting stream waits for, CLOSE completion, and the Recipe Emitter. -/

namespace Sys2Proof.Machine

/-! ## Engines and digests (R34, R37) -/

/-- The engine serves stream `i`. -/
def Engine.serves (i : Fin 16) : Engine → Bool
  | .free => false
  | .serving j _ _ => j = i

/-- Some engine holds stream `i`. -/
def State.held (s : State) (i : Fin 16) : Bool := s.engines.toList.any (Engine.serves i)

/-- The serving engine becomes FREE at once, its working context discarded (R37, R38). -/
def State.stopEngines (s : State) (i : Fin 16) : State :=
  { s with engines := s.engines.map (fun e => if e.serves i then .free else e) }

/-- The stream's digests waiting in the completion queue are removed; the one being completed, the oldest, runs to its end
and is dropped then (R37, R38, log entry 17). -/
def dropDigests (i : Fin 16) (fate : DigestFate) : List DigestJob → List DigestJob
  | [] => []
  | j :: rest =>
    (if j.stream = i ∧ j.fate = .kept then { j with fate := fate } else j) :: rest.filter (fun x => x.stream ≠ i)

/-- A chunk's end: its slot turns HASHING, its digest goes to the Fingerprint Unit and the chunks counter rises (R34). -/
def State.endChunk (s : State) (i : Fin 16) (p : Fin 32) (d : Digest) : State :=
  let s1 := s.modStream i (fun x =>
    { x.modSlot p (fun q => { q with phase := .hashing }) with chunks := x.chunks + 1 })
  { s1 with digestQueue := s1.digestQueue ++ [{ stream := i, slot := p, digest := d, fate := .kept }] }

/-- The chunker context at a chunk's end: no length, no pending slot, no digest; the window and the sums stand (R34). -/
def ChunkerContext.cut (c : ChunkerContext) : ChunkerContext :=
  { c with length := 0, slot := none, digest := Digest.initial }

/-! ## Discarding a stream's work (R15, R48, R77, R104, R115) -/

/-- The pending list is discarded: every slot is freed and every unit its resolved local chunks held is taken away
(R104). -/
def State.discardPending (s : State) (i : Fin 16) : State :=
  let s1 := (s.stream i).pending.foldl State.releaseChunk s
  s1.modStream i (fun x => { x with pending := [] })

/-- What an abort and a fault do alike to the stream: engine and digests stop, lookups are voided, waiters leave, the
pending list is discarded, the queue emptied, the owed MARK dropped and the current container sealed for ABORT (R15,
R17, R37, R38, R48, R77, R104, R115). -/
def State.tearDown (s : State) (i : Fin 16) (fate : DigestFate) : State :=
  let s1 : State := { s.stopEngines i with digestQueue := dropDigests i fate s.digestQueue, index := s.index.voidLookups i }
  let s2 := (s1.dropWaiters i).discardPending i
  let s3 := s2.modStream i (fun x => { x with queue := [], nextQueueSlot := 0, owedMark := none })
  s3.sealCurrent i .abort

/-- The Fingerprint Unit is completing a digest that the abort of stream `i` waits for (R16, R37). -/
def State.digestAwaited (s : State) (i : Fin 16) : Bool :=
  s.digestQueue.any (fun j => j.stream = i && j.fate ≠ .dropped)

/-- An aborting stream whose work has all let go has its ABORTED report made, once (R16). -/
def State.abortRelease (s : State) (i : Fin 16) : State :=
  let x := s.stream i
  if x.state = .aborting ∧ !s.held i ∧ !s.digestAwaited i ∧ !s.appendInFlight i ∧
      x.writeInFlight = none ∧ !s.awaitsReport (Report.aborts i) then
    s.makeReport (.aborted i x.branch x.bytesAccepted x.chunks)
  else s

/-! ## The end of a stream (R113, R114) -/

/-- CLOSE completion of a NORMAL stream: its container is sealed for CLOSE and its END becomes due; of a SURVEY stream: its
CLOSED report is made (R113, R114). -/
def State.closeCheck (s : State) (i : Fin 16) : State :=
  let x := s.stream i
  if x.state = .closing ∧ x.queue = [] ∧ x.pending = [] then
    match x.kind with
    | .normal =>
      if x.writeInFlight = none ∧ x.endProgress = .none then
        (s.sealCurrent i .close).modStream i (fun y => { y with endProgress := .due })
      else s
    | .survey => if s.awaitsReport (Report.closes i) then s else s.makeReport (x.closedReport i)
  else s

/-! ## The Recipe Emitter (R106 to R108) -/

/-- The round after `r` in round order: 0 and 65,535 are both followed by 1 (R108). -/
def nextRound (r : Half) : Half := if r = 65535#16 then 1#16 else r + 1

/-- The settle value of a chunk's record at issue (R108). A FREE or RETIRED container cannot stand there (log entry 25). -/
def State.settleOf (s : State) (q : PendingSlot) : Settle :=
  if q.disposition = some .remote then
    if q.holderSealed = some true then .settled else .holderPending
  else
    match q.location with
    | none => .lost
    | some l =>
      let c := s.container l.slot
      match c.state with
      | .sealed => .settled
      | .lost => .lost
      | .free => .byRound (nextRound s.sealUnit.counter)
      | .retired => .byRound (nextRound s.sealUnit.counter)
      | .opened =>
        if s.sealUnit.inProgress ≠ none ∧ c.round = s.sealUnit.inProgress then .byRound (c.round.getD 0)
        else .byRound (nextRound s.sealUnit.counter)
      | .seals =>
        if s.sealUnit.inProgress ≠ none ∧ c.round = s.sealUnit.inProgress then .byRound (c.round.getD 0)
        else .byRound (nextRound s.sealUnit.counter)

/-- The stream may issue a record: NORMAL, OPEN or CLOSING, no write in flight, room in its ring, and records written
below its last value (R106, R110). -/
def Stream.mayIssue (x : Stream) : Bool :=
  x.kind = .normal && (x.state = .opened || x.state = .closing) && x.writeInFlight = none &&
  x.written.toNat - x.taken.toNat < x.windowSize.toNat && x.written ≠ 0xFFFFFFFF#32

/-- The record the emitter takes: an owed MARK, else the CHUNK of a RESOLVED head, else a due END (R106). -/
def Stream.dueRecord (x : Stream) : Option RecordKind :=
  if x.mayIssue then
    if x.owedMark ≠ none then some .mark
    else if x.pending.head?.any (fun q => q.phase = .resolved) then some .chunk
    else if x.endProgress = .due then some .last
    else none
  else none

/-- The store address of the next record: window base + (m mod window size) × 64 (R105). -/
def Stream.recordAddress (x : Stream) : Nat :=
  x.windowBase.toNat + x.written.toNat % x.windowSize.toNat * 64

/-- The four address bytes of a RECIPE_WRITE; free where the address needs more (R175, log entry 14). -/
def State.addressWord (s : State) (address : Nat) : Word × State :=
  if address < 4294967296 then (BitVec.ofNat 32 address, s)
  else (Config.freeStoreAddress s.choices, { s with choices := s.choices + 1 })

/-- The bytes of a stream's next record of a kind, fixed at issue (R107, R111, R113). -/
def State.recordBytes (s : State) (x : Stream) : RecordKind → List Byte
  | .mark => markRecord x.written (x.owedMark.getD { round := 0, status := .clean })
  | .last => endRecord x s.sealUnit.counter
  | .chunk =>
    match x.pending.head? with
    | none => []
    | some q =>
      chunkRecord x.written q.sequence q.length (q.disposition.getD .localNew)
        (q.location.getD { station := 0, incarnation := 0, slot := 0, ordinal := 0 }) (s.settleOf q)
        (q.fingerprint.getD 0)

/-- The stream once a record of a kind is issued (R105, R106). -/
def Stream.issued (x : Stream) (kind : RecordKind) : Stream :=
  { x with
    writeInFlight := some
      { kind := kind, number := x.written
        slot := match kind with
          | .chunk => x.pending.head?.map (·.number)
          | .mark => none
          | .last => none }
    owedMark := if kind = .mark then none else x.owedMark
    endProgress := if kind = .last then .issued else x.endProgress }

/-- The emitter looks at a stream: the record due, if any, is handed to the Store Port's recipe write queue and becomes the
stream's write in flight (R106, R145). -/
def State.issueRecord (s : State) (i : Fin 16) : State :=
  let x := s.stream i
  match x.dueRecord with
  | none => s
  | some kind =>
    let (address, s1) := s.addressWord x.recordAddress
    let w : RecipeWrite := { stream := i, kind := kind, number := x.written, address := address
                             bytes := s.recordBytes x kind }
    ({ s1 with store := { s1.store with recipeQueue := s1.store.recipeQueue ++ [w] } } : State).modStream i
      (fun y => y.issued kind)

/-- The emitter looks at every stream; where several have a record due, in a free order (R106, R146, log entry 12). -/
def State.emitRecords (s : State) : State :=
  let (order, s1) := s.anyOrder ((List.finRange 16).filter (fun i => (s.stream i).dueRecord ≠ none))
  order.foldl State.issueRecord s1

end Sys2Proof.Machine
end

