-- ==== Sys2Proof/Machine/Rounds.lean ====
section
/-! DEFINITION. Seal rounds (R138 to R141) and flush outcomes (R131). -/

namespace Sys2Proof.Machine

/-- A round takes the slot in: it is OPEN and non-empty, or SEALING (R138). -/
def Container.joinsRound (c : Container) : Bool :=
  (c.state = .opened && c.nonEmpty) || c.state = .seals

/-- The container slots a round starting now takes in, in rising order (R138). -/
def State.roundMembers (s : State) : List Nat :=
  (s.containers.table.filter (fun e => e.2.joinsRound)).map (·.1)

/-- The round number is written into a member's membership field (R138). -/
def State.enrol (s : State) (r : Half) (slot : Nat) : State :=
  s.setContainer slot { s.container slot with round := some r }

/-- R138, steps 1 to 5: counter, round in progress, members with their membership, ROUND seal requests to the OPEN members
in a free order (log entry 12), and the lost carry flag into the round lost flag. -/
def State.beginRound (s : State) : State :=
  let r := nextRound s.sealUnit.counter
  let members := s.roundMembers
  let s1 := members.foldl (fun t slot => t.enrol r slot) s
  let s2 : State := { s1 with sealUnit := { s1.sealUnit with
    counter := r, inProgress := some r, members := members
    roundLost := s1.sealUnit.lostCarry, lostCarry := false } }
  let (order, s3) := s2.anyOrder (members.filter (fun slot => (s.container slot).state = .opened))
  order.foldl (fun t slot => t.sealRequest slot .round) s3

/-- A stream given the MARK of a completed round: NORMAL, OPEN or CLOSING, its END not yet issued; an owed MARK is folded
into it (R112). -/
def Stream.owe (x : Stream) (r : Half) (status : RoundStatus) : Stream :=
  if x.kind = .normal ∧ (x.state = .opened ∨ x.state = .closing) ∧ x.endProgress ≠ .issued then
    match x.owedMark with
    | none => { x with owedMark := some { round := r, status := status } }
    | some m =>
      { x with owedMark := some { round := r, status := if m.status = .broken then .broken else status } }
  else x

/-- R140, steps 1 to 4, for the round in progress. -/
def State.finishRound (s : State) : State :=
  match s.sealUnit.inProgress with
  | none => s
  | some r =>
    let status : RoundStatus := if s.sealUnit.roundLost then .broken else .clean
    { s with
      sealUnit := { s.sealUnit with
        lastCompleted := r, lastStatus := status
        lastBroken := if s.sealUnit.roundLost then r else s.sealUnit.lastBroken
        inProgress := none, roundLost := false }
      streams := s.streams.map (fun x => x.owe r status) }

/-- A round completes; a round-again flag then starts one more, which may complete at once and ends the chain (R140). -/
def State.completeRound (s : State) : State :=
  let s1 := s.finishRound
  if s1.sealUnit.roundAgain then
    let s2 := ({ s1 with sealUnit := { s1.sealUnit with roundAgain := false } } : State).beginRound
    if s2.sealUnit.members = [] then s2.finishRound else s2
  else s1

/-- A round starts (R138); with no members it completes at once. -/
def State.startRound (s : State) : State :=
  let s1 := s.beginRound
  if s1.sealUnit.members = [] then s1.completeRound else s1

/-- A pulse, or a hold, asks for a round: it starts, or the round-again flag is set (R137, R141). -/
def State.askRound (s : State) : State :=
  if s.sealUnit.inProgress = none then s.startRound
  else { s with sealUnit := { s.sealUnit with roundAgain := true } }

/-- The Seal Unit is told that a container has turned SEALED or LOST (R139). -/
def State.containerNotice (s : State) (slot : Nat) (lost : Bool) : State :=
  if s.sealUnit.inProgress ≠ none ∧ (s.container slot).round = s.sealUnit.inProgress then
    let members := s.sealUnit.members.erase slot
    let s1 : State := { s with sealUnit := { s.sealUnit with
      members := members, roundLost := s.sealUnit.roundLost || lost } }
    if members = [] then s1.completeRound else s1
  else if lost then { s with sealUnit := { s.sealUnit with lostCarry := true } }
  else s

/-- The LOST report of a container (R131). -/
def Container.lostReport (c : Container) (slot : Nat) : Report :=
  .lost slot (c.sealedFor.getD .full) (c.round.getD 0) c.count c.payload

/-- A flush outcome: the container turns SEALED or LOST and its area is freed; a loss sets STORE_FAULT and makes a LOST
report; the Seal Unit is told (R131). DESIGN CHOICE (log entry 31): where the outcome frees an area and also completes a
round whose round-again flag is set, the manual does not say whether the open-wait look (R124) comes before or after the
new round takes its members (R138); the new round starts here, before the look. -/
def State.flushOutcome (s : State) (slot : Nat) (error : Bool) : State :=
  let c := s.container slot
  let s1 := s.setContainer slot { c with state := if error then .lost else .sealed, area := none }
  let s2 := if error then (s1.latch .storeFault).makeReport (c.lostReport slot) else s1
  s2.containerNotice slot error

end Sys2Proof.Machine
end

