-- ==== Sys2Proof/Machine/Settle.lean ====
section
/-! DEFINITION. The Store Port's arbiter (R148, R149, R151) and the last part of a step, in which the blocks look at what
the step has handed them: the open-wait queue, the emitter, the arbiter, the reports, the flags (log entry 10). -/

namespace Sys2Proof.Machine

/-! ## Bursts and flushes (R148, R149) -/

/-- The container as one run of bytes: header, directory part, payload part (R149). -/
def State.containerBytes (s : State) (slot : Nat) (header : List Byte) : List Byte :=
  let c := s.container slot
  match c.area with
  | none => header
  | some a => header ++ readBytes s.staging (areaDirectory a) (c.count * 48) ++ readBytes s.staging (areaPayload a) c.payload

/-- The length of the next burst of a flush: 65,536 bytes, or those left (R149). -/
def ActiveFlush.burstLength (f : ActiveFlush) : Nat := min 65536 (f.length - f.next)

/-- The next burst of a flush is issued (R149). -/
def State.issueBurst (s : State) (f : ActiveFlush) : State :=
  let n := f.burstLength
  let bytes := ((s.containerBytes f.slot f.header).drop f.next).take n
  let s1 := s.send (.store (burstTransaction (f.next + n = f.length) f.slot f.next bytes))
  { s1 with store := { s1.store with port := .burst, active := some { f with next := f.next + n } } }

/-- The store region size in bytes (R163). -/
def State.storeRegion (s : State) : Nat := s.settings.storeUnits * 65536

/-- The range check of R148. -/
def State.inStoreRegion (s : State) (j : FlushJob) : Bool := j.slot * 4243520 + j.length ≤ s.storeRegion

/-- The active flush of a container whose flush begins (R148). -/
def FlushJob.start (j : FlushJob) : ActiveFlush :=
  { slot := j.slot, length := j.length, header := j.header, next := 0, error := false }

/-- The oldest recipe write is issued; the ahead count falls if above 0 (R151). -/
def State.issueRecipe (s : State) (w : RecipeWrite) (rest : List RecipeWrite) : State :=
  let s1 := s.send (.store (recipeTransaction w))
  { s1 with store := { s1.store with
    port := .recipe w.stream w.kind w.number, recipeQueue := rest, ahead := s1.store.ahead - 1 } }

/-- A container leaves the flush queue and its flush begins with its first burst, the range check having passed (R148). -/
def State.startFlush (s : State) (j : FlushJob) (rest : List FlushJob) : State :=
  ({ s with store := { s.store with flushQueue := rest } } : State).issueBurst j.start

/-- A container leaves the flush queue and ERROR is reported for it at once, the range check having failed (R148).
The loss frees its area, and the open-wait queue is looked at before the arbiter looks again, which is the model's choice
(log entry 33). -/
def State.refuseFlush (s : State) (j : FlushJob) (rest : List FlushJob) : State :=
  let s1 : State := { s with store := { s.store with flushQueue := rest } }
  (s1.flushOutcome j.slot true).serveOpenWait.emitRecords

/-- The burst due of the active flush: it has bytes left and the ahead count is 0 (R151, item 1). -/
def State.dueBurst (s : State) : Option ActiveFlush :=
  s.store.active.filter (fun f => s.store.ahead = 0 && f.next < f.length)

/-- The arbiter of R151 on a port with nothing outstanding, its items in order. Each look that fails a range check takes
one container out of the flush queue and turns it LOST, so `looks` bounds the looks of one step. -/
def State.arbitrate (s : State) : Nat → State
  | 0 => s
  | looks + 1 =>
    match s.dueBurst with
    | some f => s.issueBurst f
    | none =>
      match s.store.recipeQueue with
      | w :: rest => s.issueRecipe w rest
      | [] =>
        match s.store.active, s.store.flushQueue with
        | none, j :: rest =>
          if s.inStoreRegion j then s.startFlush j rest else (s.refuseFlush j rest).arbitrate looks
        | _, _ => s

/-- More looks than one step can need: one for each container queued or in the table, and one more. -/
def State.looks (s : State) : Nat := s.store.flushQueue.length + s.containers.table.length + 1

/-- The looks of an IDLE port to which things were handed over in this step: a recipe write and a container handed over
together may be taken in either order, at every look that finds both, the looks after a failed range check among them
(R151, log entry 12). -/
def State.takeHandedOver (s : State) : Nat → State
  | 0 => s
  | looks + 1 =>
    match s.store.recipeQueue, s.store.flushQueue, s.store.active with
    | w :: writes, j :: rest, none =>
      let s1 : State := { s with choices := s.choices + 1 }
      if Config.freeChoice s.choices 0 % 2 = 0 then s1.issueRecipe w writes
      else if s.inStoreRegion j then s1.startFlush j rest
      else (s1.refuseFlush j rest).takeHandedOver looks
    | [], j :: rest, none =>
      if s.inStoreRegion j then s.startFlush j rest else (s.refuseFlush j rest).takeHandedOver looks
    | _, _, _ => s.arbitrate (looks + 1)

/-- The arbiter looks because something was handed over: only an IDLE port issues (R151). -/
def State.lookAtPort (s : State) : State := if s.store.port = .idle then s.takeHandedOver s.looks else s

/-! ## The last part of a step -/

/-- The blocks look at what the step handed them, the reports made are placed, and the flags, ATTN and QUIET follow.
DESIGN CHOICE (log entry 33): where a container handed over in the step fails the range check, the manual does not say
whether the loss comes before or after the open-wait look of R129, step 4. The look comes first here, so the lost container's
area is not yet free at it, and a round that the loss starts again takes a container just opened as a member. -/
def State.settle (s : State) : State := s.serveOpenWait.emitRecords.lookAtPort.placeReports.refresh

/-- The last part of the step that takes a completion: the arbiter chooses by R151 after the completion has been handed
on (R143), and after the open-wait look (DESIGN CHOICE, log entry 33). -/
def State.settleCompletion (s : State) : State :=
  let s1 := s.serveOpenWait.emitRecords
  (s1.arbitrate s1.looks).placeReports.refresh

/-- The last part of a step that makes reports and hands nothing to another block. -/
def State.conclude (s : State) : State := s.placeReports.refresh

end Sys2Proof.Machine
end

