-- ==== Sys2Proof/Machine/AskCommands.lean ====
section
/-! DEFINITION. The ask timers and appends (chapters 4 and 7): COMPARE_A_EXPIRY, COMPARE_B_EXPIRY and APPEND_COMPLETE. -/

namespace Sys2Proof.Machine

/-! ## Compares (R68, R69, R72) -/

/-- Compare A of an ASKED entry: a re-ask enters the transmit queue if that has room, and the entry turns REASKED with
compare B still armed (R69). -/
def State.compareA (s : State) (e : AskEntry) (since : Nat) (armedB : Bool) : State :=
  let s1 := s.clockTo (since + microseconds s.settings.compareA)
  let s2 : State :=
    if s1.bus.txQueue.length < 32 then { s1 with bus := s1.bus.enqueue (.ask e.tag e.fingerprint) } else s1
  s2.setAsk { e with state := .reasked, timer := .running since false armedB }

/-- COMPARE_A_EXPIRY (R69). -/
def execCompareAExpiry (tag : Byte) (s : State) : Host.Outcome State Fault Refusal :=
  .next
    (match s.active, s.askTagged tag with
    | true, some e =>
      match e.state, e.timer with
      | .asked, .running since true armedB => s.compareA e since armedB
      | _, _ => s
    | _, _ => s)

/-- Compare B: the timer stops, the entry's unsent ASK is removed, and the entry turns STORING with an append requested for
its first waiter, or is freed without waiters (R72). -/
def State.compareB (s : State) (e : AskEntry) (since : Nat) : State :=
  let s1 := s.clockTo (since + microseconds s.settings.compareB)
  let s2 : State := { s1 with bus := s1.bus.removeAsk e.tag e.fingerprint }
  (s2.storeOrFree e).settle

/-- COMPARE_B_EXPIRY (R72). -/
def execCompareBExpiry (tag : Byte) (s : State) : Host.Outcome State Fault Refusal :=
  .next
    (match s.active, s.askTagged tag with
    | true, some e =>
      match e.timer with
      | .running since _ true =>
        if e.state = .asked ∨ e.state = .reasked ∨ e.state = .yielded then s.compareB e since else s
      | _ => s
    | _, _ => s)

/-! ## Append completion (R74, R127, R130) -/

/-- The bytes of an append stand in its container's area: payload from the staging extent, and the directory entry of its
ordinal (R126, R127; log entry 19). -/
def State.copyAppend (s : State) (c : Container) (a : Append) : State :=
  match c.area with
  | none => s
  | some area =>
    let payload := readBytes s.staging (stagingExtent a.stream a.slot) a.length
    let copied := writeBytes s.staging (areaPayload area + a.offset) payload
    let entry := directoryEntry a.fingerprint a.offset a.length
    { s with staging := writeBytes copied (areaDirectory area + c.count * 48) entry }

/-- The container once an append into it has completed: it takes its ordinal and leaves the appends in flight, and the
insert's hold raises the pending-reference count (R52, R127). -/
def Container.completed (c : Container) (a : Append) : Container :=
  { c with
    count := c.count + 1, payload := c.payload + a.length, references := c.references + 1
    inFlight := c.inFlight.filter (fun x => x.offset ≠ a.offset) }

/-- The Resolution Unit takes an append's completion: found location, insert, CLAIM (R74). -/
def State.appendDone (s : State) (slot ordinal : Nat) (a : Append) : State :=
  let l : Location := { station := s.settings.station, incarnation := s.settings.incarnation
                        slot := slot, ordinal := ordinal }
  let s1 := match s.askTagged a.tag with
    | none => s
    | some e => s.setAsk { e with found := some l }
  let s2 := s1.makeRequest .resolution (.insert a.fingerprint slot ordinal a.length a.tag)
  { s2 with bus := s2.bus.handOrDrop (.claim a.fingerprint s2.settings.incarnation slot ordinal) }

/-- After a completion the container turns SEALING if it is seal requested and nothing more is in flight, or is sealed for
HOLD while the station is HOLDING (R127, R130). -/
def State.sealAfterAppend (s : State) (slot : Nat) : State :=
  let c := s.container slot
  if c.inFlight ≠ [] then s
  else
    match c.sealRequested with
    | some reason => s.turnSealing slot reason
    | none => if s.station = .holding then s.sealRequest slot .hold else s

/-- R127, all in one step. -/
def State.finishAppend (s : State) (slot : Nat) (a : Append) : State :=
  let c := s.container slot
  let s1 := (s.copyAppend c a).setContainer slot (c.completed a)
  (((s1.appendDone slot c.count a).sealAfterAppend slot).abortRelease a.stream).settle

/-- APPEND_COMPLETE (R127): the append in flight into `slot` at payload offset `offset`. -/
def execAppendComplete (slot offset : Nat) (s : State) : Host.Outcome State Fault Refusal :=
  .next
    (match s.active, (s.container slot).inFlight.find? (fun a => a.offset = offset) with
    | true, some a => s.finishAppend slot a
    | _, _ => s)

end Sys2Proof.Machine
end

