-- ==== Sys2Proof/Machine/IndexCommands.lean ====
section
/-! DEFINITION. The Chunk Index at work (chapters 3, 5 and 10): INDEX_SERVICE_START, SCRUB_STEP_START and the completions of
lookups, inserts and scrub steps. -/

namespace Sys2Proof.Machine

/-! ## Starting service (R42 to R44) -/

/-- INDEX_SERVICE_START: the oldest request leaves the queue and is served, and the freed queue slot goes to a held request
(R42, R43). -/
def execIndexServiceStart (s : State) : Host.Outcome State Fault Refusal :=
  .next
    (match s.active, s.index.service, s.index.queue with
    | true, .nothing, r :: rest =>
      { s with index := ({ s.index with service := .request r, queue := rest } : Index).refill }
    | _, _, _ => s)

/-- SCRUB_STEP_START: the offered step begins when nothing is served and the request queue is empty (R44, R157). -/
def execScrubStepStart (s : State) : Host.Outcome State Fault Refusal :=
  .next
    (if s.active ∧ s.walker.state = .walking ∧ s.index.service = .nothing ∧ s.index.queue = [] then
      { s with index := { s.index with service := .scrub s.walker.position } }
    else s)

/-! ## Resolution lookups (R45, R46, R58, R61) -/

/-- A survey chunk is resolved and its pending slot freed in the same step; a CLOSING stream may then be complete (R61,
R103, R114). -/
def State.resolveSurvey (s : State) (w : Waiter) (hit : Bool) : State :=
  let s1 := s.modStream w.1 (fun x =>
    if hit then { x.freeSlot w.2 with surveyDup := x.surveyDup + 1 }
    else { x.freeSlot w.2 with surveyNew := x.surveyNew + 1 })
  s1.closeCheck w.1

/-- The result of a resolution lookup of a chunk that has not been voided (R46, R58, R61). -/
def State.takeLookup (s : State) (f : Fingerprint) (w : Waiter) (kind : StreamKind) : Option IndexEntry → State
  | some e =>
    match kind with
    | .survey => s.resolveSurvey w true
    | .normal =>
      (s.raiseReferences e.slot 1).resolveChunk w .localDup
        (some { station := s.settings.station, incarnation := s.settings.incarnation
                slot := e.slot, ordinal := e.ordinal }) none
  | none =>
    match kind with
    | .survey => s.resolveSurvey w false
    | .normal => s.recheck f w

/-- RESOLUTION_LOOKUP_COMPLETE (R58): lazy removal, then the result; a voided lookup hands none (R48). -/
def execResolutionLookupComplete (s : State) : Host.Outcome State Fault Refusal :=
  .next
    (match s.active, s.index.service with
    | true, .request (.lookup f i p _ kind void) =>
      let b := s.bucketNumber f
      let hit := hitIn (s.liveEntries b) f
      let s1 := (s.removeDead b).endService
      if void then s1 else (s1.takeLookup f (i, p) kind hit).settle
    | _, _ => s)

/-! ## Answer lookups (R47, R96, R97) -/

/-- The answer path makes a lookup for the head ASK when none is outstanding (R96). -/
def State.makeAnswer (s : State) : State :=
  if s.bus.answerOutstanding then s
  else
    match s.bus.answerQueue with
    | [] => s
    | a :: _ =>
      ({ s with bus := { s.bus with answerOutstanding := true } } : State).makeRequest .answer
        (.answer a.fingerprint a.asker a.tag)

/-- The HAVE that answers an ASK (R97). -/
def State.haveFor (s : State) (f : Fingerprint) (asker tag : Byte) (e : IndexEntry) : Frame :=
  .holds asker tag f s.settings.incarnation e.slot e.ordinal ((s.container e.slot).state = .sealed)

/-- ANSWER_LOOKUP_COMPLETE (R97): lazy removal, a HAVE on a hit, the head ASK leaves and the next lookup is made. -/
def execAnswerLookupComplete (s : State) : Host.Outcome State Fault Refusal :=
  .next
    (match s.active, s.index.service with
    | true, .request (.answer f asker tag) =>
      let b := s.bucketNumber f
      let s1 := (s.removeDead b).endService
      let bus := match hitIn (s.liveEntries b) f with
        | some e => s.bus.handOrDrop (s.haveFor f asker tag e)
        | none => s.bus
      ({ s1 with bus := { bus with answerQueue := bus.answerQueue.tail, answerOutstanding := false } } : State).makeAnswer
    | _, _ => s)

/-! ## Inserts (R50 to R52, R75) -/

/-- The waiters of a stored chunk are resolved, the first LOCAL_NEW and the others LOCAL_DUP, and each raises the count
(R75). -/
def State.resolveStored (s : State) (ws : List Waiter) (l : Location) : State :=
  match ws with
  | [] => s
  | w :: rest =>
    ((s.raiseReferences l.slot ws.length).resolveChunk w .localNew (some l) none).resolveAll rest .localDup l none

/-- The Resolution Unit takes an insert's completion: waiters resolved and the entry freed when the container is live, a new
append when it is LOST; the insert's hold is taken away (R52, R75). -/
def State.takeInsert (s : State) (slot ordinal : Nat) (tag : Byte) : State :=
  match s.askTagged tag with
  | none => s.lowerReferences slot
  | some e =>
    if (s.container slot).state.live then
      let l : Location := { station := s.settings.station, incarnation := s.settings.incarnation
                            slot := slot, ordinal := ordinal }
      ((s.resolveStored e.waiters l).lowerReferences slot).freeAsk e
    else (s.lowerReferences slot).storeOrFree e

/-- INSERT_COMPLETE (R50): dead and same-fingerprint entries are removed, the oldest is displaced if the bucket is full, and
the new entry is placed, whatever the state of its container. -/
def execInsertComplete (s : State) : Host.Outcome State Fault Refusal :=
  .next
    (match s.active, s.index.service with
    | true, .request (.insert f slot ordinal _ tag) =>
      let b := s.bucketNumber f
      let (entries, displaced) := insertInto (s.liveEntries b) { fingerprint := f, slot := slot, ordinal := ordinal }
      let s1 := (s.setBucket b entries).endService
      let s2 := if displaced then s1.latch .indexDisplaced else s1
      (s2.takeInsert slot ordinal tag).settle
    | _, _ => s)

/-! ## Scrub steps (R53, R157, R158) -/

/-- The walk ends: the snapshot slots turn FREE with their fields cleared, a PURGED report is made for each in rising slot
order, and the walker turns REPORTING (R158). -/
def State.endWalk (s : State) : State :=
  let slots := s.walker.snapshot
  let s1 := slots.foldl (fun t slot => t.setContainer slot Container.initial) s
  let s2 : State := { s1 with
    containers := { s1.containers with freeSlots := s1.containers.freeSlots + slots.length }
    walker := { s1.walker with
      state := .reporting, snapshot := [], reportList := slots, completed := s1.walker.completed + 1 } }
  slots.foldl (fun t slot => t.makeReport (.purged slot s2.walker.completed)) s2

/-- SCRUB_STEP_COMPLETE (R53): the bucket's dead entries are removed and the walk position rises; after the last bucket the
walk ends (R157, R158). -/
def execScrubStepComplete (s : State) : Host.Outcome State Fault Refusal :=
  .next
    (match s.active, s.index.service with
    | true, .scrub b =>
      let s1 := (s.removeDead b).endService
      let s2 : State := { s1 with walker := { s1.walker with position := s1.walker.position + 1 } }
      if s2.walker.position < 2 ^ s.settings.indexExponent then s2 else s2.endWalk.settle
    | _, _ => s)

end Sys2Proof.Machine
end

