-- ==== Sys2Proof/Machine/BusCommands.lean ====
section
/-! DEFINITION. The peer bus (chapter 5): ATTEMPT_START, FRAME_COMPLETE, COLLISION, JAM_END, FRAME_BEGINS and the received
frames. -/

namespace Sys2Proof.Machine

/-! ## Sending (R81 to R84, R87) -/

/-- The moment at which an attempt may begin: on an idle line once this station has seen the gap and the retry wait has
passed; beside another station that began driving at this very moment, only if both have come about already (R81 to R83,
R90, R91; log entry 23). -/
def State.attemptMoment (s : State) (retry : Option (Nat × Nat)) : Option Nat :=
  match s.bus.line with
  | .idle since => some (earliestAttempt (max since s.bus.watchedSince) retry)
  | .driven since =>
    if since = s.now ∧ earliestAttempt (max (s.now - idleGap) s.bus.watchedSince) retry ≤ s.now then some s.now else none

/-- An attempt begins: the count rises, the station drives the frame's bits from this moment on, and the receiver discards
what it has gathered (R81, R87, R90). -/
def State.beginAttempt (s : State) (moment : Nat) : State :=
  let s1 := s.clockTo moment
  let bus := s1.bus.countAttempt
  { s1 with bus := { bus with transmitter := .sending s1.now, receiver := .listening } }

/-- ATTEMPT_START (R81): after 1 µs of idle bus and, for a retry, the back-off wait. -/
def execAttemptStart (s : State) : Host.Outcome State Fault Refusal :=
  .next
    (match s.active, s.bus.transmitter, s.bus.txQueue with
    | true, .waiting retry, _ :: _ =>
      match s.attemptMoment retry with
      | some moment => s.beginAttempt moment
      | none => s
    | _, _, _ => s)

/-- The head frame leaves the queue; a leaving ASK is reported to the Resolution Unit (R67, R86, R87). -/
def State.headLeaves (s : State) (t : TxFrame) : State :=
  let s1 : State := { s with bus := s.bus.dropHead }
  match t.frame with
  | .ask tag f => s1.askLeft tag f
  | .holds _ _ _ _ _ _ _ => s1
  | .claim _ _ _ _ => s1

/-- FRAME_COMPLETE (R81): the last bit has been read back as sent and the bit time after it has passed, so every bit of the
frame has been driven; the bus is idle since the end of the last bit. -/
def execFrameComplete (s : State) : Host.Outcome State Fault Refusal :=
  .next
    (match s.active, s.bus.transmitter, s.bus.txQueue with
    | true, .sending since, t :: _ =>
      let s1 := (s.clockTo (since + t.frame.bitCount + 1)).send (.bus (t.frame.bits s.settings.station))
      ({ s1 with bus := { s1.bus with line := .idle (s1.now - 1) } } : State).headLeaves t
    | _, _, _ => s)

/-- COLLISION (R82): bit `bit` of the frame, counted from 1, is read back differing. The frame stops there, with its bits up
to this one driven and no more, and the jam begins in the next bit time. -/
def execCollision (bit : Nat) (s : State) : Host.Outcome State Fault Refusal :=
  .next
    (match s.active, s.bus.transmitter, s.bus.txQueue with
    | true, .sending since, t :: _ =>
      if 1 ≤ bit ∧ bit ≤ t.frame.bitCount then
        let s1 := (s.clockTo (since + bit)).send (.bus ((t.frame.bits s.settings.station).take bit))
        { s1 with bus := { s1.bus with transmitter := .jamming s1.now } }
      else s
    | _, _, _ => s)

/-- JAM_END (R82 to R84): this station has driven the 32 bits of its jam and no station drives the line any more; the frame
goes to back-off, or is abandoned after its eighth attempt, which sets BUS_ABANDON. -/
def execJamEnd (s : State) : Host.Outcome State Fault Refusal :=
  .next
    (match s.active, s.bus.transmitter, s.bus.txQueue with
    | true, .jamming since, t :: _ =>
      let s1 := (s.clockTo (since + 32)).send (.bus jamBits)
      let s2 : State := { s1 with bus := { s1.bus with line := .idle s1.now } }
      if t.attempts < 8 then
        { s2 with bus := { s2.bus with
          transmitter := .waiting (some (s2.now, backoffWait s.settings.station t.attempts)) } }
      else ((s2.headLeaves t).latch .busAbandon).refresh
    | _, _, _ => s)

/-! ## Receiving (R90 to R97) -/

/-- The transmitter leaves the line to others: it is neither SENDING nor JAMMING (R90, R93). -/
def PeerBus.quiet (b : PeerBus) : Bool :=
  match b.transmitter with
  | .empty => true
  | .waiting _ => true
  | .sending _ => false
  | .jamming _ => false

/-- FRAME_BEGINS (R90): another station begins driving after at least 1 µs of idle; the bus turns busy, and a receiver that
listens, and has itself seen that gap since the station entered RUNNING, gathers a candidate (R91). While the station is
not RUNNING or HOLDING only the line changes (R99). -/
def execFrameBegins (s : State) : Host.Outcome State Fault Refusal :=
  .next
    (match s.bus.line with
    | .driven _ => s
    | .idle since =>
      let s1 := s.clockTo (since + idleGap)
      { s1 with bus := { s1.bus with
        line := .driven s1.now
        receiver := if s.active && s.bus.quiet && s.bus.seesGap since s1.now then .gathering else s1.bus.receiver } })

/-- The other station's transmission of `bits` bits has ended: the line is idle since its last bit, and the receiver
listens again (R81, R90). -/
def State.endReception (s : State) (bits : Nat) : State :=
  match s.bus.line with
  | .idle _ => s
  | .driven since =>
    let s1 := s.clockTo (since + bits + 1)
    { s1 with bus := { s1.bus with line := .idle (s1.now - 1), receiver := .listening } }

/-- A received ASK: the yield check, then, on pass, the answer queue if it has room, and a lookup for its head (R71, R95,
R96). -/
def State.dispatchAsk (s : State) (sender tag : Byte) (f : Fingerprint) : State :=
  let passes := s.askPasses f
  let s1 := s.yieldTo sender f
  if passes && s1.bus.answerQueue.length < 32 then
    ({ s1 with bus := { s1.bus with
      answerQueue := s1.bus.answerQueue ++ [{ asker := sender, tag := tag, fingerprint := f }] } } : State).makeAnswer
  else s1

/-- A received HAVE or CLAIM goes to the Resolution Unit (R70, R94). -/
def State.dispatchLocation (s : State) (sender : Byte) (f : Fingerprint) (inc slot ordinal : Half) (holder : Bool) : State :=
  (s.remoteFound f { station := sender, incarnation := inc, slot := slot.toNat, ordinal := ordinal.toNat } holder).settle

/-- Dispatch by kind (R94). -/
def State.dispatch (s : State) : Received → State
  | .ask sender tag f => s.dispatchAsk sender tag f
  | .holds sender _ _ f inc slot ordinal b => s.dispatchLocation sender f inc slot ordinal (b = 1#8)
  | .claim sender f inc slot ordinal _ => s.dispatchLocation sender f inc slot ordinal false

/-- Steps 3 and 4 of R92, then the dispatch of R94. -/
def State.receive (s : State) (r : Received) : State :=
  if !r.inRange then s
  else if r.sender = s.settings.station then (s.latch .stationClash).refresh
  else s.dispatch r

/-- A frame of `bits` bits, whole and with a good check, ends; it is taken only if the receiver has gathered it (R90). -/
def State.frameEnds (s : State) (r : Received) (bits : Nat) : State :=
  if s.active && s.bus.receiver = .gathering then (s.endReception bits).receive r else s.endReception bits

/-- ASK_RECEIVED (R95). -/
def execAskReceived (sender tag : Byte) (fingerprint : Fingerprint) (s : State) : Host.Outcome State Fault Refusal :=
  .next (s.frameEnds (.ask sender tag fingerprint) 296)

/-- HAVE_RECEIVED (R70). -/
def execHaveReceived (sender target tag : Byte) (fingerprint : Fingerprint) (incarnation slot ordinal : Half)
    (sealedByte : Byte) (s : State) : Host.Outcome State Fault Refusal :=
  .next (s.frameEnds (.holds sender target tag fingerprint incarnation slot ordinal sealedByte) 360)

/-- CLAIM_RECEIVED (R70). -/
def execClaimReceived (sender : Byte) (fingerprint : Fingerprint) (incarnation slot ordinal : Half) (sealedByte : Byte)
    (s : State) : Host.Outcome State Fault Refusal :=
  .next (s.frameEnds (.claim sender fingerprint incarnation slot ordinal sealedByte) 344)

/-- CANDIDATE_FRAME (R90, R92): the gathered bits, whatever they are (log entry 26). -/
def execCandidateFrame (bits : List Bool) (s : State) : Host.Outcome State Fault Refusal :=
  .next
    (match candidateOf bits with
    | some r => s.frameEnds r bits.length
    | none => s.endReception bits.length)

end Sys2Proof.Machine
end

