-- ==== Sys2Proof/Machine/Chunking.lean ====
section
/-! DEFINITION. Chunking and fingerprints (chapter 2): ENGINE_ASSIGN, ENGINE_TAKE_BYTE and FINGERPRINT_COMPLETE. -/

namespace Sys2Proof.Machine

/-! ## The rolling window and the boundary test (R24, R25, R27) -/

/-- One byte through the window and the sums (R24). -/
def ChunkerContext.roll (c : ChunkerContext) (y : Byte) : ChunkerContext :=
  let oldest := c.window[c.position].toNat
  let sumA := c.sumA + y.toNat - oldest
  { c with
    sumA := sumA
    sumB := c.sumB + sumA - 32 * oldest
    window := c.window.set c.position y
    position := c.position + 1 }

/-- The test value of R25. -/
def testValue (sumA sumB : Nat) : Nat := (sumB * 40503 + sumA) % 4294967296 / 65536

/-- The boundary decision of R27 from a chunk's length and the test value. -/
def isBoundary (t : Settings) (n value : Nat) : Bool :=
  if n < t.lMin then false
  else if n < t.nT then value % 2 ^ (t.exponent + 1) = 2 ^ (t.exponent + 1) - 1
  else if n < t.lMax then value % 2 ^ (t.exponent - 1) = 2 ^ (t.exponent - 1) - 1
  else true

/-! ## Assignment (R19 to R22, R32) -/

/-- The stream is eligible for an engine (R19). -/
def State.eligible (s : State) (i : Fin 16) : Bool :=
  let x := s.stream i
  s.station = .running && (x.state = .opened || x.state = .closing) && x.queue ≠ [] && !s.held i &&
  (x.chunker.slot ≠ none || x.lowestFreeSlot ≠ none)

/-- The first eligible stream in the order last assigned + 1, + 2 and so on, modulo 16 (R20). -/
def State.nextStream (s : State) : Option (Fin 16) :=
  ((List.finRange 16).map (fun d => s.lastAssigned + 1 + d)).find? s.eligible

/-- The lowest-numbered FREE engine (R20). -/
def State.freeEngine (s : State) : Option (Fin 4) := (List.finRange 4).find? (fun e => s.engine e = .free)

/-- Writes the chunker context back into the stream context (R22). -/
def State.writeBack (s : State) (i : Fin 16) (c : ChunkerContext) : State :=
  s.modStream i (fun x => { x with chunker := c })

/-- The head entry leaves the queue and its queue slot is free (R13). -/
def Stream.popQueue (x : Stream) : Stream := { x with queue := x.queue.tail }

/-- An engine that finds a CLOSE at the head ends a begun chunk, frees the CLOSE's queue slot and releases the stream, all
in the step of the assignment (R32, R12). -/
def State.closeHead (s : State) (i : Fin 16) : State :=
  let c := (s.stream i).chunker
  let s1 := match c.slot with
    | some p => if 1 ≤ c.length then s.endChunk i p c.digest else s
    | none => s
  let s2 := s1.writeBack i { c.cut with resume := none }
  ((s2.modStream i Stream.popQueue).closeCheck i).settle

/-- Engine `e` takes stream `i` (R21). -/
def State.assign (s : State) (e : Fin 4) (i : Fin 16) : State :=
  let x := s.stream i
  let s1 : State := { s with lastAssigned := i }
  match x.queue.head?.map QueueEntry.kind with
  | some (.data _) =>
    s1.setEngine e (.serving i { x.chunker with resume := none } (x.chunker.resume.getD 0))
  | some .close => s1.closeHead i
  | none => s

/-- ENGINE_ASSIGN (R20): one assignment, if an engine is FREE and a stream eligible. -/
def execEngineAssign (s : State) : Host.Outcome State Fault Refusal :=
  .next
    (match s.freeEngine, s.nextStream with
    | some e, some i => s.assign e i
    | _, _ => s)

/-! ## Taking a byte (R26, R29 to R34) -/

/-- The next chunk sequence rises by 1; past its last value it is free (log entry 13). -/
def State.sequenceAfter (s : State) (q : Word) : Word × State :=
  if q = 0xFFFFFFFF#32 then (Config.freeChunkSequence s.choices, { s with choices := s.choices + 1 }) else (q + 1, s)

/-- A pending slot is taken for a new chunk: it carries the next chunk sequence, joins the tail of the pending list in
CHUNKING, and becomes the current pending slot with a fresh digest (R26, R31). -/
def State.allocate (s : State) (i : Fin 16) (p : Fin 32) (c : ChunkerContext) : State × ChunkerContext :=
  let x := s.stream i
  let (after, s1) := s.sequenceAfter x.nextChunk
  let q : PendingSlot := { number := p, sequence := x.nextChunk, length := 0, fingerprint := none, phase := .chunking
                           disposition := none, location := none, holderSealed := none }
  (s1.setStream i { x with pending := x.pending ++ [q], nextChunk := after },
    { c with slot := some p, length := 0, digest := Digest.initial })

/-- The engine suspends: no pending slot is free, the next byte is at `position` of the head DATA (R22, R26). -/
def State.suspend (s : State) (e : Fin 4) (i : Fin 16) (c : ChunkerContext) (position : Nat) : State :=
  (s.writeBack i { c.cut with resume := some position }).setEngine e .free

/-- The credit notice of R14: an OPEN stream's free slot count has risen to the threshold. -/
def State.creditNotice (s : State) (i : Fin 16) : State :=
  let x := s.stream i
  if x.state = .opened ∧ s.settings.credit.count = some x.freeQueueSlots then
    s.send (.intake (creditBytes i x.freeQueueSlots))
  else s

/-- The last byte of the head DATA has been taken: the entry leaves, the engine writes the context back and becomes FREE,
and a credit notice may go out (R14, R22, R33). -/
def State.consumeEntry (s : State) (e : Fin 4) (i : Fin 16) (c : ChunkerContext) : State :=
  let s1 := ((s.writeBack i { c with resume := none }).modStream i Stream.popQueue).setEngine e .free
  s1.creditNotice i

/-- The byte `y` at `position` of a head DATA of `length` bytes goes into the current chunk in pending slot `p`: window and
sums, lengths, staging extent, digest, boundary decision; the last byte ends the entry (R29, R33). -/
def State.takeByte (s : State) (e : Fin 4) (i : Fin 16) (c : ChunkerContext) (p : Fin 32) (y : Byte)
    (position length : Nat) : State :=
  let c1 : ChunkerContext := { c.roll y with length := c.length + 1, digest := c.digest.feed y }
  let s1 := s.modStream i (fun x => x.modSlot p (fun q => { q with length := q.length + 1 }))
  let s2 : State := { s1 with staging := writeByte s1.staging (stagingExtent i p + (c1.length - 1)) y }
  let cuts := isBoundary s.settings c1.length (testValue c1.sumA c1.sumB)
  let s3 := if cuts then s2.endChunk i p c1.digest else s2
  let c2 := if cuts then c1.cut else c1
  if position + 1 = length then s3.consumeEntry e i c2 else s3.setEngine e (.serving i c2 (position + 1))

/-- ENGINE_TAKE_BYTE (R29): a SERVING engine takes the next byte of the head DATA, first taking a pending slot when no chunk
is begun, or suspends for want of one. -/
def State.engineStep (s : State) (e : Fin 4) : State :=
  match s.engine e with
  | .free => s
  | .serving i c position =>
    match (s.stream i).queue.head? with
    | none => s
    | some entry =>
      match entry.kind with
      | .close => s
      | .data length =>
        if position < length then
          let y := readByte s.staging (segmentPlace i entry.slot + position)
          match c.slot with
          | some p => s.takeByte e i c p y position length
          | none =>
            match (s.stream i).lowestFreeSlot with
            | none => s.suspend e i c position
            | some p =>
              let (s1, c1) := s.allocate i p c
              s1.takeByte e i c1 p y position length
        else s

/-- ENGINE_TAKE_BYTE (R29), while the station is RUNNING or HOLDING (R23). -/
def execEngineTakeByte (engine : Fin 4) (s : State) : Host.Outcome State Fault Refusal :=
  .next (if s.active then s.engineStep engine else s)

/-! ## Fingerprints (R35, R57) -/

/-- The Resolution Unit takes a fingerprinted chunk: a NORMAL chunk joins a matching entry, or makes a resolution lookup; a
SURVEY chunk makes a lookup at once (R57). -/
def State.checkChunk (s : State) (w : Waiter) (f : Fingerprint) (sequence : Word) : State :=
  let kind := (s.stream w.1).kind
  match kind, s.askFor f with
  | .normal, some e => s.joinAsk e w
  | _, _ => s.makeRequest .resolution (.lookup f w.1 w.2 sequence kind false)

/-- The oldest running digest is completed; one whose result is dropped only lets its stream go (R35, R37, R38). -/
def State.completeDigest (s : State) (j : DigestJob) (rest : List DigestJob) : State :=
  let s1 : State := { s with digestQueue := rest }
  if j.fate ≠ .kept then (s1.abortRelease j.stream).conclude
  else
    let f := j.digest.finish
    let s2 := s1.modStream j.stream (fun x => x.modSlot j.slot (fun q =>
      { q with fingerprint := some f, phase := .checking }))
    match s2.chunkOf (j.stream, j.slot) with
    | none => s2
    | some q => s2.checkChunk (j.stream, j.slot) f q.sequence

/-- FINGERPRINT_COMPLETE (R35). -/
def execFingerprintComplete (s : State) : Host.Outcome State Fault Refusal :=
  .next
    (if s.active then
      match s.digestQueue with
      | [] => s
      | j :: rest => s.completeDigest j rest
    else s)

end Sys2Proof.Machine
end

