-- ==== Sys2Proof/WellFormed.lean ====
section
/-! DEFINITION. Which commands are well formed: the ranges the manual gives the operands. A command that is not well
formed never reaches the station (its wires cannot carry it, or another row of the table names it). -/

namespace Sys2Proof

/-- The codes of the four segment kinds (R171). -/
def isSegmentKind (k : Byte) : Bool := 1 ≤ k.toNat && k.toNat ≤ 4

/-- The codes of the six management commands (R177). -/
def isManagementCode (c : Byte) : Bool := 1 ≤ c.toNat && c.toNat ≤ 6

/-- The field ranges of R92, step 3, shared by HAVE and CLAIM. -/
def locationInRange (slot ordinal : Half) (sealedByte : Byte) : Bool :=
  slot.toNat ≤ 4095 && ordinal.toNat ≤ 1023 && sealedByte.toNat ≤ 1

/-- The ranges of the operands.
- `dataSegment`: the payload length field has 16 bits (R171, R172).
- `malformedSegment`: R3's two cases.
- `settingsLoaded`: 64 bytes when all were acknowledged (R163).
- `appendComplete`: a container slot and a payload offset (R118).
- `collision`: a bit of the longest frame (R81).
- `askReceived`, `haveReceived`, `claimReceived`: R92, step 3.
- `unknownCommand`: a code outside R177's list. -/
def Instr.wellFormed : Instr → Bool
  | .openSegment _ _ _ _ _ => true
  | .dataSegment _ _ payload => payload.length ≤ 65535
  | .closeSegment _ _ => true
  | .abortSegment _ => true
  | .malformedSegment kind stream _ => !isSegmentKind kind || 16 ≤ stream.toNat
  | .resetAssert => true
  | .resetRelease => true
  | .settingsLoaded acknowledged image => !acknowledged || image.length == 64
  | .clearWalkStep => true
  | .holdAssert => true
  | .holdRelease => true
  | .engineAssign => true
  | .engineTakeByte _ => true
  | .fingerprintComplete => true
  | .indexServiceStart => true
  | .scrubStepStart => true
  | .resolutionLookupComplete => true
  | .answerLookupComplete => true
  | .insertComplete => true
  | .scrubStepComplete => true
  | .compareAExpiry _ => true
  | .compareBExpiry _ => true
  | .appendComplete slot offset => slot ≤ 4095 && offset < 4194304
  | .attemptStart => true
  | .frameComplete => true
  | .collision bit => 1 ≤ bit && bit ≤ 360
  | .jamEnd => true
  | .askReceived sender _ _ => sender.toNat ≤ 15
  | .haveReceived sender target _ _ _ slot ordinal sealedByte =>
    sender.toNat ≤ 15 && target.toNat ≤ 15 && locationInRange slot ordinal sealedByte
  | .claimReceived sender _ _ slot ordinal sealedByte =>
    sender.toNat ≤ 15 && locationInRange slot ordinal sealedByte && sealedByte.toNat == 0
  | .candidateFrame _ => true
  | .sealTimerExpiry => true
  | .driveEnd => true
  | .pulseDetected => true
  | .sealLineHigh => true
  | .completion _ => true
  | .readStatus => true
  | .readReport => true
  | .ackEvents _ => true
  | .recipeTaken _ _ => true
  | .purge _ => true
  | .readStream _ => true
  | .unknownCommand code => !isManagementCode code
  | .transactionDiscarded => true
  | .sealLineLow => true
  | .frameBegins => true

end Sys2Proof
end

