-- ==== Sys2Proof/Machine/Intake.lean ====
section
/-! DEFINITION. The segments of the intake link (chapter 1): OPEN_SEGMENT, DATA_SEGMENT, CLOSE_SEGMENT, ABORT_SEGMENT and
MALFORMED_SEGMENT. A segment that arrives while RESET is asserted is not received (R1). -/

namespace Sys2Proof.Machine

/-- The one reply to a segment (R1, R172). -/
def State.reply (s : State) (stream : Byte) (kind : SegmentKind) (sequence : Half) (status : ReplyStatus) (free : Nat) :
    State :=
  s.send (.intake (replyBytes stream kind.code sequence status free))

/-- A reply about stream `i` with its free slot count as it stands (R1). -/
def State.replyFor (s : State) (i : Fin 16) (kind : SegmentKind) (sequence : Half) (status : ReplyStatus) : State :=
  s.reply (BitVec.ofNat 8 i.val) kind sequence status (s.stream i).freeQueueSlots

/-- R2 and R3 for the four known kinds: nothing in RESET, NOT_READY in LOADING and CLEARING, NOT_OPEN for a stream above
15, and HOLDING for an OPEN or DATA in HOLDING; otherwise the kind's own handling. -/
def State.intakeGate (s : State) (stream : Byte) (kind : SegmentKind) (sequence : Half) (own : Fin 16 → State) : State :=
  if s.station = .reset then s
  else if s.starting then s.reply stream kind sequence .notReady 64
  else
    match streamOf stream with
    | none => s.reply stream kind sequence .notOpen 0
    | some i =>
      if s.station = .holding ∧ (kind = .opens ∨ kind = .data) then s.replyFor i kind sequence .holding
      else own i

/-! ## OPEN (R5 to R7) -/

/-- The window check of R6, with exact sums. -/
def windowPasses (t : Settings) (base size : Word) : Bool :=
  size.toNat = 0 ||
  (16 ≤ size.toNat && size.toNat ≤ 1048576 && base.toNat % 64 = 0 && t.recipeBase ≤ base.toNat &&
    base.toNat + size.toNat * 64 ≤ t.recipeBase + t.recipeSize)

/-- The stream context that an accepted OPEN sets up (R7, R105). -/
def Stream.openedWith (branch base size : Word) : Stream :=
  { Stream.initial with
    state := .opened, branch := branch
    kind := if size.toNat = 0 then .survey else .normal
    windowBase := if size.toNat = 0 then 0 else base
    windowSize := size }

/-- The checks of R5 in order, and the acceptance of R7. -/
def State.takeOpen (s : State) (i : Fin 16) (sequence : Half) (branch base size : Word) : State :=
  if (s.stream i).state ≠ .idle then s.replyFor i .opens sequence .busy
  else if sequence ≠ 0#16 then s.replyFor i .opens sequence .sequence
  else if !windowPasses s.settings base size then s.replyFor i .opens sequence .range
  else (s.setStream i (Stream.openedWith branch base size)).replyFor i .opens sequence .accepted

/-- OPEN_SEGMENT (R5). -/
def execOpenSegment (stream : Byte) (sequence : Half) (branch windowBase windowSize : Word) (s : State) :
    Host.Outcome State Fault Refusal :=
  .next (s.intakeGate stream .opens sequence (fun i => s.takeOpen i sequence branch windowBase windowSize))

/-! ## DATA (R8 to R10) -/

/-- What a stream not taking DATA or CLOSE answers; none for OPEN (R8, R11). -/
def StreamState.refusal : StreamState → Option ReplyStatus
  | .idle => some .notOpen
  | .closing => some .notOpen
  | .aborting => some .notOpen
  | .faulted => some .faulted
  | .opened => none

/-- Accepted bytes rise by a payload length; past 2^64 − 1 the value is free (log entry 13). -/
def State.addBytes (s : State) (x : Stream) (n : Nat) : Wide × State :=
  if x.bytesAccepted.toNat + n < 18446744073709551616 then (x.bytesAccepted + BitVec.ofNat 64 n, s)
  else (Config.freeBytesAccepted s.choices, { s with choices := s.choices + 1 })

/-- The stream once an entry of a kind with a sequence is accepted: it takes the next queue slot, and the sequences advance
(R9, R10, R11, R13). -/
def Stream.accept (x : Stream) (sequence : Half) (kind : EntryKind) : Stream :=
  { x with
    queue := x.queue ++ [{ slot := x.nextQueueSlot, sequence := sequence, kind := kind }]
    nextQueueSlot := x.nextQueueSlot + 1
    lastAccepted := sequence
    expected := sequence + 1 }

/-- The acceptance of R10. -/
def State.acceptData (s : State) (i : Fin 16) (sequence : Half) (payload : List Byte) : State :=
  let x := s.stream i
  let (bytes, s1) := s.addBytes x payload.length
  let s2 : State := { s1 with staging := writeBytes s1.staging (segmentPlace i x.nextQueueSlot) payload }
  s2.setStream i { x.accept sequence (.data payload.length) with bytesAccepted := bytes }

/-- The checks of R8 in order, and the acceptance of R10. -/
def State.takeData (s : State) (i : Fin 16) (sequence : Half) (payload : List Byte) : State :=
  let x := s.stream i
  match x.state.refusal with
  | some status => s.replyFor i .data sequence status
  | none =>
    if payload.length = 0 ∨ 8192 < payload.length then s.replyFor i .data sequence .length
    else if sequence = x.lastAccepted then s.replyFor i .data sequence .duplicate
    else if sequence ≠ x.expected then s.replyFor i .data sequence .sequence
    else if x.freeQueueSlots = 0 then s.replyFor i .data sequence .full
    else (s.acceptData i sequence payload).replyFor i .data sequence .accepted

/-- DATA_SEGMENT (R8). -/
def execDataSegment (stream : Byte) (sequence : Half) (payload : List Byte) (s : State) :
    Host.Outcome State Fault Refusal :=
  .next (s.intakeGate stream .data sequence (fun i => s.takeData i sequence payload))

/-! ## CLOSE (R11) -/

/-- The checks of R11 in order, and the acceptance. -/
def State.takeClose (s : State) (i : Fin 16) (sequence : Half) : State :=
  let x := s.stream i
  match x.state.refusal with
  | some status => s.replyFor i .close sequence status
  | none =>
    if sequence ≠ x.expected then s.replyFor i .close sequence .sequence
    else if x.freeQueueSlots = 0 then s.replyFor i .close sequence .full
    else (s.setStream i { x.accept sequence .close with state := .closing }).replyFor i .close sequence .accepted

/-- CLOSE_SEGMENT (R11). -/
def execCloseSegment (stream : Byte) (sequence : Half) (s : State) : Host.Outcome State Fault Refusal :=
  .next (s.intakeGate stream .close sequence (fun i => s.takeClose i sequence))

/-! ## ABORT (R15) -/

/-- A CLOSED report of the stream held for room is withdrawn (R12). -/
def State.withdrawClosed (s : State) (i : Fin 16) : State :=
  { s with management := { s.management with held := s.management.held.filter (fun r => !r.closes i) } }

/-- The accepted ABORT: the stream turns ABORTING, its work is torn down, the reply carries 64, and the ABORTED report is
made if nothing is in flight (R15, R16). -/
def State.abortNow (s : State) (i : Fin 16) : State :=
  let s1 := (s.modStream i (fun x => { x with state := .aborting })).withdrawClosed i
  let s2 := ((s1.tearDown i .awaited).abortRelease i).reply (BitVec.ofNat 8 i.val) .abort 0 .accepted 64
  s2.settle

/-- R15 by the stream's state. -/
def State.takeAbort (s : State) (i : Fin 16) : State :=
  match (s.stream i).state with
  | .idle => s.reply (BitVec.ofNat 8 i.val) .abort 0 .notOpen 64
  | .aborting => s.reply (BitVec.ofNat 8 i.val) .abort 0 .accepted 64
  | .opened => s.abortNow i
  | .closing => s.abortNow i
  | .faulted => s.abortNow i

/-- ABORT_SEGMENT (R15). -/
def execAbortSegment (stream : Byte) (s : State) : Host.Outcome State Fault Refusal :=
  .next (s.intakeGate stream .abort 0 (fun i => s.takeAbort i))

/-! ## Malformed segments (R3) -/

/-- The sequence a reply echoes: 0 for an ABORT, else as received (R172). For a kind that is none of the four, to which R171 gives
no sequence field, header bytes 2 and 3 are echoed (DEDUCED, log entry 35). -/
def echoedSequence (kind : Byte) (sequence : Half) : Half := if kind = SegmentKind.abort.code then 0 else sequence

/-- MALFORMED_SEGMENT (R2, R3). A segment of a known kind for a stream from 0 to 15 is not malformed, and this step does not
occur for it (log entry 2). -/
def execMalformedSegment (kind stream : Byte) (sequence : Half) (s : State) : Host.Outcome State Fault Refusal :=
  .next
    (if s.station = .reset ∨ (isSegmentKind kind = true ∧ stream.toNat ≤ 15) then s
    else if s.starting then
      s.send (.intake (replyBytes stream kind (echoedSequence kind sequence) .notReady 64))
    else s.send (.intake (replyBytes stream kind (echoedSequence kind sequence) .notOpen 0)))

end Sys2Proof.Machine
end

