-- ==== Sys2Proof/Machine/ManagementCommands.lean ====
section
/-! DEFINITION. The management port (chapters 10 and 11): READ_STATUS, READ_REPORT, ACK_EVENTS, RECIPE_TAKEN, PURGE,
READ_STREAM, UNKNOWN_COMMAND and TRANSACTION_DISCARDED. In RESET the port takes no command (R166). -/

namespace Sys2Proof.Machine

/-- The reply to a management command (R166, R177). -/
def State.answer (s : State) (status : CommandStatus) (data : List Byte) : State :=
  s.send (.management (managementReply status data))

/-- A command other than READ_STATUS: nothing in RESET, NOT_READY in LOADING and CLEARING, its own service in RUNNING and
HOLDING (R166). -/
def State.commandGate (s : State) (own : State) : State :=
  if s.station = .reset then s
  else if s.starting then s.answer .notReady []
  else own

/-- READ_STATUS (R167): served in every state but RESET. -/
def execReadStatus (s : State) : Host.Outcome State Fault Refusal :=
  .next (if s.station = .reset then s else s.answer .ok s.statusBytes)

/-- The freed place of the report queue is taken by the head of the held list (R169). -/
def State.admitHeld (s : State) : State :=
  match s.management.held with
  | [] => s
  | r :: rest => ({ s with management := { s.management with held := rest } } : State).enterReport r

/-- READ_REPORT (R169): the oldest report is removed and returned, or NONE. -/
def State.popReport (s : State) : State :=
  match s.management.reports with
  | [] => s.answer .none []
  | r :: rest =>
    (({ s with management := { s.management with reports := rest } } : State).admitHeld.answer .ok r.bytes).refresh

/-- READ_REPORT (R169). -/
def execReadReport (s : State) : Host.Outcome State Fault Refusal := .next (s.commandGate s.popReport)

/-- The flags the mask names are cleared; a level flag whose condition holds is set again in the same step (R168). -/
def State.acknowledge (s : State) (mask : Byte) : State :=
  (({ s with management := { s.management with flags := s.management.flags &&& ~~~ mask } } : State).answer .ok []).refresh

/-- ACK_EVENTS (R168). -/
def execAckEvents (mask : Byte) (s : State) : Host.Outcome State Fault Refusal := .next (s.commandGate (s.acknowledge mask))

/-- Records taken after RECIPE_TAKEN, clamped to records written (R110). -/
def Stream.takenAfter (x : Stream) (count : Word) : Word :=
  if x.taken.toNat + count.toNat < x.written.toNat then x.taken + count else x.written

/-- RECIPE_TAKEN for a stream (R110): the emitter then looks again. -/
def State.takeRecipe (s : State) (i : Fin 16) (count : Word) : State :=
  let taken := (s.stream i).takenAfter count
  ((s.modStream i (fun x => { x with taken := taken })).answer .ok (leBytes 4 taken.toNat)).settle

/-- RECIPE_TAKEN (R110, R166). -/
def execRecipeTaken (stream : Byte) (count : Word) (s : State) : Host.Outcome State Fault Refusal :=
  .next (s.commandGate
    (match streamOf stream with
    | none => s.answer .range []
    | some i => s.takeRecipe i count))

/-- An accepted PURGE: the slot turns RETIRED, and an IDLE walker starts a walk in the same step (R155). -/
def State.retire (s : State) (slot : Nat) : State :=
  let s1 := s.setContainer slot { s.container slot with state := .retired }
  if s.walker.state = .idle then s1.startWalk else s1

/-- The checks of R154 in order. -/
def State.purgeSlot (s : State) (slot : Nat) : State :=
  let c := s.container slot
  if s.settings.slots ≤ slot then s.answer .range []
  else if c.state ≠ .sealed ∧ c.state ≠ .lost then s.answer .notSealed []
  else if 0 < c.references then s.answer .inUse []
  else ((s.retire slot).answer .ok []).refresh

/-- PURGE (R154). -/
def execPurge (slot : Half) (s : State) : Host.Outcome State Fault Refusal :=
  .next (s.commandGate (s.purgeSlot slot.toNat))

/-- READ_STREAM (R167). -/
def execReadStream (stream : Byte) (s : State) : Host.Outcome State Fault Refusal :=
  .next (s.commandGate
    (match streamOf stream with
    | none => s.answer .range []
    | some i => s.answer .ok (s.stream i).statusBytes))

/-- UNKNOWN_COMMAND (R166): answered UNKNOWN in every state but RESET; only known commands are answered NOT_READY. A code
that names a command is another row's (log entry 2). -/
def execUnknownCommand (code : Byte) (s : State) : Host.Outcome State Fault Refusal :=
  .next (if s.station = .reset ∨ isManagementCode code then s else s.answer .unknown [])

/-- TRANSACTION_DISCARDED (R166): nothing is done and no reply is formed. -/
def execTransactionDiscarded (s : State) : Host.Outcome State Fault Refusal := .next s

end Sys2Proof.Machine
end

