-- ==== Sys2Proof/Machine/SealCommands.lean ====
section
/-! DEFINITION. The seal timer and the seal line (chapter 8): SEAL_TIMER_EXPIRY, DRIVE_END, PULSE_DETECTED, SEAL_LINE_HIGH
and SEAL_LINE_LOW. -/

namespace Sys2Proof.Machine

/-- The period of the seal timer in bit times: units of 0.1 ms (R135). -/
def SealUnit.periodTicks (u : SealUnit) : Nat := microseconds (100 * u.period)

/-- SEAL_TIMER_EXPIRY: in DRIVE mode the timer reaches its period, stops, and the station pulls the line low (R136). -/
def execSealTimerExpiry (s : State) : Host.Outcome State Fault Refusal :=
  .next
    (match s.active && s.sealUnit.mode = .drive, s.sealUnit.timer with
    | true, some since =>
      let s1 := s.clockTo (since + s.sealUnit.periodTicks)
      { s1 with sealUnit := { s1.sealUnit with timer := none, drive := .driving s1.now } }
    | _, _ => s)

/-- DRIVE_END: after 20 µs the drive releases the line, and a timer still stopped, no pulse having been detected since the
expiry, is restarted (R136). -/
def execDriveEnd (s : State) : Host.Outcome State Fault Refusal :=
  .next
    (match s.active, s.sealUnit.drive with
    | true, .driving since =>
      let s1 := s.clockTo (since + microseconds 20)
      { s1 with sealUnit := { s1.sealUnit with
        drive := .idle
        timer := match s1.sealUnit.timer with
          | some t => some t
          | none => some s1.now } }
    | _, _ => s)

/-- PULSE_DETECTED: the line has been low for 5 µs. In DRIVE the timer restarts; in FOLLOW or DRIVE a round starts or the
round-again flag is set; in OFF nothing is done (R137). -/
def execPulseDetected (s : State) : Host.Outcome State Fault Refusal :=
  .next
    (match s.active, s.sealUnit.detect with
    | true, .lowUndetected since =>
      let s1 := s.clockTo (since + microseconds 5)
      let s2 : State := { s1 with sealUnit := { s1.sealUnit with
        detect := .lowDetected
        timer := if s1.sealUnit.mode = .drive then some s1.now else s1.sealUnit.timer } }
      if s.sealUnit.mode = .off then s2 else s2.askRound.settle
    | _, _ => s)

/-- SEAL_LINE_HIGH: the line goes high, which it cannot while this station pulls it; a watching station's detect state
returns to line high (R137). -/
def execSealLineHigh (s : State) : Host.Outcome State Fault Refusal :=
  .next
    (if s.sealUnit.drive = .idle then
      { s with
        sealLineLow := false
        sealUnit := { s.sealUnit with detect := if s.active then .lineHigh else s.sealUnit.detect } }
    else s)

/-- SEAL_LINE_LOW: the line goes low; a watching station whose detect state was line high starts the 5 µs toward detection
(R137). -/
def execSealLineLow (s : State) : Host.Outcome State Fault Refusal :=
  .next { s with
    sealLineLow := true
    sealUnit := { s.sealUnit with
      detect := if s.active ∧ s.sealUnit.detect = .lineHigh then .lowUndetected s.now else s.sealUnit.detect } }

end Sys2Proof.Machine
end

