-- ==== Sys2Proof/Machine/Station.lean ====
section
/-! DEFINITION. The station states (chapter 11): RESET_ASSERT, RESET_RELEASE, SETTINGS_LOADED, CLEAR_WALK_STEP, HOLD_ASSERT
and HOLD_RELEASE. -/

namespace Sys2Proof.Machine

/-! ## RESET (R162) -/

/-- The bucket a request or scrub step in service was working on. -/
def State.bucketInService (s : State) : Option Nat :=
  match s.index.service with
  | .nothing => none
  | .request (.lookup f _ _ _ _ _) => some (s.bucketNumber f)
  | .request (.answer f _ _) => some (s.bucketNumber f)
  | .request (.insert f _ _ _ _) => some (s.bucketNumber f)
  | .scrub b => some b

/-- Index memory after RESET: a bucket partly rewritten by a request in service may be left in any state; the rest stays
(R55). -/
def State.cutBuckets (s : State) : Sparse (List IndexEntry) :=
  match s.bucketInService with
  | none => s.index.buckets
  | some b =>
    s.index.buckets.put [] b
      ((Config.freeBucket s.choices).map (fun e => { fingerprint := e.1, slot := e.2.1, ordinal := e.2.2 }))

/-- The bits of a frame or a jam that RESET cuts off: those driven up to now, with no jam added (R100). -/
def State.bitsCut (s : State) : List Bool := s.bus.drivenBits s.settings.station s.now

/-- The line after RESET: the station stops driving at once, at the bit it has reached (R100). -/
def State.lineAfterReset (s : State) : BusLine :=
  match s.bus.line, s.bus.transmitter with
  | .driven t, _ => .driven t
  | .idle _, .sending since => .idle (since + s.bitsCut.length)
  | .idle _, .jamming since => .idle (since + s.bitsCut.length)
  | .idle t, .empty => .idle t
  | .idle t, .waiting _ => .idle t

/-- RESET_ASSERT: every block stops and takes the reset values of its own chapter (R162), and what the station was driving on
the peer bus ends where it stands (R100). What is not the station's to reset stays: the levels of the HOLD and seal line
inputs, the attached memories, the clock, what has been sent (log entry 27). -/
def execResetAssert (s : State) : Host.Outcome State Fault Refusal :=
  .next { State.reset with
    hold := s.hold
    sealLineLow := s.sealLineLow
    index := { Index.initial with buckets := s.cutBuckets }
    bus := { PeerBus.initial with line := s.lineAfterReset }
    staging := s.staging
    now := s.now
    choices := s.choices + 1
    sent := s.sent ++ (if s.bitsCut = [] then [] else [.bus s.bitsCut])
    pending := s.pending }

/-- RESET_RELEASE: the station enters LOADING (R162). -/
def execResetRelease (s : State) : Host.Outcome State Fault Refusal :=
  .next (if s.station = .reset then { s with station := .loading } else s)

/-! ## Settings and the clear walk (R54, R163) -/

/-- The settings are in force: the container table is all FREE for the S just loaded, mode and period of the Seal Unit are
taken, and the clear walk is at bucket 0 (R54, R118, R133, R135, R163). -/
def State.loadSettings (s : State) (t : Settings) : State :=
  { s with
    station := .clearing, settings := t, clearPosition := 0
    containers := { ContainerManager.initial with freeSlots := t.slots }
    sealUnit := { s.sealUnit with mode := t.mode, period := t.sealP * t.sealC } }

/-- SETTINGS_LOADED: the values are taken and clamped, or defaults are used and SETTINGS_DEFAULT is set; the station enters
CLEARING in the same step (R162, R163). -/
def execSettingsLoaded (acknowledged : Bool) (image : List Byte) (s : State) : Host.Outcome State Fault Refusal :=
  .next
    (if s.station = .loading then
      let s1 := s.loadSettings (Settings.load acknowledged image)
      (if imageValid acknowledged image then s1 else s1.latch .settingsDefault).refresh
    else s)

/-- The station enters HOLDING, and the Seal Unit makes a hold round in the same step (R141, R164). -/
def State.enterHolding (s : State) : State := ({ s with station := .holding } : State).askRound

/-- The station enters RUNNING from CLEARING: the detect state starts from the line's level, the seal timer starts in DRIVE,
and the station watches the bus from now on, with no frame in progress taken up (R91, R136, R137; log entry 24). -/
def State.enterRunning (s : State) : State :=
  { s with
    station := .running
    sealUnit := { s.sealUnit with
      detect := if s.sealLineLow then .lowDetected else .lineHigh
      timer := if s.sealUnit.mode = .drive then some s.now else s.sealUnit.timer }
    bus := { s.bus with receiver := .listening, watchedSince := s.now } }

/-- CLEAR_WALK_STEP: the walk empties one bucket; after bucket 2^k − 1 the station enters RUNNING, and HOLDING at once if
HOLD is asserted (R54, R162). -/
def execClearWalkStep (s : State) : Host.Outcome State Fault Refusal :=
  .next
    (if s.station = .clearing then
      let s1 : State := { s.setBucket s.clearPosition [] with clearPosition := s.clearPosition + 1 }
      if s1.clearPosition < 2 ^ s.settings.indexExponent then s1
      else if s.hold then s1.enterRunning.enterHolding.settle
      else s1.enterRunning.refresh
    else s)

/-! ## HOLD (R164) -/

/-- HOLD_ASSERT: in RUNNING the station goes to HOLDING with a hold round; in every other state only the input's level
changes (R162, R164). -/
def execHoldAssert (s : State) : Host.Outcome State Fault Refusal :=
  .next
    (if s.station = .running then ({ s with hold := true } : State).enterHolding.settle
    else { s with hold := true })

/-- HOLD_RELEASE: in HOLDING the station returns to RUNNING and QUIET is deasserted (R164). -/
def execHoldRelease (s : State) : Host.Outcome State Fault Refusal :=
  .next
    (if s.station = .holding then ({ s with hold := false, station := .running } : State).refresh
    else { s with hold := false })

end Sys2Proof.Machine
end

