-- ==== Sys2Proof/Machine/StoreCommands.lean ====
section
/-! DEFINITION. The store port's completions (chapters 6 and 9): COMPLETION. -/

namespace Sys2Proof.Machine

/-- Any status byte but the OK code is an ERROR (R143, R175). That bytes 1 to 3 of a completion are not looked at is the model's
reading (DEDUCED, log entry 34). -/
def completionError (status : Byte) : Bool := status ≠ 0#8

/-! ## Recipe writes (R109, R115, R116, R146) -/

/-- The stream's counter for a recorded disposition rises (R109). -/
def Stream.countRecorded (x : Stream) : Disposition → Stream
  | .localNew => { x with localNew := x.localNew + 1 }
  | .localDup => { x with localDup := x.localDup + 1 }
  | .remote => { x with remote := x.remote + 1 }
  | .surveyNew => x
  | .surveyDup => x

/-- The head slot of a recorded CHUNK is freed, its unit of the container taken away and its disposition counted (R103,
R109). -/
def State.recordChunk (s : State) (i : Fin 16) : State :=
  match (s.stream i).pending with
  | [] => s
  | q :: rest =>
    (s.releaseChunk q).modStream i (fun x =>
      { x.countRecorded (q.disposition.getD .surveyNew) with pending := rest })

/-- A recipe write of an OPEN or CLOSING stream completes OK: records written rises, the record's kind decides the rest, and
the write in flight becomes absent (R109, R113). -/
def State.recordWritten (s : State) (i : Fin 16) (kind : RecordKind) : State :=
  let s1 := match kind with
    | .chunk => s.recordChunk i
    | .mark => s
    | .last => s
  let s2 := s1.modStream i (fun x => { x with written := x.written + 1, writeInFlight := none })
  match kind with
  | .last => s2.makeReport ((s2.stream i).closedReport i)
  | .chunk => s2.closeCheck i
  | .mark => s2.closeCheck i

/-- The sequence of the first chunk whose record was not written (R115). -/
def Stream.firstUnwritten (x : Stream) : Word :=
  match x.pending with
  | q :: _ => q.sequence
  | [] => x.nextChunk

/-- A store error faults the stream (R115, R116). -/
def State.faultStream (s : State) (i : Fin 16) : State :=
  let x := s.stream i
  let report : Report := .faulted i x.branch x.bytesAccepted x.expected x.firstUnwritten x.written
  let s1 := s.modStream i (fun y => { y with state := .faulted, writeInFlight := none, endProgress := .none })
  (s1.tearDown i .dropped).makeReport report

/-- The Pending Lists block takes a recipe completion by the stream's state (R16, R109, R115, R146). -/
def State.recipeCompleted (s : State) (i : Fin 16) (kind : RecordKind) (error : Bool) : State :=
  match (s.stream i).state with
  | .opened => if error then s.faultStream i else s.recordWritten i kind
  | .closing => if error then s.faultStream i else s.recordWritten i kind
  | .aborting => (s.modStream i (fun x => { x with writeInFlight := none })).abortRelease i
  | .idle => s
  | .faulted => s

/-! ## Bursts (R150) -/

/-- A burst's completion: the error mark, and after the last burst the flush's outcome; otherwise the ahead count becomes the
number of recipe writes queued (R150, R151). -/
def State.burstCompleted (s : State) (f : ActiveFlush) (error : Bool) : State :=
  let marked := f.error || error
  if f.next < f.length then
    { s with store := { s.store with active := some { f with error := marked }, ahead := s.store.recipeQueue.length } }
  else
    ({ s with store := { s.store with active := none, ahead := 0 } } : State).flushOutcome f.slot marked

/-! ## The completion (R143) -/

/-- COMPLETION (R143): it is ignored when nothing is outstanding. Its status byte alone counts, and bytes 1 to 3 change nothing,
although R170 does not name completions (DEDUCED, log entry 34). -/
def execCompletion (status : Byte) (s : State) : Host.Outcome State Fault Refusal :=
  .next
    (let error := completionError status
    let s1 : State := { s with store := { s.store with port := .idle } }
    match s.store.port with
    | .idle => s
    | .recipe i kind _ =>
      let s2 := if error then s1.latch .storeFault else s1
      (s2.recipeCompleted i kind error).settleCompletion
    | .burst =>
      match s.store.active with
      | none => s1.settleCompletion
      | some f => (s1.burstCompleted f error).settleCompletion)

end Sys2Proof.Machine
end

