-- ==== Sys2Proof/Machine/Dispatch.lean ====
section
/-! DEFINITION. The dispatch: one arm for each command. -/

namespace Sys2Proof.Machine

/-- The effect of a command on everything but the queue of commands. -/
def exec (i : Instr) (s : State) : Host.Outcome State Fault Refusal :=
  match i with
  | .openSegment stream sequence branch windowBase windowSize => Sys2Proof.Machine.execOpenSegment stream sequence branch windowBase windowSize s
  | .dataSegment stream sequence payload => Sys2Proof.Machine.execDataSegment stream sequence payload s
  | .closeSegment stream sequence => Sys2Proof.Machine.execCloseSegment stream sequence s
  | .abortSegment stream => Sys2Proof.Machine.execAbortSegment stream s
  | .malformedSegment kind stream sequence => Sys2Proof.Machine.execMalformedSegment kind stream sequence s
  | .resetAssert => Sys2Proof.Machine.execResetAssert s
  | .resetRelease => Sys2Proof.Machine.execResetRelease s
  | .settingsLoaded acknowledged image => Sys2Proof.Machine.execSettingsLoaded acknowledged image s
  | .clearWalkStep => Sys2Proof.Machine.execClearWalkStep s
  | .holdAssert => Sys2Proof.Machine.execHoldAssert s
  | .holdRelease => Sys2Proof.Machine.execHoldRelease s
  | .engineAssign => Sys2Proof.Machine.execEngineAssign s
  | .engineTakeByte engine => Sys2Proof.Machine.execEngineTakeByte engine s
  | .fingerprintComplete => Sys2Proof.Machine.execFingerprintComplete s
  | .indexServiceStart => Sys2Proof.Machine.execIndexServiceStart s
  | .scrubStepStart => Sys2Proof.Machine.execScrubStepStart s
  | .resolutionLookupComplete => Sys2Proof.Machine.execResolutionLookupComplete s
  | .answerLookupComplete => Sys2Proof.Machine.execAnswerLookupComplete s
  | .insertComplete => Sys2Proof.Machine.execInsertComplete s
  | .scrubStepComplete => Sys2Proof.Machine.execScrubStepComplete s
  | .compareAExpiry tag => Sys2Proof.Machine.execCompareAExpiry tag s
  | .compareBExpiry tag => Sys2Proof.Machine.execCompareBExpiry tag s
  | .appendComplete slot offset => Sys2Proof.Machine.execAppendComplete slot offset s
  | .attemptStart => Sys2Proof.Machine.execAttemptStart s
  | .frameComplete => Sys2Proof.Machine.execFrameComplete s
  | .collision bit => Sys2Proof.Machine.execCollision bit s
  | .jamEnd => Sys2Proof.Machine.execJamEnd s
  | .askReceived sender tag fingerprint => Sys2Proof.Machine.execAskReceived sender tag fingerprint s
  | .haveReceived sender target tag fingerprint incarnation slot ordinal sealedByte => Sys2Proof.Machine.execHaveReceived sender target tag fingerprint incarnation slot ordinal sealedByte s
  | .claimReceived sender fingerprint incarnation slot ordinal sealedByte => Sys2Proof.Machine.execClaimReceived sender fingerprint incarnation slot ordinal sealedByte s
  | .candidateFrame bits => Sys2Proof.Machine.execCandidateFrame bits s
  | .sealTimerExpiry => Sys2Proof.Machine.execSealTimerExpiry s
  | .driveEnd => Sys2Proof.Machine.execDriveEnd s
  | .pulseDetected => Sys2Proof.Machine.execPulseDetected s
  | .sealLineHigh => Sys2Proof.Machine.execSealLineHigh s
  | .completion status => Sys2Proof.Machine.execCompletion status s
  | .readStatus => Sys2Proof.Machine.execReadStatus s
  | .readReport => Sys2Proof.Machine.execReadReport s
  | .ackEvents mask => Sys2Proof.Machine.execAckEvents mask s
  | .recipeTaken stream count => Sys2Proof.Machine.execRecipeTaken stream count s
  | .purge slot => Sys2Proof.Machine.execPurge slot s
  | .readStream stream => Sys2Proof.Machine.execReadStream stream s
  | .unknownCommand code => Sys2Proof.Machine.execUnknownCommand code s
  | .transactionDiscarded => Sys2Proof.Machine.execTransactionDiscarded s
  | .sealLineLow => Sys2Proof.Machine.execSealLineLow s
  | .frameBegins => Sys2Proof.Machine.execFrameBegins s

end Sys2Proof.Machine
end

