-- ==== Sys2Proof/Safety.lean ====
section
/-! DEFINITION. What holds of a station between steps: the promises the manual makes in prose about its tables, queues and
outputs, in the terms the statements use. -/

namespace Sys2Proof.Machine

/-- Staging memory, index memory and the container table are in their one canonical form. -/
def State.canonical (s : State) : Prop :=
  Memory.wf s.staging = true ∧ Sparse.wf [] s.index.buckets = true ∧
    Sparse.wf Container.initial s.containers.table = true

/-- The expected sequence of every stream is its last accepted sequence plus 1 (R9). -/
def State.sequencesFollow (s : State) : Prop :=
  ∀ i, (s.stream i).expected = (s.stream i).lastAccepted + 1

/-- Every segment queue holds at most its 64 entries (R13). -/
def State.segmentQueuesFit (s : State) : Prop := ∀ i, (s.stream i).queue.length ≤ 64

/-- The slots of every pending list are distinct (R102); being numbers below 32, they are at most 32. -/
def State.pendingSlotsDistinct (s : State) : Prop := ∀ i, ((s.stream i).pending.map (·.number)).Nodup

/-- No stream is held by two engines (R18). -/
def State.enginesApart (s : State) : Prop :=
  ∀ d e : Fin 4, ∀ i, (s.engine d).serves i = true → (s.engine e).serves i = true → d = e

/-- What a bucket may hold: at most 8 entries, no two with one fingerprint (R41, R50). -/
def bucketSound (entries : List IndexEntry) : Prop := entries.length ≤ 8 ∧ (entries.map (·.fingerprint)).Nodup

/-- Every bucket in use is sound; in CLEARING, the buckets the clear walk has passed are (R50, R54). -/
def State.bucketsSound (s : State) : Prop :=
  (s.active = true → ∀ b, b < 2 ^ s.settings.indexExponent → bucketSound (s.bucket b)) ∧
  (s.station = .clearing → ∀ b, b < s.clearPosition → bucketSound (s.bucket b))

/-- The index request queue holds at most 64 requests (R42). -/
def State.requestQueueFits (s : State) : Prop := s.index.queue.length ≤ 64

/-- The ask table holds at most 64 entries, no two with one fingerprint and no two with one tag (R63, R64). -/
def State.askTableSound (s : State) : Prop :=
  s.resolution.entries.length ≤ 64 ∧ (s.resolution.entries.map (·.fingerprint)).Nodup ∧
    (s.resolution.entries.map (·.tag)).Nodup

/-- The transmit queue and the answer queue hold at most 32 each (R85, R96). -/
def State.busQueuesFit (s : State) : Prop := s.bus.txQueue.length ≤ 32 ∧ s.bus.answerQueue.length ≤ 32

/-- The report queue holds at most 32 reports, reports are held only while it is full, and none is left unplaced between
steps (R169). -/
def State.reportsPlaced (s : State) : Prop :=
  s.management.reports.length ≤ 32 ∧ (s.management.held ≠ [] → s.management.reports.length = 32) ∧
    s.management.fresh = []

/-- The condition of QUIET (R165): the station is HOLDING, no container is OPEN and non-empty, no append is requested or in
flight, and the Store Port is clear of work (R152). -/
def State.quietDue (s : State) : Prop :=
  s.station = .holding ∧
  (∀ e ∈ s.containers.table, e.2.state = .opened → e.2.count = 0 ∧ e.2.inFlight = []) ∧
  s.containers.openWait = [] ∧ (∀ e ∈ s.containers.table, e.2.inFlight = []) ∧
  s.store.port = .idle ∧ s.store.recipeQueue = [] ∧ s.store.flushQueue = [] ∧ s.store.active = none

/-- The level flags, ATTN and QUIET agree with their conditions (R122, R165, R168, in the bits of R170). Until S is loaded the
two slot flags are clear (log entry 6). -/
def State.outputsAgree (s : State) : Prop :=
  let flags := s.management.flags
  let loaded := s.station ≠ .reset ∧ s.station ≠ .loading
  (flags &&& 0x20#8 = 0x20#8 ↔ loaded ∧ s.containers.freeSlots ≤ s.settings.slotsLow) ∧
  (flags &&& 0x40#8 = 0x40#8 ↔ loaded ∧ s.containers.freeSlots = 0) ∧
  (flags &&& 0x80#8 = 0x80#8 ↔ s.management.reports ≠ []) ∧
  (s.management.attn = true ↔ flags &&& s.settings.enables ≠ 0#8) ∧
  (s.quiet = true ↔ s.quietDue)

/-- Outside RUNNING and HOLDING nothing waits at the Store Port or for a container (R133, R144, R152, R153, R162). -/
def State.nothingWaitsUnlessActive (s : State) : Prop :=
  s.active = false → s.store = StorePort.initial ∧ s.containers.openWait = []

/-- The allocation cursor names a slot once S is loaded (R121), and the open-wait queue is left with no request that could be
served (R124). -/
def State.openWaitSettled (s : State) : Prop :=
  (s.station ≠ .reset → s.station ≠ .loading → s.containers.cursor < s.settings.slots) ∧
  ¬ ((∃ r ∈ s.containers.openWait, ∀ e ∈ s.containers.table, ¬ (e.2.state = .opened ∧ e.2.owner = some r.stream)) ∧
    (∃ k, k < s.settings.slots ∧ (s.container k).state = .free) ∧
    (∃ a, a < 20 ∧ ∀ e ∈ s.containers.table, e.2.area ≠ some a))

/-- An invariant that every step keeps. -/
def keptByStep (inv : State → Prop) : Prop :=
  ∀ s t : State, inv s → step s = .next t → inv t

/-! ## The manual's conditions, as the statements name them -/

/-- The stream number as the byte that names it. -/
def streamByte (i : Fin 16) : Byte := BitVec.ofNat 8 i.val

/-- The window of an OPEN is acceptable (R6). -/
def windowAcceptable (t : Settings) (base size : Word) : Prop :=
  size.toNat = 0 ∨
  (16 ≤ size.toNat ∧ size.toNat ≤ 1048576 ∧ base.toNat % 64 = 0 ∧ t.recipeBase ≤ base.toNat ∧
    base.toNat + size.toNat * 64 ≤ t.recipeBase + t.recipeSize)

/-- A pending slot of the stream is free (R102). -/
def Stream.hasFreeSlot (x : Stream) (p : Fin 32) : Prop := ∀ q ∈ x.pending, q.number ≠ p

/-- Stream `i` meets the conditions for an engine (R19). -/
def State.mayBeAssigned (s : State) (i : Fin 16) : Prop :=
  s.station = .running ∧ ((s.stream i).state = .opened ∨ (s.stream i).state = .closing) ∧ (s.stream i).queue ≠ [] ∧
    (∀ e : Fin 4, (s.engine e).serves i = false) ∧
    ((s.stream i).chunker.slot ≠ none ∨ ∃ p, (s.stream i).hasFreeSlot p)

/-- A chunk of length `n` whose last byte gave test value `v` ends there (R27). -/
abbrev chunkEnds (t : Settings) (n v : Nat) : Prop :=
  (t.lMin ≤ n ∧ n < t.nT ∧ v % 2 ^ (t.exponent + 1) = 2 ^ (t.exponent + 1) - 1) ∨
  (t.lMin ≤ n ∧ t.nT ≤ n ∧ n < t.lMax ∧ v % 2 ^ (t.exponent - 1) = 2 ^ (t.exponent - 1) - 1) ∨
  (t.lMin ≤ n ∧ t.nT ≤ n ∧ t.lMax ≤ n)

/-- The sum of the 32 window bytes of a context (R24). -/
def ChunkerContext.plainSum (c : ChunkerContext) : Nat :=
  ((List.finRange 32).map (fun j => (c.window[c.position + j]).toNat)).sum

/-- The weighted sum of the window bytes: the oldest has weight 32, the newest weight 1 (R24). -/
def ChunkerContext.weightedSum (c : ChunkerContext) : Nat :=
  ((List.finRange 32).map (fun j => (32 - j.val) * (c.window[c.position + j]).toNat)).sum

/-- A message of whole bytes with the padding of R35: 0x80, zero bytes to 56 modulo 64, and the length in bits as a 64-bit
big-endian number. -/
def paddedMessage (bytes : List Byte) : List Byte :=
  bytes ++ [0x80#8] ++ List.replicate ((119 - bytes.length % 64) % 64) 0#8 ++
    (List.range 8).map (fun i => BitVec.ofNat 8 (bytes.length * 8 / 256 ^ (7 - i)))

/-- The 64-byte blocks of a message. -/
def blocksOf (bytes : List Byte) : List (List Byte) :=
  (List.range (bytes.length / 64)).map (fun k => (bytes.drop (64 * k)).take 64)

/-- A pending slot as resolving leaves it (R62). -/
def PendingSlot.resolvedAs (q : PendingSlot) (d : Disposition) (l : Location) (holder : Option Bool) : PendingSlot :=
  { q with phase := .resolved, disposition := some d, location := some l, holderSealed := holder }

/-- The entries of a bucket whose container is no longer live are gone from it, and no other bucket has changed (R45). -/
def State.tidied (s t : State) (b : Nat) : Prop :=
  t.bucket b = (s.bucket b).filter (fun e => (s.container e.slot).state = .opened ||
    (s.container e.slot).state = .seals || (s.container e.slot).state = .sealed) ∧
  ∀ a, a ≠ b → t.bucket a = s.bucket a

/-- Stream `i` comes first of the streams that may be assigned, counting on from the stream assigned last (R20). -/
def State.firstInTurn (s : State) (i : Fin 16) : Prop :=
  s.mayBeAssigned i ∧ ∀ j, s.mayBeAssigned j → i - (s.lastAssigned + 1) ≤ j - (s.lastAssigned + 1)

/-- An index entry is live: its slot is OPEN, SEALING or SEALED (R41). -/
def State.isLive (s : State) (e : IndexEntry) : Bool :=
  (s.container e.slot).state = .opened || (s.container e.slot).state = .seals || (s.container e.slot).state = .sealed

/-- What the station works on for a stream beside its end and its records: kept when only those change. -/
def Stream.sameWork (x y : Stream) : Prop :=
  y.branch = x.branch ∧ y.kind = x.kind ∧ y.windowBase = x.windowBase ∧ y.windowSize = x.windowSize ∧
    y.written = x.written ∧ y.taken = x.taken ∧ y.expected = x.expected ∧ y.lastAccepted = x.lastAccepted ∧
    y.nextChunk = x.nextChunk ∧ y.bytesAccepted = x.bytesAccepted ∧ y.chunks = x.chunks ∧ y.localNew = x.localNew ∧
    y.localDup = x.localDup ∧ y.remote = x.remote ∧ y.chunker = x.chunker

/-- A place the transmit queue or the ASK holding line still has for an unsent ASK with this tag and fingerprint (R88). -/
def PeerBus.hasUnsentAsk (b : PeerBus) (tag : Byte) (f : Fingerprint) : Prop :=
  (tag, f) ∈ b.askHolding ∨ ∃ t ∈ b.txQueue, t.frame = .ask tag f ∧ t.attempts = 0

/-- An append for the ask entry with this tag is requested or in flight (R73). -/
def State.appendUnderWay (s : State) (tag : Byte) (w : Waiter) : Prop :=
  (∃ r ∈ s.containers.openWait, r.tag = tag ∧ r.stream = w.1 ∧ r.slot = w.2) ∨
  (∃ k, ∃ a ∈ (s.container k).inFlight, a.tag = tag ∧ a.stream = w.1 ∧ a.slot = w.2)

/-! ### Fields and clamps -/

/-- Consecutive fields, each a width in bytes and a number, least significant byte first (R170). -/
def fieldBytes (fields : List (Nat × Nat)) : List Byte := fields.flatMap (fun f => leBytes f.1 f.2)

/-- A value taken from the settings image and clamped to a range (R163). -/
def clampedTo (low high value taken : Nat) : Prop :=
  (low ≤ value → value ≤ high → taken = value) ∧ (value < low → taken = low) ∧ (high < value → taken = high)

/-- The fields of a report after its kind, with their widths, in the order of R169 (R177). -/
def Report.fields : Report → List (Nat × Nat)
  | .closed i branch bytes chunks localNew localDup remote surveyNew surveyDup written =>
    [(1, i.val), (4, branch.toNat), (8, bytes.toNat), (4, chunks.toNat), (4, localNew.toNat), (4, localDup.toNat),
      (4, remote.toNat), (4, surveyNew.toNat), (4, surveyDup.toNat), (4, written.toNat)]
  | .aborted i branch bytes chunks => [(1, i.val), (4, branch.toNat), (8, bytes.toNat), (4, chunks.toNat)]
  | .faulted i branch bytes nextSegment firstUnwritten written =>
    [(1, i.val), (1, 1), (4, branch.toNat), (8, bytes.toNat), (2, nextSegment.toNat), (4, firstUnwritten.toNat),
      (4, written.toNat)]
  | .lost slot reason round count payload =>
    [(2, slot), (1, ([.full, .close, .round, .hold, .abort] : List SealReason).idxOf reason + 1), (2, round.toNat),
      (2, count), (4, payload)]
  | .purged slot walks => [(2, slot), (2, walks.toNat)]

/-- The report kind codes (R177). -/
def Report.kindNumber : Report → Nat
  | .closed _ _ _ _ _ _ _ _ _ _ => 1
  | .aborted _ _ _ _ => 2
  | .faulted _ _ _ _ _ _ => 3
  | .lost _ _ _ _ _ => 4
  | .purged _ _ => 5

/-- A report whose entry into the report queue turns stream `i` IDLE: its CLOSED or its ABORTED report (R12, R16). -/
def Report.endsStream (i : Fin 16) : Report → Prop
  | .closed j _ _ _ _ _ _ _ _ _ => j = i
  | .aborted j _ _ _ => j = i
  | .faulted _ _ _ _ _ _ => False
  | .lost _ _ _ _ _ => False
  | .purged _ _ => False

/-- The fields of READ_STATUS with their widths, in the order of R167; a state is its place in its chapter's table (R177). The
widths of the held reports and of the walk position are log entry 16's. -/
def State.statusFields (s : State) : List (Nat × Nat) :=
  let t := s.settings
  let u := s.sealUnit
  [(1, ([.reset, .loading, .clearing, .running, .holding] : List StationState).idxOf s.station),
    (1, s.hold.toNat), (1, s.quiet.toNat), (1, s.management.attn.toNat),
    (1, s.management.flags.toNat), (1, t.enables.toNat),
    (1, s.management.reports.length), (2, s.management.held.length),
    (1, t.station.toNat), (2, t.incarnation.toNat), (1, ([.off, .follow, .drive] : List SealMode).idxOf t.mode),
    (1, t.sealP), (2, t.sealC), (2, t.compareA), (2, t.compareB), (2, t.lMin), (4, t.nT), (4, t.lMax),
    (1, t.exponent), (1, t.indexExponent), (2, t.slots), (2, t.slotsLow),
    (1, ([.off, .four, .sixteen, .thirtyTwo] : List Credit).idxOf t.credit),
    (4, t.recipeBase), (4, t.recipeSize), (4, t.storeUnits),
    (2, s.containers.freeSlots), (2, s.containers.cursor),
    (2, u.counter.toNat), (2, (u.inProgress.getD 0).toNat),
    (2, u.lastCompleted.toNat), (1, if u.lastStatus = .clean then 0 else 1), (2, u.lastBroken.toNat),
    (1, ([.idle, .walking, .reporting] : List WalkerState).idxOf s.walker.state),
    (4, s.walker.position), (2, s.walker.snapshot.length), (2, s.walker.completed.toNat),
    (1, s.resolution.entries.length), (2, s.resolution.waitQueue.length)]

/-- The fields of READ_STREAM with their widths, in the order of R167, an optional one behind its presence mark (R177; an
absent one is log entry 16's). -/
def Stream.statusFields (x : Stream) : List (Nat × Nat) :=
  [(1, ([.idle, .opened, .closing, .aborting, .faulted] : List StreamState).idxOf x.state),
    (1, if x.kind = .normal then 0 else 1), (4, x.branch.toNat), (4, x.windowBase.toNat), (4, x.windowSize.toNat),
    (4, x.written.toNat), (4, x.taken.toNat), (2, x.expected.toNat), (2, x.lastAccepted.toNat),
    (4, x.nextChunk.toNat), (8, x.bytesAccepted.toNat), (4, x.chunks.toNat),
    (4, x.localNew.toNat), (4, x.localDup.toNat), (4, x.remote.toNat), (4, x.surveyNew.toNat), (4, x.surveyDup.toNat)] ++
  (match x.owedMark with
    | some m => [(1, 1), (2, m.round.toNat), (1, if m.status = .clean then 0 else 1)]
    | none => [(1, 0), (2, 0), (1, 0)]) ++
  [(1, 64 - x.queue.length), (1, x.pending.length)] ++
  (match x.current with
    | some k => [(1, 1), (2, k)]
    | none => [(1, 0), (2, 0)])

/-! ### Requests and frames handed over -/

/-- The Chunk Index once a producer has made a request: it enters the queue, and its producer is the one that entered last,
when the queue has room and nothing of that producer is held; otherwise it is held behind the producer's others (R43). -/
def Index.withRequest (x : Index) (p : Producer) (r : IndexRequest) : Index :=
  match p with
  | .resolution =>
    if x.heldResolution = [] ∧ x.queue.length < 64 then { x with queue := x.queue ++ [r], lastProducer := .resolution }
    else { x with heldResolution := x.heldResolution ++ [r] }
  | .answer =>
    if x.heldAnswer = [] ∧ x.queue.length < 64 then { x with queue := x.queue ++ [r], lastProducer := .answer }
    else { x with heldAnswer := x.heldAnswer ++ [r] }

/-- A frame stands behind the newest of the transmit queue, and an EMPTY transmitter is WAITING (R86, R87). -/
def PeerBus.withFrame (b : PeerBus) (f : Frame) : PeerBus :=
  { b with
    txQueue := b.txQueue ++ [{ frame := f, attempts := 0 }]
    transmitter := match b.transmitter with
      | .empty => .waiting none
      | busy => busy }

/-- A first ASK handed over: it enters the queue when that holds fewer than 32 frames and the ASK holding line is empty, and
goes to the tail of the holding line otherwise (R86). -/
def PeerBus.withFirstAsk (b : PeerBus) (tag : Byte) (f : Fingerprint) : PeerBus :=
  if b.txQueue.length < 32 ∧ b.askHolding = [] then b.withFrame (.ask tag f)
  else { b with askHolding := b.askHolding ++ [(tag, f)] }

/-- A HAVE or a CLAIM handed over: it enters on the same terms and is dropped otherwise (R86). -/
def PeerBus.withHaveOrClaim (b : PeerBus) (f : Frame) : PeerBus :=
  if b.txQueue.length < 32 ∧ b.askHolding = [] then b.withFrame f else b

/-! ### Containers -/

/-- The slot that the next opening takes: the first FREE one from the allocation cursor on, counting modulo S (R121). -/
def State.nextSlot (s : State) (k : Nat) : Prop :=
  s.containers.cursor < s.settings.slots ∧ k < s.settings.slots ∧ (s.container k).state = .free ∧
  ∀ j, j < s.settings.slots → (s.container j).state = .free →
    (k + s.settings.slots - s.containers.cursor) % s.settings.slots ≤
      (j + s.settings.slots - s.containers.cursor) % s.settings.slots

/-- An assembly area is held by some container (R120). -/
def State.areaHeld (s : State) (a : Nat) : Prop := ∃ e ∈ s.containers.table, e.2.area = some a

/-- The area that the next opening takes: the lowest-numbered free one (R121). -/
def State.nextArea (s : State) (a : Nat) : Prop := a < 20 ∧ ¬ s.areaHeld a ∧ ∀ b, b < a → s.areaHeld b

/-- A stream's owner field names an OPEN container, so that its waiting requests are not ready (R124). -/
def State.ownerOfOpen (s : State) (i : Fin 16) : Prop :=
  ∃ e ∈ s.containers.table, e.2.state = .opened ∧ e.2.owner = some i

/-- The fit check of a chunk of a length against a container (R123). -/
def Container.hasRoom (c : Container) (length : Nat) : Prop :=
  c.fill + length ≤ 4194304 ∧ c.count + c.inFlight.length < 1024

/-- The seal reason codes (R175). -/
def sealReasonNumber : SealReason → Nat
  | .full => 1
  | .close => 2
  | .round => 3
  | .hold => 4
  | .abort => 5

/-- What a container that turns SEALING is handed to the flush queue with: its length and its header (R129, R147, R175). -/
def Container.flushJob (c : Container) (t : Settings) (k : Nat) (reason : SealReason) : FlushJob :=
  { slot := k, length := 64 + c.count * 48 + c.payload
    header := fieldBytes [(1, t.station.toNat), (1, sealReasonNumber reason), (2, t.incarnation.toNat), (2, k), (2, c.count),
      (4, c.payload), (2, (c.round.getD 0).toNat), (50, 0)] }

/-- A container as one run of bytes, from three places by container offset: the header handed over with it, the directory part
of its area, the payload part (R149). A container without an area cannot stand in a flush (log entry 25). -/
def State.containerRun (s : State) (k : Nat) (header : List Byte) : List Byte :=
  match (s.container k).area with
  | none => header
  | some area =>
    header ++ readBytes s.staging (areaDirectory area) ((s.container k).count * 48) ++
      readBytes s.staging (areaPayload area) (s.container k).payload

/-- A CONTAINER_WRITE of one burst (R149, R175). -/
def containerWrite (lastBurst : Bool) (slot offset : Nat) (bytes : List Byte) : List Byte :=
  [2#8, if lastBurst then 1#8 else 0#8] ++ leBytes 2 slot ++ leBytes 4 offset ++ leBytes 4 bytes.length ++ bytes

/-- The range check of R148 passes for a container in the flush queue. -/
def FlushJob.inRegion (j : FlushJob) (t : Settings) : Prop := j.slot * 4243520 + j.length ≤ t.storeUnits * 65536

/-- Container `k`, standing as `c`, has turned SEALING for a reason: owner and seal request are cleared, and it waits in the
flush queue, or its flush has begun with the first burst, or the range check has failed and it is LOST with its area free
(R129, R131, R147, R148). -/
def State.turnedSealing (t : State) (k : Nat) (c : Container) (reason : SealReason) : Prop :=
  let job := c.flushJob t.settings k reason
  let now := t.container k
  now.owner = none ∧ now.sealRequested = none ∧ now.sealedFor = some reason ∧ now.count = c.count ∧
  now.payload = c.payload ∧
  ((now.state = .seals ∧ now.area = c.area ∧
      (job ∈ t.store.flushQueue ∨ t.store.active =
        some { slot := k, length := job.length, header := job.header, next := min 65536 job.length, error := false })) ∨
    (now.state = .lost ∧ now.area = none))

/-- A seal request for container `k` that was OPEN and not seal requested has been taken: it has turned SEALING with nothing in
flight, and is seal requested otherwise (R128). -/
def State.sealTaken (s t : State) (k : Nat) (reason : SealReason) : Prop :=
  (s.container k).state = .opened → (s.container k).sealRequested = none →
    ((s.container k).inFlight = [] → t.turnedSealing k (s.container k) reason) ∧
    ((s.container k).inFlight ≠ [] →
      (t.container k).state = .opened ∧ (t.container k).sealRequested = some reason ∧
        (t.container k).inFlight = (s.container k).inFlight)

/-! ### The emitter -/

/-- A stream may issue a record: NORMAL, OPEN or CLOSING, no write in flight, room in its ring, and records written below the
last value (R106, R110). -/
def Stream.mayIssueRecord (x : Stream) : Prop :=
  x.kind = .normal ∧ (x.state = .opened ∨ x.state = .closing) ∧ x.writeInFlight = none ∧
    x.written.toNat - x.taken.toNat < x.windowSize.toNat ∧ x.written.toNat < 4294967295

/-- The head of a pending list is RESOLVED. -/
def Stream.headResolved (x : Stream) : Prop := ∃ q rest, x.pending = q :: rest ∧ q.phase = .resolved

/-- A record of a kind is the one the emitter takes next: an owed MARK, else the CHUNK of a RESOLVED head, else a due END
(R106). -/
def Stream.recordDue (x : Stream) (kind : RecordKind) : Prop :=
  x.mayIssueRecord ∧
  match kind with
  | .mark => x.owedMark ≠ none
  | .chunk => x.owedMark = none ∧ x.headResolved
  | .last => x.owedMark = none ∧ ¬ x.headResolved ∧ x.endProgress = .due

/-- The settle field of a CHUNK record and its round (R107, R174). -/
def settleFields : Settle → Nat × Nat
  | .settled => (0, 0)
  | .byRound r => (1, r.toNat)
  | .holderPending => (2, 0)
  | .lost => (3, 0)

/-- The 64 bytes of a stream's next record of a kind (R107, R111, R113, R174). -/
def State.recordContent (s : State) (x : Stream) (kind : RecordKind) (bytes : List Byte) : Prop :=
  match kind with
  | .mark => ∀ m, x.owedMark = some m → bytes =
      fieldBytes [(1, 2), (1, if m.status = .clean then 0 else 1), (2, m.round.toNat), (4, x.written.toNat), (56, 0)]
  | .chunk => ∀ q rest d l f, x.pending = q :: rest → q.disposition = some d → q.location = some l →
      q.fingerprint = some f → d = .localNew ∨ d = .localDup ∨ d = .remote → bytes =
        fieldBytes [(1, 1), (1, if d = .localNew then 1 else if d = .localDup then 2 else 3), (1, l.station.toNat),
          (1, (settleFields (s.settleOf q)).1), (4, x.written.toNat), (4, q.sequence.toNat), (4, q.length),
          (2, l.incarnation.toNat), (2, l.slot), (2, l.ordinal), (2, (settleFields (s.settleOf q)).2), (8, 0)] ++
          fingerprintBytes f
  | .last => bytes =
      fieldBytes [(1, 3), (3, 0), (4, x.written.toNat), (4, x.branch.toNat), (8, x.bytesAccepted.toNat),
        (4, x.chunks.toNat), (4, x.localNew.toNat), (4, x.localDup.toNat), (4, x.remote.toNat), (4, x.nextChunk.toNat),
        (2, s.sealUnit.counter.toNat), (22, 0)]

/-- The stream once the record due is issued: it is the write in flight, an owed MARK is owed no more, an END is issued
(R105, R106). -/
def Stream.withIssued (x : Stream) (kind : RecordKind) : Stream :=
  { x with
    writeInFlight := some { kind := kind, number := x.written
                            slot := if kind = .chunk then x.pending.head?.map (·.number) else none }
    owedMark := if kind = .mark then none else x.owedMark
    endProgress := if kind = .last then .issued else x.endProgress }

/-- The emitter has looked at a stream standing as `x`, now `y`: the record due is issued, or nothing is (R106). -/
def emitterLooked (x y : Stream) : Prop :=
  (∀ kind, x.recordDue kind → y = x.withIssued kind) ∧ ((∀ kind, ¬ x.recordDue kind) → y = x)

/-- Stream `i`, standing as `x`, completes its CLOSE: its container is sealed for CLOSE and its END becomes due; an owed MARK,
or else the END, is issued at once if the ring has room (R106, R113). -/
def State.closeCompletes (s t : State) (i : Fin 16) (x : Stream) : Prop :=
  let ended : Stream := { x with current := none, endProgress := .due }
  let y := t.stream i
  (∀ k, x.current = some k → s.sealTaken t k .close) ∧
  (∀ kind, ended.recordDue kind →
    y.writeInFlight = (ended.withIssued kind).writeInFlight ∧ y.endProgress = (ended.withIssued kind).endProgress) ∧
  ((∀ kind, ¬ ended.recordDue kind) → y.writeInFlight = ended.writeInFlight ∧ y.endProgress = .due)

/-- What stream `x` owes once round `r` has completed: a NORMAL stream that is OPEN or CLOSING and has not issued its END owes
the MARK, BROKEN if the round or the one folded into it is; every other stream owes what it owed (R112). -/
def Stream.owes (x : Stream) (r : Half) (broken : Bool) : Option Mark :=
  if x.kind = .normal ∧ (x.state = .opened ∨ x.state = .closing) ∧ x.endProgress ≠ .issued then
    some { round := r
           status := if broken = true ∨ x.owedMark.any (fun m => m.status = .broken) = true then .broken else .clean }
  else x.owedMark

/-! ### Rounds -/

/-- A round that starts takes container `k` in (R138): it is OPEN and non-empty, or SEALING. -/
def State.takesIn (s : State) (k : Nat) : Prop :=
  (s.container k).state = .seals ∨
    ((s.container k).state = .opened ∧ ((s.container k).count ≠ 0 ∨ (s.container k).inFlight ≠ []))

/-- Every container that waits in the flush queue, and every one of those named, passes the range check (R148). -/
def State.flushesPass (s : State) (named : Nat → Prop) : Prop :=
  (∀ j ∈ s.store.flushQueue, j.inRegion s.settings) ∧
  ∀ k, named k → ((s.container k).flushJob s.settings k .round).inRegion s.settings

/-- The number of the round that starts next: 0 and 65,535 are both followed by 1 (R108, R138). -/
def SealUnit.nextNumber (u : SealUnit) : Half := if u.counter = 65535#16 then 1#16 else u.counter + 1

/-- The Seal Unit, with no round in progress, once a round that takes nothing in has started and completed (R138, R140). -/
def SealUnit.afterEmptyRound (u : SealUnit) : SealUnit :=
  { u with
    counter := u.nextNumber, members := [], lastCompleted := u.nextNumber, roundLost := false, lostCarry := false
    lastStatus := if u.lostCarry then .broken else .clean
    lastBroken := if u.lostCarry then u.nextNumber else u.lastBroken }

/-- A round that takes containers in has started, the Seal Unit having stood as `u` with no round in progress: the counter
advances, the lost carry flag becomes the round lost flag, and each container taken in is a member, carries the round's
number and, if it is OPEN, is sealed for ROUND (R128, R129, R138). -/
def State.roundUnderWay (s : State) (taken : Nat → Prop) (u : SealUnit) (t : State) : Prop :=
  let r := u.nextNumber
  t.sealUnit = { u with
    counter := r, inProgress := some r, members := t.sealUnit.members, roundLost := u.lostCarry, lostCarry := false } ∧
  (∀ k, k ∈ t.sealUnit.members ↔ taken k) ∧ (∀ k, taken k → (t.container k).round = some r) ∧
  (∀ k, taken k → (s.container k).inFlight = [] → (s.container k).state = .opened →
    (s.container k).sealRequested = none →
    (t.container k).state = .seals ∧ t.turnedSealing k { s.container k with round := some r } .round) ∧
  (∀ k, taken k → (s.container k).state = .seals → (t.container k).state = .seals) ∧
  (∀ k, taken k → (s.container k).state = .opened → (s.container k).inFlight ≠ [] →
    (t.container k).state = .opened ∧
      (t.container k).sealRequested = some ((s.container k).sealRequested.getD .round))

/-- A round has been asked for in `s`, with the Seal Unit standing as `u`, and `t` is what follows: the round-again flag with a
round in progress; a round completed at once when nothing is taken in, its MARK owed to the streams; else a round under
way (R112, R137 to R141). What the round hands to an IDLE port passes the range check, or nothing is said of it here. -/
def State.roundAskedFor (s : State) (u : SealUnit) (t : State) : Prop :=
  (u.inProgress ≠ none → s.store.port ≠ .idle ∨ s.flushesPass (fun _ => False) → t.sealUnit = { u with roundAgain := true }) ∧
  (u.inProgress = none → u.roundAgain = false → s.canonical → (∀ k, ¬ s.takesIn k) → s.store.flushQueue = [] →
    t.sealUnit = u.afterEmptyRound ∧
    (s.management.fresh = [] → s.containers.openWait = [] →
      ∀ i, emitterLooked { s.stream i with owedMark := (s.stream i).owes u.nextNumber u.lostCarry } (t.stream i))) ∧
  (u.inProgress = none → s.canonical → s.store.port ≠ .idle ∨ s.flushesPass s.takesIn → (∃ k, s.takesIn k) →
    s.roundUnderWay s.takesIn u t)

/-! ### Streams that end -/

/-- Nothing of stream `i` that an ABORT waits for is in flight: no digest of it is being completed, no append copies from its
staging extents, no recipe write of it is in flight (R16, R37). The head of the completion queue counts as being completed,
which is the model's reading (log entry 17). -/
def State.nothingInFlight (s : State) (i : Fin 16) : Prop :=
  (∀ j rest, s.digestQueue = j :: rest → j.stream = i → j.fate = .dropped) ∧
  (∀ k, ∀ a ∈ (s.container k).inFlight, a.stream ≠ i) ∧ (s.stream i).writeInFlight = none

/-- Of what an ABORTING stream `i` waits for, everything but a recipe write in flight has let go, and but the appends for which
`but` holds: no engine serves it, the Fingerprint Unit completes no digest that the abort waits for, no append copies
from its extents (R16, R37). -/
def State.workGone (s : State) (i : Fin 16) (but : Nat → Append → Prop) : Prop :=
  (∀ e, (s.engine e).serves i = false) ∧ (∀ j ∈ s.digestQueue, j.stream = i → j.fate = .dropped) ∧
  ∀ k, ∀ a ∈ (s.container k).inFlight, a.stream = i → but k a

/-- What a step from `s` to `t` does for an ABORTING stream `i` whose ABORTED report is not made yet: with its work gone the
report is made, and with a place in the report queue the stream is IDLE, while without one the report is held; with work
left the stream stays ABORTING. `alone` says that no other report is made in the step (R16, R169). -/
def State.abortFollowed (s t : State) (i : Fin 16) (gone alone : Prop) : Prop :=
  let x := s.stream i
  let report : Report := .aborted i x.branch x.bytesAccepted x.chunks
  let m := s.management
  x.state = .aborting → m.fresh = [] → s.canonical → (∀ branch bytes chunks, .aborted i branch bytes chunks ∉ m.held) →
  (gone → report ∈ t.management.reports ++ t.management.held ∧
    (alone → m.held = [] → m.reports.length < 32 →
      (t.stream i).state = .idle ∧ t.management.reports = m.reports ++ [report] ∧ t.management.held = []) ∧
    (alone → m.held ≠ [] ∨ 32 ≤ m.reports.length →
      (t.stream i).state = .aborting ∧ t.management.reports = m.reports ∧ t.management.held = m.held ++ [report])) ∧
  (¬ gone → (t.stream i).state = .aborting ∧
    (alone → t.management.reports = m.reports ∧ t.management.held = m.held))

/-- A request as the abort or fault of stream `i` leaves it: a resolution lookup of the stream is voided (R48). -/
def voidedFor (i : Fin 16) : IndexRequest → IndexRequest
  | .lookup f j p q kind void => .lookup f j p q kind (void || decide (j = i))
  | .answer f asker tag => .answer f asker tag
  | .insert f slot ordinal length tag => .insert f slot ordinal length tag

/-- How many units of container `k` the stream's resolved local chunks hold (R104, R132). -/
def Stream.unitsOf (x : Stream) (k : Nat) : Nat :=
  (x.pending.filter (fun q => decide (q.phase = .resolved ∧ (q.disposition = some .localNew ∨ q.disposition = some .localDup) ∧
    q.location.map (·.slot) = some k))).length

/-- What an abort and a store error do alike to stream `i`: its queue, pending list, owed MARK and current container are gone,
its counters and sequences stay; no engine serves it, its digests are gone but for the one being completed, whose result
is dropped; its lookups are voided; it waits in no waiter list; the containers lose the units its chunks held; and its
container is sealed for ABORT (R15, R17, R37, R38, R48, R77, R104, R115, R128, R132). The head of the completion queue is the
digest being completed, which is the model's reading (log entry 17). -/
def State.tornDown (s t : State) (i : Fin 16) (fate : DigestFate) : Prop :=
  let x := s.stream i
  let y := t.stream i
  y.queue = [] ∧ y.pending = [] ∧ y.owedMark = none ∧ y.current = none ∧ x.sameWork y ∧
  y.surveyNew = x.surveyNew ∧ y.surveyDup = x.surveyDup ∧
  (∀ e, (t.engine e).serves i = false ∧ ((s.engine e).serves i = false → t.engine e = s.engine e)) ∧
  t.digestQueue = (match s.digestQueue with
    | [] => []
    | j :: rest =>
      (if j.stream = i ∧ j.fate = .kept then { j with fate := fate } else j) :: rest.filter (fun d => d.stream ≠ i)) ∧
  t.index = { s.index with
    queue := s.index.queue.map (voidedFor i)
    heldResolution := s.index.heldResolution.map (voidedFor i)
    service := match s.index.service with
      | .nothing => .nothing
      | .request r => .request (voidedFor i r)
      | .scrub b => .scrub b } ∧
  (∀ a ∈ t.resolution.entries, ∀ w ∈ a.waiters, w.1 ≠ i) ∧ (∀ w ∈ t.resolution.waitQueue, w.1 ≠ i) ∧
  (∀ k, (s.container k).state ≠ .free →
    (t.container k).references = (s.container k).references - x.unitsOf k) ∧
  (∀ k, x.current = some k → (∀ j, j ≠ i → (s.stream j).current ≠ some k) →
    s.sealTaken t k .abort)

/-! ### The ask-wait queue -/

/-- An ask entry has been freed and the ask-wait queue worked: heads leave in order, each into the waiter list of the entry
for its fingerprint or of a new one whose ASK is handed over, until the queue is empty or its head matches no entry
while all 64 are in use; the other entries stay (R59, R60, R65, R66). -/
def State.waitQueueWorked (s t : State) (freed : Byte) : Prop :=
  t.resolution.waitQueue.Sublist s.resolution.waitQueue ∧
  (∀ e ∈ s.resolution.entries, e.tag ≠ freed → ∃ more, { e with waiters := e.waiters ++ more } ∈ t.resolution.entries) ∧
  (∀ e ∈ t.resolution.entries,
    (∃ d ∈ s.resolution.entries, d.tag ≠ freed ∧ ∃ more, e = { d with waiters := d.waiters ++ more }) ∨
    (e.state = .sending ∧ t.bus.hasUnsentAsk e.tag e.fingerprint)) ∧
  (∀ w ∈ s.resolution.waitQueue, w ∉ t.resolution.waitQueue →
    ∃ e ∈ t.resolution.entries, s.fingerprintOf w = some e.fingerprint ∧ w ∈ e.waiters) ∧
  (∀ w rest, t.resolution.waitQueue = w :: rest →
    t.resolution.entries.length = 64 ∧ ∀ e ∈ t.resolution.entries, s.fingerprintOf w ≠ some e.fingerprint)

end Sys2Proof.Machine
end

