-- ==== Sys2Proof/Certificates/Slice0/Obligations.lean ====
section
/-! DEFINITION. The statements for the provers: what the numbered rules of the manual say a command does, family by
family, and what every step keeps. -/

open Sys2Proof Sys2Proof.Machine

/-! ## The queue of commands and reset -/

/-- A step runs the command at the front of the queue on the state with the queue's rest; on an empty queue the clock
advances by one bit time, which is the model's choice (log entry 3). -/
def Obligations.StepRunsFrontCommand : Prop :=
  (∀ (c : Instr) (rest : List Instr) (s : State),
    step { s with pending := c :: rest } = exec c { s with pending := rest }) ∧
  (∀ s : State, s.pending = [] → step s = .next { s with now := s.now + 1 })

/-- Every command completes, leaves the queue of commands alone, takes back nothing that has been sent, and never turns the
clock back. The queue, the answer to a command whose precondition fails, the clock and the list of what has been sent are
the model's choices (log entries 1, 2, 3, 5). -/
def Obligations.CommandsComplete : Prop :=
  ∀ (c : Instr) (s : State), ∃ t, exec c s = .next t ∧ t.pending = s.pending ∧ s.now ≤ t.now ∧ s.sent <+: t.sent

/-- The values after reset that the chapters give (R4, R39, R55, R80, R100, R105, R133, R134, R144, R156, R168, R169). -/
def Obligations.ResetValues : Prop :=
  let s := State.reset
  s.station = .reset ∧ s.quiet = false ∧
  (∀ i, s.stream i =
    { state := .idle, branch := 0, kind := .normal, windowBase := 0, windowSize := 0, written := 0, taken := 0
      expected := 1, lastAccepted := 0, nextChunk := 0, current := none, owedMark := none, bytesAccepted := 0
      chunks := 0, localNew := 0, localDup := 0, remote := 0, surveyNew := 0, surveyDup := 0
      chunker := { sumA := 0, sumB := 0, window := Vector.replicate 32 0, position := 0, length := 0, slot := none
                   digest := { chain := Chain.initial, block := [], taken := 0 }, resume := none }
      queue := [], nextQueueSlot := 0, pending := [], writeInFlight := none, endProgress := .none }) ∧
  (∀ e, s.engine e = .free) ∧ s.lastAssigned = 15 ∧ s.digestQueue = [] ∧
  s.index.queue = [] ∧ s.index.heldResolution = [] ∧ s.index.heldAnswer = [] ∧ s.index.lastProducer = .resolution ∧
  s.index.service = .nothing ∧
  s.resolution.entries = [] ∧ s.resolution.waitQueue = [] ∧ s.resolution.nextTag = 0 ∧
  s.bus.txQueue = [] ∧ s.bus.askHolding = [] ∧ s.bus.answerQueue = [] ∧ s.bus.transmitter = .empty ∧
  s.bus.answerOutstanding = false ∧
  (∀ slot, s.container slot =
    { state := .free, area := none, owner := none, count := 0, payload := 0, fill := 0, inFlight := []
      sealRequested := none, sealedFor := none, references := 0, round := none }) ∧
  s.containers.cursor = 0 ∧ s.containers.openWait = [] ∧
  s.sealUnit.timer = none ∧ s.sealUnit.drive = .idle ∧ s.sealUnit.detect = .lineHigh ∧ s.sealUnit.counter = 0 ∧
  s.sealUnit.inProgress = none ∧ s.sealUnit.members = [] ∧ s.sealUnit.roundLost = false ∧
  s.sealUnit.roundAgain = false ∧ s.sealUnit.lostCarry = false ∧ s.sealUnit.lastCompleted = 0 ∧
  s.sealUnit.lastStatus = .clean ∧ s.sealUnit.lastBroken = 0 ∧
  s.store.port = .idle ∧ s.store.recipeQueue = [] ∧ s.store.ahead = 0 ∧ s.store.flushQueue = [] ∧ s.store.active = none ∧
  s.walker.state = .idle ∧ s.walker.position = 0 ∧ s.walker.snapshot = [] ∧ s.walker.reportList = [] ∧
  s.walker.completed = 0 ∧
  s.management.flags = 0 ∧ s.management.reports = [] ∧ s.management.held = [] ∧ s.management.attn = false

/-- RESET_ASSERT: from any state every block takes its reset values, and a frame or a jam being sent on the peer bus ends at
the bit it has reached, with no jam added (R55, R100, R162). The queue of commands, the input levels, the clock, what has
been sent, staging memory and every bucket not being rewritten stay as they were, which is the model's reading of what is
not the station's to reset (log entries 1, 5, 8, 27). Among the reset values the FREE count 0, which R133 gives as S, and
the seal mode OFF and the seal period 0 are the model's choice, where the manual has no value before LOADING ends (log
entry 6), and `watchedSince` is a field of the model's own, 0 by its choice (log entry 24). RESET_RELEASE: the station
enters LOADING, with nothing else changed; without RESET asserted there is nothing to release, which is the model's reading
too (log entry 2). -/
def Obligations.ResetTakesEveryBlock : Prop :=
  (∀ s : State, s.station = .reset → exec .resetRelease s = .next { s with station := .loading }) ∧
  (∀ s : State, s.station ≠ .reset → exec .resetRelease s = .next s) ∧
  ∀ s : State, ∃ t, exec .resetAssert s = .next t ∧
    t = { State.reset with
      hold := s.hold, sealLineLow := s.sealLineLow, index := { Index.initial with buckets := t.index.buckets }
      bus := { PeerBus.initial with line := t.bus.line }, staging := s.staging, now := s.now, choices := t.choices
      sent := t.sent, pending := s.pending } ∧
    (∀ b, s.bucketInService ≠ some b → t.bucket b = s.bucket b) ∧
    (∀ since, s.bus.line = .driven since → t.bus.line = .driven since) ∧
    (s.bus.transmitter = .empty ∨ (∃ retry, s.bus.transmitter = .waiting retry) →
      t.sent = s.sent ∧ t.bus.line = s.bus.line) ∧
    (∀ since head rest, s.bus.transmitter = .sending since → s.bus.txQueue = head :: rest →
      let cut := (bitsOf (head.frame.bytes s.settings.station)).take (s.now - since)
      t.sent = s.sent ++ (if cut = [] then [] else [.bus cut]) ∧
        (∀ idle, s.bus.line = .idle idle → t.bus.line = .idle (since + cut.length))) ∧
    (∀ since, s.bus.transmitter = .jamming since →
      let cut := ((List.range 32).map (fun k => decide (k % 2 = 0))).take (s.now - since)
      t.sent = s.sent ++ (if cut = [] then [] else [.bus cut]) ∧
        (∀ idle, s.bus.line = .idle idle → t.bus.line = .idle (since + cut.length)))

/-- What is taken from the settings memory: each field of a valid image, acknowledged whole and with the signature, is read
at its offset and clamped to its range, a value within the range being taken as it is; from any other image nothing is
taken and every value is its default (R28, R40, R68, R118, R122, R135, R163, R176). -/
def Obligations.SettingsInRange : Prop :=
  ∀ (acknowledged : Bool) (image : List Byte),
    let t := Settings.load acknowledged image
    let field := imageField image
    let valid := acknowledged = true ∧ image.length = 64 ∧ field 0 2 = 0x5D2A
    (t.station.toNat ≤ 15 ∧ 10 ≤ t.sealP ∧ t.sealP ≤ 255 ∧ 1 ≤ t.sealC ∧ t.sealC ≤ 65535 ∧
      20 ≤ t.compareA ∧ t.compareA ≤ 5000 ∧ t.compareA + 20 ≤ t.compareB ∧ t.compareB ≤ 20000 ∧
      256 ≤ t.lMin ∧ t.lMin ≤ 16384 ∧ t.lMin ≤ t.lMax ∧ t.lMax ≤ 65536 ∧ t.lMin ≤ t.nT ∧ t.nT ≤ t.lMax ∧
      8 ≤ t.exponent ∧ t.exponent ≤ 15 ∧ 12 ≤ t.indexExponent ∧ t.indexExponent ≤ 20 ∧
      64 ≤ t.slots ∧ t.slots ≤ 4096 ∧ t.slotsLow ≤ t.slots ∧
      t.recipeBase % 64 = 0 ∧ t.recipeSize % 64 = 0 ∧ t.recipeBase < 4294967296 ∧ t.recipeSize < 4294967296) ∧
    (valid →
      clampedTo 0 15 (field 2 1) t.station.toNat ∧ t.incarnation.toNat = field 4 2 ∧
      t.mode = (if field 3 1 = 0 then .off else if field 3 1 = 2 then .drive else .follow) ∧
      clampedTo 10 255 (field 6 1) t.sealP ∧ clampedTo 1 65535 (field 8 2) t.sealC ∧
      clampedTo 20 5000 (field 10 2) t.compareA ∧ clampedTo (t.compareA + 20) 20000 (field 12 2) t.compareB ∧
      clampedTo 256 16384 (field 16 4) t.lMin ∧ clampedTo t.lMin 65536 (field 24 4) t.lMax ∧
      clampedTo t.lMin t.lMax (field 20 4) t.nT ∧ clampedTo 8 15 (field 7 1) t.exponent ∧
      clampedTo 12 20 (field 14 1) t.indexExponent ∧ clampedTo 64 4096 (field 28 2) t.slots ∧
      clampedTo 0 t.slots (field 30 2) t.slotsLow ∧
      t.credit = (if field 15 1 = 1 then .four else if field 15 1 = 2 then .sixteen
        else if field 15 1 = 3 then .thirtyTwo else .off) ∧
      t.recipeBase = field 32 4 / 64 * 64 ∧ t.recipeSize = field 36 4 / 64 * 64 ∧ t.storeUnits = field 40 4 ∧
      t.enables.toNat = field 44 1) ∧
    (¬ valid → t =
      { station := 0, incarnation := 0, mode := .drive, sealP := 250, sealC := 2400, compareA := 300, compareB := 900
        lMin := 2048, nT := 8192, lMax := 32768, exponent := 13, indexExponent := 16, slots := 1024, slotsLow := 32
        credit := .sixteen, recipeBase := 0, recipeSize := 67108864, storeUnits := 66305, enables := 0xFF#8 })

/-- SETTINGS_LOADED in LOADING: the settings come into force, the container table is all FREE for their S, the seal mode and
period are taken, SETTINGS_DEFAULT is set exactly on an invalid image, and CLEARING begins at bucket 0 (R54, R133, R135,
R162, R163). -/
def Obligations.SettingsComeIntoForce : Prop :=
  ∀ (s : State) (acknowledged : Bool) (image : List Byte), s.station = .loading →
    ∃ t, exec (.settingsLoaded acknowledged image) s = .next t ∧
      t = { s with
        station := .clearing, settings := Settings.load acknowledged image, clearPosition := 0, quiet := false
        containers := { table := [], freeSlots := (Settings.load acknowledged image).slots, cursor := 0, openWait := [] }
        sealUnit := { s.sealUnit with
          mode := (Settings.load acknowledged image).mode
          period := (Settings.load acknowledged image).sealP * (Settings.load acknowledged image).sealC }
        management := { s.management with flags := t.management.flags, attn := t.management.attn } } ∧
      t.management.flags &&& 0x1F#8 =
        (s.management.flags &&& 0x1F#8) |||
          (if acknowledged = true ∧ image.length = 64 ∧ imageField image 0 2 = 0x5D2A then 0#8 else 0x01#8) ∧
      (t.management.attn = true ↔ t.management.flags &&& t.settings.enables ≠ 0#8)

/-- CLEAR_WALK_STEP in CLEARING: one bucket is emptied and no other touched. After bucket 2^k − 1 the station enters RUNNING,
or with HOLD asserted HOLDING with a hold round made in the same step, and the seal timer and the detect state start as
R136 and R137 give (R54, R141, R162). What the round seals onto an IDLE store port is spoken of where it passes the range
check. -/
def Obligations.ClearWalkEmptiesBuckets : Prop :=
  ∀ s : State, s.station = .clearing → ∃ t, exec .clearWalkStep s = .next t ∧
    (∀ b, t.bucket b = if b = s.clearPosition then [] else s.bucket b) ∧
    t.clearPosition = s.clearPosition + 1 ∧
    (if s.clearPosition + 1 < 2 ^ s.settings.indexExponent then
      t.station = .clearing ∧ t.sealUnit = s.sealUnit ∧ t.streams = s.streams ∧ t.containers = s.containers
    else
      t.station = (if s.hold then .holding else .running) ∧
      t.sealUnit.detect = (if s.sealLineLow then .lowDetected else .lineHigh) ∧
      (s.sealUnit.mode = .drive → t.sealUnit.timer = some s.now) ∧
      (let u : SealUnit := { s.sealUnit with
         detect := if s.sealLineLow then .lowDetected else .lineHigh
         timer := if s.sealUnit.mode = .drive then some s.now else s.sealUnit.timer }
       (s.hold = false → t.sealUnit = u ∧ t.streams = s.streams ∧ t.containers = s.containers) ∧
       (s.hold = true → s.roundAskedFor u t))) ∧
    t.settings = s.settings ∧ t.hold = s.hold ∧ t.engines = s.engines ∧ t.lastAssigned = s.lastAssigned ∧
    t.digestQueue = s.digestQueue ∧ t.resolution = s.resolution ∧ t.staging = s.staging ∧ t.now = s.now

/-- HOLD_ASSERT: RUNNING turns HOLDING with a hold round in the same step: with a round in progress the round-again flag is
set; otherwise the counter advances, the round takes in every OPEN container that is non-empty and every SEALING one,
seals the OPEN ones, and with none to take in completes at once and owes its MARK (R138 to R141, R164); what it seals onto
an IDLE store port is spoken of where it passes the range check. In every other state only the level of the input changes
(R162). HOLD_RELEASE: HOLDING returns to RUNNING, QUIET is deasserted, and a round in progress goes on (R141, R164). -/
def Obligations.HoldMakesARound : Prop :=
  ∀ s : State,
    (s.station = .running → ∃ t, exec .holdAssert s = .next t ∧ t.station = .holding ∧ t.hold = true ∧
      s.roundAskedFor s.sealUnit t ∧
      (s.sealUnit.inProgress = none → s.sealUnit.roundAgain = false →
        t.sealUnit.counter = (if s.sealUnit.counter = 65535#16 then 1#16 else s.sealUnit.counter + 1)) ∧
      t.sealUnit.timer = s.sealUnit.timer ∧ t.sealUnit.drive = s.sealUnit.drive ∧
      t.engines = s.engines ∧ t.lastAssigned = s.lastAssigned ∧ t.digestQueue = s.digestQueue ∧ t.index = s.index ∧
      t.resolution = s.resolution ∧ t.bus = s.bus ∧ t.settings = s.settings ∧ t.staging = s.staging ∧ t.now = s.now ∧
      (∀ i, (s.stream i).sameWork (t.stream i))) ∧
    (s.station ≠ .running → exec .holdAssert s = .next { s with hold := true }) ∧
    (s.station = .holding → ∃ t, exec .holdRelease s = .next t ∧
      t = { s with hold := false, station := .running, quiet := false
                   management := { s.management with flags := t.management.flags, attn := t.management.attn } } ∧
      t.management.flags &&& 0x1F#8 = s.management.flags &&& 0x1F#8) ∧
    (s.station ≠ .holding → exec .holdRelease s = .next { s with hold := false })

/-! ## The intake link -/

/-- A segment of no known kind, or for a stream above 15, changes nothing and is answered NOT_OPEN with a count of 0, in
HOLDING too, and NOT_READY in LOADING and CLEARING; so are the four known kinds when they name a stream above 15 (R3). The reply
to a kind that is none of the four echoes header bytes 2 and 3 as the sequence, which is the model's reading (log entry
35). -/
def Obligations.MalformedSegmentsAnswered : Prop :=
  ∀ (s : State) (kind stream : Byte) (sequence : Half) (branch base size : Word) (payload : List Byte),
    (¬ (1 ≤ kind.toNat ∧ kind.toNat ≤ 4) ∨ 15 < stream.toNat) →
    (15 < stream.toNat → s.station = .running ∨ s.station = .holding →
      exec (.openSegment stream sequence branch base size) s =
        .next (s.send (.intake (replyBytes stream 1#8 sequence .notOpen 0))) ∧
      exec (.dataSegment stream sequence payload) s =
        .next (s.send (.intake (replyBytes stream 2#8 sequence .notOpen 0))) ∧
      exec (.closeSegment stream sequence) s =
        .next (s.send (.intake (replyBytes stream 3#8 sequence .notOpen 0))) ∧
      exec (.abortSegment stream) s = .next (s.send (.intake (replyBytes stream 4#8 0 .notOpen 0)))) ∧
    (s.station = .running ∨ s.station = .holding →
      exec (.malformedSegment kind stream sequence) s = .next { s with
        sent := s.sent ++ [.intake (replyBytes stream kind (if kind = 4#8 then 0 else sequence) .notOpen 0)] }) ∧
    (s.station = .loading ∨ s.station = .clearing →
      exec (.malformedSegment kind stream sequence) s = .next { s with
        sent := s.sent ++ [.intake (replyBytes stream kind (if kind = 4#8 then 0 else sequence) .notReady 64)] })

/-- The station-state check: in LOADING and CLEARING every segment is answered NOT_READY with a count of 64; in HOLDING an
OPEN or DATA for a stream from 0 to 15 is answered HOLDING with the stream's count; in RESET nothing is received (R1, R2). -/
def Obligations.StationStateGatesSegments : Prop :=
  ∀ (s : State) (stream : Byte) (i : Fin 16) (sequence : Half) (branch base size : Word) (payload : List Byte),
    (s.station = .loading ∨ s.station = .clearing →
      exec (.openSegment stream sequence branch base size) s =
        .next (s.send (.intake (replyBytes stream 1#8 sequence .notReady 64))) ∧
      exec (.dataSegment stream sequence payload) s =
        .next (s.send (.intake (replyBytes stream 2#8 sequence .notReady 64))) ∧
      exec (.closeSegment stream sequence) s =
        .next (s.send (.intake (replyBytes stream 3#8 sequence .notReady 64))) ∧
      exec (.abortSegment stream) s = .next (s.send (.intake (replyBytes stream 4#8 0 .notReady 64)))) ∧
    (s.station = .holding →
      exec (.openSegment (streamByte i) sequence branch base size) s =
        .next (s.send (.intake (replyBytes (streamByte i) 1#8 sequence .holding (64 - (s.stream i).queue.length)))) ∧
      exec (.dataSegment (streamByte i) sequence payload) s =
        .next (s.send (.intake (replyBytes (streamByte i) 2#8 sequence .holding (64 - (s.stream i).queue.length))))) ∧
    (s.station = .reset →
      exec (.openSegment stream sequence branch base size) s = .next s ∧
      exec (.dataSegment stream sequence payload) s = .next s ∧
      exec (.closeSegment stream sequence) s = .next s ∧ exec (.abortSegment stream) s = .next s)

/-- An accepted OPEN sets up the whole context of its stream and is answered ACCEPTED with a count of 64 (R6, R7). -/
def Obligations.OpenSetsUpTheStream : Prop :=
  ∀ (s : State) (i : Fin 16) (branch base size : Word),
    s.station = .running → (s.stream i).state = .idle → windowAcceptable s.settings base size →
    exec (.openSegment (streamByte i) 0 branch base size) s = .next { s with
      streams := s.streams.set i
        { state := .opened, branch := branch, kind := if size.toNat = 0 then .survey else .normal
          windowBase := if size.toNat = 0 then 0 else base, windowSize := size, written := 0, taken := 0
          expected := 1, lastAccepted := 0, nextChunk := 0, current := none, owedMark := none, bytesAccepted := 0
          chunks := 0, localNew := 0, localDup := 0, remote := 0, surveyNew := 0, surveyDup := 0
          chunker := { sumA := 0, sumB := 0, window := Vector.replicate 32 0, position := 0, length := 0, slot := none
                       digest := { chain := Chain.initial, block := [], taken := 0 }, resume := none }
          queue := [], nextQueueSlot := 0, pending := [], writeInFlight := none, endProgress := .none }
      sent := s.sent ++ [.intake (replyBytes (streamByte i) 1#8 0 .accepted 64)] }

/-- The refusals of an OPEN, in their order, each leaving everything but the reply as it was (R5, R6). -/
def Obligations.OpenRefusedInOrder : Prop :=
  ∀ (s : State) (i : Fin 16) (sequence : Half) (branch base size : Word), s.station = .running →
    let answered := fun status => exec (.openSegment (streamByte i) sequence branch base size) s =
      .next (s.send (.intake (replyBytes (streamByte i) 1#8 sequence status (64 - (s.stream i).queue.length))))
    ((s.stream i).state ≠ .idle → answered .busy) ∧
    ((s.stream i).state = .idle → sequence ≠ 0 → answered .sequence) ∧
    ((s.stream i).state = .idle → sequence = 0 → ¬ windowAcceptable s.settings base size → answered .range)

/-- An accepted DATA takes the next queue slot, its payload stands in that slot's place of staging memory and nowhere else,
the sequences advance, the bytes accepted rise and the reply carries one free slot fewer (R10). Where the places of
staging memory begin is the model's choice (log entry 7). -/
def Obligations.DataEntersTheQueue : Prop :=
  ∀ (s : State) (i : Fin 16) (payload : List Byte),
    let x := s.stream i
    s.station = .running → x.state = .opened → 1 ≤ payload.length → payload.length ≤ 8192 →
    x.expected ≠ x.lastAccepted → x.queue.length < 64 → x.bytesAccepted.toNat + payload.length < 2 ^ 64 →
    ∃ t, exec (.dataSegment (streamByte i) x.expected payload) s = .next t ∧
      t = { s with
        streams := s.streams.set i { x with
          queue := x.queue ++ [{ slot := x.nextQueueSlot, sequence := x.expected, kind := .data payload.length }]
          nextQueueSlot := x.nextQueueSlot + 1, lastAccepted := x.expected, expected := x.expected + 1
          bytesAccepted := x.bytesAccepted + BitVec.ofNat 64 payload.length }
        staging := t.staging
        sent := s.sent ++
          [.intake (replyBytes (streamByte i) 2#8 x.expected .accepted (64 - (x.queue.length + 1)))] } ∧
      (∀ a, readByte t.staging a =
        if segmentPlace i x.nextQueueSlot ≤ a ∧ a < segmentPlace i x.nextQueueSlot + payload.length then
          payload.getD (a - segmentPlace i x.nextQueueSlot) 0
        else readByte s.staging a)

/-- The refusals of a DATA, in their order, each leaving everything but the reply as it was (R8, R9). -/
def Obligations.DataRefusedInOrder : Prop :=
  ∀ (s : State) (i : Fin 16) (sequence : Half) (payload : List Byte), s.station = .running →
    let x := s.stream i
    let answered := fun status => exec (.dataSegment (streamByte i) sequence payload) s =
      .next (s.send (.intake (replyBytes (streamByte i) 2#8 sequence status (64 - x.queue.length))))
    let length := payload.length
    (x.state = .idle ∨ x.state = .closing ∨ x.state = .aborting → answered .notOpen) ∧
    (x.state = .faulted → answered .faulted) ∧
    (x.state = .opened → length = 0 ∨ 8192 < length → answered .length) ∧
    (x.state = .opened → 1 ≤ length → length ≤ 8192 → sequence = x.lastAccepted → answered .duplicate) ∧
    (x.state = .opened → 1 ≤ length → length ≤ 8192 → sequence ≠ x.lastAccepted → sequence ≠ x.expected →
      answered .sequence) ∧
    (x.state = .opened → 1 ≤ length → length ≤ 8192 → sequence ≠ x.lastAccepted → sequence = x.expected →
      64 ≤ x.queue.length → answered .full)

/-- CLOSE: accepted behind every DATA, the stream turns CLOSING; refused in the order of its checks; the same in RUNNING and
in HOLDING (R2, R11). -/
def Obligations.CloseEntersTheQueue : Prop :=
  ∀ (s : State) (i : Fin 16) (sequence : Half), s.station = .running ∨ s.station = .holding →
    let x := s.stream i
    let answered := fun status => exec (.closeSegment (streamByte i) sequence) s =
      .next (s.send (.intake (replyBytes (streamByte i) 3#8 sequence status (64 - x.queue.length))))
    (x.state = .idle ∨ x.state = .closing ∨ x.state = .aborting → answered .notOpen) ∧
    (x.state = .faulted → answered .faulted) ∧
    (x.state = .opened → sequence ≠ x.expected → answered .sequence) ∧
    (x.state = .opened → sequence = x.expected → 64 ≤ x.queue.length → answered .full) ∧
    (x.state = .opened → sequence = x.expected → x.queue.length < 64 →
      exec (.closeSegment (streamByte i) sequence) s = .next { s with
        streams := s.streams.set i { x with
          state := .closing
          queue := x.queue ++ [{ slot := x.nextQueueSlot, sequence := sequence, kind := .close }]
          nextQueueSlot := x.nextQueueSlot + 1, lastAccepted := sequence, expected := sequence + 1 }
        sent := s.sent ++ [.intake (replyBytes (streamByte i) 3#8 sequence .accepted (64 - (x.queue.length + 1)))] })

/-- ABORT of a stream that is OPEN, CLOSING or FAULTED: its work is torn down whole, the reply is ACCEPTED with a count of 64,
a CLOSED report of it still held is withdrawn, and the ABORTED report is made in the same step exactly when nothing of it
is in flight: the stream is IDLE once that report has a place in the queue, and ABORTING until then or while something is
in flight. ABORT of an IDLE or an ABORTING stream changes nothing and is answered with a count of 64 (R12, R15, R16, R37,
R48, R77, R104, R128). The model's reading is that the head of the completion queue is always being completed: a digest of
the stream at the head runs on and is in flight, and only those behind it are removed, which settles in which step the
ABORTED report is made (log entry 17). -/
def Obligations.AbortTearsDownTheStream : Prop :=
  ∀ (s : State) (i : Fin 16), s.station = .running ∨ s.station = .holding →
   ((s.stream i).state = .idle → exec (.abortSegment (streamByte i)) s =
      .next (s.send (.intake (replyBytes (streamByte i) 4#8 0 .notOpen 64)))) ∧
   ((s.stream i).state = .aborting → exec (.abortSegment (streamByte i)) s =
      .next (s.send (.intake (replyBytes (streamByte i) 4#8 0 .accepted 64)))) ∧
   (s.management.fresh = [] →
    (s.stream i).state = .opened ∨ (s.stream i).state = .closing ∨ (s.stream i).state = .faulted →
    ∃ t more, exec (.abortSegment (streamByte i)) s = .next t ∧ s.tornDown t i .awaited ∧
      t.sent = s.sent ++ .intake (replyBytes (streamByte i) 4#8 0 .accepted 64) :: more ∧
      (∀ j, j ≠ i → (s.stream j).sameWork (t.stream j)) ∧ (∀ b, t.bucket b = s.bucket b) ∧
      t.station = s.station ∧ t.settings = s.settings ∧ t.staging = s.staging ∧ t.now = s.now ∧
      t.lastAssigned = s.lastAssigned ∧
      ((t.stream i).state = .aborting ∨ (t.stream i).state = .idle) ∧
      (let x := s.stream i
       let report : Report := .aborted i x.branch x.bytesAccepted x.chunks
       let held := s.management.held.filter (fun r => !r.closes i)
       s.canonical → (∀ branch bytes chunks, .aborted i branch bytes chunks ∉ s.management.held) →
       (¬ s.nothingInFlight i → (t.stream i).state = .aborting ∧
         (s.store.port ≠ .idle → t.management.reports = s.management.reports ∧ t.management.held = held)) ∧
       (s.nothingInFlight i → report ∈ t.management.reports ++ t.management.held ∧
         (s.store.port ≠ .idle →
           (held = [] → s.management.reports.length < 32 →
             (t.stream i).state = .idle ∧ t.management.reports = s.management.reports ++ [report] ∧
               t.management.held = []) ∧
           (held ≠ [] ∨ 32 ≤ s.management.reports.length →
             (t.stream i).state = .aborting ∧ t.management.reports = s.management.reports ∧
               t.management.held = held ++ [report])))))

/-! ## Chunking and fingerprints -/

/-- ENGINE_ASSIGN: the lowest-numbered FREE engine takes the next eligible stream in turn, at its resume offset (R19 to R21);
with no engine FREE or no stream eligible nothing is assigned. -/
def Obligations.EngineTakesNextStream : Prop :=
  ∀ s : State,
    ((∀ i, ¬ s.mayBeAssigned i) ∨ (∀ e, s.engine e ≠ .free) → exec .engineAssign s = .next s) ∧
    (∀ (i : Fin 16) (e : Fin 4) (entry : QueueEntry) (rest : List QueueEntry) (n : Nat),
      s.firstInTurn i → s.engine e = .free → (∀ d, s.engine d = .free → e ≤ d) →
      (s.stream i).queue = entry :: rest → entry.kind = .data n →
      exec .engineAssign s = .next { s with
        lastAssigned := i
        engines := s.engines.set e
          (.serving i { (s.stream i).chunker with resume := none } ((s.stream i).chunker.resume.getD 0)) })

/-- ENGINE_ASSIGN of a stream whose head is its CLOSE: a begun chunk ends at its last byte and its digest goes to the
Fingerprint Unit, the CLOSE leaves the queue, and the engine is FREE again in the same step. With no chunk left the
stream's CLOSE is complete: a NORMAL stream's container is sealed and its END due, a SURVEY stream's CLOSED report is made
(R22, R32, R34, R113, R114). -/
def Obligations.EngineEndsStreamAtClose : Prop :=
  ∀ (s : State) (i : Fin 16) (entry : QueueEntry),
    s.firstInTurn i → (∃ e, s.engine e = .free) → (s.stream i).queue = [entry] → entry.kind = .close →
    (∀ p, (s.stream i).chunker.slot = some p → 1 ≤ (s.stream i).chunker.length) →
    let x := s.stream i
    ∃ t, exec .engineAssign s = .next t ∧ t.lastAssigned = i ∧ t.engines = s.engines ∧
      (t.stream i).queue = [] ∧
      (t.stream i).chunker = { x.chunker with length := 0, slot := none, digest := Digest.initial, resume := none } ∧
      (∀ p, x.chunker.slot = some p →
        (t.stream i).chunks = x.chunks + 1 ∧
        (t.stream i).pending = x.pending.map (fun q => if q.number = p then { q with phase := .hashing } else q) ∧
        t.digestQueue = s.digestQueue ++ [{ stream := i, slot := p, digest := x.chunker.digest, fate := .kept }]) ∧
      (x.chunker.slot = none →
        (t.stream i).chunks = x.chunks ∧ (t.stream i).pending = x.pending ∧ t.digestQueue = s.digestQueue) ∧
      (x.state = .closing → x.pending = [] → x.chunker.slot = none → s.management.fresh = [] →
        (x.kind = .normal → x.writeInFlight = none → x.endProgress = .none → s.closeCompletes t i { x with queue := [] }) ∧
        (x.kind = .survey → (∀ r ∈ s.management.held, r.closes i = false) →
          x.closedReport i ∈ t.management.reports ++ t.management.held)) ∧
      (∀ j, j ≠ i → (s.stream j).sameWork (t.stream j) ∧ (t.stream j).pending = (s.stream j).pending) ∧
      t.index = s.index ∧ t.resolution = s.resolution ∧ t.bus = s.bus ∧ t.staging = s.staging ∧
      t.settings = s.settings ∧ t.station = s.station ∧ t.now = s.now

/-- ENGINE_TAKE_BYTE with a chunk begun: the byte goes through the window, into the staging extent and the digest; the test
value of the new sums and the boundary decision end the chunk or not; the last byte of the entry frees its queue slot and
the engine, with a credit notice at the threshold. Nothing else changes (R14, R22, R24, R25, R27, R29, R30, R33, R34).
Where the extents of staging memory begin is the model's choice (log entry 7). -/
def Obligations.EngineTakesByte : Prop :=
  ∀ (s : State) (e : Fin 4) (i : Fin 16) (c : ChunkerContext) (p : Fin 32) (position n : Nat) (entry : QueueEntry)
    (rest : List QueueEntry),
    s.active = true → s.engine e = .serving i c position → c.slot = some p →
    (s.stream i).queue = entry :: rest → entry.kind = .data n → position < n →
    let x := s.stream i
    let y := readByte s.staging (segmentPlace i entry.slot + position)
    let rolled : ChunkerContext := { c.roll y with length := c.length + 1, digest := c.digest.feed y }
    let ends : Bool := decide (chunkEnds s.settings (c.length + 1) ((rolled.sumB * 40503 + rolled.sumA) % 2 ^ 32 / 65536))
    let after : ChunkerContext :=
      if ends then { rolled with length := 0, slot := none, digest := Digest.initial } else rolled
    let taken : Stream := { x with
      chunks := if ends then x.chunks + 1 else x.chunks
      pending := x.pending.map (fun q =>
        if q.number = p then { q with length := q.length + 1, phase := if ends then .hashing else q.phase } else q) }
    ∃ t, exec (.engineTakeByte e) s = .next t ∧
      (∀ a, readByte t.staging a = if a = stagingExtent i p + c.length then y else readByte s.staging a) ∧
      t = { s with
        staging := t.staging
        digestQueue := if ends then
            s.digestQueue ++ [{ stream := i, slot := p, digest := rolled.digest, fate := .kept }]
          else s.digestQueue
        streams := s.streams.set i
          (if position + 1 = n then { taken with chunker := { after with resume := none }, queue := rest } else taken)
        engines := s.engines.set e (if position + 1 = n then .free else .serving i after (position + 1))
        sent := if position + 1 = n ∧ x.state = .opened ∧ s.settings.credit.count = some (64 - rest.length) then
            s.sent ++ [.intake (creditBytes i (64 - rest.length))]
          else s.sent }

/-- ENGINE_TAKE_BYTE with no chunk begun: the lowest-numbered free pending slot is taken for a new chunk with the next chunk
sequence, and the byte is then taken as into a begun chunk; with no slot free the engine suspends, remembering the byte
it stands at. A FREE engine takes nothing (R22, R26). What the sequence becomes past its last value is left open. -/
def Obligations.ChunkBeginsOrEngineSuspends : Prop :=
  ∀ (s : State) (e : Fin 4) (i : Fin 16) (c : ChunkerContext) (position n : Nat) (entry : QueueEntry)
    (rest : List QueueEntry),
    (s.engine e = .free → exec (.engineTakeByte e) s = .next s) ∧
    (s.active = true → s.engine e = .serving i c position → c.slot = none →
      (s.stream i).queue = entry :: rest → entry.kind = .data n → position < n →
      let x := s.stream i
      (∀ p, x.hasFreeSlot p → (∀ q, x.hasFreeSlot q → p ≤ q) →
        ∃ after choices, (x.nextChunk ≠ 0xFFFFFFFF#32 → after = x.nextChunk + 1 ∧ choices = s.choices) ∧
          exec (.engineTakeByte e) s = exec (.engineTakeByte e) { s with
            choices := choices
            streams := s.streams.set i { x with
              nextChunk := after
              pending := x.pending ++
                [{ number := p, sequence := x.nextChunk, length := 0, fingerprint := none, phase := .chunking
                   disposition := none, location := none, holderSealed := none }] }
            engines := s.engines.set e
              (.serving i { c with slot := some p, length := 0
                                   digest := { chain := Chain.initial, block := [], taken := 0 } } position) }) ∧
      ((∀ p, ¬ x.hasFreeSlot p) → exec (.engineTakeByte e) s = .next { s with
        streams := s.streams.set i { x with
          chunker := { c with length := 0, slot := none, digest := Digest.initial, resume := some position } }
        engines := s.engines.set e .free }))

/-- One byte through the window keeps A the sum of the 32 window bytes and B their weighted sum, within 8,160 and 134,640,
with the oldest byte replaced and the position moved on (R24). -/
def Obligations.RollKeepsSums : Prop :=
  ∀ (c : ChunkerContext) (y : Byte), c.sumA = c.plainSum → c.sumB = c.weightedSum →
    let oldest := (c.window[c.position]).toNat
    (c.roll y).window = c.window.set c.position y ∧ (c.roll y).position = c.position + 1 ∧
    (c.roll y).sumA + oldest = c.sumA + y.toNat ∧ (c.roll y).sumB + 32 * oldest = c.sumB + (c.roll y).sumA ∧
    (c.roll y).sumA = (c.roll y).plainSum ∧ (c.roll y).sumB = (c.roll y).weightedSum ∧
    (c.roll y).sumA ≤ 8160 ∧ (c.roll y).sumB ≤ 134640

/-- A running digest fed a chunk's bytes in order and completed is the hash of the padded message over its 64-byte blocks
from the initial chaining words; meanwhile it holds the bytes not yet forming a block and how many it took (R31, R35). -/
def Obligations.DigestHashesTheChunk : Prop :=
  ∀ bytes : List Byte,
    let d := Digest.initial.feedAll bytes
    d.finish = ((blocksOf (paddedMessage bytes)).foldl Chain.compress Chain.initial).fingerprint ∧
    (paddedMessage bytes).length % 64 = 0 ∧ d.taken = bytes.length ∧
    d.block = bytes.drop (bytes.length / 64 * 64) ∧
    d.chain = (blocksOf bytes).foldl Chain.compress Chain.initial

/-- FINGERPRINT_COMPLETE: the oldest digest is completed. Its chunk takes the fingerprint and joins the ask entry for it, or
makes a resolution lookup, which enters the request queue or is held. A digest whose result is dropped only leaves the
queue, but that an ABORTING stream which waited for it alone has its ABORTED report made, and is IDLE with its place in
the report queue (R16, R35, R37, R38, R43, R57, R169). -/
def Obligations.FingerprintHandsChunkOn : Prop :=
  ∀ (s : State) (j : DigestJob) (rest : List DigestJob),
    (s.digestQueue = [] → exec .fingerprintComplete s = .next s) ∧
    (s.active = true → s.digestQueue = j :: rest →
      let x := s.stream j.stream
      let f := j.digest.finish
      let written := fun (phase : Phase) => s.streams.set j.stream { x with
        pending := x.pending.map (fun q =>
          if q.number = j.slot then { q with fingerprint := some f, phase := phase } else q) }
      (j.fate = .kept → ∀ q, x.slot? j.slot = some q →
        (x.kind = .survey ∨ (∀ a ∈ s.resolution.entries, a.fingerprint ≠ f) →
          exec .fingerprintComplete s = .next { s with
            digestQueue := rest, streams := written .checking
            index := s.index.withRequest .resolution (.lookup f j.stream j.slot q.sequence x.kind false) }) ∧
        (x.kind = .normal → s.askTableSound → (∃ a ∈ s.resolution.entries, a.fingerprint = f) →
          exec .fingerprintComplete s = .next { s with
            digestQueue := rest, streams := written .waiting
            resolution := { s.resolution with entries := s.resolution.entries.map (fun a =>
              if a.fingerprint = f then { a with waiters := a.waiters ++ [(j.stream, j.slot)] } else a) } })) ∧
      (j.fate ≠ .kept → ∃ t, exec .fingerprintComplete s = .next t ∧ t.digestQueue = rest ∧
        s.abortFollowed t j.stream
          (({ s with digestQueue := rest } : State).workGone j.stream (fun _ _ => False) ∧ x.writeInFlight = none) True ∧
        (x.state ≠ .aborting → s.management.fresh = [] → t.streams = s.streams ∧
          t.management.reports = s.management.reports ∧ t.management.held = s.management.held) ∧
        (∀ i, (s.stream i).sameWork (t.stream i) ∧ (t.stream i).pending = (s.stream i).pending) ∧
        t.index = s.index ∧ t.resolution = s.resolution ∧ t.containers = s.containers ∧ t.bus = s.bus ∧
        t.engines = s.engines ∧ t.staging = s.staging ∧ t.sent = s.sent ∧ t.settings = s.settings ∧
        t.station = s.station ∧ t.now = s.now))

/-! ## The Chunk Index -/

/-- INDEX_SERVICE_START serves the oldest request and hands the freed queue slot to a held one, to the other producer first
when both hold some; SCRUB_STEP_START begins the offered step only on an empty queue (R42 to R44, R157). -/
def Obligations.IndexServesInOrder : Prop :=
  ∀ s : State, s.active = true →
    (∀ r rest, s.index.service = .nothing → s.index.queue = r :: rest →
      exec .indexServiceStart s = .next { s with
        index := match s.index.heldResolution, s.index.heldAnswer, s.index.lastProducer with
          | [], [], _ => { s.index with service := .request r, queue := rest }
          | h :: more, [], _ => { s.index with service := .request r, queue := rest ++ [h], heldResolution := more
                                               lastProducer := .resolution }
          | [], h :: more, _ => { s.index with service := .request r, queue := rest ++ [h], heldAnswer := more
                                               lastProducer := .answer }
          | _ :: _, h :: more, .resolution => { s.index with service := .request r, queue := rest ++ [h]
                                                             heldAnswer := more, lastProducer := .answer }
          | h :: more, _ :: _, .answer => { s.index with service := .request r, queue := rest ++ [h]
                                                         heldResolution := more, lastProducer := .resolution } }) ∧
    (s.index.service ≠ .nothing ∨ s.index.queue = [] → exec .indexServiceStart s = .next s) ∧
    (s.walker.state = .walking → s.index.service = .nothing → s.index.queue = [] →
      exec .scrubStepStart s = .next { s with index := { s.index with service := .scrub s.walker.position } }) ∧
    (s.walker.state ≠ .walking ∨ s.index.service ≠ .nothing ∨ s.index.queue ≠ [] →
      exec .scrubStepStart s = .next s)

/-- RESOLUTION_LOOKUP_COMPLETE, hit of a NORMAL chunk: dead entries leave the bucket, the container of the entry gains one
pending reference and the chunk is resolved LOCAL_DUP there, all else it concerns standing still (R45, R46, R58, R62). -/
def Obligations.LookupHitResolvesLocally : Prop :=
  ∀ (s : State) (f : Fingerprint) (i : Fin 16) (p : Fin 32) (q : Word) (e : IndexEntry),
    let b := bucketOf s.settings.indexExponent f
    s.active = true → s.index.service = .request (.lookup f i p q .normal false) → bucketSound (s.bucket b) →
    e ∈ s.bucket b → e.fingerprint = f → s.isLive e = true →
    ∃ t, exec .resolutionLookupComplete s = .next t ∧ s.tidied t b ∧
      t.index = { s.index with buckets := t.index.buckets, service := .nothing } ∧
      (∀ k, (s.container k).state ≠ .free →
        (t.container k).references = (s.container k).references + if k = e.slot then 1 else 0) ∧
      (t.stream i).pending = (s.stream i).pending.map (fun r =>
        if r.number = p then
          r.resolvedAs .localDup { station := s.settings.station, incarnation := s.settings.incarnation
                                   slot := e.slot, ordinal := e.ordinal } none
        else r) ∧
      (∀ j, (s.stream j).sameWork (t.stream j) ∧ (j ≠ i → (t.stream j).pending = (s.stream j).pending)) ∧
      t.resolution = s.resolution ∧ t.bus = s.bus ∧ t.engines = s.engines ∧ t.digestQueue = s.digestQueue ∧
      t.staging = s.staging ∧ t.settings = s.settings ∧ t.station = s.station ∧ t.now = s.now

/-- RESOLUTION_LOOKUP_COMPLETE, miss of a NORMAL chunk: the re-check. It joins the ask entry for its fingerprint, or makes
one with the waiting chunks of the same fingerprint and an ASK, which enters the transmit queue or the ASK holding line, or
waits for an entry; it turns WAITING (R58 to R60, R65, R86, R87). -/
def Obligations.LookupMissAsksOrWaits : Prop :=
  ∀ (s : State) (f : Fingerprint) (i : Fin 16) (p : Fin 32) (q : Word),
    let b := bucketOf s.settings.indexExponent f
    let r := s.resolution
    let tag := r.freeTag r.nextTag 256
    s.active = true → s.index.service = .request (.lookup f i p q .normal false) → s.askTableSound →
    (∀ e ∈ s.bucket b, e.fingerprint = f → s.isLive e = false) →
    ∃ t, exec .resolutionLookupComplete s = .next t ∧ s.tidied t b ∧
      t.index = { s.index with buckets := t.index.buckets, service := .nothing } ∧
      (t.stream i).pending =
        (s.stream i).pending.map (fun r => if r.number = p then { r with phase := .waiting } else r) ∧
      ((∃ a ∈ r.entries, a.fingerprint = f) → t.bus = s.bus ∧
        t.resolution = { r with entries := r.entries.map (fun a =>
          if a.fingerprint = f then { a with waiters := a.waiters ++ [(i, p)] } else a) }) ∧
      ((∀ a ∈ r.entries, a.fingerprint ≠ f) → r.entries.length < 64 → t.bus = s.bus.withFirstAsk tag f ∧
        t.resolution =
          { entries := r.entries ++ [{ fingerprint := f, tag := tag, state := .sending, yielded := false
                                       timer := .stopped, found := none, storingWaiter := none
                                       waiters := (i, p) :: r.waitQueue.filter (fun w => s.fingerprintOf w = some f) }]
            nextTag := tag + 1
            waitQueue := r.waitQueue.filter (fun w => s.fingerprintOf w ≠ some f) }) ∧
      ((∀ a ∈ r.entries, a.fingerprint ≠ f) → r.entries.length = 64 → t.bus = s.bus ∧
        t.resolution = { r with waitQueue := r.waitQueue ++ [(i, p)] }) ∧
      (∀ j, (s.stream j).sameWork (t.stream j) ∧ (j ≠ i → (t.stream j).pending = (s.stream j).pending)) ∧
      t.engines = s.engines ∧ t.digestQueue = s.digestQueue ∧ t.staging = s.staging ∧ t.settings = s.settings ∧
      t.station = s.station ∧ t.now = s.now

/-- RESOLUTION_LOOKUP_COMPLETE of a voided lookup tidies its bucket and hands nothing on; of a SURVEY chunk it frees the
chunk's pending slot and counts it SURVEY_DUP on a hit and SURVEY_NEW on a miss, pinning no container. The last chunk of a
CLOSING SURVEY stream with its queue empty makes the CLOSED report, with whose place in the report queue the stream is
IDLE (R45, R46, R48, R61, R103, R114, R169). -/
def Obligations.VoidedAndSurveyLookups : Prop :=
  ∀ (s : State) (f : Fingerprint) (i : Fin 16) (p : Fin 32) (q : Word) (kind : StreamKind),
    let b := bucketOf s.settings.indexExponent f
    (s.active = true → s.index.service = .request (.lookup f i p q kind true) →
      ∃ t, exec .resolutionLookupComplete s = .next t ∧ s.tidied t b ∧
        t = { s with index := { s.index with buckets := t.index.buckets, service := .nothing } }) ∧
    (s.active = true → s.index.service = .request (.lookup f i p q .survey false) →
      ∃ t, exec .resolutionLookupComplete s = .next t ∧ s.tidied t b ∧
        t.index = { s.index with buckets := t.index.buckets, service := .nothing } ∧
        (t.stream i).pending = (s.stream i).pending.filter (fun r => r.number ≠ p) ∧
        ((∃ e ∈ s.bucket b, e.fingerprint = f ∧ s.isLive e = true) →
          (t.stream i).surveyDup = (s.stream i).surveyDup + 1 ∧ (t.stream i).surveyNew = (s.stream i).surveyNew) ∧
        ((∀ e ∈ s.bucket b, e.fingerprint = f → s.isLive e = false) →
          (t.stream i).surveyNew = (s.stream i).surveyNew + 1 ∧ (t.stream i).surveyDup = (s.stream i).surveyDup) ∧
        (let x := s.stream i
         let report := ({ x with surveyNew := (t.stream i).surveyNew, surveyDup := (t.stream i).surveyDup } : Stream).closedReport i
         x.state = .closing → x.kind = .survey → x.queue = [] → (∀ r ∈ x.pending, r.number = p) →
         s.management.fresh = [] → (∀ r ∈ s.management.held, ¬ (r.endsStream i ∧ r.kindNumber = 1)) →
         report ∈ t.management.reports ++ t.management.held ∧
         (s.management.held = [] → s.management.reports.length < 32 → s.store.flushQueue = [] →
           (t.stream i).state = .idle ∧ t.management.reports = s.management.reports ++ [report])) ∧
        (∀ j, (s.stream j).sameWork (t.stream j) ∧ (j ≠ i → (t.stream j).pending = (s.stream j).pending)) ∧
        (∀ k, (s.container k).state ≠ .free → (t.container k).references = (s.container k).references) ∧
        t.resolution = s.resolution ∧ t.bus = s.bus ∧ t.engines = s.engines ∧ t.digestQueue = s.digestQueue ∧
        t.staging = s.staging ∧ t.settings = s.settings ∧ t.station = s.station ∧ t.now = s.now)

/-- ANSWER_LOOKUP_COMPLETE: on a hit a HAVE with the container's place and whether it is SEALED enters the transmit queue if
that has room; the ASK leaves the answer queue and the next one's lookup is made, entering the request queue or held (R43,
R45, R47, R86, R96, R97). -/
def Obligations.AnswerLookupSendsHave : Prop :=
  ∀ (s : State) (f : Fingerprint) (asker tag : Byte),
    let b := bucketOf s.settings.indexExponent f
    let room := s.bus.txQueue.length < 32 ∧ s.bus.askHolding = []
    s.active = true → s.index.service = .request (.answer f asker tag) → bucketSound (s.bucket b) →
    ∃ t, exec .answerLookupComplete s = .next t ∧ s.tidied t b ∧ t = { s with index := t.index, bus := t.bus } ∧
      (∀ e ∈ s.bucket b, e.fingerprint = f → s.isLive e = true → room →
        t.bus = { s.bus with
          txQueue := s.bus.txQueue ++
            [{ frame := .holds asker tag f s.settings.incarnation e.slot e.ordinal
                          (decide ((s.container e.slot).state = .sealed)), attempts := 0 }]
          transmitter := if s.bus.transmitter = .empty then .waiting none else s.bus.transmitter
          answerQueue := s.bus.answerQueue.tail, answerOutstanding := t.bus.answerOutstanding }) ∧
      ((∀ e ∈ s.bucket b, e.fingerprint = f → s.isLive e = false) ∨ ¬ room →
        t.bus = { s.bus with answerQueue := s.bus.answerQueue.tail, answerOutstanding := t.bus.answerOutstanding }) ∧
      (s.bus.answerQueue.tail = [] → t.bus.answerOutstanding = false ∧
        t.index = { s.index with buckets := t.index.buckets, service := .nothing }) ∧
      (∀ a more, s.bus.answerQueue.tail = a :: more → t.bus.answerOutstanding = true ∧
        t.index = ({ s.index with buckets := t.index.buckets, service := .nothing } : Index).withRequest .answer
          (.answer a.fingerprint a.asker a.tag))

/-- INSERT_COMPLETE on its bucket: dead entries and one of the same fingerprint leave, the oldest of 8 that remain is
displaced and flagged, and the new entry is last; every other bucket stands (R41, R45, R50, R51). -/
def Obligations.InsertRewritesBucket : Prop :=
  ∀ (s : State) (f : Fingerprint) (slot ordinal length : Nat) (tag : Byte),
    let b := bucketOf s.settings.indexExponent f
    let kept := (s.bucket b).filter (fun e => s.isLive e && decide (e.fingerprint ≠ f))
    s.active = true → s.index.service = .request (.insert f slot ordinal length tag) →
    ∃ t, exec .insertComplete s = .next t ∧
      t.bucket b = (if 8 ≤ kept.length then kept.tail else kept) ++
        [{ fingerprint := f, slot := slot, ordinal := ordinal }] ∧
      (∀ a, a ≠ b → t.bucket a = s.bucket a) ∧
      t.index = { s.index with buckets := t.index.buckets, service := .nothing } ∧
      (8 ≤ kept.length → t.management.flags &&& 0x10#8 = 0x10#8) ∧
      (kept.length < 8 → t.management.flags &&& 0x10#8 = s.management.flags &&& 0x10#8) ∧
      t.engines = s.engines ∧ t.digestQueue = s.digestQueue ∧ t.staging = s.staging ∧ t.settings = s.settings ∧
      t.station = s.station ∧ t.now = s.now ∧ (∀ j, (s.stream j).sameWork (t.stream j))

/-- INSERT_COMPLETE taken by the Resolution Unit: with the container OPEN, SEALING or SEALED the first waiter is LOCAL_NEW
and the others LOCAL_DUP, the container holds a unit for each and loses the insert's, and the entry is free; otherwise
the insert's unit is taken away and the chunk is appended again for the first waiter, or the entry is freed without one.
Freeing it works the ask-wait queue (R52, R60, R66, R73, R75, R132). -/
def Obligations.InsertResolvesWaiters : Prop :=
  ∀ (s : State) (f : Fingerprint) (slot ordinal length : Nat) (a : AskEntry),
    let live := (s.container slot).state = .opened ∨ (s.container slot).state = .seals ∨
      (s.container slot).state = .sealed
    let l : Location := { station := s.settings.station, incarnation := s.settings.incarnation, slot := slot
                          ordinal := ordinal }
    s.active = true → s.index.service = .request (.insert f slot ordinal length a.tag) → s.askTableSound →
    a ∈ s.resolution.entries →
    (live → a.waiters.Nodup → s.resolution.waitQueue = [] →
      ∃ t, exec .insertComplete s = .next t ∧
        t.resolution = { s.resolution with entries := s.resolution.entries.filter (fun e => e.tag ≠ a.tag) } ∧
        ¬ t.bus.hasUnsentAsk a.tag a.fingerprint ∧
        (∀ k, (s.container k).state ≠ .free → (t.container k).references =
          if k = slot then (s.container k).references + a.waiters.length - 1 else (s.container k).references) ∧
        (∀ j, (t.stream j).pending = (s.stream j).pending.map (fun q =>
          if a.waiters.head? = some (j, q.number) then q.resolvedAs .localNew l none
          else if (j, q.number) ∈ a.waiters then q.resolvedAs .localDup l none
          else q))) ∧
    (¬ live → ∀ w more, a.waiters = w :: more →
      (∀ c, (s.stream w.1).current = some c → (s.container c).state = .opened) →
      ∃ t, exec .insertComplete s = .next t ∧ t.appendUnderWay a.tag w ∧ t.bus = s.bus ∧
        t.resolution = { s.resolution with entries := s.resolution.entries.map (fun e =>
          if e.tag = a.tag then
            { a with state := .storing, timer := .stopped, found := none, storingWaiter := some w }
          else e) } ∧
        (∀ k, (s.container k).state ≠ .free → (t.container k).references =
          if k = slot then (s.container k).references - 1 else (s.container k).references) ∧
        (∀ j, (t.stream j).pending = (s.stream j).pending)) ∧
    (¬ live → a.waiters = [] → s.resolution.waitQueue = [] →
      ∃ t, exec .insertComplete s = .next t ∧
        t.resolution = { s.resolution with entries := s.resolution.entries.filter (fun e => e.tag ≠ a.tag) } ∧
        ¬ t.bus.hasUnsentAsk a.tag a.fingerprint ∧
        (∀ k, (s.container k).state ≠ .free → (t.container k).references =
          if k = slot then (s.container k).references - 1 else (s.container k).references) ∧
        (∀ j, (t.stream j).pending = (s.stream j).pending)) ∧
    (live ∨ a.waiters = [] → (∀ w ∈ s.resolution.waitQueue, s.fingerprintOf w ≠ none) →
      ∃ t, exec .insertComplete s = .next t ∧ s.waitQueueWorked t a.tag)

/-- SCRUB_STEP_COMPLETE: a bucket of the walk is tidied and the position rises. After the last bucket the slots of the
snapshot are FREE with every field cleared and counted, a PURGED report is made for each in order, and with room for
them the walker starts anew for slots retired meanwhile or is IDLE (R45, R53, R157, R158, R169). -/
def Obligations.ScrubStepMovesTheWalk : Prop :=
  ∀ (s : State) (b : Nat), s.active = true → s.index.service = .scrub b →
    (s.walker.position + 1 < 2 ^ s.settings.indexExponent →
      ∃ t, exec .scrubStepComplete s = .next t ∧ s.tidied t b ∧
        t = { s with
          index := { s.index with buckets := t.index.buckets, service := .nothing }
          walker := { s.walker with position := s.walker.position + 1 } }) ∧
    (2 ^ s.settings.indexExponent ≤ s.walker.position + 1 → s.canonical → s.management.fresh = [] →
      s.containers.openWait = [] → s.store.flushQueue = [] →
      ∃ t, exec .scrubStepComplete s = .next t ∧ s.tidied t b ∧
        t.index = { s.index with buckets := t.index.buckets, service := .nothing } ∧
        (∀ k, t.container k = if k ∈ s.walker.snapshot then Container.initial else s.container k) ∧
        t.containers.freeSlots = s.containers.freeSlots + s.walker.snapshot.length ∧
        t.containers.cursor = s.containers.cursor ∧
        t.walker.completed = s.walker.completed + 1 ∧
        t.management.reports ++ t.management.held =
          s.management.reports ++ s.management.held ++
            s.walker.snapshot.map (fun k => .purged k (s.walker.completed + 1)) ∧
        (s.management.held = [] → s.management.reports.length + s.walker.snapshot.length ≤ 32 →
          s.walker.snapshot.Nodup → s.walker.snapshot ≠ [] →
          ((∀ k, (s.container k).state = .retired → k ∈ s.walker.snapshot) → t.walker.state = .idle) ∧
          ((∃ k, (s.container k).state = .retired ∧ k ∉ s.walker.snapshot) →
            t.walker.state = .walking ∧ t.walker.position = 0 ∧
            ∀ k, k ∈ t.walker.snapshot ↔ (s.container k).state = .retired ∧ k ∉ s.walker.snapshot)))

/-! ## The ask table and appends -/

/-- COMPARE_A_EXPIRY of an ASKED entry: a second ASK enters the transmit queue if that has room, and the entry is REASKED with
compare B as armed as before (R68, R69). The clock stands at least compare A past the start, which is the model's choice
(log entry 3). -/
def Obligations.CompareAAsksAgain : Prop :=
  ∀ (s : State) (a : AskEntry) (since : Nat) (armedB : Bool),
    s.active = true → s.askTableSound → a ∈ s.resolution.entries → a.state = .asked →
    a.timer = .running since true armedB →
    exec (.compareAExpiry a.tag) s = .next { s with
      now := max s.now (since + 25 * s.settings.compareA)
      bus := if s.bus.txQueue.length < 32 then
          { s.bus with
            txQueue := s.bus.txQueue ++ [{ frame := .ask a.tag a.fingerprint, attempts := 0 }]
            transmitter := if s.bus.transmitter = .empty then .waiting none else s.bus.transmitter }
        else s.bus
      resolution := { s.resolution with entries := s.resolution.entries.map (fun e =>
        if e.tag = a.tag then { a with state := .reasked, timer := .running since false armedB } else e) } }

/-- COMPARE_B_EXPIRY: the entry's unsent ASK is removed; with a waiter the entry is STORING and an append is requested for the
first, without one it is freed and the ask-wait queue worked. The request waits behind an earlier one of its stream, is
issued into the stream's current container if it fits, seals that one FULL if it does not, and with no current container
has one opened for it (R60, R66, R68, R72, R73, R88, R121, R123, R124, R126, R128). The clock stands at least compare B past
the start (log entry 3). -/
def Obligations.CompareBStoresOrFrees : Prop :=
  ∀ (s : State) (a : AskEntry) (since : Nat) (armedA : Bool),
    s.active = true → s.askTableSound → a ∈ s.resolution.entries →
    a.state = .asked ∨ a.state = .reasked ∨ a.state = .yielded → a.timer = .running since armedA true →
    (∀ w more, a.waiters = w :: more →
      (∀ c, (s.stream w.1).current = some c → (s.container c).state = .opened) →
      ∃ t, exec (.compareBExpiry a.tag) s = .next t ∧ t.appendUnderWay a.tag w ∧
        t.resolution = { s.resolution with entries := s.resolution.entries.map (fun e =>
          if e.tag = a.tag then
            { a with state := .storing, timer := .stopped, found := none, storingWaiter := some w }
          else e) } ∧
        ¬ t.bus.hasUnsentAsk a.tag a.fingerprint ∧ t.bus.line = s.bus.line ∧ t.bus.answerQueue = s.bus.answerQueue ∧
        t.now = max s.now (since + 25 * s.settings.compareB) ∧ t.index = s.index ∧ t.staging = s.staging ∧
        t.engines = s.engines ∧ t.digestQueue = s.digestQueue ∧ t.settings = s.settings ∧ t.station = s.station ∧
        (∀ j, (s.stream j).sameWork (t.stream j) ∧ (t.stream j).pending = (s.stream j).pending)) ∧
    (a.waiters = [] → s.resolution.waitQueue = [] →
      ∃ t, exec (.compareBExpiry a.tag) s = .next t ∧
        t.resolution = { s.resolution with entries := s.resolution.entries.filter (fun e => e.tag ≠ a.tag) } ∧
        ¬ t.bus.hasUnsentAsk a.tag a.fingerprint ∧ t.now = max s.now (since + 25 * s.settings.compareB) ∧
        t.index = s.index ∧ t.staging = s.staging ∧
        (∀ j, (s.stream j).sameWork (t.stream j) ∧ (t.stream j).pending = (s.stream j).pending)) ∧
    (a.waiters = [] → (∀ w ∈ s.resolution.waitQueue, s.fingerprintOf w ≠ none) →
      ∃ t, exec (.compareBExpiry a.tag) s = .next t ∧ s.waitQueueWorked t a.tag) ∧
    (∀ w more q, a.waiters = w :: more → s.chunkOf w = some q →
      let i := w.1
      let request : AppendRequest :=
        { tag := a.tag, stream := i, slot := w.2, fingerprint := a.fingerprint, length := q.length }
      let append := fun offset : Nat => ({ offset := offset, length := q.length, fingerprint := a.fingerprint
                                           stream := i, slot := w.2, tag := a.tag } : Append)
      let first := ∀ r ∈ s.containers.openWait, r.stream ≠ i
      ∃ t, exec (.compareBExpiry a.tag) s = .next t ∧
        (s.store.port ≠ .idle → (∀ b, b < 20 → s.areaHeld b) → ¬ first ∨ (s.stream i).current = none →
          t.containers = { s.containers with openWait := s.containers.openWait ++ [request] }) ∧
        (∀ k, first → (s.stream i).current = some k → (s.container k).state ≠ .free → (s.container k).hasRoom q.length →
          (t.container k).inFlight = (s.container k).inFlight ++ [append (s.container k).fill] ∧
          (t.container k).fill = (s.container k).fill + q.length) ∧
        (∀ k, first → (s.stream i).current = some k → ¬ (s.container k).hasRoom q.length → s.sealTaken t k .full) ∧
        (∀ k b, s.containers.openWait = [] → (s.stream i).current = none → ¬ s.ownerOfOpen i → s.nextSlot k →
          s.nextArea b → s.store.port ≠ .idle → s.management.fresh = [] →
          t.container k = { state := .opened, area := some b, owner := some i, count := 0, payload := 0
                            fill := q.length, inFlight := [append 0], sealRequested := none, sealedFor := none
                            references := 0, round := none } ∧
          (t.stream i).current = some k ∧ t.containers.openWait = [] ∧
          t.containers.freeSlots = s.containers.freeSlots - 1 ∧
          t.containers.cursor = (k + 1) % s.settings.slots))

/-- APPEND_COMPLETE: the chunk's bytes stand at its place in the container's area and its directory entry at its ordinal, no
other byte changed; the container counts it and holds the insert's unit; the entry takes the found location, the insert
is requested and a CLAIM handed over. With nothing more in flight a seal requested container turns SEALING for its
reason, and in HOLDING any other for HOLD. An ABORTING stream that waited for this append alone has its ABORTED report
made, and is IDLE with its place in the report queue (R16, R43, R52, R74, R86, R120, R126, R127, R129, R130, R147, R169).
Where the areas of staging memory begin is the model's choice (log entry 7). -/
def Obligations.AppendPlacesTheChunk : Prop :=
  ∀ (s : State) (slot area : Nat) (a : Append),
    let c := s.container slot
    s.active = true → s.askTableSound → c.state = .opened → c.area = some area → a ∈ c.inFlight →
    (∀ d ∈ c.inFlight, d.offset = a.offset → d = a) → a.offset + a.length ≤ 4194304 → c.count < 1024 →
    ∃ t, exec (.appendComplete slot a.offset) s = .next t ∧
      (∀ k, k < a.length → readByte t.staging (areaPayload area + a.offset + k) =
        readByte s.staging (stagingExtent a.stream a.slot + k)) ∧
      readBytes t.staging (areaDirectory area + c.count * 48) 48 =
        fingerprintBytes a.fingerprint ++ leBytes 4 a.offset ++ leBytes 4 a.length ++ List.replicate 8 0#8 ∧
      (∀ k, ¬ (areaPayload area + a.offset ≤ k ∧ k < areaPayload area + a.offset + a.length) →
        ¬ (areaDirectory area + c.count * 48 ≤ k ∧ k < areaDirectory area + c.count * 48 + 48) →
        readByte t.staging k = readByte s.staging k) ∧
      (t.container slot).count = c.count + 1 ∧ (t.container slot).payload = c.payload + a.length ∧
      (t.container slot).references = c.references + 1 ∧
      (t.container slot).inFlight = c.inFlight.filter (fun d => d.offset ≠ a.offset) ∧
      (let done : Container := { c with count := c.count + 1, payload := c.payload + a.length }
       let last := ∀ d ∈ c.inFlight, d.offset = a.offset
       (∀ reason, c.sealRequested = some reason → last → t.turnedSealing slot done reason) ∧
       (c.sealRequested = none → last → s.station = .holding → t.turnedSealing slot done .hold) ∧
       (¬ last ∨ (c.sealRequested = none ∧ s.station ≠ .holding) → s.store.port ≠ .idle →
         (t.container slot).state = .opened ∧ (t.container slot).sealRequested = c.sealRequested)) ∧
      t.resolution = { s.resolution with entries := s.resolution.entries.map (fun e =>
        if e.tag = a.tag then
          { e with found := some { station := s.settings.station, incarnation := s.settings.incarnation
                                   slot := slot, ordinal := c.count } }
        else e) } ∧
      t.index = s.index.withRequest .resolution (.insert a.fingerprint slot c.count a.length a.tag) ∧
      t.bus = s.bus.withHaveOrClaim (.claim a.fingerprint s.settings.incarnation slot c.count) ∧
      s.abortFollowed t a.stream
        (s.workGone a.stream (fun k d => k = slot ∧ d.offset = a.offset) ∧ (s.stream a.stream).writeInFlight = none)
        (s.store.port ≠ .idle) ∧
      (∀ j, (s.stream j).sameWork (t.stream j) ∧ (t.stream j).pending = (s.stream j).pending) ∧
      t.engines = s.engines ∧ t.digestQueue = s.digestQueue ∧ t.settings = s.settings ∧ t.station = s.station ∧
      t.now = s.now

/-- A new ask entry's tag is held by no entry in use, and it is the first such at or after the next-tag counter, counting
modulo 256 (R64). -/
def Obligations.NewTagIsFree : Prop :=
  ∀ r : Resolution, r.entries.length < 256 →
    let tag := r.freeTag r.nextTag 256
    (∀ a ∈ r.entries, a.tag ≠ tag) ∧
    (∀ d : Nat, d < (tag - r.nextTag).toNat → ∃ a ∈ r.entries, a.tag = r.nextTag + BitVec.ofNat 8 d)

/-! ## The peer bus -/

/-- ASK_RECEIVED: an ASK of a fingerprint this station is storing is dropped; otherwise an entry that may yield to the
lower-numbered asker does, and the ASK enters the answer queue while that has room, a lookup being made for it at the head
(R43, R68, R71, R88, R95, R96). The clock
stands at least the frame's bits and one bit time past its beginning (log entry 3). -/
def Obligations.AskIsAnsweredUnlessStoring : Prop :=
  ∀ (s : State) (sender tag : Byte) (f : Fingerprint) (since : Nat),
    s.active = true → s.askTableSound → s.bus.receiver = .gathering → s.bus.line = .driven since →
    sender.toNat ≤ 15 → sender ≠ s.settings.station →
    let moment := max s.now (since + 297)
    let bus : PeerBus := { s.bus with line := .idle (moment - 1), receiver := .listening }
    let entered : PeerBus := { bus with
      answerQueue := s.bus.answerQueue ++ [{ asker := sender, tag := tag, fingerprint := f }] }
    let yields := fun a : AskEntry => a.fingerprint = f ∧ a.yielded = false ∧
      (a.state = .sending ∨ a.state = .asked ∨ a.state = .reasked) ∧ sender.toNat < s.settings.station.toNat
    ((∃ a ∈ s.resolution.entries, a.fingerprint = f ∧ a.state = .storing) →
      exec (.askReceived sender tag f) s = .next { s with now := moment, bus := bus }) ∧
    ((∀ a ∈ s.resolution.entries, ¬ yields a ∧ ¬ (a.fingerprint = f ∧ a.state = .storing)) →
      (32 ≤ s.bus.answerQueue.length →
        exec (.askReceived sender tag f) s = .next { s with now := moment, bus := bus }) ∧
      (s.bus.answerQueue.length < 32 → s.bus.answerOutstanding = true →
        exec (.askReceived sender tag f) s = .next { s with now := moment, bus := entered }) ∧
      (s.bus.answerQueue = [] → s.bus.answerOutstanding = false →
        exec (.askReceived sender tag f) s = .next { s with
          now := moment, bus := { entered with answerOutstanding := true }
          index := s.index.withRequest .answer (.answer f sender tag) })) ∧
    (∀ a ∈ s.resolution.entries, yields a →
      ∃ t, exec (.askReceived sender tag f) s = .next t ∧
        t.resolution = { s.resolution with entries := s.resolution.entries.map (fun e =>
          if e.tag = a.tag then { a with state := .yielded, yielded := true, timer := .running moment false true }
          else e) } ∧
        ¬ t.bus.hasUnsentAsk a.tag f ∧ t.now = moment ∧ t.bus.line = .idle (moment - 1) ∧
        (s.bus.answerQueue.length < 32 → t.bus.answerQueue = entered.answerQueue) ∧
        t.streams = s.streams ∧ t.containers = s.containers ∧ t.store = s.store ∧ t.staging = s.staging ∧
        t.sent = s.sent ∧ t.engines = s.engines ∧ t.station = s.station)

/-- HAVE_RECEIVED and CLAIM_RECEIVED: every waiter of an entry not STORING is resolved REMOTE at the named place and the entry
is freed, which works the ask-wait queue; for a STORING entry or none nothing is resolved. A HAVE's holder byte says whether
the place is settled, a CLAIM's place is not (R60, R66, R70, R88, R94). The clock stands at least the frame's bits and one
bit time past its beginning (log entry 3). -/
def Obligations.RemotePlaceResolvesWaiters : Prop :=
  ∀ (s : State) (sender target tag : Byte) (f : Fingerprint) (incarnation slot ordinal : Half) (holder : Bool) (since : Nat),
    s.active = true → s.askTableSound → s.bus.receiver = .gathering → s.bus.line = .driven since →
    sender.toNat ≤ 15 → sender ≠ s.settings.station → target.toNat ≤ 15 → slot.toNat ≤ 4095 → ordinal.toNat ≤ 1023 →
    let l : Location := { station := sender, incarnation := incarnation, slot := slot.toNat, ordinal := ordinal.toNat }
    let outcome := fun (c : Instr) (bits : Nat) (sealedThere : Bool) =>
      (∀ a ∈ s.resolution.entries, a.fingerprint = f → a.state ≠ .storing → s.resolution.waitQueue = [] →
        ∃ t, exec c s = .next t ∧ t.now = max s.now (since + bits + 1) ∧ t.bus.line = .idle (t.now - 1) ∧
          t.bus.receiver = .listening ∧ ¬ t.bus.hasUnsentAsk a.tag f ∧
          t.resolution = { s.resolution with entries := s.resolution.entries.filter (fun e => e.tag ≠ a.tag) } ∧
          (∀ j, (s.stream j).sameWork (t.stream j) ∧
            (t.stream j).pending = (s.stream j).pending.map (fun q =>
              if (j, q.number) ∈ a.waiters then q.resolvedAs .remote l (some sealedThere) else q)) ∧
          t.index = s.index ∧ t.staging = s.staging ∧ t.engines = s.engines ∧ t.digestQueue = s.digestQueue ∧
          t.settings = s.settings ∧ t.station = s.station) ∧
      (∀ a ∈ s.resolution.entries, a.fingerprint = f → a.state ≠ .storing →
        (∀ w ∈ s.resolution.waitQueue, s.fingerprintOf w ≠ none) →
        ∃ t, exec c s = .next t ∧ s.waitQueueWorked t a.tag) ∧
      ((∀ a ∈ s.resolution.entries, a.fingerprint = f → a.state = .storing) →
        ∃ t, exec c s = .next t ∧ t.now = max s.now (since + bits + 1) ∧ t.resolution = s.resolution ∧
          t.bus = { s.bus with line := .idle (t.now - 1), receiver := .listening } ∧ t.index = s.index ∧
          (∀ j, (s.stream j).sameWork (t.stream j) ∧ (t.stream j).pending = (s.stream j).pending))
    outcome (.haveReceived sender target tag f incarnation slot ordinal (if holder then 1#8 else 0#8)) 360 holder ∧
    outcome (.claimReceived sender f incarnation slot ordinal 0#8) 344 false

/-- The bytes of a frame stand in the layout of R173 with the frame check behind them, and its bits, put on the line by a
station and gathered by this one, are the command of the frame's own kind with the frame's own fields: no bit of a field
is lost between the layout and its reading, and the check agrees (R89, R90, R92, R94, R173). -/
def Obligations.SentFramesAreReceived : Prop :=
  ∀ (s : State) (sender target tag : Byte) (f : Fingerprint) (incarnation slot ordinal : Half) (holder : Bool),
    let checked := fun body : List Byte => body ++ leBytes 2 (frameCheck body).toNat
    (Frame.ask tag f).bytes sender = checked ([1#8, sender, tag] ++ fingerprintBytes f) ∧
    (Frame.holds target tag f incarnation slot.toNat ordinal.toNat holder).bytes sender =
      checked ([2#8, sender, target, tag] ++ fingerprintBytes f ++
        fieldBytes [(2, incarnation.toNat), (2, slot.toNat), (2, ordinal.toNat), (1, holder.toNat)]) ∧
    (Frame.claim f incarnation slot.toNat ordinal.toNat).bytes sender =
      checked ([3#8, sender] ++ fingerprintBytes f ++
        fieldBytes [(2, incarnation.toNat), (2, slot.toNat), (2, ordinal.toNat), (1, 0)]) ∧
    exec (.candidateFrame (bitsOf ((Frame.ask tag f).bytes sender))) s = exec (.askReceived sender tag f) s ∧
    exec (.candidateFrame
        (bitsOf ((Frame.holds target tag f incarnation slot.toNat ordinal.toNat holder).bytes sender))) s =
      exec (.haveReceived sender target tag f incarnation slot ordinal (if holder then 1#8 else 0#8)) s ∧
    exec (.candidateFrame (bitsOf ((Frame.claim f incarnation slot.toNat ordinal.toNat).bytes sender))) s =
      exec (.claimReceived sender f incarnation slot ordinal 0#8) s

/-- FRAME_BEGINS turns an idle line busy after 1 µs of idle, and a listening receiver gathers if the station has itself seen
that gap since it entered RUNNING. A CANDIDATE_FRAME of a wrong length, with a kind byte that does not name the kind of its
length, or with a bad check, and a frame with a field out of range, ends the transmission and does nothing else; a good
frame of any kind in this station's own name sets STATION_CLASH and does nothing else (R90 to R92, R173). The moments on
the clock are the model's (log entries 3, 24). -/
def Obligations.FramesBeginAndBrokenOnesEnd : Prop :=
  ∀ (s : State) (since : Nat) (bits : List Bool) (sender target tag : Byte) (f : Fingerprint)
    (incarnation slot ordinal : Half) (holder : Byte),
    let started := max s.now (since + 25)
    let dropped := fun n : Nat => ({ s with
      now := max s.now (since + n + 1)
      bus := { s.bus with line := .idle (max s.now (since + n + 1) - 1), receiver := .listening } } : State)
    (s.bus.line = .idle since →
      exec .frameBegins s = .next { s with
        now := started
        bus := { s.bus with
          line := .driven started
          receiver := match s.active && decide (s.bus.watchedSince + 25 ≤ started), s.bus.transmitter with
            | true, .empty => .gathering
            | true, .waiting _ => .gathering
            | _, _ => s.bus.receiver } }) ∧
    (s.bus.line = .driven since → exec .frameBegins s = .next s) ∧
    (s.bus.line = .driven since →
      (bits.length ≠ 296 ∧ bits.length ≠ 344 ∧ bits.length ≠ 360) ∨
        (∃ bytes, bits = bitsOf bytes ∧ 2 ≤ bytes.length ∧
          leBytes 2 (frameCheck (bytes.take (bytes.length - 2))).toNat ≠ bytes.drop (bytes.length - 2)) ∨
        (∃ kind bytes, bits = bitsOf (kind :: bytes) ∧
          ¬ (kind = 1#8 ∧ bytes.length = 36) ∧ ¬ (kind = 2#8 ∧ bytes.length = 44) ∧ ¬ (kind = 3#8 ∧ bytes.length = 42)) →
      exec (.candidateFrame bits) s = .next (dropped bits.length)) ∧
    (s.bus.line = .driven since →
      (15 < sender.toNat → exec (.askReceived sender tag f) s = .next (dropped 296)) ∧
      (15 < sender.toNat ∨ 15 < target.toNat ∨ 4095 < slot.toNat ∨ 1023 < ordinal.toNat ∨ 1 < holder.toNat →
        exec (.haveReceived sender target tag f incarnation slot ordinal holder) s = .next (dropped 360)) ∧
      (15 < sender.toNat ∨ 4095 < slot.toNat ∨ 1023 < ordinal.toNat ∨ holder ≠ 0#8 →
        exec (.claimReceived sender f incarnation slot ordinal holder) s = .next (dropped 344))) ∧
    (s.bus.line = .driven since → s.active = true → s.bus.receiver = .gathering → s.settings.station.toNat ≤ 15 →
      let own := s.settings.station
      let places := slot.toNat ≤ 4095 ∧ ordinal.toNat ≤ 1023
      ∀ (c : Instr) (n : Nat),
        (c = .askReceived own tag f ∧ n = 296) ∨
        (c = .haveReceived own target tag f incarnation slot ordinal holder ∧ n = 360 ∧ target.toNat ≤ 15 ∧ places ∧
          holder.toNat ≤ 1) ∨
        (c = .claimReceived own f incarnation slot ordinal holder ∧ n = 344 ∧ places ∧ holder = 0#8) →
        ∃ t, exec c s = .next t ∧ t.management.flags &&& 0x02#8 = 0x02#8 ∧
          t.management.flags &&& 0x1D#8 = s.management.flags &&& 0x1D#8 ∧
          t = { dropped n with
            quiet := t.quiet
            management := { s.management with flags := t.management.flags, attn := t.management.attn } })

/-- ATTEMPT_START begins driving the head frame after 1 µs of idle that this station has seen and the back-off wait of a retry,
counting the attempt; FRAME_COMPLETE has driven every bit of it, takes it from the queue, lets the ASKs held for room in,
and starts the timer of the entry whose ASK has left (R67, R81, R83, R86, R87, R89, R91). The moments on the clock are the
model's (log entries 3, 24). -/
def Obligations.AttemptsAndCompleteFrames : Prop :=
  ∀ (s : State) (head : TxFrame) (rest : List TxFrame) (since : Nat),
    s.active = true → s.bus.txQueue = head :: rest →
    (∀ retry, s.bus.transmitter = .waiting retry → s.bus.line = .idle since →
      let seen := max since s.bus.watchedSince
      let moment := max s.now (match retry with
        | none => seen + 25
        | some (jamEnd, wait) => max (seen + 25) (jamEnd + wait))
      exec .attemptStart s = .next { s with
        now := moment
        bus := { s.bus with
          txQueue := { head with attempts := head.attempts + 1 } :: rest
          transmitter := .sending moment, receiver := .listening } }) ∧
    (s.bus.line = .driven since → since ≠ s.now → exec .attemptStart s = .next s) ∧
    (s.bus.transmitter = .sending since →
      let moment := max s.now (since + head.frame.bitCount + 1)
      let places := 32 - rest.length
      let queue := rest ++ (s.bus.askHolding.take places).map (fun p => { frame := .ask p.1 p.2, attempts := 0 })
      ∃ t, exec .frameComplete s = .next t ∧
        t = { s with
          now := moment
          bus := { s.bus with
            line := .idle (moment - 1), txQueue := queue, askHolding := s.bus.askHolding.drop places
            transmitter := if queue = [] then .empty else .waiting none }
          sent := s.sent ++ [.bus (bitsOf (head.frame.bytes s.settings.station))]
          resolution := t.resolution } ∧
        (∀ tag f, head.frame = .ask tag f → s.askTableSound →
          t.resolution = { s.resolution with entries := s.resolution.entries.map (fun a =>
            if a.tag = tag ∧ a.fingerprint = f ∧ a.state = .sending then
              { a with state := .asked, timer := .running moment true true }
            else a) }) ∧
        ((∀ tag f, head.frame ≠ .ask tag f) → t.resolution = s.resolution))

/-- COLLISION stops the frame at the bit that was read back differing and turns SENDING into JAMMING; JAM_END has driven the 32
alternating bits of the jam, and puts the frame to the back-off wait of R83, or after the eighth attempt drops it with
BUS_ABANDON set, an abandoned ASK going on at its entry as a sent one does (R67, R82 to R84, R86, R87). The moments on the
clock are the model's (log entry 3). -/
def Obligations.CollisionsBackOff : Prop :=
  ∀ (s : State) (head : TxFrame) (rest : List TxFrame) (since bit : Nat),
    s.active = true → s.bus.txQueue = head :: rest →
    (s.bus.transmitter = .sending since → 1 ≤ bit → bit ≤ head.frame.bitCount →
      exec (.collision bit) s = .next { s with
        now := max s.now (since + bit), bus := { s.bus with transmitter := .jamming (max s.now (since + bit)) }
        sent := s.sent ++ [.bus ((bitsOf (head.frame.bytes s.settings.station)).take bit)] }) ∧
    (s.bus.transmitter = .jamming since →
      let moment := max s.now (since + 32)
      let jammed := s.sent ++ [.bus ((List.range 32).map (fun k => decide (k % 2 = 0)))]
      (1 ≤ head.attempts → head.attempts < 8 →
        exec .jamEnd s = .next { s with
          now := moment
          sent := jammed
          bus := { s.bus with
            line := .idle moment
            transmitter := .waiting
              (some (moment, 25 * ((s.settings.station.toNat + 1) * 2 + (head.attempts - 1) * 32))) } }) ∧
      (8 ≤ head.attempts → ∃ t, exec .jamEnd s = .next t ∧ t.management.flags &&& 0x04#8 = 0x04#8 ∧
        t.now = moment ∧ t.bus.line = .idle moment ∧
        t.bus.txQueue = rest ++ (s.bus.askHolding.take (32 - rest.length)).map
          (fun p => { frame := .ask p.1 p.2, attempts := 0 }) ∧
        t.bus.askHolding = s.bus.askHolding.drop (32 - rest.length) ∧ t.bus.answerQueue = s.bus.answerQueue ∧
        t.bus.transmitter = (if t.bus.txQueue = [] then .empty else .waiting none) ∧
        (∀ tag f, head.frame = .ask tag f → s.askTableSound →
          t.resolution = { s.resolution with entries := s.resolution.entries.map (fun a =>
            if a.tag = tag ∧ a.fingerprint = f ∧ a.state = .sending then
              { a with state := .asked, timer := .running moment true true }
            else a) }) ∧
        ((∀ tag f, head.frame ≠ .ask tag f) → t.resolution = s.resolution) ∧
        t.streams = s.streams ∧ t.index = s.index ∧ t.containers = s.containers ∧ t.sealUnit = s.sealUnit ∧
        t.store = s.store ∧ t.staging = s.staging ∧ t.sent = jammed ∧ t.station = s.station))

/-! ## The seal line and rounds -/

/-- SEAL_TIMER_EXPIRY pulls the line in DRIVE mode, DRIVE_END lets it go 20 µs later and restarts a timer still stopped, and
the line's level moves the detect state (R134, R136, R137). The moments on the clock are the model's (log entry 3). -/
def Obligations.SealTimerDrivesTheLine : Prop :=
  ∀ (s : State) (since : Nat), s.active = true →
    (s.sealUnit.mode = .drive → s.sealUnit.timer = some since →
      let moment := max s.now (since + 2500 * s.sealUnit.period)
      exec .sealTimerExpiry s = .next { s with
        now := moment, sealUnit := { s.sealUnit with timer := none, drive := .driving moment } }) ∧
    (s.sealUnit.mode ≠ .drive ∨ s.sealUnit.timer = none → exec .sealTimerExpiry s = .next s) ∧
    (s.sealUnit.drive = .driving since →
      let moment := max s.now (since + 500)
      exec .driveEnd s = .next { s with
        now := moment
        sealUnit := { s.sealUnit with drive := .idle, timer := some (s.sealUnit.timer.getD moment) } }) ∧
    (exec .sealLineLow s = .next { s with
      sealLineLow := true
      sealUnit := { s.sealUnit with
        detect := if s.sealUnit.detect = .lineHigh then .lowUndetected s.now else s.sealUnit.detect } }) ∧
    (s.sealUnit.drive = .idle →
      exec .sealLineHigh s = .next { s with
        sealLineLow := false, sealUnit := { s.sealUnit with detect := .lineHigh } })

/-- PULSE_DETECTED: in DRIVE the timer restarts; in OFF nothing more is done; with a round in progress the round-again flag
is set; otherwise a round starts. With no OPEN container that is non-empty and none SEALING it completes at once, CLEAN or
BROKEN by the lost carry flag, and its MARK is owed to every stream it concerns, folded into one already owed and issued
where the ring has room; else its members are those containers, each carrying the round's number, the OPEN ones sealed
for ROUND (R112, R128, R129, R137 to R140), which on an IDLE store port is spoken of where they pass the range check. The
moment on the clock is the model's (log entry 3). -/
def Obligations.PulseMakesARound : Prop :=
  ∀ (s : State) (since : Nat), s.active = true → s.sealUnit.detect = .lowUndetected since →
    let moment := max s.now (since + 125)
    let u : SealUnit := { s.sealUnit with
      detect := .lowDetected
      timer := if s.sealUnit.mode = .drive then some moment else s.sealUnit.timer }
    (s.sealUnit.mode = .off → exec .pulseDetected s = .next { s with now := moment, sealUnit := u }) ∧
    (s.sealUnit.mode ≠ .off → ∃ t, exec .pulseDetected s = .next t ∧ t.now = moment ∧ s.roundAskedFor u t ∧
      t.bus = s.bus ∧ t.index = s.index ∧ t.resolution = s.resolution ∧ t.engines = s.engines ∧
      t.staging = s.staging ∧ t.settings = s.settings ∧ t.station = s.station ∧
      (∀ j, (s.stream j).sameWork (t.stream j) ∧ (t.stream j).pending = (s.stream j).pending))

/-! ## Containers and recipes -/

/-- A look at the open-wait queue opens a container for the oldest ready request: in the first FREE slot from the allocation
cursor on, with the lowest-numbered free area, for the request's stream, the request's append first at offset 0 and the
stream's later requests behind it while they fit; at the first that does not fit the container is seal requested FULL and
that one and those behind it stay (R121, R123, R124, R126, R128). Every step leaves the queue with no request that could be
served, and the cursor on a slot, and outside RUNNING and HOLDING nothing waits there or at the Store Port (R121, R124, R133,
R152, R153, R162). -/
def Obligations.OpenWaitIsServed : Prop :=
  (∀ (s : State) (before after : List AppendRequest) (r : AppendRequest) (k b : Nat),
    s.containers.openWait = before ++ r :: after → (∀ q ∈ before, s.ownerOfOpen q.stream) → ¬ s.ownerOfOpen r.stream →
    s.nextSlot k → s.nextArea b →
    let t := s.serveOpenWait
    let c := t.container k
    ∃ taken left, after.filter (fun q => q.stream = r.stream) = taken ++ left ∧
      c.state = .opened ∧ c.area = some b ∧ c.owner = some r.stream ∧ c.count = 0 ∧ c.payload = 0 ∧
      c.references = 0 ∧ c.round = none ∧
      c.fill = ((r :: taken).map (·.length)).sum ∧
      c.inFlight.map (fun a => (a.tag, a.stream, a.slot, a.fingerprint, a.length)) =
        (r :: taken).map (fun q => (q.tag, q.stream, q.slot, q.fingerprint, q.length)) ∧
      (∀ n (h : n < c.inFlight.length), c.inFlight[n].offset = (((r :: taken).take n).map (·.length)).sum) ∧
      (left = [] → c.sealRequested = none ∧ (t.stream r.stream).current = some k) ∧
      (∀ q rest, left = q :: rest → c.sealRequested = some .full ∧ (t.stream r.stream).current = none ∧
        ¬ (c.fill + q.length ≤ 4194304 ∧ c.inFlight.length < 1024)) ∧
      t.containers.openWait.filter (fun q => q.stream = r.stream) = left) ∧
  keptByStep (fun s => s.canonical ∧ s.nothingWaitsUnlessActive ∧ s.openWaitSettled)

/-- The settle value of a chunk's record at issue, by the container's state and the round in progress, and for a REMOTE chunk
by the holder sealed flag (R108). -/
def Obligations.SettleFollowsTheContainer : Prop :=
  ∀ (s : State) (q : PendingSlot) (l : Location), q.location = some l →
    let c := s.container l.slot
    let local' := q.disposition = some .localNew ∨ q.disposition = some .localDup
    let after : Half := if s.sealUnit.counter = 65535#16 then 1#16 else s.sealUnit.counter + 1
    (q.disposition = some .remote → q.holderSealed = some true → s.settleOf q = .settled) ∧
    (q.disposition = some .remote → q.holderSealed = some false → s.settleOf q = .holderPending) ∧
    (local' → c.state = .sealed → s.settleOf q = .settled) ∧
    (local' → c.state = .lost → s.settleOf q = .lost) ∧
    (local' → c.state = .opened ∨ c.state = .seals → ∀ r, s.sealUnit.inProgress = some r → c.round = some r →
      s.settleOf q = .byRound r) ∧
    (local' → c.state = .opened ∨ c.state = .seals → s.sealUnit.inProgress = none ∨ c.round ≠ s.sealUnit.inProgress →
      s.settleOf q = .byRound after)

/-! ## The store port -/

/-- COMPLETION with nothing outstanding is ignored. OK for the CHUNK record of an OPEN or CLOSING stream counts the record
and its disposition, frees the head pending slot, and takes one unit from its container; the last chunk of a CLOSING
stream completes its CLOSE. OK for a MARK or an END counts the record, and for an END makes the CLOSED report, with whose
place in the queue the stream is IDLE. For an ABORTING stream a completion of either status ends the write in flight and
counts nothing, an ERROR setting STORE_FAULT; with nothing else in flight the ABORTED report is made, with whose place in
the queue the stream is IDLE (R16, R103, R106, R109, R113, R132, R143, R146, R169). -/
def Obligations.CompletionRecordsTheChunk : Prop :=
  ∀ (s : State) (status : Byte) (i : Fin 16) (number : Word) (q : PendingSlot) (rest : List PendingSlot) (d : Disposition),
    (s.store.port = .idle → exec (.completion status) s = .next s) ∧
    (s.store.port = .recipe i .chunk number → (s.stream i).state = .opened ∨ (s.stream i).state = .closing →
      (s.stream i).pending = q :: rest → q.phase = .resolved → q.disposition = some d →
      let x := s.stream i
      ∃ t, exec (.completion 0#8) s = .next t ∧
        (t.stream i).written = x.written + 1 ∧ (t.stream i).pending = rest ∧
        (t.stream i).localNew = (if d = .localNew then x.localNew + 1 else x.localNew) ∧
        (t.stream i).localDup = (if d = .localDup then x.localDup + 1 else x.localDup) ∧
        (t.stream i).remote = (if d = .remote then x.remote + 1 else x.remote) ∧
        (t.stream i).chunks = x.chunks ∧ (t.stream i).taken = x.taken ∧ (t.stream i).chunker = x.chunker ∧
        (∀ l, q.location = some l → ∀ k, (s.container k).state ≠ .free → (t.container k).references =
          if k = l.slot ∧ (d = .localNew ∨ d = .localDup) then (s.container k).references - 1
          else (s.container k).references) ∧
        (x.state = .closing → x.queue = [] → rest = [] → x.kind = .normal → x.endProgress = .none →
          s.management.fresh = [] →
          s.closeCompletes t i { x with pending := [], written := x.written + 1, writeInFlight := none }) ∧
        (∀ j, j ≠ i → (s.stream j).sameWork (t.stream j) ∧ (t.stream j).pending = (s.stream j).pending) ∧
        t.index = s.index ∧ t.resolution = s.resolution ∧ t.bus = s.bus ∧ t.engines = s.engines ∧
        t.digestQueue = s.digestQueue ∧ t.staging = s.staging ∧ t.settings = s.settings ∧ t.station = s.station ∧
        t.now = s.now) ∧
    (∀ kind, kind = .mark ∨ kind = .last → s.store.port = .recipe i kind number →
      (s.stream i).state = .opened ∨ (s.stream i).state = .closing → s.management.fresh = [] →
      let x : Stream := { s.stream i with written := (s.stream i).written + 1 }
      ∃ t, exec (.completion 0#8) s = .next t ∧ x.sameWork (t.stream i) ∧ (t.stream i).pending = x.pending ∧
        (kind = .mark → x.state = .closing → x.queue = [] → x.pending = [] → x.kind = .normal → x.endProgress = .none →
          s.closeCompletes t i { x with writeInFlight := none }) ∧
        (kind = .last → x.closedReport i ∈ t.management.reports ++ t.management.held ∧
          (s.management.held = [] → s.management.reports.length < 32 → s.store.flushQueue = [] →
            s.containers.openWait = [] →
            (t.stream i).state = .idle ∧ t.management.reports = s.management.reports ++ [x.closedReport i]))) ∧
    (∀ kind, s.store.port = .recipe i kind number → (s.stream i).state = .aborting → s.management.fresh = [] →
      ∃ t, exec (.completion status) s = .next t ∧ (s.stream i).sameWork (t.stream i) ∧
        (t.stream i).pending = (s.stream i).pending ∧ (t.stream i).writeInFlight = none ∧
        (status ≠ 0#8 → t.management.flags &&& 0x08#8 = 0x08#8) ∧
        (∀ j, j ≠ i → (s.stream j).sameWork (t.stream j) ∧ (t.stream j).pending = (s.stream j).pending) ∧
        s.abortFollowed t i (s.workGone i (fun _ _ => False)) (s.store.flushQueue = []))

/-- COMPLETION with an ERROR for a recipe write of an OPEN or CLOSING stream: the stream is FAULTED, its work is torn down
whole, STORE_FAULT is set, and the FAULTED report names the next segment, the first unwritten chunk and the records
written (R17, R38, R48, R77, R104, R115, R116, R128, R143, R146). That a digest of the stream at the head of the completion
queue runs on as dropped, and only those behind it are removed, is the model's reading: the head is always being completed
(log entry 17). -/
def Obligations.StoreErrorFaultsTheStream : Prop :=
  ∀ (s : State) (status : Byte) (i : Fin 16) (kind : RecordKind) (number : Word),
    status ≠ 0#8 → s.store.port = .recipe i kind number →
    (s.stream i).state = .opened ∨ (s.stream i).state = .closing → s.management.fresh = [] →
    let x := s.stream i
    ∃ t, exec (.completion status) s = .next t ∧ (t.stream i).state = .faulted ∧ s.tornDown t i .dropped ∧
      (t.stream i).writeInFlight = none ∧ (t.stream i).endProgress = .none ∧
      t.management.flags &&& 0x08#8 = 0x08#8 ∧
      .faulted i x.branch x.bytesAccepted x.expected
          (match x.pending with
            | q :: _ => q.sequence
            | [] => x.nextChunk) x.written ∈ t.management.reports ++ t.management.held ∧
      (∀ j, j ≠ i → (s.stream j).sameWork (t.stream j)) ∧ (∀ b, t.bucket b = s.bucket b) ∧
      t.staging = s.staging ∧ t.settings = s.settings ∧ t.station = s.station ∧ t.now = s.now

/-- COMPLETION of a burst: the recipe writes queued then go before the next burst, which otherwise follows at once with the
container's bytes from its next offset; after the last burst the container is SEALED, or LOST with STORE_FAULT and a LOST
report when any burst failed, and its area is free. A member leaves the round in progress, which completes with its last
member, BROKEN if one was lost, and owes its MARK; with the round-again flag set a new round then starts in the same step
and the flag is cleared, which is said here where what it takes in passes the range check. A container lost outside a
round sets the lost carry flag. The next container's flush begins if nothing is due before it: with its first burst, or
with its loss when the range check fails (R112, R131, R138 to R140, R143, R148 to R151, R175). Where the areas of staging
memory begin is the model's choice (log entry 7), and so is that the new round starts before the look at the open-wait
queue (log entry 31). -/
def Obligations.BurstsFollowAndFlushesEnd : Prop :=
  ∀ (s : State) (status : Byte) (f : ActiveFlush),
    let failed := f.error || decide (status ≠ 0#8)
    let c := s.container f.slot
    let u := s.sealUnit
    s.store.port = .burst → s.store.active = some f →
    (f.next < f.length → s.containers.openWait = [] → (∀ i, (s.stream i).dueRecord = none) →
      s.store.recipeQueue = [] →
      ∃ t, exec (.completion status) s = .next t ∧
        t.store = { s.store with
          port := .burst, ahead := 0
          active := some { f with next := f.next + min 65536 (f.length - f.next), error := failed } } ∧
        t.sent = s.sent ++ [.store (containerWrite (decide (f.length ≤ f.next + 65536)) f.slot f.next
          (((s.containerRun f.slot f.header).drop f.next).take (min 65536 (f.length - f.next))))]) ∧
    (f.next < f.length → ∀ w rest, s.store.recipeQueue = w :: rest →
      ∃ t, exec (.completion status) s = .next t ∧ t.store.port = .recipe w.stream w.kind w.number ∧
        t.store.ahead = rest.length ∧ t.store.active = some { f with error := failed } ∧
        t.sent = s.sent ++ [.store ([1#8, 0#8, 0#8, 0#8] ++ leBytes 4 w.address.toNat ++ w.bytes)]) ∧
    (f.length ≤ f.next → (∀ j ∈ s.store.flushQueue, j.slot ≠ f.slot) → c.state = .seals →
      ∃ t, exec (.completion status) s = .next t ∧
        (t.container f.slot).state = (if failed then .lost else .sealed) ∧ (t.container f.slot).area = none ∧
        (t.container f.slot).count = c.count ∧ (t.container f.slot).references = c.references ∧
        (failed = true → t.management.flags &&& 0x08#8 = 0x08#8 ∧
          ∀ reason, c.sealedFor = some reason →
            .lost f.slot reason (c.round.getD 0) c.count c.payload ∈ t.management.reports ++ t.management.held) ∧
        (s.store.flushQueue = [] →
          (∀ r, u.inProgress = some r → c.round = some r →
            (u.members.erase f.slot ≠ [] →
              t.sealUnit = { u with members := u.members.erase f.slot, roundLost := u.roundLost || failed }) ∧
            (u.members.erase f.slot = [] → u.roundAgain = false →
              t.sealUnit = { u with
                inProgress := none, members := [], roundLost := false, lastCompleted := r
                lastStatus := if u.roundLost || failed then .broken else .clean
                lastBroken := if u.roundLost || failed then r else u.lastBroken } ∧
              (s.management.fresh = [] → s.containers.openWait = [] →
                ∀ i, emitterLooked { s.stream i with owedMark := (s.stream i).owes r (u.roundLost || failed) }
                  (t.stream i))) ∧
            (u.members.erase f.slot = [] → u.roundAgain = true → s.canonical →
              let taken := fun k => k ≠ f.slot ∧ s.takesIn k
              let done : SealUnit := { u with
                inProgress := none, members := [], roundLost := false, roundAgain := false, lastCompleted := r
                lastStatus := if u.roundLost || failed then .broken else .clean
                lastBroken := if u.roundLost || failed then r else u.lastBroken }
              let owing := fun i => ({ s.stream i with
                owedMark := (s.stream i).owes r (u.roundLost || failed), current := (t.stream i).current } : Stream)
              ((∀ k, ¬ taken k) → t.sealUnit = done.afterEmptyRound ∧
                (s.management.fresh = [] → s.containers.openWait = [] → ∀ i, emitterLooked
                  { owing i with owedMark := (owing i).owes done.nextNumber u.lostCarry } (t.stream i))) ∧
              ((∃ k, taken k) → s.flushesPass taken → s.roundUnderWay taken done t ∧
                (s.management.fresh = [] → s.containers.openWait = [] → ∀ i, emitterLooked (owing i) (t.stream i))))) ∧
          (u.inProgress = none ∨ c.round ≠ u.inProgress →
            t.sealUnit = { u with lostCarry := u.lostCarry || failed })) ∧
        (∀ j rest, s.store.flushQueue = j :: rest → s.store.recipeQueue = [] → s.containers.openWait = [] →
          (∀ i, (s.stream i).dueRecord = none) → u.inProgress = none →
          (j.slot * 4243520 + j.length ≤ s.settings.storeUnits * 65536 →
            t.store = { s.store with
              port := .burst, ahead := 0, flushQueue := rest
              active := some { slot := j.slot, length := j.length, header := j.header
                               next := min 65536 j.length, error := false } } ∧
            t.sent = s.sent ++ [.store (containerWrite (decide (j.length ≤ 65536)) j.slot 0
              ((s.containerRun j.slot j.header).take (min 65536 j.length)))]) ∧
          (s.settings.storeUnits * 65536 < j.slot * 4243520 + j.length → rest = [] →
            (t.container j.slot).state = .lost ∧ (t.container j.slot).area = none ∧
            t.store = { s.store with port := .idle, ahead := 0, flushQueue := [], active := none } ∧
            t.sent = s.sent ∧ t.management.flags &&& 0x08#8 = 0x08#8 ∧ t.sealUnit.lostCarry = true ∧
            (∀ reason, (s.container j.slot).sealedFor = some reason →
              .lost j.slot reason ((s.container j.slot).round.getD 0) (s.container j.slot).count
                (s.container j.slot).payload ∈ t.management.reports ++ t.management.held))) ∧
        t.index = s.index ∧ t.bus = s.bus ∧ t.staging = s.staging ∧ t.station = s.station)

/-! ## The management port -/

/-- In RESET no command is taken; in LOADING and CLEARING every command but READ_STATUS is answered NOT_READY, an unknown one
UNKNOWN; READ_STATUS, READ_STREAM and TRANSACTION_DISCARDED change nothing but the reply, which carries the fields of R167 in
their order and their widths (R166, R167, R177). That an unknown code is UNKNOWN there too, that an absent field takes its
full width, and the widths of the held reports and of the walk position are the model's reading (log entries 4, 16), and so
is that READ_STATUS shows every field as it stands in LOADING and CLEARING too (log entry 32). -/
def Obligations.ReadsAreAnswered : Prop :=
  ∀ (s : State) (mask stream code : Byte) (count : Word) (slot : Half) (i : Fin 16),
    let replied := fun (bytes : List Byte) => ({ s with sent := s.sent ++ [.management bytes] } : State)
    let others : List Instr := [.readReport, .ackEvents mask, .recipeTaken stream count, .purge slot, .readStream stream]
    exec .transactionDiscarded s = .next s ∧
    (s.station = .reset → ∀ c ∈ Instr.readStatus :: .unknownCommand code :: others, exec c s = .next s) ∧
    (s.station = .loading ∨ s.station = .clearing → ∀ c ∈ others, exec c s = .next (replied [2#8])) ∧
    (s.station ≠ .reset → exec .readStatus s = .next (replied (0#8 :: fieldBytes s.statusFields))) ∧
    (s.station ≠ .reset → code.toNat = 0 ∨ 7 ≤ code.toNat →
      exec (.unknownCommand code) s = .next (replied [6#8])) ∧
    (s.active = true → 16 ≤ stream.toNat → exec (.readStream stream) s = .next (replied [3#8])) ∧
    (s.active = true →
      exec (.readStream (streamByte i)) s = .next (replied (0#8 :: fieldBytes (s.stream i).statusFields)))

/-- READ_REPORT returns the oldest report, its kind and its fields, and the held one takes its place, or NONE. The entry of the
held report completes what waits on it: a CLOSED or an ABORTED one turns its stream IDLE, and the last PURGED one lets the
walker leave REPORTING, for a new walk if a slot is RETIRED and for IDLE otherwise. ACK_EVENTS clears the flags its mask
names, a level flag whose condition holds being set again in the same step (R12, R16, R157, R158, R166, R168, R169, R177). -/
def Obligations.ReportsReadAndFlagsCleared : Prop :=
  ∀ (s : State) (mask : Byte), s.active = true →
    (s.management.reports = [] →
      exec .readReport s = .next { s with sent := s.sent ++ [.management [1#8]] }) ∧
    (∀ r rest, s.management.reports = r :: rest →
      ∃ t, exec .readReport s = .next t ∧ t.sent = s.sent ++ [.management (fieldBytes ((1, 0) :: (1, r.kindNumber) :: r.fields))] ∧
        t.management.reports = rest ++ s.management.held.take 1 ∧ t.management.held = s.management.held.drop 1 ∧
        t.management.flags &&& 0x1F#8 = s.management.flags &&& 0x1F#8 ∧
        (t.management.flags &&& 0x80#8 = 0x80#8 ↔ t.management.reports ≠ []) ∧
        (s.management.held = [] → t = { s with
          sent := t.sent, quiet := t.quiet
          management := { s.management with reports := rest, flags := t.management.flags, attn := t.management.attn } }) ∧
        (∀ h more, s.management.held = h :: more →
          (∀ i, h.endsStream i → (t.stream i).state = .idle ∧ (t.stream i).current = none ∧ (t.stream i).owedMark = none ∧
            (t.stream i).queue = []) ∧
          (∀ i, ¬ h.endsStream i → t.stream i = s.stream i) ∧
          ((∀ k walks, h ≠ .purged k walks) → t.walker = s.walker) ∧
          (∀ k walks, h = .purged k walks →
            let left := s.walker.reportList.erase k
            let retired := fun k => (s.container k).state = .retired
            (s.walker.state ≠ .reporting ∨ left ≠ [] → t.walker = { s.walker with reportList := left }) ∧
            (s.walker.state = .reporting → left = [] → s.canonical → (∀ k, ¬ retired k) →
              t.walker = { s.walker with reportList := [], state := .idle }) ∧
            (s.walker.state = .reporting → left = [] → s.canonical → (∃ k, retired k) →
              t.walker = { s.walker with
                reportList := [], state := .walking, position := 0, snapshot := t.walker.snapshot } ∧
              ∀ k, k ∈ t.walker.snapshot ↔ retired k))) ∧
        (∀ j, (s.stream j).sameWork (t.stream j) ∧ (t.stream j).pending = (s.stream j).pending) ∧
        t.containers = s.containers ∧ t.index = s.index ∧ t.store = s.store ∧ t.now = s.now) ∧
    (∃ t, exec (.ackEvents mask) s = .next t ∧
      t = { s with
        sent := s.sent ++ [.management [0#8]], quiet := t.quiet
        management := { s.management with flags := t.management.flags, attn := t.management.attn } } ∧
      t.management.flags &&& 0x1F#8 = s.management.flags &&& ~~~mask &&& 0x1F#8 ∧
      (t.management.flags &&& 0x20#8 = 0x20#8 ↔ s.containers.freeSlots ≤ s.settings.slotsLow) ∧
      (t.management.flags &&& 0x40#8 = 0x40#8 ↔ s.containers.freeSlots = 0) ∧
      (t.management.flags &&& 0x80#8 = 0x80#8 ↔ s.management.reports ≠ []) ∧
      (t.management.attn = true ↔ t.management.flags &&& s.settings.enables ≠ 0#8))

/-- RECIPE_TAKEN raises records taken by its count, never past records written, and answers with the value; a stream above 15
is answered RANGE. The emitter then looks: the record due, an owed MARK, else the CHUNK of a RESOLVED head, else the END,
becomes the write in flight and goes with its 64 bytes and its place in the ring to the tail of the recipe write queue, or
at once to the store through an idle port (R105 to R107, R110, R111, R113, R145, R151, R166, R174, R175). -/
def Obligations.RecipeTakenIsClamped : Prop :=
  ∀ (s : State) (i : Fin 16) (stream : Byte) (count : Word), s.active = true →
    (16 ≤ stream.toNat →
      exec (.recipeTaken stream count) s = .next { s with sent := s.sent ++ [.management [3#8]] }) ∧
    (let x := s.stream i
     ∃ t more, exec (.recipeTaken (streamByte i) count) s = .next t ∧
      (t.stream i).taken.toNat = min (x.taken.toNat + count.toNat) x.written.toNat ∧
      t.sent = s.sent ++ .management (0#8 :: leBytes 4 (t.stream i).taken.toNat) :: more ∧
      (t.stream i).written = x.written ∧ (t.stream i).pending = x.pending ∧ (t.stream i).chunker = x.chunker ∧
      (t.stream i).bytesAccepted = x.bytesAccepted ∧
      (∀ j, j ≠ i → (s.stream j).sameWork (t.stream j) ∧ (t.stream j).pending = (s.stream j).pending) ∧
      t.index = s.index ∧ t.resolution = s.resolution ∧ t.bus = s.bus ∧ t.engines = s.engines ∧
      t.staging = s.staging ∧ t.settings = s.settings ∧ t.station = s.station ∧ t.now = s.now ∧
      (let y : Stream := { x with taken := (t.stream i).taken }
       let place := x.windowBase.toNat + x.written.toNat % x.windowSize.toNat * 64
       let p := s.store
       s.containers.openWait = [] → s.management.fresh = [] → (∀ j, j ≠ i → ∀ kind, ¬ (s.stream j).recordDue kind) →
       p.port ≠ .idle ∨ (p.recipeQueue = [] ∧ p.flushQueue = [] ∧ p.active = none) →
       emitterLooked y (t.stream i) ∧
       ((∀ kind, ¬ y.recordDue kind) → t.store = p ∧ more = []) ∧
       (∀ kind, y.recordDue kind → place < 4294967296 → ∃ bytes, s.recordContent y kind bytes ∧
         (p.port ≠ .idle → more = [] ∧ t.store = { p with recipeQueue := p.recipeQueue ++
           [{ stream := i, kind := kind, number := x.written, address := BitVec.ofNat 32 place, bytes := bytes }] }) ∧
         (p.port = .idle → more = [.store ([1#8, 0#8, 0#8, 0#8] ++ leBytes 4 place ++ bytes)] ∧
           t.store = { p with port := .recipe i kind x.written, ahead := p.ahead - 1 }))))

/-- PURGE: RANGE for a slot of S or above, then NOT_SEALED unless SEALED or LOST, then IN_USE with references, each changing
nothing; otherwise the slot is RETIRED, the reply says so, and an IDLE walker starts a walk. In LOADING and CLEARING it is
answered NOT_READY (R154, R155, R157). -/
def Obligations.PurgeRetiresASlot : Prop :=
  ∀ (s : State) (slot : Half),
    let c := s.container slot.toNat
    let refused := fun (code : Byte) =>
      exec (.purge slot) s = .next { s with sent := s.sent ++ [.management [code]] }
    let settled := c.state = .sealed ∨ c.state = .lost
    (s.station = .loading ∨ s.station = .clearing → refused 2#8) ∧
    (s.station = .running ∨ s.station = .holding →
      (s.settings.slots ≤ slot.toNat → refused 3#8) ∧
      (slot.toNat < s.settings.slots → ¬ settled → refused 4#8) ∧
      (slot.toNat < s.settings.slots → settled → 0 < c.references → refused 5#8) ∧
      (slot.toNat < s.settings.slots → settled → c.references = 0 →
        ∃ t, exec (.purge slot) s = .next t ∧
          (∀ k, t.container k = if k = slot.toNat then { c with state := .retired } else s.container k) ∧
          t = { s with
            containers := { s.containers with table := t.containers.table }
            walker := t.walker, quiet := t.quiet
            management := { s.management with flags := t.management.flags, attn := t.management.attn }
            sent := s.sent ++ [.management [0#8]] } ∧
          (s.walker.state ≠ .idle → t.walker = s.walker) ∧
          (s.walker.state = .idle → t.walker.state = .walking ∧ t.walker.position = 0 ∧
            t.walker.completed = s.walker.completed ∧ slot.toNat ∈ t.walker.snapshot)))

/-- While the station is not RUNNING or HOLDING its units do nothing: the events of engines, index, ask timers, appends,
transmitter and seal unit do not occur, which is the model's reading of the station states (R23, R42, R162; log entry 2). -/
def Obligations.IdleUnitsDoNothing : Prop :=
  ∀ (s : State) (e : Fin 4) (tag : Byte) (slot offset bit : Nat), s.active = false →
    ∀ c ∈ ([.engineAssign, .engineTakeByte e, .fingerprintComplete, .indexServiceStart, .scrubStepStart,
      .resolutionLookupComplete, .answerLookupComplete, .insertComplete, .scrubStepComplete, .compareAExpiry tag,
      .compareBExpiry tag, .appendComplete slot offset, .attemptStart, .frameComplete, .collision bit, .jamEnd,
      .sealTimerExpiry, .driveEnd, .pulseDetected] : List Instr), exec c s = .next s

/-! ## What every step keeps -/

/-- Every step keeps staging memory, index memory and the container table in their one canonical form, so that equal
contents are equal data. The form is the model's own choice, of which the manual says nothing (log entries 7, 8, 20). -/
def Obligations.TablesStayCanonical : Prop := keptByStep State.canonical

/-- Every step keeps, of every stream: the expected sequence one past the last accepted (R9), at most 64 queue entries (R13),
distinct pending slots (R102), and no two engines on it (R18). -/
def Obligations.StreamsStaySound : Prop :=
  keptByStep (fun s => s.sequencesFollow ∧ s.segmentQueuesFit ∧ s.pendingSlotsDistinct ∧ s.enginesApart)

/-- Every step keeps every bucket in use at 8 entries at most, no two of one fingerprint, through RESET, the clear walk,
lookups, inserts and scrubs (R41, R50, R54). -/
def Obligations.BucketsStaySound : Prop := keptByStep State.bucketsSound

/-- Every step keeps the ask table at 64 entries at most, no two of one fingerprint and no two of one tag (R63, R64). -/
def Obligations.AskTableStaysSound : Prop := keptByStep State.askTableSound

/-- Every step keeps the request queue within 64, the transmit and answer queues within 32, the report queue within 32 with
reports held only while it is full (R42, R85, R96, R169). -/
def Obligations.QueuesStayBounded : Prop :=
  keptByStep (fun s => s.requestQueueFits ∧ s.busQueuesFit ∧ s.reportsPlaced)

/-- Every step leaves the level flags, ATTN and QUIET agreeing with their conditions (R122, R152, R165, R168). That the slot
flags are clear until S is loaded is the model's choice (log entry 6). -/
def Obligations.OutputsStayInAgreement : Prop := keptByStep State.outputsAgree

/-- The station right after reset meets every invariant above. -/
def Obligations.ResetMeetsTheInvariants : Prop :=
  State.reset.canonical ∧ State.reset.sequencesFollow ∧ State.reset.segmentQueuesFit ∧
    State.reset.pendingSlotsDistinct ∧ State.reset.enginesApart ∧ State.reset.bucketsSound ∧
    State.reset.askTableSound ∧ State.reset.requestQueueFits ∧ State.reset.busQueuesFit ∧
    State.reset.reportsPlaced ∧ State.reset.outputsAgree ∧ State.reset.openWaitSettled ∧
    State.reset.nothingWaitsUnlessActive
end

