-- ==== Sys2Proof/Laws/Sparse.lean ====
section
/-! SUPPORT. The laws of sparse tables and of staging memory: reads after writes, and the canonical form kept. -/

namespace Sys2Proof.Machine

variable {α : Type}

@[simp] theorem Sparse.find_nil (d : α) (key : Nat) : Sparse.find d key [] = d := rfl

theorem Sparse.find_place (d : α) (key k : Nat) (v : α) (t : Sparse α) (h : ∀ e ∈ t, e.1 ≠ key) :
    (Sparse.place key v t).find d k = if k = key then v else t.find d k := by
  induction t with
  | nil =>
    simp only [Sparse.place, Sparse.find]
    by_cases hk : k = key
    · simp [hk]
    · simp [hk, Ne.symm hk]
  | cons e rest ih =>
    obtain ⟨k', x⟩ := e
    have hne : k' ≠ key := h (k', x) (by simp)
    have ih := ih (fun e he => h e (by simp [he]))
    simp only [Sparse.place]
    split
    · simp only [Sparse.find]
      by_cases hk : k = key
      · simp [hk]
      · simp [hk, Ne.symm hk]
    · simp only [Sparse.find, ih]
      by_cases hk : k = key
      · subst hk; simp [hne]
      · simp [hk]

theorem Sparse.find_filter (d : α) (key k : Nat) (t : Sparse α) :
    Sparse.find d k (t.filter (fun e => e.1 ≠ key)) = if k = key then d else Sparse.find d k t := by
  induction t with
  | nil => simp
  | cons e rest ih =>
    obtain ⟨k', x⟩ := e
    by_cases h : k' = key
    · subst h
      simp only [List.filter_cons]
      by_cases hk : k = k'
      · subst hk; simpa using ih
      · simp only [Sparse.find]
        have : k' ≠ k := Ne.symm hk
        simpa [this, hk] using ih
    · simp only [List.filter_cons, ne_eq, h, not_false_eq_true, decide_true, if_true]
      simp only [Sparse.find]
      by_cases hk : k' = k
      · subst hk; simp [h]
      · simpa [hk] using ih

/-- The one law of writing: the written key reads as the value written, every other key as before. -/
theorem Sparse.find_put [DecidableEq α] (d : α) (key k : Nat) (v : α) (t : Sparse α) :
    (t.put d key v).find d k = if k = key then v else t.find d k := by
  simp only [Sparse.put]
  split
  · rename_i h; rw [Sparse.find_filter, h]
  · rw [Sparse.find_place _ _ _ _ _ (by simp), Sparse.find_filter]
    split <;> rfl

@[simp] theorem Sparse.find_put_same [DecidableEq α] (d : α) (key : Nat) (v : α) (t : Sparse α) :
    (t.put d key v).find d key = v := by simp [Sparse.find_put]

theorem Sparse.find_put_other [DecidableEq α] (d : α) {key k : Nat} (v : α) (t : Sparse α) (h : k ≠ key) :
    (t.put d key v).find d k = t.find d k := by simp [Sparse.find_put, h]

theorem Sparse.wf_filter [DecidableEq α] (d : α) (p : Nat × α → Bool) (t : Sparse α) (h : t.wf d = true) : Sparse.wf d (t.filter p) = true := by
  induction t with
  | nil => rfl
  | cons e rest ih =>
    obtain ⟨k, x⟩ := e
    simp only [Sparse.wf, Bool.and_eq_true, List.all_eq_true] at h
    simp only [List.filter_cons]
    split
    · simp only [Sparse.wf, Bool.and_eq_true, List.all_eq_true]
      exact ⟨⟨h.1.1, fun e he => h.1.2 e (List.mem_filter.1 he).1⟩, ih h.2⟩
    · exact ih h.2

theorem Sparse.mem_place {key : Nat} {v : α} {t : Sparse α} {e : Nat × α} (h : e ∈ Sparse.place key v t) :
    e = (key, v) ∨ e ∈ t := by
  induction t with
  | nil => simpa [Sparse.place] using h
  | cons e' rest ih =>
    simp only [Sparse.place] at h
    split at h
    · simpa using h
    · rcases List.mem_cons.1 h with h | h
      · exact .inr (by simp [h])
      · rcases ih h with h | h
        · exact .inl h
        · exact .inr (by simp [h])

theorem Sparse.wf_place [DecidableEq α] (d : α) (key : Nat) (v : α) (t : Sparse α) (hv : v ≠ d) (hne : ∀ e ∈ t, e.1 ≠ key)
    (h : t.wf d = true) : Sparse.wf d (Sparse.place key v t) = true := by
  induction t with
  | nil => simp [Sparse.place, Sparse.wf, hv]
  | cons e rest ih =>
    obtain ⟨k, x⟩ := e
    have hw := h
    simp only [Sparse.wf, Bool.and_eq_true, List.all_eq_true, decide_eq_true_eq] at h
    have hk : k ≠ key := hne (k, x) (by simp)
    simp only [Sparse.place]
    split
    · rename_i hlt
      simp only [Sparse.wf, Bool.and_eq_true, List.all_eq_true, decide_eq_true_eq]
      refine ⟨⟨by simpa using hv, fun e he => ?_⟩, by simpa [Sparse.wf] using hw⟩
      rcases List.mem_cons.1 he with he | he
      · rw [he]; exact hlt
      · exact Nat.lt_trans hlt (h.1.2 e he)
    · rename_i hle
      simp only [Sparse.wf, Bool.and_eq_true, List.all_eq_true, decide_eq_true_eq]
      refine ⟨⟨h.1.1, fun e he => ?_⟩, ih (fun e he => hne e (by simp [he])) h.2⟩
      rcases Sparse.mem_place he with he | he
      · rw [he]; simp only; omega
      · exact h.1.2 e he

/-- A write keeps the canonical form. -/
theorem Sparse.wf_put [DecidableEq α] (d : α) (key : Nat) (v : α) (t : Sparse α) (h : t.wf d = true) :
    Sparse.wf d (t.put d key v) = true := by
  simp only [Sparse.put]
  split
  · exact Sparse.wf_filter d _ t h
  · rename_i hv
    exact Sparse.wf_place d key v _ hv (by simp) (Sparse.wf_filter d _ t h)

theorem Sparse.lt_of_wf [DecidableEq α] {d : α} {e : Nat × α} {t : Sparse α} (h : Sparse.wf d (e :: t) = true) :
    ∀ e' ∈ t, e.1 < e'.1 := by
  obtain ⟨k, x⟩ := e
  simp only [Sparse.wf, Bool.and_eq_true, List.all_eq_true, decide_eq_true_eq] at h
  exact h.1.2

theorem Sparse.find_eq_default_of_lt (d : α) (k : Nat) (t : Sparse α) (h : ∀ e ∈ t, k < e.1) : t.find d k = d := by
  induction t with
  | nil => rfl
  | cons e rest ih =>
    obtain ⟨k', x⟩ := e
    have hk : k < k' := h (k', x) (by simp)
    simp only [Sparse.find]
    rw [if_neg (by omega)]
    exact ih (fun e he => h e (by simp [he]))

/-- Two canonical tables that read alike everywhere are equal. -/
theorem Sparse.ext_of_find [DecidableEq α] (d : α) (t u : Sparse α) (ht : t.wf d = true) (hu : u.wf d = true)
    (h : ∀ k, t.find d k = u.find d k) : t = u := by
  induction t generalizing u with
  | nil =>
    cases u with
    | nil => rfl
    | cons e rest =>
      obtain ⟨k, x⟩ := e
      have hx : x ≠ d := by
        simp only [Sparse.wf, Bool.and_eq_true] at hu; simpa using hu.1.1
      have := h k
      simp [Sparse.find] at this
      exact absurd this.symm hx
  | cons e rest ih =>
    obtain ⟨k, x⟩ := e
    have hx : x ≠ d := by
      simp only [Sparse.wf, Bool.and_eq_true] at ht; simpa using ht.1.1
    cases u with
    | nil =>
      have := h k
      simp [Sparse.find] at this
      exact absurd this hx
    | cons e' rest' =>
      obtain ⟨k', x'⟩ := e'
      have hx' : x' ≠ d := by
        simp only [Sparse.wf, Bool.and_eq_true] at hu; simpa using hu.1.1
      have hl := Sparse.lt_of_wf ht
      have hl' := Sparse.lt_of_wf hu
      have hkk : k = k' := by
        rcases Nat.lt_trichotomy k k' with hlt | heq | hgt
        · have h1 := h k
          simp only [Sparse.find, if_true] at h1
          rw [if_neg (by omega), Sparse.find_eq_default_of_lt d k rest' (fun e he => Nat.lt_trans hlt (hl' e he))] at h1
          exact absurd h1 hx
        · exact heq
        · have h1 := h k'
          simp only [Sparse.find, if_true] at h1
          rw [if_neg (by omega), Sparse.find_eq_default_of_lt d k' rest (fun e he => Nat.lt_trans hgt (hl e he))] at h1
          exact absurd h1.symm hx'
      subst hkk
      have hxx : x = x' := by simpa [Sparse.find] using h k
      subst hxx
      have hw : Sparse.wf d rest = true := by simp only [Sparse.wf, Bool.and_eq_true] at ht; exact ht.2
      have hw' : Sparse.wf d rest' = true := by simp only [Sparse.wf, Bool.and_eq_true] at hu; exact hu.2
      rw [ih rest' hw hw' (fun j => ?_)]
      have := h j
      simp only [Sparse.find] at this
      by_cases hj : k = j
      · subst hj
        rw [Sparse.find_eq_default_of_lt d k rest hl, Sparse.find_eq_default_of_lt d k rest' hl']
      · simpa [hj] using this

/-! ## Staging memory -/

theorem readByte_writeByte (m : Sparse Byte) (a b : Nat) (v : Byte) :
    readByte (writeByte m a v) b = if b = a then v else readByte m b := Sparse.find_put _ _ _ _ _

theorem writeByte_wf (m : Sparse Byte) (a : Nat) (v : Byte) (h : Memory.wf m = true) : Memory.wf (writeByte m a v) = true :=
  Sparse.wf_put _ _ _ _ h

theorem writeBytes_wf (m : Sparse Byte) (a : Nat) (bytes : List Byte) (h : Memory.wf m = true) :
    Memory.wf (writeBytes m a bytes) = true := by
  induction bytes generalizing m a with
  | nil => exact h
  | cons b rest ih => exact ih _ _ (writeByte_wf m a b h)

theorem readByte_writeBytes (m : Sparse Byte) (a b : Nat) (bytes : List Byte) :
    readByte (writeBytes m a bytes) b =
      if a ≤ b ∧ b < a + bytes.length then bytes.getD (b - a) 0 else readByte m b := by
  induction bytes generalizing m a with
  | nil => simp only [writeBytes, List.length_nil, Nat.add_zero]; rw [if_neg (by omega)]
  | cons x rest ih =>
    simp only [writeBytes, ih, readByte_writeByte, List.length_cons]
    by_cases hb : b = a
    · subst hb; rw [if_neg (by omega), if_pos rfl, if_pos (by omega)]; simp
    · by_cases hin : a + 1 ≤ b ∧ b < a + 1 + rest.length
      · rw [if_pos hin, if_pos (by omega), show b - a = (b - (a + 1)) + 1 by omega]; simp
      · rw [if_neg hin, if_neg hb, if_neg (by omega)]

@[simp] theorem readBytes_length (m : Sparse Byte) (a n : Nat) : (readBytes m a n).length = n := by
  induction n generalizing a with
  | zero => rfl
  | succ n ih => simp [readBytes, ih]

theorem readBytes_getD (m : Sparse Byte) (a n i : Nat) (h : i < n) : (readBytes m a n).getD i 0 = readByte m (a + i) := by
  induction n generalizing a i with
  | zero => omega
  | succ n ih =>
    cases i with
    | zero => simp [readBytes]
    | succ i =>
      simp only [readBytes, List.getD_cons_succ]
      rw [ih (a + 1) i (by omega)]
      congr 1; omega

theorem readBytes_congr (m m' : Sparse Byte) (a n : Nat) (h : ∀ i, i < n → readByte m (a + i) = readByte m' (a + i)) :
    readBytes m a n = readBytes m' a n := by
  induction n generalizing a with
  | zero => rfl
  | succ n ih =>
    simp only [readBytes]
    rw [show readByte m a = readByte m' a by simpa using h 0 (by omega),
      ih (a + 1) (fun i hi => by simpa [Nat.add_assoc, Nat.add_comm 1] using h (i + 1) (by omega))]

/-- Reading back what was written. -/
theorem readBytes_writeBytes_same (m : Sparse Byte) (a : Nat) (bytes : List Byte) :
    readBytes (writeBytes m a bytes) a bytes.length = bytes := by
  apply List.ext_getElem (by simp)
  intro i h1 h2
  have hi : i < bytes.length := by simpa using h1
  have := readBytes_getD (writeBytes m a bytes) a bytes.length i hi
  rw [readByte_writeBytes, if_pos (by omega), show a + i - a = i by omega] at this
  rw [List.getD_eq_getElem?_getD, List.getD_eq_getElem?_getD, List.getElem?_eq_getElem h1,
    List.getElem?_eq_getElem h2] at this
  simpa using this

theorem reset_memory_wf : Memory.wf State.reset.staging = true := rfl

end Sys2Proof.Machine
end

