-- ==== Sys2Proof/Laws/State.lean ====
section
/-! SUPPORT. What each plain update of the state leaves: one lemma for each field an update does not touch, true by
computation, and the reads of the field it does touch. -/

namespace Sys2Proof.Machine

/-! ## The fields an update does not touch -/

/-! ### setStream -/

@[simp] theorem State.setStream_station (s : State) (i : Fin 16) (x : Stream) : (s.setStream i x).station = s.station := rfl
@[simp] theorem State.setStream_hold (s : State) (i : Fin 16) (x : Stream) : (s.setStream i x).hold = s.hold := rfl
@[simp] theorem State.setStream_quiet (s : State) (i : Fin 16) (x : Stream) : (s.setStream i x).quiet = s.quiet := rfl
@[simp] theorem State.setStream_settings (s : State) (i : Fin 16) (x : Stream) : (s.setStream i x).settings = s.settings := rfl
@[simp] theorem State.setStream_clearPosition (s : State) (i : Fin 16) (x : Stream) : (s.setStream i x).clearPosition = s.clearPosition := rfl
@[simp] theorem State.setStream_engines (s : State) (i : Fin 16) (x : Stream) : (s.setStream i x).engines = s.engines := rfl
@[simp] theorem State.setStream_lastAssigned (s : State) (i : Fin 16) (x : Stream) : (s.setStream i x).lastAssigned = s.lastAssigned := rfl
@[simp] theorem State.setStream_digestQueue (s : State) (i : Fin 16) (x : Stream) : (s.setStream i x).digestQueue = s.digestQueue := rfl
@[simp] theorem State.setStream_index (s : State) (i : Fin 16) (x : Stream) : (s.setStream i x).index = s.index := rfl
@[simp] theorem State.setStream_resolution (s : State) (i : Fin 16) (x : Stream) : (s.setStream i x).resolution = s.resolution := rfl
@[simp] theorem State.setStream_bus (s : State) (i : Fin 16) (x : Stream) : (s.setStream i x).bus = s.bus := rfl
@[simp] theorem State.setStream_containers (s : State) (i : Fin 16) (x : Stream) : (s.setStream i x).containers = s.containers := rfl
@[simp] theorem State.setStream_sealUnit (s : State) (i : Fin 16) (x : Stream) : (s.setStream i x).sealUnit = s.sealUnit := rfl
@[simp] theorem State.setStream_sealLineLow (s : State) (i : Fin 16) (x : Stream) : (s.setStream i x).sealLineLow = s.sealLineLow := rfl
@[simp] theorem State.setStream_store (s : State) (i : Fin 16) (x : Stream) : (s.setStream i x).store = s.store := rfl
@[simp] theorem State.setStream_walker (s : State) (i : Fin 16) (x : Stream) : (s.setStream i x).walker = s.walker := rfl
@[simp] theorem State.setStream_management (s : State) (i : Fin 16) (x : Stream) : (s.setStream i x).management = s.management := rfl
@[simp] theorem State.setStream_staging (s : State) (i : Fin 16) (x : Stream) : (s.setStream i x).staging = s.staging := rfl
@[simp] theorem State.setStream_now (s : State) (i : Fin 16) (x : Stream) : (s.setStream i x).now = s.now := rfl
@[simp] theorem State.setStream_choices (s : State) (i : Fin 16) (x : Stream) : (s.setStream i x).choices = s.choices := rfl
@[simp] theorem State.setStream_sent (s : State) (i : Fin 16) (x : Stream) : (s.setStream i x).sent = s.sent := rfl
@[simp] theorem State.setStream_pending (s : State) (i : Fin 16) (x : Stream) : (s.setStream i x).pending = s.pending := rfl

/-! ### modStream -/

@[simp] theorem State.modStream_station (s : State) (i : Fin 16) (f : Stream → Stream) : (s.modStream i f).station = s.station := rfl
@[simp] theorem State.modStream_hold (s : State) (i : Fin 16) (f : Stream → Stream) : (s.modStream i f).hold = s.hold := rfl
@[simp] theorem State.modStream_quiet (s : State) (i : Fin 16) (f : Stream → Stream) : (s.modStream i f).quiet = s.quiet := rfl
@[simp] theorem State.modStream_settings (s : State) (i : Fin 16) (f : Stream → Stream) : (s.modStream i f).settings = s.settings := rfl
@[simp] theorem State.modStream_clearPosition (s : State) (i : Fin 16) (f : Stream → Stream) : (s.modStream i f).clearPosition = s.clearPosition := rfl
@[simp] theorem State.modStream_engines (s : State) (i : Fin 16) (f : Stream → Stream) : (s.modStream i f).engines = s.engines := rfl
@[simp] theorem State.modStream_lastAssigned (s : State) (i : Fin 16) (f : Stream → Stream) : (s.modStream i f).lastAssigned = s.lastAssigned := rfl
@[simp] theorem State.modStream_digestQueue (s : State) (i : Fin 16) (f : Stream → Stream) : (s.modStream i f).digestQueue = s.digestQueue := rfl
@[simp] theorem State.modStream_index (s : State) (i : Fin 16) (f : Stream → Stream) : (s.modStream i f).index = s.index := rfl
@[simp] theorem State.modStream_resolution (s : State) (i : Fin 16) (f : Stream → Stream) : (s.modStream i f).resolution = s.resolution := rfl
@[simp] theorem State.modStream_bus (s : State) (i : Fin 16) (f : Stream → Stream) : (s.modStream i f).bus = s.bus := rfl
@[simp] theorem State.modStream_containers (s : State) (i : Fin 16) (f : Stream → Stream) : (s.modStream i f).containers = s.containers := rfl
@[simp] theorem State.modStream_sealUnit (s : State) (i : Fin 16) (f : Stream → Stream) : (s.modStream i f).sealUnit = s.sealUnit := rfl
@[simp] theorem State.modStream_sealLineLow (s : State) (i : Fin 16) (f : Stream → Stream) : (s.modStream i f).sealLineLow = s.sealLineLow := rfl
@[simp] theorem State.modStream_store (s : State) (i : Fin 16) (f : Stream → Stream) : (s.modStream i f).store = s.store := rfl
@[simp] theorem State.modStream_walker (s : State) (i : Fin 16) (f : Stream → Stream) : (s.modStream i f).walker = s.walker := rfl
@[simp] theorem State.modStream_management (s : State) (i : Fin 16) (f : Stream → Stream) : (s.modStream i f).management = s.management := rfl
@[simp] theorem State.modStream_staging (s : State) (i : Fin 16) (f : Stream → Stream) : (s.modStream i f).staging = s.staging := rfl
@[simp] theorem State.modStream_now (s : State) (i : Fin 16) (f : Stream → Stream) : (s.modStream i f).now = s.now := rfl
@[simp] theorem State.modStream_choices (s : State) (i : Fin 16) (f : Stream → Stream) : (s.modStream i f).choices = s.choices := rfl
@[simp] theorem State.modStream_sent (s : State) (i : Fin 16) (f : Stream → Stream) : (s.modStream i f).sent = s.sent := rfl
@[simp] theorem State.modStream_pending (s : State) (i : Fin 16) (f : Stream → Stream) : (s.modStream i f).pending = s.pending := rfl

/-! ### setEngine -/

@[simp] theorem State.setEngine_station (s : State) (e : Fin 4) (x : Engine) : (s.setEngine e x).station = s.station := rfl
@[simp] theorem State.setEngine_hold (s : State) (e : Fin 4) (x : Engine) : (s.setEngine e x).hold = s.hold := rfl
@[simp] theorem State.setEngine_quiet (s : State) (e : Fin 4) (x : Engine) : (s.setEngine e x).quiet = s.quiet := rfl
@[simp] theorem State.setEngine_settings (s : State) (e : Fin 4) (x : Engine) : (s.setEngine e x).settings = s.settings := rfl
@[simp] theorem State.setEngine_clearPosition (s : State) (e : Fin 4) (x : Engine) : (s.setEngine e x).clearPosition = s.clearPosition := rfl
@[simp] theorem State.setEngine_streams (s : State) (e : Fin 4) (x : Engine) : (s.setEngine e x).streams = s.streams := rfl
@[simp] theorem State.setEngine_lastAssigned (s : State) (e : Fin 4) (x : Engine) : (s.setEngine e x).lastAssigned = s.lastAssigned := rfl
@[simp] theorem State.setEngine_digestQueue (s : State) (e : Fin 4) (x : Engine) : (s.setEngine e x).digestQueue = s.digestQueue := rfl
@[simp] theorem State.setEngine_index (s : State) (e : Fin 4) (x : Engine) : (s.setEngine e x).index = s.index := rfl
@[simp] theorem State.setEngine_resolution (s : State) (e : Fin 4) (x : Engine) : (s.setEngine e x).resolution = s.resolution := rfl
@[simp] theorem State.setEngine_bus (s : State) (e : Fin 4) (x : Engine) : (s.setEngine e x).bus = s.bus := rfl
@[simp] theorem State.setEngine_containers (s : State) (e : Fin 4) (x : Engine) : (s.setEngine e x).containers = s.containers := rfl
@[simp] theorem State.setEngine_sealUnit (s : State) (e : Fin 4) (x : Engine) : (s.setEngine e x).sealUnit = s.sealUnit := rfl
@[simp] theorem State.setEngine_sealLineLow (s : State) (e : Fin 4) (x : Engine) : (s.setEngine e x).sealLineLow = s.sealLineLow := rfl
@[simp] theorem State.setEngine_store (s : State) (e : Fin 4) (x : Engine) : (s.setEngine e x).store = s.store := rfl
@[simp] theorem State.setEngine_walker (s : State) (e : Fin 4) (x : Engine) : (s.setEngine e x).walker = s.walker := rfl
@[simp] theorem State.setEngine_management (s : State) (e : Fin 4) (x : Engine) : (s.setEngine e x).management = s.management := rfl
@[simp] theorem State.setEngine_staging (s : State) (e : Fin 4) (x : Engine) : (s.setEngine e x).staging = s.staging := rfl
@[simp] theorem State.setEngine_now (s : State) (e : Fin 4) (x : Engine) : (s.setEngine e x).now = s.now := rfl
@[simp] theorem State.setEngine_choices (s : State) (e : Fin 4) (x : Engine) : (s.setEngine e x).choices = s.choices := rfl
@[simp] theorem State.setEngine_sent (s : State) (e : Fin 4) (x : Engine) : (s.setEngine e x).sent = s.sent := rfl
@[simp] theorem State.setEngine_pending (s : State) (e : Fin 4) (x : Engine) : (s.setEngine e x).pending = s.pending := rfl

/-! ### setContainer -/

@[simp] theorem State.setContainer_station (s : State) (slot : Nat) (c : Container) : (s.setContainer slot c).station = s.station := rfl
@[simp] theorem State.setContainer_hold (s : State) (slot : Nat) (c : Container) : (s.setContainer slot c).hold = s.hold := rfl
@[simp] theorem State.setContainer_quiet (s : State) (slot : Nat) (c : Container) : (s.setContainer slot c).quiet = s.quiet := rfl
@[simp] theorem State.setContainer_settings (s : State) (slot : Nat) (c : Container) : (s.setContainer slot c).settings = s.settings := rfl
@[simp] theorem State.setContainer_clearPosition (s : State) (slot : Nat) (c : Container) : (s.setContainer slot c).clearPosition = s.clearPosition := rfl
@[simp] theorem State.setContainer_streams (s : State) (slot : Nat) (c : Container) : (s.setContainer slot c).streams = s.streams := rfl
@[simp] theorem State.setContainer_engines (s : State) (slot : Nat) (c : Container) : (s.setContainer slot c).engines = s.engines := rfl
@[simp] theorem State.setContainer_lastAssigned (s : State) (slot : Nat) (c : Container) : (s.setContainer slot c).lastAssigned = s.lastAssigned := rfl
@[simp] theorem State.setContainer_digestQueue (s : State) (slot : Nat) (c : Container) : (s.setContainer slot c).digestQueue = s.digestQueue := rfl
@[simp] theorem State.setContainer_index (s : State) (slot : Nat) (c : Container) : (s.setContainer slot c).index = s.index := rfl
@[simp] theorem State.setContainer_resolution (s : State) (slot : Nat) (c : Container) : (s.setContainer slot c).resolution = s.resolution := rfl
@[simp] theorem State.setContainer_bus (s : State) (slot : Nat) (c : Container) : (s.setContainer slot c).bus = s.bus := rfl
@[simp] theorem State.setContainer_sealUnit (s : State) (slot : Nat) (c : Container) : (s.setContainer slot c).sealUnit = s.sealUnit := rfl
@[simp] theorem State.setContainer_sealLineLow (s : State) (slot : Nat) (c : Container) : (s.setContainer slot c).sealLineLow = s.sealLineLow := rfl
@[simp] theorem State.setContainer_store (s : State) (slot : Nat) (c : Container) : (s.setContainer slot c).store = s.store := rfl
@[simp] theorem State.setContainer_walker (s : State) (slot : Nat) (c : Container) : (s.setContainer slot c).walker = s.walker := rfl
@[simp] theorem State.setContainer_management (s : State) (slot : Nat) (c : Container) : (s.setContainer slot c).management = s.management := rfl
@[simp] theorem State.setContainer_staging (s : State) (slot : Nat) (c : Container) : (s.setContainer slot c).staging = s.staging := rfl
@[simp] theorem State.setContainer_now (s : State) (slot : Nat) (c : Container) : (s.setContainer slot c).now = s.now := rfl
@[simp] theorem State.setContainer_choices (s : State) (slot : Nat) (c : Container) : (s.setContainer slot c).choices = s.choices := rfl
@[simp] theorem State.setContainer_sent (s : State) (slot : Nat) (c : Container) : (s.setContainer slot c).sent = s.sent := rfl
@[simp] theorem State.setContainer_pending (s : State) (slot : Nat) (c : Container) : (s.setContainer slot c).pending = s.pending := rfl

/-! ### setBucket -/

@[simp] theorem State.setBucket_station (s : State) (b : Nat) (entries : List IndexEntry) : (s.setBucket b entries).station = s.station := rfl
@[simp] theorem State.setBucket_hold (s : State) (b : Nat) (entries : List IndexEntry) : (s.setBucket b entries).hold = s.hold := rfl
@[simp] theorem State.setBucket_quiet (s : State) (b : Nat) (entries : List IndexEntry) : (s.setBucket b entries).quiet = s.quiet := rfl
@[simp] theorem State.setBucket_settings (s : State) (b : Nat) (entries : List IndexEntry) : (s.setBucket b entries).settings = s.settings := rfl
@[simp] theorem State.setBucket_clearPosition (s : State) (b : Nat) (entries : List IndexEntry) : (s.setBucket b entries).clearPosition = s.clearPosition := rfl
@[simp] theorem State.setBucket_streams (s : State) (b : Nat) (entries : List IndexEntry) : (s.setBucket b entries).streams = s.streams := rfl
@[simp] theorem State.setBucket_engines (s : State) (b : Nat) (entries : List IndexEntry) : (s.setBucket b entries).engines = s.engines := rfl
@[simp] theorem State.setBucket_lastAssigned (s : State) (b : Nat) (entries : List IndexEntry) : (s.setBucket b entries).lastAssigned = s.lastAssigned := rfl
@[simp] theorem State.setBucket_digestQueue (s : State) (b : Nat) (entries : List IndexEntry) : (s.setBucket b entries).digestQueue = s.digestQueue := rfl
@[simp] theorem State.setBucket_resolution (s : State) (b : Nat) (entries : List IndexEntry) : (s.setBucket b entries).resolution = s.resolution := rfl
@[simp] theorem State.setBucket_bus (s : State) (b : Nat) (entries : List IndexEntry) : (s.setBucket b entries).bus = s.bus := rfl
@[simp] theorem State.setBucket_containers (s : State) (b : Nat) (entries : List IndexEntry) : (s.setBucket b entries).containers = s.containers := rfl
@[simp] theorem State.setBucket_sealUnit (s : State) (b : Nat) (entries : List IndexEntry) : (s.setBucket b entries).sealUnit = s.sealUnit := rfl
@[simp] theorem State.setBucket_sealLineLow (s : State) (b : Nat) (entries : List IndexEntry) : (s.setBucket b entries).sealLineLow = s.sealLineLow := rfl
@[simp] theorem State.setBucket_store (s : State) (b : Nat) (entries : List IndexEntry) : (s.setBucket b entries).store = s.store := rfl
@[simp] theorem State.setBucket_walker (s : State) (b : Nat) (entries : List IndexEntry) : (s.setBucket b entries).walker = s.walker := rfl
@[simp] theorem State.setBucket_management (s : State) (b : Nat) (entries : List IndexEntry) : (s.setBucket b entries).management = s.management := rfl
@[simp] theorem State.setBucket_staging (s : State) (b : Nat) (entries : List IndexEntry) : (s.setBucket b entries).staging = s.staging := rfl
@[simp] theorem State.setBucket_now (s : State) (b : Nat) (entries : List IndexEntry) : (s.setBucket b entries).now = s.now := rfl
@[simp] theorem State.setBucket_choices (s : State) (b : Nat) (entries : List IndexEntry) : (s.setBucket b entries).choices = s.choices := rfl
@[simp] theorem State.setBucket_sent (s : State) (b : Nat) (entries : List IndexEntry) : (s.setBucket b entries).sent = s.sent := rfl
@[simp] theorem State.setBucket_pending (s : State) (b : Nat) (entries : List IndexEntry) : (s.setBucket b entries).pending = s.pending := rfl

/-! ### send -/

@[simp] theorem State.send_station (s : State) (o : Output) : (s.send o).station = s.station := rfl
@[simp] theorem State.send_hold (s : State) (o : Output) : (s.send o).hold = s.hold := rfl
@[simp] theorem State.send_quiet (s : State) (o : Output) : (s.send o).quiet = s.quiet := rfl
@[simp] theorem State.send_settings (s : State) (o : Output) : (s.send o).settings = s.settings := rfl
@[simp] theorem State.send_clearPosition (s : State) (o : Output) : (s.send o).clearPosition = s.clearPosition := rfl
@[simp] theorem State.send_streams (s : State) (o : Output) : (s.send o).streams = s.streams := rfl
@[simp] theorem State.send_engines (s : State) (o : Output) : (s.send o).engines = s.engines := rfl
@[simp] theorem State.send_lastAssigned (s : State) (o : Output) : (s.send o).lastAssigned = s.lastAssigned := rfl
@[simp] theorem State.send_digestQueue (s : State) (o : Output) : (s.send o).digestQueue = s.digestQueue := rfl
@[simp] theorem State.send_index (s : State) (o : Output) : (s.send o).index = s.index := rfl
@[simp] theorem State.send_resolution (s : State) (o : Output) : (s.send o).resolution = s.resolution := rfl
@[simp] theorem State.send_bus (s : State) (o : Output) : (s.send o).bus = s.bus := rfl
@[simp] theorem State.send_containers (s : State) (o : Output) : (s.send o).containers = s.containers := rfl
@[simp] theorem State.send_sealUnit (s : State) (o : Output) : (s.send o).sealUnit = s.sealUnit := rfl
@[simp] theorem State.send_sealLineLow (s : State) (o : Output) : (s.send o).sealLineLow = s.sealLineLow := rfl
@[simp] theorem State.send_store (s : State) (o : Output) : (s.send o).store = s.store := rfl
@[simp] theorem State.send_walker (s : State) (o : Output) : (s.send o).walker = s.walker := rfl
@[simp] theorem State.send_management (s : State) (o : Output) : (s.send o).management = s.management := rfl
@[simp] theorem State.send_staging (s : State) (o : Output) : (s.send o).staging = s.staging := rfl
@[simp] theorem State.send_now (s : State) (o : Output) : (s.send o).now = s.now := rfl
@[simp] theorem State.send_choices (s : State) (o : Output) : (s.send o).choices = s.choices := rfl
@[simp] theorem State.send_pending (s : State) (o : Output) : (s.send o).pending = s.pending := rfl

/-! ### clockTo -/

@[simp] theorem State.clockTo_station (s : State) (t : Nat) : (s.clockTo t).station = s.station := rfl
@[simp] theorem State.clockTo_hold (s : State) (t : Nat) : (s.clockTo t).hold = s.hold := rfl
@[simp] theorem State.clockTo_quiet (s : State) (t : Nat) : (s.clockTo t).quiet = s.quiet := rfl
@[simp] theorem State.clockTo_settings (s : State) (t : Nat) : (s.clockTo t).settings = s.settings := rfl
@[simp] theorem State.clockTo_clearPosition (s : State) (t : Nat) : (s.clockTo t).clearPosition = s.clearPosition := rfl
@[simp] theorem State.clockTo_streams (s : State) (t : Nat) : (s.clockTo t).streams = s.streams := rfl
@[simp] theorem State.clockTo_engines (s : State) (t : Nat) : (s.clockTo t).engines = s.engines := rfl
@[simp] theorem State.clockTo_lastAssigned (s : State) (t : Nat) : (s.clockTo t).lastAssigned = s.lastAssigned := rfl
@[simp] theorem State.clockTo_digestQueue (s : State) (t : Nat) : (s.clockTo t).digestQueue = s.digestQueue := rfl
@[simp] theorem State.clockTo_index (s : State) (t : Nat) : (s.clockTo t).index = s.index := rfl
@[simp] theorem State.clockTo_resolution (s : State) (t : Nat) : (s.clockTo t).resolution = s.resolution := rfl
@[simp] theorem State.clockTo_bus (s : State) (t : Nat) : (s.clockTo t).bus = s.bus := rfl
@[simp] theorem State.clockTo_containers (s : State) (t : Nat) : (s.clockTo t).containers = s.containers := rfl
@[simp] theorem State.clockTo_sealUnit (s : State) (t : Nat) : (s.clockTo t).sealUnit = s.sealUnit := rfl
@[simp] theorem State.clockTo_sealLineLow (s : State) (t : Nat) : (s.clockTo t).sealLineLow = s.sealLineLow := rfl
@[simp] theorem State.clockTo_store (s : State) (t : Nat) : (s.clockTo t).store = s.store := rfl
@[simp] theorem State.clockTo_walker (s : State) (t : Nat) : (s.clockTo t).walker = s.walker := rfl
@[simp] theorem State.clockTo_management (s : State) (t : Nat) : (s.clockTo t).management = s.management := rfl
@[simp] theorem State.clockTo_staging (s : State) (t : Nat) : (s.clockTo t).staging = s.staging := rfl
@[simp] theorem State.clockTo_choices (s : State) (t : Nat) : (s.clockTo t).choices = s.choices := rfl
@[simp] theorem State.clockTo_sent (s : State) (t : Nat) : (s.clockTo t).sent = s.sent := rfl
@[simp] theorem State.clockTo_pending (s : State) (t : Nat) : (s.clockTo t).pending = s.pending := rfl

/-! ### latch -/

@[simp] theorem State.latch_station (s : State) (f : EventFlag) : (s.latch f).station = s.station := rfl
@[simp] theorem State.latch_hold (s : State) (f : EventFlag) : (s.latch f).hold = s.hold := rfl
@[simp] theorem State.latch_quiet (s : State) (f : EventFlag) : (s.latch f).quiet = s.quiet := rfl
@[simp] theorem State.latch_settings (s : State) (f : EventFlag) : (s.latch f).settings = s.settings := rfl
@[simp] theorem State.latch_clearPosition (s : State) (f : EventFlag) : (s.latch f).clearPosition = s.clearPosition := rfl
@[simp] theorem State.latch_streams (s : State) (f : EventFlag) : (s.latch f).streams = s.streams := rfl
@[simp] theorem State.latch_engines (s : State) (f : EventFlag) : (s.latch f).engines = s.engines := rfl
@[simp] theorem State.latch_lastAssigned (s : State) (f : EventFlag) : (s.latch f).lastAssigned = s.lastAssigned := rfl
@[simp] theorem State.latch_digestQueue (s : State) (f : EventFlag) : (s.latch f).digestQueue = s.digestQueue := rfl
@[simp] theorem State.latch_index (s : State) (f : EventFlag) : (s.latch f).index = s.index := rfl
@[simp] theorem State.latch_resolution (s : State) (f : EventFlag) : (s.latch f).resolution = s.resolution := rfl
@[simp] theorem State.latch_bus (s : State) (f : EventFlag) : (s.latch f).bus = s.bus := rfl
@[simp] theorem State.latch_containers (s : State) (f : EventFlag) : (s.latch f).containers = s.containers := rfl
@[simp] theorem State.latch_sealUnit (s : State) (f : EventFlag) : (s.latch f).sealUnit = s.sealUnit := rfl
@[simp] theorem State.latch_sealLineLow (s : State) (f : EventFlag) : (s.latch f).sealLineLow = s.sealLineLow := rfl
@[simp] theorem State.latch_store (s : State) (f : EventFlag) : (s.latch f).store = s.store := rfl
@[simp] theorem State.latch_walker (s : State) (f : EventFlag) : (s.latch f).walker = s.walker := rfl
@[simp] theorem State.latch_staging (s : State) (f : EventFlag) : (s.latch f).staging = s.staging := rfl
@[simp] theorem State.latch_now (s : State) (f : EventFlag) : (s.latch f).now = s.now := rfl
@[simp] theorem State.latch_choices (s : State) (f : EventFlag) : (s.latch f).choices = s.choices := rfl
@[simp] theorem State.latch_sent (s : State) (f : EventFlag) : (s.latch f).sent = s.sent := rfl
@[simp] theorem State.latch_pending (s : State) (f : EventFlag) : (s.latch f).pending = s.pending := rfl

/-! ### refresh -/

@[simp] theorem State.refresh_station (s : State) : (s.refresh).station = s.station := rfl
@[simp] theorem State.refresh_hold (s : State) : (s.refresh).hold = s.hold := rfl
@[simp] theorem State.refresh_settings (s : State) : (s.refresh).settings = s.settings := rfl
@[simp] theorem State.refresh_clearPosition (s : State) : (s.refresh).clearPosition = s.clearPosition := rfl
@[simp] theorem State.refresh_streams (s : State) : (s.refresh).streams = s.streams := rfl
@[simp] theorem State.refresh_engines (s : State) : (s.refresh).engines = s.engines := rfl
@[simp] theorem State.refresh_lastAssigned (s : State) : (s.refresh).lastAssigned = s.lastAssigned := rfl
@[simp] theorem State.refresh_digestQueue (s : State) : (s.refresh).digestQueue = s.digestQueue := rfl
@[simp] theorem State.refresh_index (s : State) : (s.refresh).index = s.index := rfl
@[simp] theorem State.refresh_resolution (s : State) : (s.refresh).resolution = s.resolution := rfl
@[simp] theorem State.refresh_bus (s : State) : (s.refresh).bus = s.bus := rfl
@[simp] theorem State.refresh_containers (s : State) : (s.refresh).containers = s.containers := rfl
@[simp] theorem State.refresh_sealUnit (s : State) : (s.refresh).sealUnit = s.sealUnit := rfl
@[simp] theorem State.refresh_sealLineLow (s : State) : (s.refresh).sealLineLow = s.sealLineLow := rfl
@[simp] theorem State.refresh_store (s : State) : (s.refresh).store = s.store := rfl
@[simp] theorem State.refresh_walker (s : State) : (s.refresh).walker = s.walker := rfl
@[simp] theorem State.refresh_staging (s : State) : (s.refresh).staging = s.staging := rfl
@[simp] theorem State.refresh_now (s : State) : (s.refresh).now = s.now := rfl
@[simp] theorem State.refresh_choices (s : State) : (s.refresh).choices = s.choices := rfl
@[simp] theorem State.refresh_sent (s : State) : (s.refresh).sent = s.sent := rfl
@[simp] theorem State.refresh_pending (s : State) : (s.refresh).pending = s.pending := rfl

/-! ### makeReport -/

@[simp] theorem State.makeReport_station (s : State) (r : Report) : (s.makeReport r).station = s.station := rfl
@[simp] theorem State.makeReport_hold (s : State) (r : Report) : (s.makeReport r).hold = s.hold := rfl
@[simp] theorem State.makeReport_quiet (s : State) (r : Report) : (s.makeReport r).quiet = s.quiet := rfl
@[simp] theorem State.makeReport_settings (s : State) (r : Report) : (s.makeReport r).settings = s.settings := rfl
@[simp] theorem State.makeReport_clearPosition (s : State) (r : Report) : (s.makeReport r).clearPosition = s.clearPosition := rfl
@[simp] theorem State.makeReport_streams (s : State) (r : Report) : (s.makeReport r).streams = s.streams := rfl
@[simp] theorem State.makeReport_engines (s : State) (r : Report) : (s.makeReport r).engines = s.engines := rfl
@[simp] theorem State.makeReport_lastAssigned (s : State) (r : Report) : (s.makeReport r).lastAssigned = s.lastAssigned := rfl
@[simp] theorem State.makeReport_digestQueue (s : State) (r : Report) : (s.makeReport r).digestQueue = s.digestQueue := rfl
@[simp] theorem State.makeReport_index (s : State) (r : Report) : (s.makeReport r).index = s.index := rfl
@[simp] theorem State.makeReport_resolution (s : State) (r : Report) : (s.makeReport r).resolution = s.resolution := rfl
@[simp] theorem State.makeReport_bus (s : State) (r : Report) : (s.makeReport r).bus = s.bus := rfl
@[simp] theorem State.makeReport_containers (s : State) (r : Report) : (s.makeReport r).containers = s.containers := rfl
@[simp] theorem State.makeReport_sealUnit (s : State) (r : Report) : (s.makeReport r).sealUnit = s.sealUnit := rfl
@[simp] theorem State.makeReport_sealLineLow (s : State) (r : Report) : (s.makeReport r).sealLineLow = s.sealLineLow := rfl
@[simp] theorem State.makeReport_store (s : State) (r : Report) : (s.makeReport r).store = s.store := rfl
@[simp] theorem State.makeReport_walker (s : State) (r : Report) : (s.makeReport r).walker = s.walker := rfl
@[simp] theorem State.makeReport_staging (s : State) (r : Report) : (s.makeReport r).staging = s.staging := rfl
@[simp] theorem State.makeReport_now (s : State) (r : Report) : (s.makeReport r).now = s.now := rfl
@[simp] theorem State.makeReport_choices (s : State) (r : Report) : (s.makeReport r).choices = s.choices := rfl
@[simp] theorem State.makeReport_sent (s : State) (r : Report) : (s.makeReport r).sent = s.sent := rfl
@[simp] theorem State.makeReport_pending (s : State) (r : Report) : (s.makeReport r).pending = s.pending := rfl

/-! ### startWalk -/

@[simp] theorem State.startWalk_station (s : State) : (s.startWalk).station = s.station := rfl
@[simp] theorem State.startWalk_hold (s : State) : (s.startWalk).hold = s.hold := rfl
@[simp] theorem State.startWalk_quiet (s : State) : (s.startWalk).quiet = s.quiet := rfl
@[simp] theorem State.startWalk_settings (s : State) : (s.startWalk).settings = s.settings := rfl
@[simp] theorem State.startWalk_clearPosition (s : State) : (s.startWalk).clearPosition = s.clearPosition := rfl
@[simp] theorem State.startWalk_streams (s : State) : (s.startWalk).streams = s.streams := rfl
@[simp] theorem State.startWalk_engines (s : State) : (s.startWalk).engines = s.engines := rfl
@[simp] theorem State.startWalk_lastAssigned (s : State) : (s.startWalk).lastAssigned = s.lastAssigned := rfl
@[simp] theorem State.startWalk_digestQueue (s : State) : (s.startWalk).digestQueue = s.digestQueue := rfl
@[simp] theorem State.startWalk_index (s : State) : (s.startWalk).index = s.index := rfl
@[simp] theorem State.startWalk_resolution (s : State) : (s.startWalk).resolution = s.resolution := rfl
@[simp] theorem State.startWalk_bus (s : State) : (s.startWalk).bus = s.bus := rfl
@[simp] theorem State.startWalk_containers (s : State) : (s.startWalk).containers = s.containers := rfl
@[simp] theorem State.startWalk_sealUnit (s : State) : (s.startWalk).sealUnit = s.sealUnit := rfl
@[simp] theorem State.startWalk_sealLineLow (s : State) : (s.startWalk).sealLineLow = s.sealLineLow := rfl
@[simp] theorem State.startWalk_store (s : State) : (s.startWalk).store = s.store := rfl
@[simp] theorem State.startWalk_management (s : State) : (s.startWalk).management = s.management := rfl
@[simp] theorem State.startWalk_staging (s : State) : (s.startWalk).staging = s.staging := rfl
@[simp] theorem State.startWalk_now (s : State) : (s.startWalk).now = s.now := rfl
@[simp] theorem State.startWalk_choices (s : State) : (s.startWalk).choices = s.choices := rfl
@[simp] theorem State.startWalk_sent (s : State) : (s.startWalk).sent = s.sent := rfl
@[simp] theorem State.startWalk_pending (s : State) : (s.startWalk).pending = s.pending := rfl

/-! ### issueAppend -/

@[simp] theorem State.issueAppend_station (s : State) (slot : Nat) (r : AppendRequest) : (s.issueAppend slot r).station = s.station := rfl
@[simp] theorem State.issueAppend_hold (s : State) (slot : Nat) (r : AppendRequest) : (s.issueAppend slot r).hold = s.hold := rfl
@[simp] theorem State.issueAppend_quiet (s : State) (slot : Nat) (r : AppendRequest) : (s.issueAppend slot r).quiet = s.quiet := rfl
@[simp] theorem State.issueAppend_settings (s : State) (slot : Nat) (r : AppendRequest) : (s.issueAppend slot r).settings = s.settings := rfl
@[simp] theorem State.issueAppend_clearPosition (s : State) (slot : Nat) (r : AppendRequest) : (s.issueAppend slot r).clearPosition = s.clearPosition := rfl
@[simp] theorem State.issueAppend_streams (s : State) (slot : Nat) (r : AppendRequest) : (s.issueAppend slot r).streams = s.streams := rfl
@[simp] theorem State.issueAppend_engines (s : State) (slot : Nat) (r : AppendRequest) : (s.issueAppend slot r).engines = s.engines := rfl
@[simp] theorem State.issueAppend_lastAssigned (s : State) (slot : Nat) (r : AppendRequest) : (s.issueAppend slot r).lastAssigned = s.lastAssigned := rfl
@[simp] theorem State.issueAppend_digestQueue (s : State) (slot : Nat) (r : AppendRequest) : (s.issueAppend slot r).digestQueue = s.digestQueue := rfl
@[simp] theorem State.issueAppend_index (s : State) (slot : Nat) (r : AppendRequest) : (s.issueAppend slot r).index = s.index := rfl
@[simp] theorem State.issueAppend_resolution (s : State) (slot : Nat) (r : AppendRequest) : (s.issueAppend slot r).resolution = s.resolution := rfl
@[simp] theorem State.issueAppend_bus (s : State) (slot : Nat) (r : AppendRequest) : (s.issueAppend slot r).bus = s.bus := rfl
@[simp] theorem State.issueAppend_sealUnit (s : State) (slot : Nat) (r : AppendRequest) : (s.issueAppend slot r).sealUnit = s.sealUnit := rfl
@[simp] theorem State.issueAppend_sealLineLow (s : State) (slot : Nat) (r : AppendRequest) : (s.issueAppend slot r).sealLineLow = s.sealLineLow := rfl
@[simp] theorem State.issueAppend_store (s : State) (slot : Nat) (r : AppendRequest) : (s.issueAppend slot r).store = s.store := rfl
@[simp] theorem State.issueAppend_walker (s : State) (slot : Nat) (r : AppendRequest) : (s.issueAppend slot r).walker = s.walker := rfl
@[simp] theorem State.issueAppend_management (s : State) (slot : Nat) (r : AppendRequest) : (s.issueAppend slot r).management = s.management := rfl
@[simp] theorem State.issueAppend_staging (s : State) (slot : Nat) (r : AppendRequest) : (s.issueAppend slot r).staging = s.staging := rfl
@[simp] theorem State.issueAppend_now (s : State) (slot : Nat) (r : AppendRequest) : (s.issueAppend slot r).now = s.now := rfl
@[simp] theorem State.issueAppend_choices (s : State) (slot : Nat) (r : AppendRequest) : (s.issueAppend slot r).choices = s.choices := rfl
@[simp] theorem State.issueAppend_sent (s : State) (slot : Nat) (r : AppendRequest) : (s.issueAppend slot r).sent = s.sent := rfl
@[simp] theorem State.issueAppend_pending (s : State) (slot : Nat) (r : AppendRequest) : (s.issueAppend slot r).pending = s.pending := rfl

/-! ### joinOpenWait -/

@[simp] theorem State.joinOpenWait_station (s : State) (r : AppendRequest) : (s.joinOpenWait r).station = s.station := rfl
@[simp] theorem State.joinOpenWait_hold (s : State) (r : AppendRequest) : (s.joinOpenWait r).hold = s.hold := rfl
@[simp] theorem State.joinOpenWait_quiet (s : State) (r : AppendRequest) : (s.joinOpenWait r).quiet = s.quiet := rfl
@[simp] theorem State.joinOpenWait_settings (s : State) (r : AppendRequest) : (s.joinOpenWait r).settings = s.settings := rfl
@[simp] theorem State.joinOpenWait_clearPosition (s : State) (r : AppendRequest) : (s.joinOpenWait r).clearPosition = s.clearPosition := rfl
@[simp] theorem State.joinOpenWait_streams (s : State) (r : AppendRequest) : (s.joinOpenWait r).streams = s.streams := rfl
@[simp] theorem State.joinOpenWait_engines (s : State) (r : AppendRequest) : (s.joinOpenWait r).engines = s.engines := rfl
@[simp] theorem State.joinOpenWait_lastAssigned (s : State) (r : AppendRequest) : (s.joinOpenWait r).lastAssigned = s.lastAssigned := rfl
@[simp] theorem State.joinOpenWait_digestQueue (s : State) (r : AppendRequest) : (s.joinOpenWait r).digestQueue = s.digestQueue := rfl
@[simp] theorem State.joinOpenWait_index (s : State) (r : AppendRequest) : (s.joinOpenWait r).index = s.index := rfl
@[simp] theorem State.joinOpenWait_resolution (s : State) (r : AppendRequest) : (s.joinOpenWait r).resolution = s.resolution := rfl
@[simp] theorem State.joinOpenWait_bus (s : State) (r : AppendRequest) : (s.joinOpenWait r).bus = s.bus := rfl
@[simp] theorem State.joinOpenWait_sealUnit (s : State) (r : AppendRequest) : (s.joinOpenWait r).sealUnit = s.sealUnit := rfl
@[simp] theorem State.joinOpenWait_sealLineLow (s : State) (r : AppendRequest) : (s.joinOpenWait r).sealLineLow = s.sealLineLow := rfl
@[simp] theorem State.joinOpenWait_store (s : State) (r : AppendRequest) : (s.joinOpenWait r).store = s.store := rfl
@[simp] theorem State.joinOpenWait_walker (s : State) (r : AppendRequest) : (s.joinOpenWait r).walker = s.walker := rfl
@[simp] theorem State.joinOpenWait_management (s : State) (r : AppendRequest) : (s.joinOpenWait r).management = s.management := rfl
@[simp] theorem State.joinOpenWait_staging (s : State) (r : AppendRequest) : (s.joinOpenWait r).staging = s.staging := rfl
@[simp] theorem State.joinOpenWait_now (s : State) (r : AppendRequest) : (s.joinOpenWait r).now = s.now := rfl
@[simp] theorem State.joinOpenWait_choices (s : State) (r : AppendRequest) : (s.joinOpenWait r).choices = s.choices := rfl
@[simp] theorem State.joinOpenWait_sent (s : State) (r : AppendRequest) : (s.joinOpenWait r).sent = s.sent := rfl
@[simp] theorem State.joinOpenWait_pending (s : State) (r : AppendRequest) : (s.joinOpenWait r).pending = s.pending := rfl

/-! ### withdrawAppend -/

@[simp] theorem State.withdrawAppend_station (s : State) (tag : Byte) : (s.withdrawAppend tag).station = s.station := rfl
@[simp] theorem State.withdrawAppend_hold (s : State) (tag : Byte) : (s.withdrawAppend tag).hold = s.hold := rfl
@[simp] theorem State.withdrawAppend_quiet (s : State) (tag : Byte) : (s.withdrawAppend tag).quiet = s.quiet := rfl
@[simp] theorem State.withdrawAppend_settings (s : State) (tag : Byte) : (s.withdrawAppend tag).settings = s.settings := rfl
@[simp] theorem State.withdrawAppend_clearPosition (s : State) (tag : Byte) : (s.withdrawAppend tag).clearPosition = s.clearPosition := rfl
@[simp] theorem State.withdrawAppend_streams (s : State) (tag : Byte) : (s.withdrawAppend tag).streams = s.streams := rfl
@[simp] theorem State.withdrawAppend_engines (s : State) (tag : Byte) : (s.withdrawAppend tag).engines = s.engines := rfl
@[simp] theorem State.withdrawAppend_lastAssigned (s : State) (tag : Byte) : (s.withdrawAppend tag).lastAssigned = s.lastAssigned := rfl
@[simp] theorem State.withdrawAppend_digestQueue (s : State) (tag : Byte) : (s.withdrawAppend tag).digestQueue = s.digestQueue := rfl
@[simp] theorem State.withdrawAppend_index (s : State) (tag : Byte) : (s.withdrawAppend tag).index = s.index := rfl
@[simp] theorem State.withdrawAppend_resolution (s : State) (tag : Byte) : (s.withdrawAppend tag).resolution = s.resolution := rfl
@[simp] theorem State.withdrawAppend_bus (s : State) (tag : Byte) : (s.withdrawAppend tag).bus = s.bus := rfl
@[simp] theorem State.withdrawAppend_sealUnit (s : State) (tag : Byte) : (s.withdrawAppend tag).sealUnit = s.sealUnit := rfl
@[simp] theorem State.withdrawAppend_sealLineLow (s : State) (tag : Byte) : (s.withdrawAppend tag).sealLineLow = s.sealLineLow := rfl
@[simp] theorem State.withdrawAppend_store (s : State) (tag : Byte) : (s.withdrawAppend tag).store = s.store := rfl
@[simp] theorem State.withdrawAppend_walker (s : State) (tag : Byte) : (s.withdrawAppend tag).walker = s.walker := rfl
@[simp] theorem State.withdrawAppend_management (s : State) (tag : Byte) : (s.withdrawAppend tag).management = s.management := rfl
@[simp] theorem State.withdrawAppend_staging (s : State) (tag : Byte) : (s.withdrawAppend tag).staging = s.staging := rfl
@[simp] theorem State.withdrawAppend_now (s : State) (tag : Byte) : (s.withdrawAppend tag).now = s.now := rfl
@[simp] theorem State.withdrawAppend_choices (s : State) (tag : Byte) : (s.withdrawAppend tag).choices = s.choices := rfl
@[simp] theorem State.withdrawAppend_sent (s : State) (tag : Byte) : (s.withdrawAppend tag).sent = s.sent := rfl
@[simp] theorem State.withdrawAppend_pending (s : State) (tag : Byte) : (s.withdrawAppend tag).pending = s.pending := rfl

/-! ### openContainer -/

@[simp] theorem State.openContainer_station (s : State) (slot area : Nat) (i : Fin 16) : (s.openContainer slot area i).station = s.station := rfl
@[simp] theorem State.openContainer_hold (s : State) (slot area : Nat) (i : Fin 16) : (s.openContainer slot area i).hold = s.hold := rfl
@[simp] theorem State.openContainer_quiet (s : State) (slot area : Nat) (i : Fin 16) : (s.openContainer slot area i).quiet = s.quiet := rfl
@[simp] theorem State.openContainer_settings (s : State) (slot area : Nat) (i : Fin 16) : (s.openContainer slot area i).settings = s.settings := rfl
@[simp] theorem State.openContainer_clearPosition (s : State) (slot area : Nat) (i : Fin 16) : (s.openContainer slot area i).clearPosition = s.clearPosition := rfl
@[simp] theorem State.openContainer_engines (s : State) (slot area : Nat) (i : Fin 16) : (s.openContainer slot area i).engines = s.engines := rfl
@[simp] theorem State.openContainer_lastAssigned (s : State) (slot area : Nat) (i : Fin 16) : (s.openContainer slot area i).lastAssigned = s.lastAssigned := rfl
@[simp] theorem State.openContainer_digestQueue (s : State) (slot area : Nat) (i : Fin 16) : (s.openContainer slot area i).digestQueue = s.digestQueue := rfl
@[simp] theorem State.openContainer_index (s : State) (slot area : Nat) (i : Fin 16) : (s.openContainer slot area i).index = s.index := rfl
@[simp] theorem State.openContainer_resolution (s : State) (slot area : Nat) (i : Fin 16) : (s.openContainer slot area i).resolution = s.resolution := rfl
@[simp] theorem State.openContainer_bus (s : State) (slot area : Nat) (i : Fin 16) : (s.openContainer slot area i).bus = s.bus := rfl
@[simp] theorem State.openContainer_sealUnit (s : State) (slot area : Nat) (i : Fin 16) : (s.openContainer slot area i).sealUnit = s.sealUnit := rfl
@[simp] theorem State.openContainer_sealLineLow (s : State) (slot area : Nat) (i : Fin 16) : (s.openContainer slot area i).sealLineLow = s.sealLineLow := rfl
@[simp] theorem State.openContainer_store (s : State) (slot area : Nat) (i : Fin 16) : (s.openContainer slot area i).store = s.store := rfl
@[simp] theorem State.openContainer_walker (s : State) (slot area : Nat) (i : Fin 16) : (s.openContainer slot area i).walker = s.walker := rfl
@[simp] theorem State.openContainer_management (s : State) (slot area : Nat) (i : Fin 16) : (s.openContainer slot area i).management = s.management := rfl
@[simp] theorem State.openContainer_staging (s : State) (slot area : Nat) (i : Fin 16) : (s.openContainer slot area i).staging = s.staging := rfl
@[simp] theorem State.openContainer_now (s : State) (slot area : Nat) (i : Fin 16) : (s.openContainer slot area i).now = s.now := rfl
@[simp] theorem State.openContainer_choices (s : State) (slot area : Nat) (i : Fin 16) : (s.openContainer slot area i).choices = s.choices := rfl
@[simp] theorem State.openContainer_sent (s : State) (slot area : Nat) (i : Fin 16) : (s.openContainer slot area i).sent = s.sent := rfl
@[simp] theorem State.openContainer_pending (s : State) (slot area : Nat) (i : Fin 16) : (s.openContainer slot area i).pending = s.pending := rfl

/-! ### raiseReferences -/

@[simp] theorem State.raiseReferences_station (s : State) (slot n : Nat) : (s.raiseReferences slot n).station = s.station := rfl
@[simp] theorem State.raiseReferences_hold (s : State) (slot n : Nat) : (s.raiseReferences slot n).hold = s.hold := rfl
@[simp] theorem State.raiseReferences_quiet (s : State) (slot n : Nat) : (s.raiseReferences slot n).quiet = s.quiet := rfl
@[simp] theorem State.raiseReferences_settings (s : State) (slot n : Nat) : (s.raiseReferences slot n).settings = s.settings := rfl
@[simp] theorem State.raiseReferences_clearPosition (s : State) (slot n : Nat) : (s.raiseReferences slot n).clearPosition = s.clearPosition := rfl
@[simp] theorem State.raiseReferences_streams (s : State) (slot n : Nat) : (s.raiseReferences slot n).streams = s.streams := rfl
@[simp] theorem State.raiseReferences_engines (s : State) (slot n : Nat) : (s.raiseReferences slot n).engines = s.engines := rfl
@[simp] theorem State.raiseReferences_lastAssigned (s : State) (slot n : Nat) : (s.raiseReferences slot n).lastAssigned = s.lastAssigned := rfl
@[simp] theorem State.raiseReferences_digestQueue (s : State) (slot n : Nat) : (s.raiseReferences slot n).digestQueue = s.digestQueue := rfl
@[simp] theorem State.raiseReferences_index (s : State) (slot n : Nat) : (s.raiseReferences slot n).index = s.index := rfl
@[simp] theorem State.raiseReferences_resolution (s : State) (slot n : Nat) : (s.raiseReferences slot n).resolution = s.resolution := rfl
@[simp] theorem State.raiseReferences_bus (s : State) (slot n : Nat) : (s.raiseReferences slot n).bus = s.bus := rfl
@[simp] theorem State.raiseReferences_sealUnit (s : State) (slot n : Nat) : (s.raiseReferences slot n).sealUnit = s.sealUnit := rfl
@[simp] theorem State.raiseReferences_sealLineLow (s : State) (slot n : Nat) : (s.raiseReferences slot n).sealLineLow = s.sealLineLow := rfl
@[simp] theorem State.raiseReferences_store (s : State) (slot n : Nat) : (s.raiseReferences slot n).store = s.store := rfl
@[simp] theorem State.raiseReferences_walker (s : State) (slot n : Nat) : (s.raiseReferences slot n).walker = s.walker := rfl
@[simp] theorem State.raiseReferences_management (s : State) (slot n : Nat) : (s.raiseReferences slot n).management = s.management := rfl
@[simp] theorem State.raiseReferences_staging (s : State) (slot n : Nat) : (s.raiseReferences slot n).staging = s.staging := rfl
@[simp] theorem State.raiseReferences_now (s : State) (slot n : Nat) : (s.raiseReferences slot n).now = s.now := rfl
@[simp] theorem State.raiseReferences_choices (s : State) (slot n : Nat) : (s.raiseReferences slot n).choices = s.choices := rfl
@[simp] theorem State.raiseReferences_sent (s : State) (slot n : Nat) : (s.raiseReferences slot n).sent = s.sent := rfl
@[simp] theorem State.raiseReferences_pending (s : State) (slot n : Nat) : (s.raiseReferences slot n).pending = s.pending := rfl

/-! ### lowerReferences -/

@[simp] theorem State.lowerReferences_station (s : State) (slot : Nat) : (s.lowerReferences slot).station = s.station := rfl
@[simp] theorem State.lowerReferences_hold (s : State) (slot : Nat) : (s.lowerReferences slot).hold = s.hold := rfl
@[simp] theorem State.lowerReferences_quiet (s : State) (slot : Nat) : (s.lowerReferences slot).quiet = s.quiet := rfl
@[simp] theorem State.lowerReferences_settings (s : State) (slot : Nat) : (s.lowerReferences slot).settings = s.settings := rfl
@[simp] theorem State.lowerReferences_clearPosition (s : State) (slot : Nat) : (s.lowerReferences slot).clearPosition = s.clearPosition := rfl
@[simp] theorem State.lowerReferences_streams (s : State) (slot : Nat) : (s.lowerReferences slot).streams = s.streams := rfl
@[simp] theorem State.lowerReferences_engines (s : State) (slot : Nat) : (s.lowerReferences slot).engines = s.engines := rfl
@[simp] theorem State.lowerReferences_lastAssigned (s : State) (slot : Nat) : (s.lowerReferences slot).lastAssigned = s.lastAssigned := rfl
@[simp] theorem State.lowerReferences_digestQueue (s : State) (slot : Nat) : (s.lowerReferences slot).digestQueue = s.digestQueue := rfl
@[simp] theorem State.lowerReferences_index (s : State) (slot : Nat) : (s.lowerReferences slot).index = s.index := rfl
@[simp] theorem State.lowerReferences_resolution (s : State) (slot : Nat) : (s.lowerReferences slot).resolution = s.resolution := rfl
@[simp] theorem State.lowerReferences_bus (s : State) (slot : Nat) : (s.lowerReferences slot).bus = s.bus := rfl
@[simp] theorem State.lowerReferences_sealUnit (s : State) (slot : Nat) : (s.lowerReferences slot).sealUnit = s.sealUnit := rfl
@[simp] theorem State.lowerReferences_sealLineLow (s : State) (slot : Nat) : (s.lowerReferences slot).sealLineLow = s.sealLineLow := rfl
@[simp] theorem State.lowerReferences_store (s : State) (slot : Nat) : (s.lowerReferences slot).store = s.store := rfl
@[simp] theorem State.lowerReferences_walker (s : State) (slot : Nat) : (s.lowerReferences slot).walker = s.walker := rfl
@[simp] theorem State.lowerReferences_management (s : State) (slot : Nat) : (s.lowerReferences slot).management = s.management := rfl
@[simp] theorem State.lowerReferences_staging (s : State) (slot : Nat) : (s.lowerReferences slot).staging = s.staging := rfl
@[simp] theorem State.lowerReferences_now (s : State) (slot : Nat) : (s.lowerReferences slot).now = s.now := rfl
@[simp] theorem State.lowerReferences_choices (s : State) (slot : Nat) : (s.lowerReferences slot).choices = s.choices := rfl
@[simp] theorem State.lowerReferences_sent (s : State) (slot : Nat) : (s.lowerReferences slot).sent = s.sent := rfl
@[simp] theorem State.lowerReferences_pending (s : State) (slot : Nat) : (s.lowerReferences slot).pending = s.pending := rfl

/-! ### removeDead -/

@[simp] theorem State.removeDead_station (s : State) (b : Nat) : (s.removeDead b).station = s.station := rfl
@[simp] theorem State.removeDead_hold (s : State) (b : Nat) : (s.removeDead b).hold = s.hold := rfl
@[simp] theorem State.removeDead_quiet (s : State) (b : Nat) : (s.removeDead b).quiet = s.quiet := rfl
@[simp] theorem State.removeDead_settings (s : State) (b : Nat) : (s.removeDead b).settings = s.settings := rfl
@[simp] theorem State.removeDead_clearPosition (s : State) (b : Nat) : (s.removeDead b).clearPosition = s.clearPosition := rfl
@[simp] theorem State.removeDead_streams (s : State) (b : Nat) : (s.removeDead b).streams = s.streams := rfl
@[simp] theorem State.removeDead_engines (s : State) (b : Nat) : (s.removeDead b).engines = s.engines := rfl
@[simp] theorem State.removeDead_lastAssigned (s : State) (b : Nat) : (s.removeDead b).lastAssigned = s.lastAssigned := rfl
@[simp] theorem State.removeDead_digestQueue (s : State) (b : Nat) : (s.removeDead b).digestQueue = s.digestQueue := rfl
@[simp] theorem State.removeDead_resolution (s : State) (b : Nat) : (s.removeDead b).resolution = s.resolution := rfl
@[simp] theorem State.removeDead_bus (s : State) (b : Nat) : (s.removeDead b).bus = s.bus := rfl
@[simp] theorem State.removeDead_containers (s : State) (b : Nat) : (s.removeDead b).containers = s.containers := rfl
@[simp] theorem State.removeDead_sealUnit (s : State) (b : Nat) : (s.removeDead b).sealUnit = s.sealUnit := rfl
@[simp] theorem State.removeDead_sealLineLow (s : State) (b : Nat) : (s.removeDead b).sealLineLow = s.sealLineLow := rfl
@[simp] theorem State.removeDead_store (s : State) (b : Nat) : (s.removeDead b).store = s.store := rfl
@[simp] theorem State.removeDead_walker (s : State) (b : Nat) : (s.removeDead b).walker = s.walker := rfl
@[simp] theorem State.removeDead_management (s : State) (b : Nat) : (s.removeDead b).management = s.management := rfl
@[simp] theorem State.removeDead_staging (s : State) (b : Nat) : (s.removeDead b).staging = s.staging := rfl
@[simp] theorem State.removeDead_now (s : State) (b : Nat) : (s.removeDead b).now = s.now := rfl
@[simp] theorem State.removeDead_choices (s : State) (b : Nat) : (s.removeDead b).choices = s.choices := rfl
@[simp] theorem State.removeDead_sent (s : State) (b : Nat) : (s.removeDead b).sent = s.sent := rfl
@[simp] theorem State.removeDead_pending (s : State) (b : Nat) : (s.removeDead b).pending = s.pending := rfl

/-! ### makeRequest -/

@[simp] theorem State.makeRequest_station (s : State) (p : Producer) (r : IndexRequest) : (s.makeRequest p r).station = s.station := rfl
@[simp] theorem State.makeRequest_hold (s : State) (p : Producer) (r : IndexRequest) : (s.makeRequest p r).hold = s.hold := rfl
@[simp] theorem State.makeRequest_quiet (s : State) (p : Producer) (r : IndexRequest) : (s.makeRequest p r).quiet = s.quiet := rfl
@[simp] theorem State.makeRequest_settings (s : State) (p : Producer) (r : IndexRequest) : (s.makeRequest p r).settings = s.settings := rfl
@[simp] theorem State.makeRequest_clearPosition (s : State) (p : Producer) (r : IndexRequest) : (s.makeRequest p r).clearPosition = s.clearPosition := rfl
@[simp] theorem State.makeRequest_streams (s : State) (p : Producer) (r : IndexRequest) : (s.makeRequest p r).streams = s.streams := rfl
@[simp] theorem State.makeRequest_engines (s : State) (p : Producer) (r : IndexRequest) : (s.makeRequest p r).engines = s.engines := rfl
@[simp] theorem State.makeRequest_lastAssigned (s : State) (p : Producer) (r : IndexRequest) : (s.makeRequest p r).lastAssigned = s.lastAssigned := rfl
@[simp] theorem State.makeRequest_digestQueue (s : State) (p : Producer) (r : IndexRequest) : (s.makeRequest p r).digestQueue = s.digestQueue := rfl
@[simp] theorem State.makeRequest_resolution (s : State) (p : Producer) (r : IndexRequest) : (s.makeRequest p r).resolution = s.resolution := rfl
@[simp] theorem State.makeRequest_bus (s : State) (p : Producer) (r : IndexRequest) : (s.makeRequest p r).bus = s.bus := rfl
@[simp] theorem State.makeRequest_containers (s : State) (p : Producer) (r : IndexRequest) : (s.makeRequest p r).containers = s.containers := rfl
@[simp] theorem State.makeRequest_sealUnit (s : State) (p : Producer) (r : IndexRequest) : (s.makeRequest p r).sealUnit = s.sealUnit := rfl
@[simp] theorem State.makeRequest_sealLineLow (s : State) (p : Producer) (r : IndexRequest) : (s.makeRequest p r).sealLineLow = s.sealLineLow := rfl
@[simp] theorem State.makeRequest_store (s : State) (p : Producer) (r : IndexRequest) : (s.makeRequest p r).store = s.store := rfl
@[simp] theorem State.makeRequest_walker (s : State) (p : Producer) (r : IndexRequest) : (s.makeRequest p r).walker = s.walker := rfl
@[simp] theorem State.makeRequest_management (s : State) (p : Producer) (r : IndexRequest) : (s.makeRequest p r).management = s.management := rfl
@[simp] theorem State.makeRequest_staging (s : State) (p : Producer) (r : IndexRequest) : (s.makeRequest p r).staging = s.staging := rfl
@[simp] theorem State.makeRequest_now (s : State) (p : Producer) (r : IndexRequest) : (s.makeRequest p r).now = s.now := rfl
@[simp] theorem State.makeRequest_choices (s : State) (p : Producer) (r : IndexRequest) : (s.makeRequest p r).choices = s.choices := rfl
@[simp] theorem State.makeRequest_sent (s : State) (p : Producer) (r : IndexRequest) : (s.makeRequest p r).sent = s.sent := rfl
@[simp] theorem State.makeRequest_pending (s : State) (p : Producer) (r : IndexRequest) : (s.makeRequest p r).pending = s.pending := rfl

/-! ### endService -/

@[simp] theorem State.endService_station (s : State) : (s.endService).station = s.station := rfl
@[simp] theorem State.endService_hold (s : State) : (s.endService).hold = s.hold := rfl
@[simp] theorem State.endService_quiet (s : State) : (s.endService).quiet = s.quiet := rfl
@[simp] theorem State.endService_settings (s : State) : (s.endService).settings = s.settings := rfl
@[simp] theorem State.endService_clearPosition (s : State) : (s.endService).clearPosition = s.clearPosition := rfl
@[simp] theorem State.endService_streams (s : State) : (s.endService).streams = s.streams := rfl
@[simp] theorem State.endService_engines (s : State) : (s.endService).engines = s.engines := rfl
@[simp] theorem State.endService_lastAssigned (s : State) : (s.endService).lastAssigned = s.lastAssigned := rfl
@[simp] theorem State.endService_digestQueue (s : State) : (s.endService).digestQueue = s.digestQueue := rfl
@[simp] theorem State.endService_resolution (s : State) : (s.endService).resolution = s.resolution := rfl
@[simp] theorem State.endService_bus (s : State) : (s.endService).bus = s.bus := rfl
@[simp] theorem State.endService_containers (s : State) : (s.endService).containers = s.containers := rfl
@[simp] theorem State.endService_sealUnit (s : State) : (s.endService).sealUnit = s.sealUnit := rfl
@[simp] theorem State.endService_sealLineLow (s : State) : (s.endService).sealLineLow = s.sealLineLow := rfl
@[simp] theorem State.endService_store (s : State) : (s.endService).store = s.store := rfl
@[simp] theorem State.endService_walker (s : State) : (s.endService).walker = s.walker := rfl
@[simp] theorem State.endService_management (s : State) : (s.endService).management = s.management := rfl
@[simp] theorem State.endService_staging (s : State) : (s.endService).staging = s.staging := rfl
@[simp] theorem State.endService_now (s : State) : (s.endService).now = s.now := rfl
@[simp] theorem State.endService_choices (s : State) : (s.endService).choices = s.choices := rfl
@[simp] theorem State.endService_sent (s : State) : (s.endService).sent = s.sent := rfl
@[simp] theorem State.endService_pending (s : State) : (s.endService).pending = s.pending := rfl

/-! ### setAsk -/

@[simp] theorem State.setAsk_station (s : State) (e : AskEntry) : (s.setAsk e).station = s.station := rfl
@[simp] theorem State.setAsk_hold (s : State) (e : AskEntry) : (s.setAsk e).hold = s.hold := rfl
@[simp] theorem State.setAsk_quiet (s : State) (e : AskEntry) : (s.setAsk e).quiet = s.quiet := rfl
@[simp] theorem State.setAsk_settings (s : State) (e : AskEntry) : (s.setAsk e).settings = s.settings := rfl
@[simp] theorem State.setAsk_clearPosition (s : State) (e : AskEntry) : (s.setAsk e).clearPosition = s.clearPosition := rfl
@[simp] theorem State.setAsk_streams (s : State) (e : AskEntry) : (s.setAsk e).streams = s.streams := rfl
@[simp] theorem State.setAsk_engines (s : State) (e : AskEntry) : (s.setAsk e).engines = s.engines := rfl
@[simp] theorem State.setAsk_lastAssigned (s : State) (e : AskEntry) : (s.setAsk e).lastAssigned = s.lastAssigned := rfl
@[simp] theorem State.setAsk_digestQueue (s : State) (e : AskEntry) : (s.setAsk e).digestQueue = s.digestQueue := rfl
@[simp] theorem State.setAsk_index (s : State) (e : AskEntry) : (s.setAsk e).index = s.index := rfl
@[simp] theorem State.setAsk_bus (s : State) (e : AskEntry) : (s.setAsk e).bus = s.bus := rfl
@[simp] theorem State.setAsk_containers (s : State) (e : AskEntry) : (s.setAsk e).containers = s.containers := rfl
@[simp] theorem State.setAsk_sealUnit (s : State) (e : AskEntry) : (s.setAsk e).sealUnit = s.sealUnit := rfl
@[simp] theorem State.setAsk_sealLineLow (s : State) (e : AskEntry) : (s.setAsk e).sealLineLow = s.sealLineLow := rfl
@[simp] theorem State.setAsk_store (s : State) (e : AskEntry) : (s.setAsk e).store = s.store := rfl
@[simp] theorem State.setAsk_walker (s : State) (e : AskEntry) : (s.setAsk e).walker = s.walker := rfl
@[simp] theorem State.setAsk_management (s : State) (e : AskEntry) : (s.setAsk e).management = s.management := rfl
@[simp] theorem State.setAsk_staging (s : State) (e : AskEntry) : (s.setAsk e).staging = s.staging := rfl
@[simp] theorem State.setAsk_now (s : State) (e : AskEntry) : (s.setAsk e).now = s.now := rfl
@[simp] theorem State.setAsk_choices (s : State) (e : AskEntry) : (s.setAsk e).choices = s.choices := rfl
@[simp] theorem State.setAsk_sent (s : State) (e : AskEntry) : (s.setAsk e).sent = s.sent := rfl
@[simp] theorem State.setAsk_pending (s : State) (e : AskEntry) : (s.setAsk e).pending = s.pending := rfl

/-! ### setPhase -/

@[simp] theorem State.setPhase_station (s : State) (w : Waiter) (p : Phase) : (s.setPhase w p).station = s.station := rfl
@[simp] theorem State.setPhase_hold (s : State) (w : Waiter) (p : Phase) : (s.setPhase w p).hold = s.hold := rfl
@[simp] theorem State.setPhase_quiet (s : State) (w : Waiter) (p : Phase) : (s.setPhase w p).quiet = s.quiet := rfl
@[simp] theorem State.setPhase_settings (s : State) (w : Waiter) (p : Phase) : (s.setPhase w p).settings = s.settings := rfl
@[simp] theorem State.setPhase_clearPosition (s : State) (w : Waiter) (p : Phase) : (s.setPhase w p).clearPosition = s.clearPosition := rfl
@[simp] theorem State.setPhase_engines (s : State) (w : Waiter) (p : Phase) : (s.setPhase w p).engines = s.engines := rfl
@[simp] theorem State.setPhase_lastAssigned (s : State) (w : Waiter) (p : Phase) : (s.setPhase w p).lastAssigned = s.lastAssigned := rfl
@[simp] theorem State.setPhase_digestQueue (s : State) (w : Waiter) (p : Phase) : (s.setPhase w p).digestQueue = s.digestQueue := rfl
@[simp] theorem State.setPhase_index (s : State) (w : Waiter) (p : Phase) : (s.setPhase w p).index = s.index := rfl
@[simp] theorem State.setPhase_resolution (s : State) (w : Waiter) (p : Phase) : (s.setPhase w p).resolution = s.resolution := rfl
@[simp] theorem State.setPhase_bus (s : State) (w : Waiter) (p : Phase) : (s.setPhase w p).bus = s.bus := rfl
@[simp] theorem State.setPhase_containers (s : State) (w : Waiter) (p : Phase) : (s.setPhase w p).containers = s.containers := rfl
@[simp] theorem State.setPhase_sealUnit (s : State) (w : Waiter) (p : Phase) : (s.setPhase w p).sealUnit = s.sealUnit := rfl
@[simp] theorem State.setPhase_sealLineLow (s : State) (w : Waiter) (p : Phase) : (s.setPhase w p).sealLineLow = s.sealLineLow := rfl
@[simp] theorem State.setPhase_store (s : State) (w : Waiter) (p : Phase) : (s.setPhase w p).store = s.store := rfl
@[simp] theorem State.setPhase_walker (s : State) (w : Waiter) (p : Phase) : (s.setPhase w p).walker = s.walker := rfl
@[simp] theorem State.setPhase_management (s : State) (w : Waiter) (p : Phase) : (s.setPhase w p).management = s.management := rfl
@[simp] theorem State.setPhase_staging (s : State) (w : Waiter) (p : Phase) : (s.setPhase w p).staging = s.staging := rfl
@[simp] theorem State.setPhase_now (s : State) (w : Waiter) (p : Phase) : (s.setPhase w p).now = s.now := rfl
@[simp] theorem State.setPhase_choices (s : State) (w : Waiter) (p : Phase) : (s.setPhase w p).choices = s.choices := rfl
@[simp] theorem State.setPhase_sent (s : State) (w : Waiter) (p : Phase) : (s.setPhase w p).sent = s.sent := rfl
@[simp] theorem State.setPhase_pending (s : State) (w : Waiter) (p : Phase) : (s.setPhase w p).pending = s.pending := rfl

/-! ### resolveChunk -/

@[simp] theorem State.resolveChunk_station (s : State) (w : Waiter) (d : Disposition) (l : Option Location) (holder : Option Bool) : (s.resolveChunk w d l holder).station = s.station := rfl
@[simp] theorem State.resolveChunk_hold (s : State) (w : Waiter) (d : Disposition) (l : Option Location) (holder : Option Bool) : (s.resolveChunk w d l holder).hold = s.hold := rfl
@[simp] theorem State.resolveChunk_quiet (s : State) (w : Waiter) (d : Disposition) (l : Option Location) (holder : Option Bool) : (s.resolveChunk w d l holder).quiet = s.quiet := rfl
@[simp] theorem State.resolveChunk_settings (s : State) (w : Waiter) (d : Disposition) (l : Option Location) (holder : Option Bool) : (s.resolveChunk w d l holder).settings = s.settings := rfl
@[simp] theorem State.resolveChunk_clearPosition (s : State) (w : Waiter) (d : Disposition) (l : Option Location) (holder : Option Bool) : (s.resolveChunk w d l holder).clearPosition = s.clearPosition := rfl
@[simp] theorem State.resolveChunk_engines (s : State) (w : Waiter) (d : Disposition) (l : Option Location) (holder : Option Bool) : (s.resolveChunk w d l holder).engines = s.engines := rfl
@[simp] theorem State.resolveChunk_lastAssigned (s : State) (w : Waiter) (d : Disposition) (l : Option Location) (holder : Option Bool) : (s.resolveChunk w d l holder).lastAssigned = s.lastAssigned := rfl
@[simp] theorem State.resolveChunk_digestQueue (s : State) (w : Waiter) (d : Disposition) (l : Option Location) (holder : Option Bool) : (s.resolveChunk w d l holder).digestQueue = s.digestQueue := rfl
@[simp] theorem State.resolveChunk_index (s : State) (w : Waiter) (d : Disposition) (l : Option Location) (holder : Option Bool) : (s.resolveChunk w d l holder).index = s.index := rfl
@[simp] theorem State.resolveChunk_resolution (s : State) (w : Waiter) (d : Disposition) (l : Option Location) (holder : Option Bool) : (s.resolveChunk w d l holder).resolution = s.resolution := rfl
@[simp] theorem State.resolveChunk_bus (s : State) (w : Waiter) (d : Disposition) (l : Option Location) (holder : Option Bool) : (s.resolveChunk w d l holder).bus = s.bus := rfl
@[simp] theorem State.resolveChunk_containers (s : State) (w : Waiter) (d : Disposition) (l : Option Location) (holder : Option Bool) : (s.resolveChunk w d l holder).containers = s.containers := rfl
@[simp] theorem State.resolveChunk_sealUnit (s : State) (w : Waiter) (d : Disposition) (l : Option Location) (holder : Option Bool) : (s.resolveChunk w d l holder).sealUnit = s.sealUnit := rfl
@[simp] theorem State.resolveChunk_sealLineLow (s : State) (w : Waiter) (d : Disposition) (l : Option Location) (holder : Option Bool) : (s.resolveChunk w d l holder).sealLineLow = s.sealLineLow := rfl
@[simp] theorem State.resolveChunk_store (s : State) (w : Waiter) (d : Disposition) (l : Option Location) (holder : Option Bool) : (s.resolveChunk w d l holder).store = s.store := rfl
@[simp] theorem State.resolveChunk_walker (s : State) (w : Waiter) (d : Disposition) (l : Option Location) (holder : Option Bool) : (s.resolveChunk w d l holder).walker = s.walker := rfl
@[simp] theorem State.resolveChunk_management (s : State) (w : Waiter) (d : Disposition) (l : Option Location) (holder : Option Bool) : (s.resolveChunk w d l holder).management = s.management := rfl
@[simp] theorem State.resolveChunk_staging (s : State) (w : Waiter) (d : Disposition) (l : Option Location) (holder : Option Bool) : (s.resolveChunk w d l holder).staging = s.staging := rfl
@[simp] theorem State.resolveChunk_now (s : State) (w : Waiter) (d : Disposition) (l : Option Location) (holder : Option Bool) : (s.resolveChunk w d l holder).now = s.now := rfl
@[simp] theorem State.resolveChunk_choices (s : State) (w : Waiter) (d : Disposition) (l : Option Location) (holder : Option Bool) : (s.resolveChunk w d l holder).choices = s.choices := rfl
@[simp] theorem State.resolveChunk_sent (s : State) (w : Waiter) (d : Disposition) (l : Option Location) (holder : Option Bool) : (s.resolveChunk w d l holder).sent = s.sent := rfl
@[simp] theorem State.resolveChunk_pending (s : State) (w : Waiter) (d : Disposition) (l : Option Location) (holder : Option Bool) : (s.resolveChunk w d l holder).pending = s.pending := rfl

/-! ### joinAsk -/

@[simp] theorem State.joinAsk_station (s : State) (e : AskEntry) (w : Waiter) : (s.joinAsk e w).station = s.station := rfl
@[simp] theorem State.joinAsk_hold (s : State) (e : AskEntry) (w : Waiter) : (s.joinAsk e w).hold = s.hold := rfl
@[simp] theorem State.joinAsk_quiet (s : State) (e : AskEntry) (w : Waiter) : (s.joinAsk e w).quiet = s.quiet := rfl
@[simp] theorem State.joinAsk_settings (s : State) (e : AskEntry) (w : Waiter) : (s.joinAsk e w).settings = s.settings := rfl
@[simp] theorem State.joinAsk_clearPosition (s : State) (e : AskEntry) (w : Waiter) : (s.joinAsk e w).clearPosition = s.clearPosition := rfl
@[simp] theorem State.joinAsk_engines (s : State) (e : AskEntry) (w : Waiter) : (s.joinAsk e w).engines = s.engines := rfl
@[simp] theorem State.joinAsk_lastAssigned (s : State) (e : AskEntry) (w : Waiter) : (s.joinAsk e w).lastAssigned = s.lastAssigned := rfl
@[simp] theorem State.joinAsk_digestQueue (s : State) (e : AskEntry) (w : Waiter) : (s.joinAsk e w).digestQueue = s.digestQueue := rfl
@[simp] theorem State.joinAsk_index (s : State) (e : AskEntry) (w : Waiter) : (s.joinAsk e w).index = s.index := rfl
@[simp] theorem State.joinAsk_bus (s : State) (e : AskEntry) (w : Waiter) : (s.joinAsk e w).bus = s.bus := rfl
@[simp] theorem State.joinAsk_containers (s : State) (e : AskEntry) (w : Waiter) : (s.joinAsk e w).containers = s.containers := rfl
@[simp] theorem State.joinAsk_sealUnit (s : State) (e : AskEntry) (w : Waiter) : (s.joinAsk e w).sealUnit = s.sealUnit := rfl
@[simp] theorem State.joinAsk_sealLineLow (s : State) (e : AskEntry) (w : Waiter) : (s.joinAsk e w).sealLineLow = s.sealLineLow := rfl
@[simp] theorem State.joinAsk_store (s : State) (e : AskEntry) (w : Waiter) : (s.joinAsk e w).store = s.store := rfl
@[simp] theorem State.joinAsk_walker (s : State) (e : AskEntry) (w : Waiter) : (s.joinAsk e w).walker = s.walker := rfl
@[simp] theorem State.joinAsk_management (s : State) (e : AskEntry) (w : Waiter) : (s.joinAsk e w).management = s.management := rfl
@[simp] theorem State.joinAsk_staging (s : State) (e : AskEntry) (w : Waiter) : (s.joinAsk e w).staging = s.staging := rfl
@[simp] theorem State.joinAsk_now (s : State) (e : AskEntry) (w : Waiter) : (s.joinAsk e w).now = s.now := rfl
@[simp] theorem State.joinAsk_choices (s : State) (e : AskEntry) (w : Waiter) : (s.joinAsk e w).choices = s.choices := rfl
@[simp] theorem State.joinAsk_sent (s : State) (e : AskEntry) (w : Waiter) : (s.joinAsk e w).sent = s.sent := rfl
@[simp] theorem State.joinAsk_pending (s : State) (e : AskEntry) (w : Waiter) : (s.joinAsk e w).pending = s.pending := rfl

/-! ### makeAsk -/

@[simp] theorem State.makeAsk_station (s : State) (f : Fingerprint) (w : Waiter) : (s.makeAsk f w).station = s.station := rfl
@[simp] theorem State.makeAsk_hold (s : State) (f : Fingerprint) (w : Waiter) : (s.makeAsk f w).hold = s.hold := rfl
@[simp] theorem State.makeAsk_quiet (s : State) (f : Fingerprint) (w : Waiter) : (s.makeAsk f w).quiet = s.quiet := rfl
@[simp] theorem State.makeAsk_settings (s : State) (f : Fingerprint) (w : Waiter) : (s.makeAsk f w).settings = s.settings := rfl
@[simp] theorem State.makeAsk_clearPosition (s : State) (f : Fingerprint) (w : Waiter) : (s.makeAsk f w).clearPosition = s.clearPosition := rfl
@[simp] theorem State.makeAsk_engines (s : State) (f : Fingerprint) (w : Waiter) : (s.makeAsk f w).engines = s.engines := rfl
@[simp] theorem State.makeAsk_lastAssigned (s : State) (f : Fingerprint) (w : Waiter) : (s.makeAsk f w).lastAssigned = s.lastAssigned := rfl
@[simp] theorem State.makeAsk_digestQueue (s : State) (f : Fingerprint) (w : Waiter) : (s.makeAsk f w).digestQueue = s.digestQueue := rfl
@[simp] theorem State.makeAsk_index (s : State) (f : Fingerprint) (w : Waiter) : (s.makeAsk f w).index = s.index := rfl
@[simp] theorem State.makeAsk_containers (s : State) (f : Fingerprint) (w : Waiter) : (s.makeAsk f w).containers = s.containers := rfl
@[simp] theorem State.makeAsk_sealUnit (s : State) (f : Fingerprint) (w : Waiter) : (s.makeAsk f w).sealUnit = s.sealUnit := rfl
@[simp] theorem State.makeAsk_sealLineLow (s : State) (f : Fingerprint) (w : Waiter) : (s.makeAsk f w).sealLineLow = s.sealLineLow := rfl
@[simp] theorem State.makeAsk_store (s : State) (f : Fingerprint) (w : Waiter) : (s.makeAsk f w).store = s.store := rfl
@[simp] theorem State.makeAsk_walker (s : State) (f : Fingerprint) (w : Waiter) : (s.makeAsk f w).walker = s.walker := rfl
@[simp] theorem State.makeAsk_management (s : State) (f : Fingerprint) (w : Waiter) : (s.makeAsk f w).management = s.management := rfl
@[simp] theorem State.makeAsk_staging (s : State) (f : Fingerprint) (w : Waiter) : (s.makeAsk f w).staging = s.staging := rfl
@[simp] theorem State.makeAsk_now (s : State) (f : Fingerprint) (w : Waiter) : (s.makeAsk f w).now = s.now := rfl
@[simp] theorem State.makeAsk_choices (s : State) (f : Fingerprint) (w : Waiter) : (s.makeAsk f w).choices = s.choices := rfl
@[simp] theorem State.makeAsk_sent (s : State) (f : Fingerprint) (w : Waiter) : (s.makeAsk f w).sent = s.sent := rfl
@[simp] theorem State.makeAsk_pending (s : State) (f : Fingerprint) (w : Waiter) : (s.makeAsk f w).pending = s.pending := rfl

/-! ### removeWaiters -/

@[simp] theorem State.removeWaiters_station (s : State) (i : Fin 16) : (s.removeWaiters i).station = s.station := rfl
@[simp] theorem State.removeWaiters_hold (s : State) (i : Fin 16) : (s.removeWaiters i).hold = s.hold := rfl
@[simp] theorem State.removeWaiters_quiet (s : State) (i : Fin 16) : (s.removeWaiters i).quiet = s.quiet := rfl
@[simp] theorem State.removeWaiters_settings (s : State) (i : Fin 16) : (s.removeWaiters i).settings = s.settings := rfl
@[simp] theorem State.removeWaiters_clearPosition (s : State) (i : Fin 16) : (s.removeWaiters i).clearPosition = s.clearPosition := rfl
@[simp] theorem State.removeWaiters_streams (s : State) (i : Fin 16) : (s.removeWaiters i).streams = s.streams := rfl
@[simp] theorem State.removeWaiters_engines (s : State) (i : Fin 16) : (s.removeWaiters i).engines = s.engines := rfl
@[simp] theorem State.removeWaiters_lastAssigned (s : State) (i : Fin 16) : (s.removeWaiters i).lastAssigned = s.lastAssigned := rfl
@[simp] theorem State.removeWaiters_digestQueue (s : State) (i : Fin 16) : (s.removeWaiters i).digestQueue = s.digestQueue := rfl
@[simp] theorem State.removeWaiters_index (s : State) (i : Fin 16) : (s.removeWaiters i).index = s.index := rfl
@[simp] theorem State.removeWaiters_bus (s : State) (i : Fin 16) : (s.removeWaiters i).bus = s.bus := rfl
@[simp] theorem State.removeWaiters_containers (s : State) (i : Fin 16) : (s.removeWaiters i).containers = s.containers := rfl
@[simp] theorem State.removeWaiters_sealUnit (s : State) (i : Fin 16) : (s.removeWaiters i).sealUnit = s.sealUnit := rfl
@[simp] theorem State.removeWaiters_sealLineLow (s : State) (i : Fin 16) : (s.removeWaiters i).sealLineLow = s.sealLineLow := rfl
@[simp] theorem State.removeWaiters_store (s : State) (i : Fin 16) : (s.removeWaiters i).store = s.store := rfl
@[simp] theorem State.removeWaiters_walker (s : State) (i : Fin 16) : (s.removeWaiters i).walker = s.walker := rfl
@[simp] theorem State.removeWaiters_management (s : State) (i : Fin 16) : (s.removeWaiters i).management = s.management := rfl
@[simp] theorem State.removeWaiters_staging (s : State) (i : Fin 16) : (s.removeWaiters i).staging = s.staging := rfl
@[simp] theorem State.removeWaiters_now (s : State) (i : Fin 16) : (s.removeWaiters i).now = s.now := rfl
@[simp] theorem State.removeWaiters_choices (s : State) (i : Fin 16) : (s.removeWaiters i).choices = s.choices := rfl
@[simp] theorem State.removeWaiters_sent (s : State) (i : Fin 16) : (s.removeWaiters i).sent = s.sent := rfl
@[simp] theorem State.removeWaiters_pending (s : State) (i : Fin 16) : (s.removeWaiters i).pending = s.pending := rfl

/-! ### stopEngines -/

@[simp] theorem State.stopEngines_station (s : State) (i : Fin 16) : (s.stopEngines i).station = s.station := rfl
@[simp] theorem State.stopEngines_hold (s : State) (i : Fin 16) : (s.stopEngines i).hold = s.hold := rfl
@[simp] theorem State.stopEngines_quiet (s : State) (i : Fin 16) : (s.stopEngines i).quiet = s.quiet := rfl
@[simp] theorem State.stopEngines_settings (s : State) (i : Fin 16) : (s.stopEngines i).settings = s.settings := rfl
@[simp] theorem State.stopEngines_clearPosition (s : State) (i : Fin 16) : (s.stopEngines i).clearPosition = s.clearPosition := rfl
@[simp] theorem State.stopEngines_streams (s : State) (i : Fin 16) : (s.stopEngines i).streams = s.streams := rfl
@[simp] theorem State.stopEngines_lastAssigned (s : State) (i : Fin 16) : (s.stopEngines i).lastAssigned = s.lastAssigned := rfl
@[simp] theorem State.stopEngines_digestQueue (s : State) (i : Fin 16) : (s.stopEngines i).digestQueue = s.digestQueue := rfl
@[simp] theorem State.stopEngines_index (s : State) (i : Fin 16) : (s.stopEngines i).index = s.index := rfl
@[simp] theorem State.stopEngines_resolution (s : State) (i : Fin 16) : (s.stopEngines i).resolution = s.resolution := rfl
@[simp] theorem State.stopEngines_bus (s : State) (i : Fin 16) : (s.stopEngines i).bus = s.bus := rfl
@[simp] theorem State.stopEngines_containers (s : State) (i : Fin 16) : (s.stopEngines i).containers = s.containers := rfl
@[simp] theorem State.stopEngines_sealUnit (s : State) (i : Fin 16) : (s.stopEngines i).sealUnit = s.sealUnit := rfl
@[simp] theorem State.stopEngines_sealLineLow (s : State) (i : Fin 16) : (s.stopEngines i).sealLineLow = s.sealLineLow := rfl
@[simp] theorem State.stopEngines_store (s : State) (i : Fin 16) : (s.stopEngines i).store = s.store := rfl
@[simp] theorem State.stopEngines_walker (s : State) (i : Fin 16) : (s.stopEngines i).walker = s.walker := rfl
@[simp] theorem State.stopEngines_management (s : State) (i : Fin 16) : (s.stopEngines i).management = s.management := rfl
@[simp] theorem State.stopEngines_staging (s : State) (i : Fin 16) : (s.stopEngines i).staging = s.staging := rfl
@[simp] theorem State.stopEngines_now (s : State) (i : Fin 16) : (s.stopEngines i).now = s.now := rfl
@[simp] theorem State.stopEngines_choices (s : State) (i : Fin 16) : (s.stopEngines i).choices = s.choices := rfl
@[simp] theorem State.stopEngines_sent (s : State) (i : Fin 16) : (s.stopEngines i).sent = s.sent := rfl
@[simp] theorem State.stopEngines_pending (s : State) (i : Fin 16) : (s.stopEngines i).pending = s.pending := rfl

/-! ### endChunk -/

@[simp] theorem State.endChunk_station (s : State) (i : Fin 16) (p : Fin 32) (d : Digest) : (s.endChunk i p d).station = s.station := rfl
@[simp] theorem State.endChunk_hold (s : State) (i : Fin 16) (p : Fin 32) (d : Digest) : (s.endChunk i p d).hold = s.hold := rfl
@[simp] theorem State.endChunk_quiet (s : State) (i : Fin 16) (p : Fin 32) (d : Digest) : (s.endChunk i p d).quiet = s.quiet := rfl
@[simp] theorem State.endChunk_settings (s : State) (i : Fin 16) (p : Fin 32) (d : Digest) : (s.endChunk i p d).settings = s.settings := rfl
@[simp] theorem State.endChunk_clearPosition (s : State) (i : Fin 16) (p : Fin 32) (d : Digest) : (s.endChunk i p d).clearPosition = s.clearPosition := rfl
@[simp] theorem State.endChunk_engines (s : State) (i : Fin 16) (p : Fin 32) (d : Digest) : (s.endChunk i p d).engines = s.engines := rfl
@[simp] theorem State.endChunk_lastAssigned (s : State) (i : Fin 16) (p : Fin 32) (d : Digest) : (s.endChunk i p d).lastAssigned = s.lastAssigned := rfl
@[simp] theorem State.endChunk_index (s : State) (i : Fin 16) (p : Fin 32) (d : Digest) : (s.endChunk i p d).index = s.index := rfl
@[simp] theorem State.endChunk_resolution (s : State) (i : Fin 16) (p : Fin 32) (d : Digest) : (s.endChunk i p d).resolution = s.resolution := rfl
@[simp] theorem State.endChunk_bus (s : State) (i : Fin 16) (p : Fin 32) (d : Digest) : (s.endChunk i p d).bus = s.bus := rfl
@[simp] theorem State.endChunk_containers (s : State) (i : Fin 16) (p : Fin 32) (d : Digest) : (s.endChunk i p d).containers = s.containers := rfl
@[simp] theorem State.endChunk_sealUnit (s : State) (i : Fin 16) (p : Fin 32) (d : Digest) : (s.endChunk i p d).sealUnit = s.sealUnit := rfl
@[simp] theorem State.endChunk_sealLineLow (s : State) (i : Fin 16) (p : Fin 32) (d : Digest) : (s.endChunk i p d).sealLineLow = s.sealLineLow := rfl
@[simp] theorem State.endChunk_store (s : State) (i : Fin 16) (p : Fin 32) (d : Digest) : (s.endChunk i p d).store = s.store := rfl
@[simp] theorem State.endChunk_walker (s : State) (i : Fin 16) (p : Fin 32) (d : Digest) : (s.endChunk i p d).walker = s.walker := rfl
@[simp] theorem State.endChunk_management (s : State) (i : Fin 16) (p : Fin 32) (d : Digest) : (s.endChunk i p d).management = s.management := rfl
@[simp] theorem State.endChunk_staging (s : State) (i : Fin 16) (p : Fin 32) (d : Digest) : (s.endChunk i p d).staging = s.staging := rfl
@[simp] theorem State.endChunk_now (s : State) (i : Fin 16) (p : Fin 32) (d : Digest) : (s.endChunk i p d).now = s.now := rfl
@[simp] theorem State.endChunk_choices (s : State) (i : Fin 16) (p : Fin 32) (d : Digest) : (s.endChunk i p d).choices = s.choices := rfl
@[simp] theorem State.endChunk_sent (s : State) (i : Fin 16) (p : Fin 32) (d : Digest) : (s.endChunk i p d).sent = s.sent := rfl
@[simp] theorem State.endChunk_pending (s : State) (i : Fin 16) (p : Fin 32) (d : Digest) : (s.endChunk i p d).pending = s.pending := rfl

/-! ### enrol -/

@[simp] theorem State.enrol_station (s : State) (r : Half) (slot : Nat) : (s.enrol r slot).station = s.station := rfl
@[simp] theorem State.enrol_hold (s : State) (r : Half) (slot : Nat) : (s.enrol r slot).hold = s.hold := rfl
@[simp] theorem State.enrol_quiet (s : State) (r : Half) (slot : Nat) : (s.enrol r slot).quiet = s.quiet := rfl
@[simp] theorem State.enrol_settings (s : State) (r : Half) (slot : Nat) : (s.enrol r slot).settings = s.settings := rfl
@[simp] theorem State.enrol_clearPosition (s : State) (r : Half) (slot : Nat) : (s.enrol r slot).clearPosition = s.clearPosition := rfl
@[simp] theorem State.enrol_streams (s : State) (r : Half) (slot : Nat) : (s.enrol r slot).streams = s.streams := rfl
@[simp] theorem State.enrol_engines (s : State) (r : Half) (slot : Nat) : (s.enrol r slot).engines = s.engines := rfl
@[simp] theorem State.enrol_lastAssigned (s : State) (r : Half) (slot : Nat) : (s.enrol r slot).lastAssigned = s.lastAssigned := rfl
@[simp] theorem State.enrol_digestQueue (s : State) (r : Half) (slot : Nat) : (s.enrol r slot).digestQueue = s.digestQueue := rfl
@[simp] theorem State.enrol_index (s : State) (r : Half) (slot : Nat) : (s.enrol r slot).index = s.index := rfl
@[simp] theorem State.enrol_resolution (s : State) (r : Half) (slot : Nat) : (s.enrol r slot).resolution = s.resolution := rfl
@[simp] theorem State.enrol_bus (s : State) (r : Half) (slot : Nat) : (s.enrol r slot).bus = s.bus := rfl
@[simp] theorem State.enrol_sealUnit (s : State) (r : Half) (slot : Nat) : (s.enrol r slot).sealUnit = s.sealUnit := rfl
@[simp] theorem State.enrol_sealLineLow (s : State) (r : Half) (slot : Nat) : (s.enrol r slot).sealLineLow = s.sealLineLow := rfl
@[simp] theorem State.enrol_store (s : State) (r : Half) (slot : Nat) : (s.enrol r slot).store = s.store := rfl
@[simp] theorem State.enrol_walker (s : State) (r : Half) (slot : Nat) : (s.enrol r slot).walker = s.walker := rfl
@[simp] theorem State.enrol_management (s : State) (r : Half) (slot : Nat) : (s.enrol r slot).management = s.management := rfl
@[simp] theorem State.enrol_staging (s : State) (r : Half) (slot : Nat) : (s.enrol r slot).staging = s.staging := rfl
@[simp] theorem State.enrol_now (s : State) (r : Half) (slot : Nat) : (s.enrol r slot).now = s.now := rfl
@[simp] theorem State.enrol_choices (s : State) (r : Half) (slot : Nat) : (s.enrol r slot).choices = s.choices := rfl
@[simp] theorem State.enrol_sent (s : State) (r : Half) (slot : Nat) : (s.enrol r slot).sent = s.sent := rfl
@[simp] theorem State.enrol_pending (s : State) (r : Half) (slot : Nat) : (s.enrol r slot).pending = s.pending := rfl

/-! ### issueBurst -/

@[simp] theorem State.issueBurst_station (s : State) (f : ActiveFlush) : (s.issueBurst f).station = s.station := rfl
@[simp] theorem State.issueBurst_hold (s : State) (f : ActiveFlush) : (s.issueBurst f).hold = s.hold := rfl
@[simp] theorem State.issueBurst_quiet (s : State) (f : ActiveFlush) : (s.issueBurst f).quiet = s.quiet := rfl
@[simp] theorem State.issueBurst_settings (s : State) (f : ActiveFlush) : (s.issueBurst f).settings = s.settings := rfl
@[simp] theorem State.issueBurst_clearPosition (s : State) (f : ActiveFlush) : (s.issueBurst f).clearPosition = s.clearPosition := rfl
@[simp] theorem State.issueBurst_streams (s : State) (f : ActiveFlush) : (s.issueBurst f).streams = s.streams := rfl
@[simp] theorem State.issueBurst_engines (s : State) (f : ActiveFlush) : (s.issueBurst f).engines = s.engines := rfl
@[simp] theorem State.issueBurst_lastAssigned (s : State) (f : ActiveFlush) : (s.issueBurst f).lastAssigned = s.lastAssigned := rfl
@[simp] theorem State.issueBurst_digestQueue (s : State) (f : ActiveFlush) : (s.issueBurst f).digestQueue = s.digestQueue := rfl
@[simp] theorem State.issueBurst_index (s : State) (f : ActiveFlush) : (s.issueBurst f).index = s.index := rfl
@[simp] theorem State.issueBurst_resolution (s : State) (f : ActiveFlush) : (s.issueBurst f).resolution = s.resolution := rfl
@[simp] theorem State.issueBurst_bus (s : State) (f : ActiveFlush) : (s.issueBurst f).bus = s.bus := rfl
@[simp] theorem State.issueBurst_containers (s : State) (f : ActiveFlush) : (s.issueBurst f).containers = s.containers := rfl
@[simp] theorem State.issueBurst_sealUnit (s : State) (f : ActiveFlush) : (s.issueBurst f).sealUnit = s.sealUnit := rfl
@[simp] theorem State.issueBurst_sealLineLow (s : State) (f : ActiveFlush) : (s.issueBurst f).sealLineLow = s.sealLineLow := rfl
@[simp] theorem State.issueBurst_walker (s : State) (f : ActiveFlush) : (s.issueBurst f).walker = s.walker := rfl
@[simp] theorem State.issueBurst_management (s : State) (f : ActiveFlush) : (s.issueBurst f).management = s.management := rfl
@[simp] theorem State.issueBurst_staging (s : State) (f : ActiveFlush) : (s.issueBurst f).staging = s.staging := rfl
@[simp] theorem State.issueBurst_now (s : State) (f : ActiveFlush) : (s.issueBurst f).now = s.now := rfl
@[simp] theorem State.issueBurst_choices (s : State) (f : ActiveFlush) : (s.issueBurst f).choices = s.choices := rfl
@[simp] theorem State.issueBurst_pending (s : State) (f : ActiveFlush) : (s.issueBurst f).pending = s.pending := rfl

/-! ### issueRecipe -/

@[simp] theorem State.issueRecipe_station (s : State) (w : RecipeWrite) (rest : List RecipeWrite) : (s.issueRecipe w rest).station = s.station := rfl
@[simp] theorem State.issueRecipe_hold (s : State) (w : RecipeWrite) (rest : List RecipeWrite) : (s.issueRecipe w rest).hold = s.hold := rfl
@[simp] theorem State.issueRecipe_quiet (s : State) (w : RecipeWrite) (rest : List RecipeWrite) : (s.issueRecipe w rest).quiet = s.quiet := rfl
@[simp] theorem State.issueRecipe_settings (s : State) (w : RecipeWrite) (rest : List RecipeWrite) : (s.issueRecipe w rest).settings = s.settings := rfl
@[simp] theorem State.issueRecipe_clearPosition (s : State) (w : RecipeWrite) (rest : List RecipeWrite) : (s.issueRecipe w rest).clearPosition = s.clearPosition := rfl
@[simp] theorem State.issueRecipe_streams (s : State) (w : RecipeWrite) (rest : List RecipeWrite) : (s.issueRecipe w rest).streams = s.streams := rfl
@[simp] theorem State.issueRecipe_engines (s : State) (w : RecipeWrite) (rest : List RecipeWrite) : (s.issueRecipe w rest).engines = s.engines := rfl
@[simp] theorem State.issueRecipe_lastAssigned (s : State) (w : RecipeWrite) (rest : List RecipeWrite) : (s.issueRecipe w rest).lastAssigned = s.lastAssigned := rfl
@[simp] theorem State.issueRecipe_digestQueue (s : State) (w : RecipeWrite) (rest : List RecipeWrite) : (s.issueRecipe w rest).digestQueue = s.digestQueue := rfl
@[simp] theorem State.issueRecipe_index (s : State) (w : RecipeWrite) (rest : List RecipeWrite) : (s.issueRecipe w rest).index = s.index := rfl
@[simp] theorem State.issueRecipe_resolution (s : State) (w : RecipeWrite) (rest : List RecipeWrite) : (s.issueRecipe w rest).resolution = s.resolution := rfl
@[simp] theorem State.issueRecipe_bus (s : State) (w : RecipeWrite) (rest : List RecipeWrite) : (s.issueRecipe w rest).bus = s.bus := rfl
@[simp] theorem State.issueRecipe_containers (s : State) (w : RecipeWrite) (rest : List RecipeWrite) : (s.issueRecipe w rest).containers = s.containers := rfl
@[simp] theorem State.issueRecipe_sealUnit (s : State) (w : RecipeWrite) (rest : List RecipeWrite) : (s.issueRecipe w rest).sealUnit = s.sealUnit := rfl
@[simp] theorem State.issueRecipe_sealLineLow (s : State) (w : RecipeWrite) (rest : List RecipeWrite) : (s.issueRecipe w rest).sealLineLow = s.sealLineLow := rfl
@[simp] theorem State.issueRecipe_walker (s : State) (w : RecipeWrite) (rest : List RecipeWrite) : (s.issueRecipe w rest).walker = s.walker := rfl
@[simp] theorem State.issueRecipe_management (s : State) (w : RecipeWrite) (rest : List RecipeWrite) : (s.issueRecipe w rest).management = s.management := rfl
@[simp] theorem State.issueRecipe_staging (s : State) (w : RecipeWrite) (rest : List RecipeWrite) : (s.issueRecipe w rest).staging = s.staging := rfl
@[simp] theorem State.issueRecipe_now (s : State) (w : RecipeWrite) (rest : List RecipeWrite) : (s.issueRecipe w rest).now = s.now := rfl
@[simp] theorem State.issueRecipe_choices (s : State) (w : RecipeWrite) (rest : List RecipeWrite) : (s.issueRecipe w rest).choices = s.choices := rfl
@[simp] theorem State.issueRecipe_pending (s : State) (w : RecipeWrite) (rest : List RecipeWrite) : (s.issueRecipe w rest).pending = s.pending := rfl

/-! ## Reads of what an update wrote -/

theorem State.stream_setStream (s : State) (i j : Fin 16) (x : Stream) :
    (s.setStream i x).stream j = if j = i then x else s.stream j := by
  by_cases h : j = i
  · subst h; simp [State.stream, State.setStream]
  · have hv : (i : Nat) ≠ (j : Nat) := fun hc => h (Fin.ext hc.symm)
    simp [State.stream, State.setStream, h, hv, Vector.getElem_set_ne]

@[simp] theorem State.stream_setStream_same (s : State) (i : Fin 16) (x : Stream) : (s.setStream i x).stream i = x := by
  simp [State.stream_setStream]

theorem State.stream_modStream (s : State) (i j : Fin 16) (f : Stream → Stream) :
    (s.modStream i f).stream j = if j = i then f (s.stream i) else s.stream j := s.stream_setStream i j _

@[simp] theorem State.stream_modStream_same (s : State) (i : Fin 16) (f : Stream → Stream) :
    (s.modStream i f).stream i = f (s.stream i) := by simp [State.stream_modStream]

theorem State.engine_setEngine (s : State) (e d : Fin 4) (x : Engine) :
    (s.setEngine e x).engine d = if d = e then x else s.engine d := by
  by_cases h : d = e
  · subst h; simp [State.engine, State.setEngine]
  · have hv : (e : Nat) ≠ (d : Nat) := fun hc => h (Fin.ext hc.symm)
    simp [State.engine, State.setEngine, h, hv, Vector.getElem_set_ne]

theorem State.container_setContainer (s : State) (slot k : Nat) (c : Container) :
    (s.setContainer slot c).container k = if k = slot then c else s.container k := Sparse.find_put _ _ _ _ _

@[simp] theorem State.container_setContainer_same (s : State) (slot : Nat) (c : Container) :
    (s.setContainer slot c).container slot = c := by simp [State.container_setContainer]

@[simp] theorem State.setContainer_freeSlots (s : State) (slot : Nat) (c : Container) :
    (s.setContainer slot c).containers.freeSlots = s.containers.freeSlots := rfl

@[simp] theorem State.setContainer_cursor (s : State) (slot : Nat) (c : Container) :
    (s.setContainer slot c).containers.cursor = s.containers.cursor := rfl

@[simp] theorem State.setContainer_openWait (s : State) (slot : Nat) (c : Container) :
    (s.setContainer slot c).containers.openWait = s.containers.openWait := rfl

theorem State.bucket_setBucket (s : State) (b k : Nat) (entries : List IndexEntry) :
    (s.setBucket b entries).bucket k = if k = b then entries else s.bucket k := Sparse.find_put _ _ _ _ _

@[simp] theorem State.setBucket_queue (s : State) (b : Nat) (entries : List IndexEntry) :
    (s.setBucket b entries).index.queue = s.index.queue := rfl

@[simp] theorem State.setBucket_service (s : State) (b : Nat) (entries : List IndexEntry) :
    (s.setBucket b entries).index.service = s.index.service := rfl

@[simp] theorem State.send_sent (s : State) (o : Output) : (s.send o).sent = s.sent ++ [o] := rfl

@[simp] theorem State.clockTo_now (s : State) (t : Nat) : (s.clockTo t).now = max s.now t := rfl

@[simp] theorem State.latch_flags (s : State) (f : EventFlag) :
    (s.latch f).management.flags = s.management.flags ||| f.mask := rfl

@[simp] theorem State.latch_reports (s : State) (f : EventFlag) : (s.latch f).management.reports = s.management.reports := rfl

@[simp] theorem State.latch_held (s : State) (f : EventFlag) : (s.latch f).management.held = s.management.held := rfl

@[simp] theorem State.latch_fresh (s : State) (f : EventFlag) : (s.latch f).management.fresh = s.management.fresh := rfl

@[simp] theorem State.refresh_reports (s : State) : s.refresh.management.reports = s.management.reports := rfl

@[simp] theorem State.refresh_held (s : State) : s.refresh.management.held = s.management.held := rfl

@[simp] theorem State.refresh_fresh (s : State) : s.refresh.management.fresh = s.management.fresh := rfl

theorem State.refresh_flags (s : State) :
    s.refresh.management.flags = (s.management.flags &&& 0x1F#8) ||| s.levelFlags := rfl

theorem State.refresh_attn (s : State) :
    s.refresh.management.attn = decide ((s.refresh.management.flags &&& s.settings.enables) ≠ 0#8) := by
  simp [State.refresh]

theorem State.refresh_quiet (s : State) : s.refresh.quiet = s.quietHolds := rfl

/-- The conditions of the flags and of QUIET read nothing that the refresh writes. -/
@[simp] theorem State.levelFlags_refresh (s : State) : s.refresh.levelFlags = s.levelFlags := rfl

@[simp] theorem State.quietHolds_refresh (s : State) : s.refresh.quietHolds = s.quietHolds := rfl

/-! ### The peer bus -/

@[simp] theorem jamBits_length : jamBits.length = 32 := rfl

/-- An EMPTY or WAITING transmitter has driven nothing. -/
theorem PeerBus.drivenBits_silent (b : PeerBus) (station : Byte) (moment : Nat)
    (h : b.transmitter = .empty ∨ ∃ retry, b.transmitter = .waiting retry) : b.drivenBits station moment = [] := by
  obtain h | ⟨retry, h⟩ := h <;> simp [PeerBus.drivenBits, h]

/-- A SENDING transmitter has driven the head frame's bits up to the one it has reached. -/
theorem PeerBus.drivenBits_sending (b : PeerBus) (station : Byte) (moment since : Nat) (t : TxFrame) (rest : List TxFrame)
    (h : b.transmitter = .sending since) (hq : b.txQueue = t :: rest) :
    b.drivenBits station moment = (t.frame.bits station).take (moment - since) := by
  simp [PeerBus.drivenBits, h, hq]

/-- A JAMMING transmitter has driven the jam's bits up to the one it has reached. -/
theorem PeerBus.drivenBits_jamming (b : PeerBus) (station : Byte) (moment since : Nat)
    (h : b.transmitter = .jamming since) : b.drivenBits station moment = jamBits.take (moment - since) := by
  simp [PeerBus.drivenBits, h]

end Sys2Proof.Machine
end

