-- ==== Sys2Proof/Laws/Changes.lean ====
section
/-! SUPPORT. What each shared operation can change: one equation that names the fields it touches, and a lemma for each
field it leaves as it was. -/

namespace Sys2Proof.Machine

/-- A fold of steps that each keep a reading keeps it. -/
theorem foldl_keep {α β : Type} (g : State → β) (f : State → α → State) (h : ∀ s a, g (f s a) = g s) (s : State)
    (l : List α) : g (l.foldl f s) = g s := by
  induction l generalizing s with
  | nil => rfl
  | cons a rest ih => rw [List.foldl_cons, ih, h]

theorem State.leaveReporting_changes (s : State) :
    (s.leaveReporting) = { s with
      walker := (s.leaveReporting).walker } := by
  generalize h : (s.leaveReporting) = t
  simp only [State.leaveReporting] at h
  repeat' split at h
  all_goals subst h; apply State.ext <;> simp

@[simp] theorem State.leaveReporting_station (s : State) : (s.leaveReporting).station = s.station := by
  rw [State.leaveReporting_changes]
@[simp] theorem State.leaveReporting_hold (s : State) : (s.leaveReporting).hold = s.hold := by
  rw [State.leaveReporting_changes]
@[simp] theorem State.leaveReporting_quiet (s : State) : (s.leaveReporting).quiet = s.quiet := by
  rw [State.leaveReporting_changes]
@[simp] theorem State.leaveReporting_settings (s : State) : (s.leaveReporting).settings = s.settings := by
  rw [State.leaveReporting_changes]
@[simp] theorem State.leaveReporting_clearPosition (s : State) : (s.leaveReporting).clearPosition = s.clearPosition := by
  rw [State.leaveReporting_changes]
@[simp] theorem State.leaveReporting_streams (s : State) : (s.leaveReporting).streams = s.streams := by
  rw [State.leaveReporting_changes]
@[simp] theorem State.leaveReporting_engines (s : State) : (s.leaveReporting).engines = s.engines := by
  rw [State.leaveReporting_changes]
@[simp] theorem State.leaveReporting_lastAssigned (s : State) : (s.leaveReporting).lastAssigned = s.lastAssigned := by
  rw [State.leaveReporting_changes]
@[simp] theorem State.leaveReporting_digestQueue (s : State) : (s.leaveReporting).digestQueue = s.digestQueue := by
  rw [State.leaveReporting_changes]
@[simp] theorem State.leaveReporting_index (s : State) : (s.leaveReporting).index = s.index := by
  rw [State.leaveReporting_changes]
@[simp] theorem State.leaveReporting_resolution (s : State) : (s.leaveReporting).resolution = s.resolution := by
  rw [State.leaveReporting_changes]
@[simp] theorem State.leaveReporting_bus (s : State) : (s.leaveReporting).bus = s.bus := by
  rw [State.leaveReporting_changes]
@[simp] theorem State.leaveReporting_containers (s : State) : (s.leaveReporting).containers = s.containers := by
  rw [State.leaveReporting_changes]
@[simp] theorem State.leaveReporting_sealUnit (s : State) : (s.leaveReporting).sealUnit = s.sealUnit := by
  rw [State.leaveReporting_changes]
@[simp] theorem State.leaveReporting_sealLineLow (s : State) : (s.leaveReporting).sealLineLow = s.sealLineLow := by
  rw [State.leaveReporting_changes]
@[simp] theorem State.leaveReporting_store (s : State) : (s.leaveReporting).store = s.store := by
  rw [State.leaveReporting_changes]
@[simp] theorem State.leaveReporting_management (s : State) : (s.leaveReporting).management = s.management := by
  rw [State.leaveReporting_changes]
@[simp] theorem State.leaveReporting_staging (s : State) : (s.leaveReporting).staging = s.staging := by
  rw [State.leaveReporting_changes]
@[simp] theorem State.leaveReporting_now (s : State) : (s.leaveReporting).now = s.now := by
  rw [State.leaveReporting_changes]
@[simp] theorem State.leaveReporting_choices (s : State) : (s.leaveReporting).choices = s.choices := by
  rw [State.leaveReporting_changes]
@[simp] theorem State.leaveReporting_sent (s : State) : (s.leaveReporting).sent = s.sent := by
  rw [State.leaveReporting_changes]
@[simp] theorem State.leaveReporting_pending (s : State) : (s.leaveReporting).pending = s.pending := by
  rw [State.leaveReporting_changes]

theorem State.reportEntered_changes (s : State) (r : Report) :
    (s.reportEntered r) = { s with
      streams := (s.reportEntered r).streams, walker := (s.reportEntered r).walker } := by
  cases r <;> apply State.ext <;> simp [State.reportEntered]

@[simp] theorem State.reportEntered_station (s : State) (r : Report) : (s.reportEntered r).station = s.station := by
  rw [State.reportEntered_changes]
@[simp] theorem State.reportEntered_hold (s : State) (r : Report) : (s.reportEntered r).hold = s.hold := by
  rw [State.reportEntered_changes]
@[simp] theorem State.reportEntered_quiet (s : State) (r : Report) : (s.reportEntered r).quiet = s.quiet := by
  rw [State.reportEntered_changes]
@[simp] theorem State.reportEntered_settings (s : State) (r : Report) : (s.reportEntered r).settings = s.settings := by
  rw [State.reportEntered_changes]
@[simp] theorem State.reportEntered_clearPosition (s : State) (r : Report) : (s.reportEntered r).clearPosition = s.clearPosition := by
  rw [State.reportEntered_changes]
@[simp] theorem State.reportEntered_engines (s : State) (r : Report) : (s.reportEntered r).engines = s.engines := by
  rw [State.reportEntered_changes]
@[simp] theorem State.reportEntered_lastAssigned (s : State) (r : Report) : (s.reportEntered r).lastAssigned = s.lastAssigned := by
  rw [State.reportEntered_changes]
@[simp] theorem State.reportEntered_digestQueue (s : State) (r : Report) : (s.reportEntered r).digestQueue = s.digestQueue := by
  rw [State.reportEntered_changes]
@[simp] theorem State.reportEntered_index (s : State) (r : Report) : (s.reportEntered r).index = s.index := by
  rw [State.reportEntered_changes]
@[simp] theorem State.reportEntered_resolution (s : State) (r : Report) : (s.reportEntered r).resolution = s.resolution := by
  rw [State.reportEntered_changes]
@[simp] theorem State.reportEntered_bus (s : State) (r : Report) : (s.reportEntered r).bus = s.bus := by
  rw [State.reportEntered_changes]
@[simp] theorem State.reportEntered_containers (s : State) (r : Report) : (s.reportEntered r).containers = s.containers := by
  rw [State.reportEntered_changes]
@[simp] theorem State.reportEntered_sealUnit (s : State) (r : Report) : (s.reportEntered r).sealUnit = s.sealUnit := by
  rw [State.reportEntered_changes]
@[simp] theorem State.reportEntered_sealLineLow (s : State) (r : Report) : (s.reportEntered r).sealLineLow = s.sealLineLow := by
  rw [State.reportEntered_changes]
@[simp] theorem State.reportEntered_store (s : State) (r : Report) : (s.reportEntered r).store = s.store := by
  rw [State.reportEntered_changes]
@[simp] theorem State.reportEntered_management (s : State) (r : Report) : (s.reportEntered r).management = s.management := by
  rw [State.reportEntered_changes]
@[simp] theorem State.reportEntered_staging (s : State) (r : Report) : (s.reportEntered r).staging = s.staging := by
  rw [State.reportEntered_changes]
@[simp] theorem State.reportEntered_now (s : State) (r : Report) : (s.reportEntered r).now = s.now := by
  rw [State.reportEntered_changes]
@[simp] theorem State.reportEntered_choices (s : State) (r : Report) : (s.reportEntered r).choices = s.choices := by
  rw [State.reportEntered_changes]
@[simp] theorem State.reportEntered_sent (s : State) (r : Report) : (s.reportEntered r).sent = s.sent := by
  rw [State.reportEntered_changes]
@[simp] theorem State.reportEntered_pending (s : State) (r : Report) : (s.reportEntered r).pending = s.pending := by
  rw [State.reportEntered_changes]

theorem State.enterReport_changes (s : State) (r : Report) :
    (s.enterReport r) = { s with
      streams := (s.enterReport r).streams, walker := (s.enterReport r).walker
      management := (s.enterReport r).management } := by
  apply State.ext <;> simp [State.enterReport]

@[simp] theorem State.enterReport_station (s : State) (r : Report) : (s.enterReport r).station = s.station := by
  rw [State.enterReport_changes]
@[simp] theorem State.enterReport_hold (s : State) (r : Report) : (s.enterReport r).hold = s.hold := by
  rw [State.enterReport_changes]
@[simp] theorem State.enterReport_quiet (s : State) (r : Report) : (s.enterReport r).quiet = s.quiet := by
  rw [State.enterReport_changes]
@[simp] theorem State.enterReport_settings (s : State) (r : Report) : (s.enterReport r).settings = s.settings := by
  rw [State.enterReport_changes]
@[simp] theorem State.enterReport_clearPosition (s : State) (r : Report) : (s.enterReport r).clearPosition = s.clearPosition := by
  rw [State.enterReport_changes]
@[simp] theorem State.enterReport_engines (s : State) (r : Report) : (s.enterReport r).engines = s.engines := by
  rw [State.enterReport_changes]
@[simp] theorem State.enterReport_lastAssigned (s : State) (r : Report) : (s.enterReport r).lastAssigned = s.lastAssigned := by
  rw [State.enterReport_changes]
@[simp] theorem State.enterReport_digestQueue (s : State) (r : Report) : (s.enterReport r).digestQueue = s.digestQueue := by
  rw [State.enterReport_changes]
@[simp] theorem State.enterReport_index (s : State) (r : Report) : (s.enterReport r).index = s.index := by
  rw [State.enterReport_changes]
@[simp] theorem State.enterReport_resolution (s : State) (r : Report) : (s.enterReport r).resolution = s.resolution := by
  rw [State.enterReport_changes]
@[simp] theorem State.enterReport_bus (s : State) (r : Report) : (s.enterReport r).bus = s.bus := by
  rw [State.enterReport_changes]
@[simp] theorem State.enterReport_containers (s : State) (r : Report) : (s.enterReport r).containers = s.containers := by
  rw [State.enterReport_changes]
@[simp] theorem State.enterReport_sealUnit (s : State) (r : Report) : (s.enterReport r).sealUnit = s.sealUnit := by
  rw [State.enterReport_changes]
@[simp] theorem State.enterReport_sealLineLow (s : State) (r : Report) : (s.enterReport r).sealLineLow = s.sealLineLow := by
  rw [State.enterReport_changes]
@[simp] theorem State.enterReport_store (s : State) (r : Report) : (s.enterReport r).store = s.store := by
  rw [State.enterReport_changes]
@[simp] theorem State.enterReport_staging (s : State) (r : Report) : (s.enterReport r).staging = s.staging := by
  rw [State.enterReport_changes]
@[simp] theorem State.enterReport_now (s : State) (r : Report) : (s.enterReport r).now = s.now := by
  rw [State.enterReport_changes]
@[simp] theorem State.enterReport_choices (s : State) (r : Report) : (s.enterReport r).choices = s.choices := by
  rw [State.enterReport_changes]
@[simp] theorem State.enterReport_sent (s : State) (r : Report) : (s.enterReport r).sent = s.sent := by
  rw [State.enterReport_changes]
@[simp] theorem State.enterReport_pending (s : State) (r : Report) : (s.enterReport r).pending = s.pending := by
  rw [State.enterReport_changes]

theorem State.placeReport_changes (s : State) (r : Report) :
    (s.placeReport r) = { s with
      streams := (s.placeReport r).streams, walker := (s.placeReport r).walker
      management := (s.placeReport r).management } := by
  generalize h : (s.placeReport r) = t
  simp only [State.placeReport] at h
  repeat' split at h
  all_goals subst h; apply State.ext <;> simp

@[simp] theorem State.placeReport_station (s : State) (r : Report) : (s.placeReport r).station = s.station := by
  rw [State.placeReport_changes]
@[simp] theorem State.placeReport_hold (s : State) (r : Report) : (s.placeReport r).hold = s.hold := by
  rw [State.placeReport_changes]
@[simp] theorem State.placeReport_quiet (s : State) (r : Report) : (s.placeReport r).quiet = s.quiet := by
  rw [State.placeReport_changes]
@[simp] theorem State.placeReport_settings (s : State) (r : Report) : (s.placeReport r).settings = s.settings := by
  rw [State.placeReport_changes]
@[simp] theorem State.placeReport_clearPosition (s : State) (r : Report) : (s.placeReport r).clearPosition = s.clearPosition := by
  rw [State.placeReport_changes]
@[simp] theorem State.placeReport_engines (s : State) (r : Report) : (s.placeReport r).engines = s.engines := by
  rw [State.placeReport_changes]
@[simp] theorem State.placeReport_lastAssigned (s : State) (r : Report) : (s.placeReport r).lastAssigned = s.lastAssigned := by
  rw [State.placeReport_changes]
@[simp] theorem State.placeReport_digestQueue (s : State) (r : Report) : (s.placeReport r).digestQueue = s.digestQueue := by
  rw [State.placeReport_changes]
@[simp] theorem State.placeReport_index (s : State) (r : Report) : (s.placeReport r).index = s.index := by
  rw [State.placeReport_changes]
@[simp] theorem State.placeReport_resolution (s : State) (r : Report) : (s.placeReport r).resolution = s.resolution := by
  rw [State.placeReport_changes]
@[simp] theorem State.placeReport_bus (s : State) (r : Report) : (s.placeReport r).bus = s.bus := by
  rw [State.placeReport_changes]
@[simp] theorem State.placeReport_containers (s : State) (r : Report) : (s.placeReport r).containers = s.containers := by
  rw [State.placeReport_changes]
@[simp] theorem State.placeReport_sealUnit (s : State) (r : Report) : (s.placeReport r).sealUnit = s.sealUnit := by
  rw [State.placeReport_changes]
@[simp] theorem State.placeReport_sealLineLow (s : State) (r : Report) : (s.placeReport r).sealLineLow = s.sealLineLow := by
  rw [State.placeReport_changes]
@[simp] theorem State.placeReport_store (s : State) (r : Report) : (s.placeReport r).store = s.store := by
  rw [State.placeReport_changes]
@[simp] theorem State.placeReport_staging (s : State) (r : Report) : (s.placeReport r).staging = s.staging := by
  rw [State.placeReport_changes]
@[simp] theorem State.placeReport_now (s : State) (r : Report) : (s.placeReport r).now = s.now := by
  rw [State.placeReport_changes]
@[simp] theorem State.placeReport_choices (s : State) (r : Report) : (s.placeReport r).choices = s.choices := by
  rw [State.placeReport_changes]
@[simp] theorem State.placeReport_sent (s : State) (r : Report) : (s.placeReport r).sent = s.sent := by
  rw [State.placeReport_changes]
@[simp] theorem State.placeReport_pending (s : State) (r : Report) : (s.placeReport r).pending = s.pending := by
  rw [State.placeReport_changes]

theorem State.placeReports_changes (s : State) :
    (s.placeReports) = { s with
      streams := (s.placeReports).streams, walker := (s.placeReports).walker
      management := (s.placeReports).management, choices := (s.placeReports).choices } := by
  have key : ∀ (l : List Report) (u : State), l.foldl State.placeReport u =
      { u with streams := (l.foldl State.placeReport u).streams, walker := (l.foldl State.placeReport u).walker
               management := (l.foldl State.placeReport u).management } := by
    intro l
    induction l with
    | nil => intro u; rfl
    | cons r rest ih => intro u; rw [List.foldl_cons, ih]; apply State.ext <;> simp
  generalize h : (s.placeReports) = t
  simp only [State.placeReports] at h
  rw [key] at h
  subst h
  simp only [State.reportOrder]
  repeat' split
  all_goals rfl

@[simp] theorem State.placeReports_station (s : State) : (s.placeReports).station = s.station := by
  rw [State.placeReports_changes]
@[simp] theorem State.placeReports_hold (s : State) : (s.placeReports).hold = s.hold := by
  rw [State.placeReports_changes]
@[simp] theorem State.placeReports_quiet (s : State) : (s.placeReports).quiet = s.quiet := by
  rw [State.placeReports_changes]
@[simp] theorem State.placeReports_settings (s : State) : (s.placeReports).settings = s.settings := by
  rw [State.placeReports_changes]
@[simp] theorem State.placeReports_clearPosition (s : State) : (s.placeReports).clearPosition = s.clearPosition := by
  rw [State.placeReports_changes]
@[simp] theorem State.placeReports_engines (s : State) : (s.placeReports).engines = s.engines := by
  rw [State.placeReports_changes]
@[simp] theorem State.placeReports_lastAssigned (s : State) : (s.placeReports).lastAssigned = s.lastAssigned := by
  rw [State.placeReports_changes]
@[simp] theorem State.placeReports_digestQueue (s : State) : (s.placeReports).digestQueue = s.digestQueue := by
  rw [State.placeReports_changes]
@[simp] theorem State.placeReports_index (s : State) : (s.placeReports).index = s.index := by
  rw [State.placeReports_changes]
@[simp] theorem State.placeReports_resolution (s : State) : (s.placeReports).resolution = s.resolution := by
  rw [State.placeReports_changes]
@[simp] theorem State.placeReports_bus (s : State) : (s.placeReports).bus = s.bus := by
  rw [State.placeReports_changes]
@[simp] theorem State.placeReports_containers (s : State) : (s.placeReports).containers = s.containers := by
  rw [State.placeReports_changes]
@[simp] theorem State.placeReports_sealUnit (s : State) : (s.placeReports).sealUnit = s.sealUnit := by
  rw [State.placeReports_changes]
@[simp] theorem State.placeReports_sealLineLow (s : State) : (s.placeReports).sealLineLow = s.sealLineLow := by
  rw [State.placeReports_changes]
@[simp] theorem State.placeReports_store (s : State) : (s.placeReports).store = s.store := by
  rw [State.placeReports_changes]
@[simp] theorem State.placeReports_staging (s : State) : (s.placeReports).staging = s.staging := by
  rw [State.placeReports_changes]
@[simp] theorem State.placeReports_now (s : State) : (s.placeReports).now = s.now := by
  rw [State.placeReports_changes]
@[simp] theorem State.placeReports_sent (s : State) : (s.placeReports).sent = s.sent := by
  rw [State.placeReports_changes]
@[simp] theorem State.placeReports_pending (s : State) : (s.placeReports).pending = s.pending := by
  rw [State.placeReports_changes]

theorem State.dropCurrent_changes (s : State) (slot : Nat) (owner : Option (Fin 16)) :
    (s.dropCurrent slot owner) = { s with
      streams := (s.dropCurrent slot owner).streams } := by
  cases owner <;> rfl

@[simp] theorem State.dropCurrent_station (s : State) (slot : Nat) (owner : Option (Fin 16)) : (s.dropCurrent slot owner).station = s.station := by
  rw [State.dropCurrent_changes]
@[simp] theorem State.dropCurrent_hold (s : State) (slot : Nat) (owner : Option (Fin 16)) : (s.dropCurrent slot owner).hold = s.hold := by
  rw [State.dropCurrent_changes]
@[simp] theorem State.dropCurrent_quiet (s : State) (slot : Nat) (owner : Option (Fin 16)) : (s.dropCurrent slot owner).quiet = s.quiet := by
  rw [State.dropCurrent_changes]
@[simp] theorem State.dropCurrent_settings (s : State) (slot : Nat) (owner : Option (Fin 16)) : (s.dropCurrent slot owner).settings = s.settings := by
  rw [State.dropCurrent_changes]
@[simp] theorem State.dropCurrent_clearPosition (s : State) (slot : Nat) (owner : Option (Fin 16)) : (s.dropCurrent slot owner).clearPosition = s.clearPosition := by
  rw [State.dropCurrent_changes]
@[simp] theorem State.dropCurrent_engines (s : State) (slot : Nat) (owner : Option (Fin 16)) : (s.dropCurrent slot owner).engines = s.engines := by
  rw [State.dropCurrent_changes]
@[simp] theorem State.dropCurrent_lastAssigned (s : State) (slot : Nat) (owner : Option (Fin 16)) : (s.dropCurrent slot owner).lastAssigned = s.lastAssigned := by
  rw [State.dropCurrent_changes]
@[simp] theorem State.dropCurrent_digestQueue (s : State) (slot : Nat) (owner : Option (Fin 16)) : (s.dropCurrent slot owner).digestQueue = s.digestQueue := by
  rw [State.dropCurrent_changes]
@[simp] theorem State.dropCurrent_index (s : State) (slot : Nat) (owner : Option (Fin 16)) : (s.dropCurrent slot owner).index = s.index := by
  rw [State.dropCurrent_changes]
@[simp] theorem State.dropCurrent_resolution (s : State) (slot : Nat) (owner : Option (Fin 16)) : (s.dropCurrent slot owner).resolution = s.resolution := by
  rw [State.dropCurrent_changes]
@[simp] theorem State.dropCurrent_bus (s : State) (slot : Nat) (owner : Option (Fin 16)) : (s.dropCurrent slot owner).bus = s.bus := by
  rw [State.dropCurrent_changes]
@[simp] theorem State.dropCurrent_containers (s : State) (slot : Nat) (owner : Option (Fin 16)) : (s.dropCurrent slot owner).containers = s.containers := by
  rw [State.dropCurrent_changes]
@[simp] theorem State.dropCurrent_sealUnit (s : State) (slot : Nat) (owner : Option (Fin 16)) : (s.dropCurrent slot owner).sealUnit = s.sealUnit := by
  rw [State.dropCurrent_changes]
@[simp] theorem State.dropCurrent_sealLineLow (s : State) (slot : Nat) (owner : Option (Fin 16)) : (s.dropCurrent slot owner).sealLineLow = s.sealLineLow := by
  rw [State.dropCurrent_changes]
@[simp] theorem State.dropCurrent_store (s : State) (slot : Nat) (owner : Option (Fin 16)) : (s.dropCurrent slot owner).store = s.store := by
  rw [State.dropCurrent_changes]
@[simp] theorem State.dropCurrent_walker (s : State) (slot : Nat) (owner : Option (Fin 16)) : (s.dropCurrent slot owner).walker = s.walker := by
  rw [State.dropCurrent_changes]
@[simp] theorem State.dropCurrent_management (s : State) (slot : Nat) (owner : Option (Fin 16)) : (s.dropCurrent slot owner).management = s.management := by
  rw [State.dropCurrent_changes]
@[simp] theorem State.dropCurrent_staging (s : State) (slot : Nat) (owner : Option (Fin 16)) : (s.dropCurrent slot owner).staging = s.staging := by
  rw [State.dropCurrent_changes]
@[simp] theorem State.dropCurrent_now (s : State) (slot : Nat) (owner : Option (Fin 16)) : (s.dropCurrent slot owner).now = s.now := by
  rw [State.dropCurrent_changes]
@[simp] theorem State.dropCurrent_choices (s : State) (slot : Nat) (owner : Option (Fin 16)) : (s.dropCurrent slot owner).choices = s.choices := by
  rw [State.dropCurrent_changes]
@[simp] theorem State.dropCurrent_sent (s : State) (slot : Nat) (owner : Option (Fin 16)) : (s.dropCurrent slot owner).sent = s.sent := by
  rw [State.dropCurrent_changes]
@[simp] theorem State.dropCurrent_pending (s : State) (slot : Nat) (owner : Option (Fin 16)) : (s.dropCurrent slot owner).pending = s.pending := by
  rw [State.dropCurrent_changes]

theorem State.turnSealing_changes (s : State) (slot : Nat) (r : SealReason) :
    (s.turnSealing slot r) = { s with
      streams := (s.turnSealing slot r).streams, containers := (s.turnSealing slot r).containers
      store := (s.turnSealing slot r).store } := by
  apply State.ext <;> simp [State.turnSealing]

@[simp] theorem State.turnSealing_station (s : State) (slot : Nat) (r : SealReason) : (s.turnSealing slot r).station = s.station := by
  rw [State.turnSealing_changes]
@[simp] theorem State.turnSealing_hold (s : State) (slot : Nat) (r : SealReason) : (s.turnSealing slot r).hold = s.hold := by
  rw [State.turnSealing_changes]
@[simp] theorem State.turnSealing_quiet (s : State) (slot : Nat) (r : SealReason) : (s.turnSealing slot r).quiet = s.quiet := by
  rw [State.turnSealing_changes]
@[simp] theorem State.turnSealing_settings (s : State) (slot : Nat) (r : SealReason) : (s.turnSealing slot r).settings = s.settings := by
  rw [State.turnSealing_changes]
@[simp] theorem State.turnSealing_clearPosition (s : State) (slot : Nat) (r : SealReason) : (s.turnSealing slot r).clearPosition = s.clearPosition := by
  rw [State.turnSealing_changes]
@[simp] theorem State.turnSealing_engines (s : State) (slot : Nat) (r : SealReason) : (s.turnSealing slot r).engines = s.engines := by
  rw [State.turnSealing_changes]
@[simp] theorem State.turnSealing_lastAssigned (s : State) (slot : Nat) (r : SealReason) : (s.turnSealing slot r).lastAssigned = s.lastAssigned := by
  rw [State.turnSealing_changes]
@[simp] theorem State.turnSealing_digestQueue (s : State) (slot : Nat) (r : SealReason) : (s.turnSealing slot r).digestQueue = s.digestQueue := by
  rw [State.turnSealing_changes]
@[simp] theorem State.turnSealing_index (s : State) (slot : Nat) (r : SealReason) : (s.turnSealing slot r).index = s.index := by
  rw [State.turnSealing_changes]
@[simp] theorem State.turnSealing_resolution (s : State) (slot : Nat) (r : SealReason) : (s.turnSealing slot r).resolution = s.resolution := by
  rw [State.turnSealing_changes]
@[simp] theorem State.turnSealing_bus (s : State) (slot : Nat) (r : SealReason) : (s.turnSealing slot r).bus = s.bus := by
  rw [State.turnSealing_changes]
@[simp] theorem State.turnSealing_sealUnit (s : State) (slot : Nat) (r : SealReason) : (s.turnSealing slot r).sealUnit = s.sealUnit := by
  rw [State.turnSealing_changes]
@[simp] theorem State.turnSealing_sealLineLow (s : State) (slot : Nat) (r : SealReason) : (s.turnSealing slot r).sealLineLow = s.sealLineLow := by
  rw [State.turnSealing_changes]
@[simp] theorem State.turnSealing_walker (s : State) (slot : Nat) (r : SealReason) : (s.turnSealing slot r).walker = s.walker := by
  rw [State.turnSealing_changes]
@[simp] theorem State.turnSealing_management (s : State) (slot : Nat) (r : SealReason) : (s.turnSealing slot r).management = s.management := by
  rw [State.turnSealing_changes]
@[simp] theorem State.turnSealing_staging (s : State) (slot : Nat) (r : SealReason) : (s.turnSealing slot r).staging = s.staging := by
  rw [State.turnSealing_changes]
@[simp] theorem State.turnSealing_now (s : State) (slot : Nat) (r : SealReason) : (s.turnSealing slot r).now = s.now := by
  rw [State.turnSealing_changes]
@[simp] theorem State.turnSealing_choices (s : State) (slot : Nat) (r : SealReason) : (s.turnSealing slot r).choices = s.choices := by
  rw [State.turnSealing_changes]
@[simp] theorem State.turnSealing_sent (s : State) (slot : Nat) (r : SealReason) : (s.turnSealing slot r).sent = s.sent := by
  rw [State.turnSealing_changes]
@[simp] theorem State.turnSealing_pending (s : State) (slot : Nat) (r : SealReason) : (s.turnSealing slot r).pending = s.pending := by
  rw [State.turnSealing_changes]

theorem State.sealRequest_changes (s : State) (slot : Nat) (r : SealReason) :
    (s.sealRequest slot r) = { s with
      streams := (s.sealRequest slot r).streams, containers := (s.sealRequest slot r).containers
      store := (s.sealRequest slot r).store } := by
  generalize h : (s.sealRequest slot r) = t
  simp only [State.sealRequest] at h
  repeat' split at h
  all_goals subst h; apply State.ext <;> simp

@[simp] theorem State.sealRequest_station (s : State) (slot : Nat) (r : SealReason) : (s.sealRequest slot r).station = s.station := by
  rw [State.sealRequest_changes]
@[simp] theorem State.sealRequest_hold (s : State) (slot : Nat) (r : SealReason) : (s.sealRequest slot r).hold = s.hold := by
  rw [State.sealRequest_changes]
@[simp] theorem State.sealRequest_quiet (s : State) (slot : Nat) (r : SealReason) : (s.sealRequest slot r).quiet = s.quiet := by
  rw [State.sealRequest_changes]
@[simp] theorem State.sealRequest_settings (s : State) (slot : Nat) (r : SealReason) : (s.sealRequest slot r).settings = s.settings := by
  rw [State.sealRequest_changes]
@[simp] theorem State.sealRequest_clearPosition (s : State) (slot : Nat) (r : SealReason) : (s.sealRequest slot r).clearPosition = s.clearPosition := by
  rw [State.sealRequest_changes]
@[simp] theorem State.sealRequest_engines (s : State) (slot : Nat) (r : SealReason) : (s.sealRequest slot r).engines = s.engines := by
  rw [State.sealRequest_changes]
@[simp] theorem State.sealRequest_lastAssigned (s : State) (slot : Nat) (r : SealReason) : (s.sealRequest slot r).lastAssigned = s.lastAssigned := by
  rw [State.sealRequest_changes]
@[simp] theorem State.sealRequest_digestQueue (s : State) (slot : Nat) (r : SealReason) : (s.sealRequest slot r).digestQueue = s.digestQueue := by
  rw [State.sealRequest_changes]
@[simp] theorem State.sealRequest_index (s : State) (slot : Nat) (r : SealReason) : (s.sealRequest slot r).index = s.index := by
  rw [State.sealRequest_changes]
@[simp] theorem State.sealRequest_resolution (s : State) (slot : Nat) (r : SealReason) : (s.sealRequest slot r).resolution = s.resolution := by
  rw [State.sealRequest_changes]
@[simp] theorem State.sealRequest_bus (s : State) (slot : Nat) (r : SealReason) : (s.sealRequest slot r).bus = s.bus := by
  rw [State.sealRequest_changes]
@[simp] theorem State.sealRequest_sealUnit (s : State) (slot : Nat) (r : SealReason) : (s.sealRequest slot r).sealUnit = s.sealUnit := by
  rw [State.sealRequest_changes]
@[simp] theorem State.sealRequest_sealLineLow (s : State) (slot : Nat) (r : SealReason) : (s.sealRequest slot r).sealLineLow = s.sealLineLow := by
  rw [State.sealRequest_changes]
@[simp] theorem State.sealRequest_walker (s : State) (slot : Nat) (r : SealReason) : (s.sealRequest slot r).walker = s.walker := by
  rw [State.sealRequest_changes]
@[simp] theorem State.sealRequest_management (s : State) (slot : Nat) (r : SealReason) : (s.sealRequest slot r).management = s.management := by
  rw [State.sealRequest_changes]
@[simp] theorem State.sealRequest_staging (s : State) (slot : Nat) (r : SealReason) : (s.sealRequest slot r).staging = s.staging := by
  rw [State.sealRequest_changes]
@[simp] theorem State.sealRequest_now (s : State) (slot : Nat) (r : SealReason) : (s.sealRequest slot r).now = s.now := by
  rw [State.sealRequest_changes]
@[simp] theorem State.sealRequest_choices (s : State) (slot : Nat) (r : SealReason) : (s.sealRequest slot r).choices = s.choices := by
  rw [State.sealRequest_changes]
@[simp] theorem State.sealRequest_sent (s : State) (slot : Nat) (r : SealReason) : (s.sealRequest slot r).sent = s.sent := by
  rw [State.sealRequest_changes]
@[simp] theorem State.sealRequest_pending (s : State) (slot : Nat) (r : SealReason) : (s.sealRequest slot r).pending = s.pending := by
  rw [State.sealRequest_changes]

theorem State.sealCurrent_changes (s : State) (i : Fin 16) (r : SealReason) :
    (s.sealCurrent i r) = { s with
      streams := (s.sealCurrent i r).streams, containers := (s.sealCurrent i r).containers
      store := (s.sealCurrent i r).store } := by
  generalize h : (s.sealCurrent i r) = t
  simp only [State.sealCurrent] at h
  repeat' split at h
  all_goals subst h; apply State.ext <;> simp

@[simp] theorem State.sealCurrent_station (s : State) (i : Fin 16) (r : SealReason) : (s.sealCurrent i r).station = s.station := by
  rw [State.sealCurrent_changes]
@[simp] theorem State.sealCurrent_hold (s : State) (i : Fin 16) (r : SealReason) : (s.sealCurrent i r).hold = s.hold := by
  rw [State.sealCurrent_changes]
@[simp] theorem State.sealCurrent_quiet (s : State) (i : Fin 16) (r : SealReason) : (s.sealCurrent i r).quiet = s.quiet := by
  rw [State.sealCurrent_changes]
@[simp] theorem State.sealCurrent_settings (s : State) (i : Fin 16) (r : SealReason) : (s.sealCurrent i r).settings = s.settings := by
  rw [State.sealCurrent_changes]
@[simp] theorem State.sealCurrent_clearPosition (s : State) (i : Fin 16) (r : SealReason) : (s.sealCurrent i r).clearPosition = s.clearPosition := by
  rw [State.sealCurrent_changes]
@[simp] theorem State.sealCurrent_engines (s : State) (i : Fin 16) (r : SealReason) : (s.sealCurrent i r).engines = s.engines := by
  rw [State.sealCurrent_changes]
@[simp] theorem State.sealCurrent_lastAssigned (s : State) (i : Fin 16) (r : SealReason) : (s.sealCurrent i r).lastAssigned = s.lastAssigned := by
  rw [State.sealCurrent_changes]
@[simp] theorem State.sealCurrent_digestQueue (s : State) (i : Fin 16) (r : SealReason) : (s.sealCurrent i r).digestQueue = s.digestQueue := by
  rw [State.sealCurrent_changes]
@[simp] theorem State.sealCurrent_index (s : State) (i : Fin 16) (r : SealReason) : (s.sealCurrent i r).index = s.index := by
  rw [State.sealCurrent_changes]
@[simp] theorem State.sealCurrent_resolution (s : State) (i : Fin 16) (r : SealReason) : (s.sealCurrent i r).resolution = s.resolution := by
  rw [State.sealCurrent_changes]
@[simp] theorem State.sealCurrent_bus (s : State) (i : Fin 16) (r : SealReason) : (s.sealCurrent i r).bus = s.bus := by
  rw [State.sealCurrent_changes]
@[simp] theorem State.sealCurrent_sealUnit (s : State) (i : Fin 16) (r : SealReason) : (s.sealCurrent i r).sealUnit = s.sealUnit := by
  rw [State.sealCurrent_changes]
@[simp] theorem State.sealCurrent_sealLineLow (s : State) (i : Fin 16) (r : SealReason) : (s.sealCurrent i r).sealLineLow = s.sealLineLow := by
  rw [State.sealCurrent_changes]
@[simp] theorem State.sealCurrent_walker (s : State) (i : Fin 16) (r : SealReason) : (s.sealCurrent i r).walker = s.walker := by
  rw [State.sealCurrent_changes]
@[simp] theorem State.sealCurrent_management (s : State) (i : Fin 16) (r : SealReason) : (s.sealCurrent i r).management = s.management := by
  rw [State.sealCurrent_changes]
@[simp] theorem State.sealCurrent_staging (s : State) (i : Fin 16) (r : SealReason) : (s.sealCurrent i r).staging = s.staging := by
  rw [State.sealCurrent_changes]
@[simp] theorem State.sealCurrent_now (s : State) (i : Fin 16) (r : SealReason) : (s.sealCurrent i r).now = s.now := by
  rw [State.sealCurrent_changes]
@[simp] theorem State.sealCurrent_choices (s : State) (i : Fin 16) (r : SealReason) : (s.sealCurrent i r).choices = s.choices := by
  rw [State.sealCurrent_changes]
@[simp] theorem State.sealCurrent_sent (s : State) (i : Fin 16) (r : SealReason) : (s.sealCurrent i r).sent = s.sent := by
  rw [State.sealCurrent_changes]
@[simp] theorem State.sealCurrent_pending (s : State) (i : Fin 16) (r : SealReason) : (s.sealCurrent i r).pending = s.pending := by
  rw [State.sealCurrent_changes]

theorem State.requestAppend_changes (s : State) (r : AppendRequest) :
    (s.requestAppend r) = { s with
      streams := (s.requestAppend r).streams, containers := (s.requestAppend r).containers
      store := (s.requestAppend r).store } := by
  generalize h : (s.requestAppend r) = t
  simp only [State.requestAppend] at h
  repeat' split at h
  all_goals subst h; apply State.ext <;> simp

@[simp] theorem State.requestAppend_station (s : State) (r : AppendRequest) : (s.requestAppend r).station = s.station := by
  rw [State.requestAppend_changes]
@[simp] theorem State.requestAppend_hold (s : State) (r : AppendRequest) : (s.requestAppend r).hold = s.hold := by
  rw [State.requestAppend_changes]
@[simp] theorem State.requestAppend_quiet (s : State) (r : AppendRequest) : (s.requestAppend r).quiet = s.quiet := by
  rw [State.requestAppend_changes]
@[simp] theorem State.requestAppend_settings (s : State) (r : AppendRequest) : (s.requestAppend r).settings = s.settings := by
  rw [State.requestAppend_changes]
@[simp] theorem State.requestAppend_clearPosition (s : State) (r : AppendRequest) : (s.requestAppend r).clearPosition = s.clearPosition := by
  rw [State.requestAppend_changes]
@[simp] theorem State.requestAppend_engines (s : State) (r : AppendRequest) : (s.requestAppend r).engines = s.engines := by
  rw [State.requestAppend_changes]
@[simp] theorem State.requestAppend_lastAssigned (s : State) (r : AppendRequest) : (s.requestAppend r).lastAssigned = s.lastAssigned := by
  rw [State.requestAppend_changes]
@[simp] theorem State.requestAppend_digestQueue (s : State) (r : AppendRequest) : (s.requestAppend r).digestQueue = s.digestQueue := by
  rw [State.requestAppend_changes]
@[simp] theorem State.requestAppend_index (s : State) (r : AppendRequest) : (s.requestAppend r).index = s.index := by
  rw [State.requestAppend_changes]
@[simp] theorem State.requestAppend_resolution (s : State) (r : AppendRequest) : (s.requestAppend r).resolution = s.resolution := by
  rw [State.requestAppend_changes]
@[simp] theorem State.requestAppend_bus (s : State) (r : AppendRequest) : (s.requestAppend r).bus = s.bus := by
  rw [State.requestAppend_changes]
@[simp] theorem State.requestAppend_sealUnit (s : State) (r : AppendRequest) : (s.requestAppend r).sealUnit = s.sealUnit := by
  rw [State.requestAppend_changes]
@[simp] theorem State.requestAppend_sealLineLow (s : State) (r : AppendRequest) : (s.requestAppend r).sealLineLow = s.sealLineLow := by
  rw [State.requestAppend_changes]
@[simp] theorem State.requestAppend_walker (s : State) (r : AppendRequest) : (s.requestAppend r).walker = s.walker := by
  rw [State.requestAppend_changes]
@[simp] theorem State.requestAppend_management (s : State) (r : AppendRequest) : (s.requestAppend r).management = s.management := by
  rw [State.requestAppend_changes]
@[simp] theorem State.requestAppend_staging (s : State) (r : AppendRequest) : (s.requestAppend r).staging = s.staging := by
  rw [State.requestAppend_changes]
@[simp] theorem State.requestAppend_now (s : State) (r : AppendRequest) : (s.requestAppend r).now = s.now := by
  rw [State.requestAppend_changes]
@[simp] theorem State.requestAppend_choices (s : State) (r : AppendRequest) : (s.requestAppend r).choices = s.choices := by
  rw [State.requestAppend_changes]
@[simp] theorem State.requestAppend_sent (s : State) (r : AppendRequest) : (s.requestAppend r).sent = s.sent := by
  rw [State.requestAppend_changes]
@[simp] theorem State.requestAppend_pending (s : State) (r : AppendRequest) : (s.requestAppend r).pending = s.pending := by
  rw [State.requestAppend_changes]

theorem State.issueFollowers_changes (s : State) (slot : Nat) (i : Fin 16) (l : List AppendRequest) :
    (s.issueFollowers slot i l).1 = { s with
      streams := (s.issueFollowers slot i l).1.streams
      containers := (s.issueFollowers slot i l).1.containers
      store := (s.issueFollowers slot i l).1.store } := by
  induction l generalizing s with
  | nil => rfl
  | cons r rest ih =>
    simp only [State.issueFollowers]
    repeat' split
    · rw [ih]; apply State.ext <;> simp
    · apply State.ext <;> simp
    · exact ih s

@[simp] theorem State.issueFollowers_station (s : State) (slot : Nat) (i : Fin 16) (l : List AppendRequest) : (s.issueFollowers slot i l).1.station = s.station := by
  rw [State.issueFollowers_changes]
@[simp] theorem State.issueFollowers_hold (s : State) (slot : Nat) (i : Fin 16) (l : List AppendRequest) : (s.issueFollowers slot i l).1.hold = s.hold := by
  rw [State.issueFollowers_changes]
@[simp] theorem State.issueFollowers_quiet (s : State) (slot : Nat) (i : Fin 16) (l : List AppendRequest) : (s.issueFollowers slot i l).1.quiet = s.quiet := by
  rw [State.issueFollowers_changes]
@[simp] theorem State.issueFollowers_settings (s : State) (slot : Nat) (i : Fin 16) (l : List AppendRequest) : (s.issueFollowers slot i l).1.settings = s.settings := by
  rw [State.issueFollowers_changes]
@[simp] theorem State.issueFollowers_clearPosition (s : State) (slot : Nat) (i : Fin 16) (l : List AppendRequest) : (s.issueFollowers slot i l).1.clearPosition = s.clearPosition := by
  rw [State.issueFollowers_changes]
@[simp] theorem State.issueFollowers_engines (s : State) (slot : Nat) (i : Fin 16) (l : List AppendRequest) : (s.issueFollowers slot i l).1.engines = s.engines := by
  rw [State.issueFollowers_changes]
@[simp] theorem State.issueFollowers_lastAssigned (s : State) (slot : Nat) (i : Fin 16) (l : List AppendRequest) : (s.issueFollowers slot i l).1.lastAssigned = s.lastAssigned := by
  rw [State.issueFollowers_changes]
@[simp] theorem State.issueFollowers_digestQueue (s : State) (slot : Nat) (i : Fin 16) (l : List AppendRequest) : (s.issueFollowers slot i l).1.digestQueue = s.digestQueue := by
  rw [State.issueFollowers_changes]
@[simp] theorem State.issueFollowers_index (s : State) (slot : Nat) (i : Fin 16) (l : List AppendRequest) : (s.issueFollowers slot i l).1.index = s.index := by
  rw [State.issueFollowers_changes]
@[simp] theorem State.issueFollowers_resolution (s : State) (slot : Nat) (i : Fin 16) (l : List AppendRequest) : (s.issueFollowers slot i l).1.resolution = s.resolution := by
  rw [State.issueFollowers_changes]
@[simp] theorem State.issueFollowers_bus (s : State) (slot : Nat) (i : Fin 16) (l : List AppendRequest) : (s.issueFollowers slot i l).1.bus = s.bus := by
  rw [State.issueFollowers_changes]
@[simp] theorem State.issueFollowers_sealUnit (s : State) (slot : Nat) (i : Fin 16) (l : List AppendRequest) : (s.issueFollowers slot i l).1.sealUnit = s.sealUnit := by
  rw [State.issueFollowers_changes]
@[simp] theorem State.issueFollowers_sealLineLow (s : State) (slot : Nat) (i : Fin 16) (l : List AppendRequest) : (s.issueFollowers slot i l).1.sealLineLow = s.sealLineLow := by
  rw [State.issueFollowers_changes]
@[simp] theorem State.issueFollowers_walker (s : State) (slot : Nat) (i : Fin 16) (l : List AppendRequest) : (s.issueFollowers slot i l).1.walker = s.walker := by
  rw [State.issueFollowers_changes]
@[simp] theorem State.issueFollowers_management (s : State) (slot : Nat) (i : Fin 16) (l : List AppendRequest) : (s.issueFollowers slot i l).1.management = s.management := by
  rw [State.issueFollowers_changes]
@[simp] theorem State.issueFollowers_staging (s : State) (slot : Nat) (i : Fin 16) (l : List AppendRequest) : (s.issueFollowers slot i l).1.staging = s.staging := by
  rw [State.issueFollowers_changes]
@[simp] theorem State.issueFollowers_now (s : State) (slot : Nat) (i : Fin 16) (l : List AppendRequest) : (s.issueFollowers slot i l).1.now = s.now := by
  rw [State.issueFollowers_changes]
@[simp] theorem State.issueFollowers_choices (s : State) (slot : Nat) (i : Fin 16) (l : List AppendRequest) : (s.issueFollowers slot i l).1.choices = s.choices := by
  rw [State.issueFollowers_changes]
@[simp] theorem State.issueFollowers_sent (s : State) (slot : Nat) (i : Fin 16) (l : List AppendRequest) : (s.issueFollowers slot i l).1.sent = s.sent := by
  rw [State.issueFollowers_changes]
@[simp] theorem State.issueFollowers_pending (s : State) (slot : Nat) (i : Fin 16) (l : List AppendRequest) : (s.issueFollowers slot i l).1.pending = s.pending := by
  rw [State.issueFollowers_changes]

theorem State.serveOpenWaitUpTo_changes (s : State) (n : Nat) :
    (s.serveOpenWaitUpTo n) = { s with
      streams := (s.serveOpenWaitUpTo n).streams, containers := (s.serveOpenWaitUpTo n).containers
      store := (s.serveOpenWaitUpTo n).store } := by
  induction n generalizing s with
  | zero => rfl
  | succ n ih =>
    generalize h : (s.serveOpenWaitUpTo (n + 1)) = t
    simp only [State.serveOpenWaitUpTo] at h
    repeat' split at h
    all_goals subst h; first | rfl | (apply State.ext <;> first | rfl | (simp; done) | (rw [ih]; simp; done))

@[simp] theorem State.serveOpenWaitUpTo_station (s : State) (n : Nat) : (s.serveOpenWaitUpTo n).station = s.station := by
  rw [State.serveOpenWaitUpTo_changes]
@[simp] theorem State.serveOpenWaitUpTo_hold (s : State) (n : Nat) : (s.serveOpenWaitUpTo n).hold = s.hold := by
  rw [State.serveOpenWaitUpTo_changes]
@[simp] theorem State.serveOpenWaitUpTo_quiet (s : State) (n : Nat) : (s.serveOpenWaitUpTo n).quiet = s.quiet := by
  rw [State.serveOpenWaitUpTo_changes]
@[simp] theorem State.serveOpenWaitUpTo_settings (s : State) (n : Nat) : (s.serveOpenWaitUpTo n).settings = s.settings := by
  rw [State.serveOpenWaitUpTo_changes]
@[simp] theorem State.serveOpenWaitUpTo_clearPosition (s : State) (n : Nat) : (s.serveOpenWaitUpTo n).clearPosition = s.clearPosition := by
  rw [State.serveOpenWaitUpTo_changes]
@[simp] theorem State.serveOpenWaitUpTo_engines (s : State) (n : Nat) : (s.serveOpenWaitUpTo n).engines = s.engines := by
  rw [State.serveOpenWaitUpTo_changes]
@[simp] theorem State.serveOpenWaitUpTo_lastAssigned (s : State) (n : Nat) : (s.serveOpenWaitUpTo n).lastAssigned = s.lastAssigned := by
  rw [State.serveOpenWaitUpTo_changes]
@[simp] theorem State.serveOpenWaitUpTo_digestQueue (s : State) (n : Nat) : (s.serveOpenWaitUpTo n).digestQueue = s.digestQueue := by
  rw [State.serveOpenWaitUpTo_changes]
@[simp] theorem State.serveOpenWaitUpTo_index (s : State) (n : Nat) : (s.serveOpenWaitUpTo n).index = s.index := by
  rw [State.serveOpenWaitUpTo_changes]
@[simp] theorem State.serveOpenWaitUpTo_resolution (s : State) (n : Nat) : (s.serveOpenWaitUpTo n).resolution = s.resolution := by
  rw [State.serveOpenWaitUpTo_changes]
@[simp] theorem State.serveOpenWaitUpTo_bus (s : State) (n : Nat) : (s.serveOpenWaitUpTo n).bus = s.bus := by
  rw [State.serveOpenWaitUpTo_changes]
@[simp] theorem State.serveOpenWaitUpTo_sealUnit (s : State) (n : Nat) : (s.serveOpenWaitUpTo n).sealUnit = s.sealUnit := by
  rw [State.serveOpenWaitUpTo_changes]
@[simp] theorem State.serveOpenWaitUpTo_sealLineLow (s : State) (n : Nat) : (s.serveOpenWaitUpTo n).sealLineLow = s.sealLineLow := by
  rw [State.serveOpenWaitUpTo_changes]
@[simp] theorem State.serveOpenWaitUpTo_walker (s : State) (n : Nat) : (s.serveOpenWaitUpTo n).walker = s.walker := by
  rw [State.serveOpenWaitUpTo_changes]
@[simp] theorem State.serveOpenWaitUpTo_management (s : State) (n : Nat) : (s.serveOpenWaitUpTo n).management = s.management := by
  rw [State.serveOpenWaitUpTo_changes]
@[simp] theorem State.serveOpenWaitUpTo_staging (s : State) (n : Nat) : (s.serveOpenWaitUpTo n).staging = s.staging := by
  rw [State.serveOpenWaitUpTo_changes]
@[simp] theorem State.serveOpenWaitUpTo_now (s : State) (n : Nat) : (s.serveOpenWaitUpTo n).now = s.now := by
  rw [State.serveOpenWaitUpTo_changes]
@[simp] theorem State.serveOpenWaitUpTo_choices (s : State) (n : Nat) : (s.serveOpenWaitUpTo n).choices = s.choices := by
  rw [State.serveOpenWaitUpTo_changes]
@[simp] theorem State.serveOpenWaitUpTo_sent (s : State) (n : Nat) : (s.serveOpenWaitUpTo n).sent = s.sent := by
  rw [State.serveOpenWaitUpTo_changes]
@[simp] theorem State.serveOpenWaitUpTo_pending (s : State) (n : Nat) : (s.serveOpenWaitUpTo n).pending = s.pending := by
  rw [State.serveOpenWaitUpTo_changes]

theorem State.serveOpenWait_changes (s : State) :
    (s.serveOpenWait) = { s with
      streams := (s.serveOpenWait).streams, containers := (s.serveOpenWait).containers
      store := (s.serveOpenWait).store } := by
  exact s.serveOpenWaitUpTo_changes _

@[simp] theorem State.serveOpenWait_station (s : State) : (s.serveOpenWait).station = s.station := by
  rw [State.serveOpenWait_changes]
@[simp] theorem State.serveOpenWait_hold (s : State) : (s.serveOpenWait).hold = s.hold := by
  rw [State.serveOpenWait_changes]
@[simp] theorem State.serveOpenWait_quiet (s : State) : (s.serveOpenWait).quiet = s.quiet := by
  rw [State.serveOpenWait_changes]
@[simp] theorem State.serveOpenWait_settings (s : State) : (s.serveOpenWait).settings = s.settings := by
  rw [State.serveOpenWait_changes]
@[simp] theorem State.serveOpenWait_clearPosition (s : State) : (s.serveOpenWait).clearPosition = s.clearPosition := by
  rw [State.serveOpenWait_changes]
@[simp] theorem State.serveOpenWait_engines (s : State) : (s.serveOpenWait).engines = s.engines := by
  rw [State.serveOpenWait_changes]
@[simp] theorem State.serveOpenWait_lastAssigned (s : State) : (s.serveOpenWait).lastAssigned = s.lastAssigned := by
  rw [State.serveOpenWait_changes]
@[simp] theorem State.serveOpenWait_digestQueue (s : State) : (s.serveOpenWait).digestQueue = s.digestQueue := by
  rw [State.serveOpenWait_changes]
@[simp] theorem State.serveOpenWait_index (s : State) : (s.serveOpenWait).index = s.index := by
  rw [State.serveOpenWait_changes]
@[simp] theorem State.serveOpenWait_resolution (s : State) : (s.serveOpenWait).resolution = s.resolution := by
  rw [State.serveOpenWait_changes]
@[simp] theorem State.serveOpenWait_bus (s : State) : (s.serveOpenWait).bus = s.bus := by
  rw [State.serveOpenWait_changes]
@[simp] theorem State.serveOpenWait_sealUnit (s : State) : (s.serveOpenWait).sealUnit = s.sealUnit := by
  rw [State.serveOpenWait_changes]
@[simp] theorem State.serveOpenWait_sealLineLow (s : State) : (s.serveOpenWait).sealLineLow = s.sealLineLow := by
  rw [State.serveOpenWait_changes]
@[simp] theorem State.serveOpenWait_walker (s : State) : (s.serveOpenWait).walker = s.walker := by
  rw [State.serveOpenWait_changes]
@[simp] theorem State.serveOpenWait_management (s : State) : (s.serveOpenWait).management = s.management := by
  rw [State.serveOpenWait_changes]
@[simp] theorem State.serveOpenWait_staging (s : State) : (s.serveOpenWait).staging = s.staging := by
  rw [State.serveOpenWait_changes]
@[simp] theorem State.serveOpenWait_now (s : State) : (s.serveOpenWait).now = s.now := by
  rw [State.serveOpenWait_changes]
@[simp] theorem State.serveOpenWait_choices (s : State) : (s.serveOpenWait).choices = s.choices := by
  rw [State.serveOpenWait_changes]
@[simp] theorem State.serveOpenWait_sent (s : State) : (s.serveOpenWait).sent = s.sent := by
  rw [State.serveOpenWait_changes]
@[simp] theorem State.serveOpenWait_pending (s : State) : (s.serveOpenWait).pending = s.pending := by
  rw [State.serveOpenWait_changes]

theorem State.releaseChunk_changes (s : State) (p : PendingSlot) :
    (s.releaseChunk p) = { s with
      containers := (s.releaseChunk p).containers } := by
  generalize h : (s.releaseChunk p) = t
  simp only [State.releaseChunk] at h
  repeat' split at h
  all_goals subst h; apply State.ext <;> simp

@[simp] theorem State.releaseChunk_station (s : State) (p : PendingSlot) : (s.releaseChunk p).station = s.station := by
  rw [State.releaseChunk_changes]
@[simp] theorem State.releaseChunk_hold (s : State) (p : PendingSlot) : (s.releaseChunk p).hold = s.hold := by
  rw [State.releaseChunk_changes]
@[simp] theorem State.releaseChunk_quiet (s : State) (p : PendingSlot) : (s.releaseChunk p).quiet = s.quiet := by
  rw [State.releaseChunk_changes]
@[simp] theorem State.releaseChunk_settings (s : State) (p : PendingSlot) : (s.releaseChunk p).settings = s.settings := by
  rw [State.releaseChunk_changes]
@[simp] theorem State.releaseChunk_clearPosition (s : State) (p : PendingSlot) : (s.releaseChunk p).clearPosition = s.clearPosition := by
  rw [State.releaseChunk_changes]
@[simp] theorem State.releaseChunk_streams (s : State) (p : PendingSlot) : (s.releaseChunk p).streams = s.streams := by
  rw [State.releaseChunk_changes]
@[simp] theorem State.releaseChunk_engines (s : State) (p : PendingSlot) : (s.releaseChunk p).engines = s.engines := by
  rw [State.releaseChunk_changes]
@[simp] theorem State.releaseChunk_lastAssigned (s : State) (p : PendingSlot) : (s.releaseChunk p).lastAssigned = s.lastAssigned := by
  rw [State.releaseChunk_changes]
@[simp] theorem State.releaseChunk_digestQueue (s : State) (p : PendingSlot) : (s.releaseChunk p).digestQueue = s.digestQueue := by
  rw [State.releaseChunk_changes]
@[simp] theorem State.releaseChunk_index (s : State) (p : PendingSlot) : (s.releaseChunk p).index = s.index := by
  rw [State.releaseChunk_changes]
@[simp] theorem State.releaseChunk_resolution (s : State) (p : PendingSlot) : (s.releaseChunk p).resolution = s.resolution := by
  rw [State.releaseChunk_changes]
@[simp] theorem State.releaseChunk_bus (s : State) (p : PendingSlot) : (s.releaseChunk p).bus = s.bus := by
  rw [State.releaseChunk_changes]
@[simp] theorem State.releaseChunk_sealUnit (s : State) (p : PendingSlot) : (s.releaseChunk p).sealUnit = s.sealUnit := by
  rw [State.releaseChunk_changes]
@[simp] theorem State.releaseChunk_sealLineLow (s : State) (p : PendingSlot) : (s.releaseChunk p).sealLineLow = s.sealLineLow := by
  rw [State.releaseChunk_changes]
@[simp] theorem State.releaseChunk_store (s : State) (p : PendingSlot) : (s.releaseChunk p).store = s.store := by
  rw [State.releaseChunk_changes]
@[simp] theorem State.releaseChunk_walker (s : State) (p : PendingSlot) : (s.releaseChunk p).walker = s.walker := by
  rw [State.releaseChunk_changes]
@[simp] theorem State.releaseChunk_management (s : State) (p : PendingSlot) : (s.releaseChunk p).management = s.management := by
  rw [State.releaseChunk_changes]
@[simp] theorem State.releaseChunk_staging (s : State) (p : PendingSlot) : (s.releaseChunk p).staging = s.staging := by
  rw [State.releaseChunk_changes]
@[simp] theorem State.releaseChunk_now (s : State) (p : PendingSlot) : (s.releaseChunk p).now = s.now := by
  rw [State.releaseChunk_changes]
@[simp] theorem State.releaseChunk_choices (s : State) (p : PendingSlot) : (s.releaseChunk p).choices = s.choices := by
  rw [State.releaseChunk_changes]
@[simp] theorem State.releaseChunk_sent (s : State) (p : PendingSlot) : (s.releaseChunk p).sent = s.sent := by
  rw [State.releaseChunk_changes]
@[simp] theorem State.releaseChunk_pending (s : State) (p : PendingSlot) : (s.releaseChunk p).pending = s.pending := by
  rw [State.releaseChunk_changes]

theorem State.resolveAll_changes (s : State) (ws : List Waiter) (d : Disposition) (l' : Location) (hd : Option Bool) :
    (s.resolveAll ws d l' hd) = { s with
      streams := (s.resolveAll ws d l' hd).streams } := by
  have key : ∀ (l : List Waiter) (u : State), (l.foldl (fun t w => t.resolveChunk w d (some l') hd) u) = { u with streams := (l.foldl (fun t w => t.resolveChunk w d (some l') hd) u).streams } := by
    intro l
    induction l with
    | nil => intro u; rfl
    | cons a rest ih => intro u; rw [List.foldl_cons, ih]; apply State.ext <;> simp
  generalize h : (s.resolveAll ws d l' hd) = t
  simp only [State.resolveAll] at h
  rw [key] at h
  repeat' split at h
  all_goals subst h; apply State.ext <;> simp

@[simp] theorem State.resolveAll_station (s : State) (ws : List Waiter) (d : Disposition) (l' : Location) (hd : Option Bool) : (s.resolveAll ws d l' hd).station = s.station := by
  rw [State.resolveAll_changes]
@[simp] theorem State.resolveAll_hold (s : State) (ws : List Waiter) (d : Disposition) (l' : Location) (hd : Option Bool) : (s.resolveAll ws d l' hd).hold = s.hold := by
  rw [State.resolveAll_changes]
@[simp] theorem State.resolveAll_quiet (s : State) (ws : List Waiter) (d : Disposition) (l' : Location) (hd : Option Bool) : (s.resolveAll ws d l' hd).quiet = s.quiet := by
  rw [State.resolveAll_changes]
@[simp] theorem State.resolveAll_settings (s : State) (ws : List Waiter) (d : Disposition) (l' : Location) (hd : Option Bool) : (s.resolveAll ws d l' hd).settings = s.settings := by
  rw [State.resolveAll_changes]
@[simp] theorem State.resolveAll_clearPosition (s : State) (ws : List Waiter) (d : Disposition) (l' : Location) (hd : Option Bool) : (s.resolveAll ws d l' hd).clearPosition = s.clearPosition := by
  rw [State.resolveAll_changes]
@[simp] theorem State.resolveAll_engines (s : State) (ws : List Waiter) (d : Disposition) (l' : Location) (hd : Option Bool) : (s.resolveAll ws d l' hd).engines = s.engines := by
  rw [State.resolveAll_changes]
@[simp] theorem State.resolveAll_lastAssigned (s : State) (ws : List Waiter) (d : Disposition) (l' : Location) (hd : Option Bool) : (s.resolveAll ws d l' hd).lastAssigned = s.lastAssigned := by
  rw [State.resolveAll_changes]
@[simp] theorem State.resolveAll_digestQueue (s : State) (ws : List Waiter) (d : Disposition) (l' : Location) (hd : Option Bool) : (s.resolveAll ws d l' hd).digestQueue = s.digestQueue := by
  rw [State.resolveAll_changes]
@[simp] theorem State.resolveAll_index (s : State) (ws : List Waiter) (d : Disposition) (l' : Location) (hd : Option Bool) : (s.resolveAll ws d l' hd).index = s.index := by
  rw [State.resolveAll_changes]
@[simp] theorem State.resolveAll_resolution (s : State) (ws : List Waiter) (d : Disposition) (l' : Location) (hd : Option Bool) : (s.resolveAll ws d l' hd).resolution = s.resolution := by
  rw [State.resolveAll_changes]
@[simp] theorem State.resolveAll_bus (s : State) (ws : List Waiter) (d : Disposition) (l' : Location) (hd : Option Bool) : (s.resolveAll ws d l' hd).bus = s.bus := by
  rw [State.resolveAll_changes]
@[simp] theorem State.resolveAll_containers (s : State) (ws : List Waiter) (d : Disposition) (l' : Location) (hd : Option Bool) : (s.resolveAll ws d l' hd).containers = s.containers := by
  rw [State.resolveAll_changes]
@[simp] theorem State.resolveAll_sealUnit (s : State) (ws : List Waiter) (d : Disposition) (l' : Location) (hd : Option Bool) : (s.resolveAll ws d l' hd).sealUnit = s.sealUnit := by
  rw [State.resolveAll_changes]
@[simp] theorem State.resolveAll_sealLineLow (s : State) (ws : List Waiter) (d : Disposition) (l' : Location) (hd : Option Bool) : (s.resolveAll ws d l' hd).sealLineLow = s.sealLineLow := by
  rw [State.resolveAll_changes]
@[simp] theorem State.resolveAll_store (s : State) (ws : List Waiter) (d : Disposition) (l' : Location) (hd : Option Bool) : (s.resolveAll ws d l' hd).store = s.store := by
  rw [State.resolveAll_changes]
@[simp] theorem State.resolveAll_walker (s : State) (ws : List Waiter) (d : Disposition) (l' : Location) (hd : Option Bool) : (s.resolveAll ws d l' hd).walker = s.walker := by
  rw [State.resolveAll_changes]
@[simp] theorem State.resolveAll_management (s : State) (ws : List Waiter) (d : Disposition) (l' : Location) (hd : Option Bool) : (s.resolveAll ws d l' hd).management = s.management := by
  rw [State.resolveAll_changes]
@[simp] theorem State.resolveAll_staging (s : State) (ws : List Waiter) (d : Disposition) (l' : Location) (hd : Option Bool) : (s.resolveAll ws d l' hd).staging = s.staging := by
  rw [State.resolveAll_changes]
@[simp] theorem State.resolveAll_now (s : State) (ws : List Waiter) (d : Disposition) (l' : Location) (hd : Option Bool) : (s.resolveAll ws d l' hd).now = s.now := by
  rw [State.resolveAll_changes]
@[simp] theorem State.resolveAll_choices (s : State) (ws : List Waiter) (d : Disposition) (l' : Location) (hd : Option Bool) : (s.resolveAll ws d l' hd).choices = s.choices := by
  rw [State.resolveAll_changes]
@[simp] theorem State.resolveAll_sent (s : State) (ws : List Waiter) (d : Disposition) (l' : Location) (hd : Option Bool) : (s.resolveAll ws d l' hd).sent = s.sent := by
  rw [State.resolveAll_changes]
@[simp] theorem State.resolveAll_pending (s : State) (ws : List Waiter) (d : Disposition) (l' : Location) (hd : Option Bool) : (s.resolveAll ws d l' hd).pending = s.pending := by
  rw [State.resolveAll_changes]

theorem State.recheck_changes (s : State) (f : Fingerprint) (w : Waiter) :
    (s.recheck f w) = { s with
      streams := (s.recheck f w).streams, resolution := (s.recheck f w).resolution
      bus := (s.recheck f w).bus } := by
  generalize h : (s.recheck f w) = t
  simp only [State.recheck] at h
  repeat' split at h
  all_goals subst h; apply State.ext <;> simp

@[simp] theorem State.recheck_station (s : State) (f : Fingerprint) (w : Waiter) : (s.recheck f w).station = s.station := by
  rw [State.recheck_changes]
@[simp] theorem State.recheck_hold (s : State) (f : Fingerprint) (w : Waiter) : (s.recheck f w).hold = s.hold := by
  rw [State.recheck_changes]
@[simp] theorem State.recheck_quiet (s : State) (f : Fingerprint) (w : Waiter) : (s.recheck f w).quiet = s.quiet := by
  rw [State.recheck_changes]
@[simp] theorem State.recheck_settings (s : State) (f : Fingerprint) (w : Waiter) : (s.recheck f w).settings = s.settings := by
  rw [State.recheck_changes]
@[simp] theorem State.recheck_clearPosition (s : State) (f : Fingerprint) (w : Waiter) : (s.recheck f w).clearPosition = s.clearPosition := by
  rw [State.recheck_changes]
@[simp] theorem State.recheck_engines (s : State) (f : Fingerprint) (w : Waiter) : (s.recheck f w).engines = s.engines := by
  rw [State.recheck_changes]
@[simp] theorem State.recheck_lastAssigned (s : State) (f : Fingerprint) (w : Waiter) : (s.recheck f w).lastAssigned = s.lastAssigned := by
  rw [State.recheck_changes]
@[simp] theorem State.recheck_digestQueue (s : State) (f : Fingerprint) (w : Waiter) : (s.recheck f w).digestQueue = s.digestQueue := by
  rw [State.recheck_changes]
@[simp] theorem State.recheck_index (s : State) (f : Fingerprint) (w : Waiter) : (s.recheck f w).index = s.index := by
  rw [State.recheck_changes]
@[simp] theorem State.recheck_containers (s : State) (f : Fingerprint) (w : Waiter) : (s.recheck f w).containers = s.containers := by
  rw [State.recheck_changes]
@[simp] theorem State.recheck_sealUnit (s : State) (f : Fingerprint) (w : Waiter) : (s.recheck f w).sealUnit = s.sealUnit := by
  rw [State.recheck_changes]
@[simp] theorem State.recheck_sealLineLow (s : State) (f : Fingerprint) (w : Waiter) : (s.recheck f w).sealLineLow = s.sealLineLow := by
  rw [State.recheck_changes]
@[simp] theorem State.recheck_store (s : State) (f : Fingerprint) (w : Waiter) : (s.recheck f w).store = s.store := by
  rw [State.recheck_changes]
@[simp] theorem State.recheck_walker (s : State) (f : Fingerprint) (w : Waiter) : (s.recheck f w).walker = s.walker := by
  rw [State.recheck_changes]
@[simp] theorem State.recheck_management (s : State) (f : Fingerprint) (w : Waiter) : (s.recheck f w).management = s.management := by
  rw [State.recheck_changes]
@[simp] theorem State.recheck_staging (s : State) (f : Fingerprint) (w : Waiter) : (s.recheck f w).staging = s.staging := by
  rw [State.recheck_changes]
@[simp] theorem State.recheck_now (s : State) (f : Fingerprint) (w : Waiter) : (s.recheck f w).now = s.now := by
  rw [State.recheck_changes]
@[simp] theorem State.recheck_choices (s : State) (f : Fingerprint) (w : Waiter) : (s.recheck f w).choices = s.choices := by
  rw [State.recheck_changes]
@[simp] theorem State.recheck_sent (s : State) (f : Fingerprint) (w : Waiter) : (s.recheck f w).sent = s.sent := by
  rw [State.recheck_changes]
@[simp] theorem State.recheck_pending (s : State) (f : Fingerprint) (w : Waiter) : (s.recheck f w).pending = s.pending := by
  rw [State.recheck_changes]

theorem State.workWaitQueueUpTo_changes (s : State) (n : Nat) :
    (s.workWaitQueueUpTo n) = { s with
      streams := (s.workWaitQueueUpTo n).streams, resolution := (s.workWaitQueueUpTo n).resolution
      bus := (s.workWaitQueueUpTo n).bus } := by
  induction n generalizing s with
  | zero => rfl
  | succ n ih =>
    generalize h : (s.workWaitQueueUpTo (n + 1)) = t
    simp only [State.workWaitQueueUpTo] at h
    repeat' split at h
    all_goals subst h; first | rfl | (apply State.ext <;> first | rfl | (simp; done) | (rw [ih]; simp; done))

@[simp] theorem State.workWaitQueueUpTo_station (s : State) (n : Nat) : (s.workWaitQueueUpTo n).station = s.station := by
  rw [State.workWaitQueueUpTo_changes]
@[simp] theorem State.workWaitQueueUpTo_hold (s : State) (n : Nat) : (s.workWaitQueueUpTo n).hold = s.hold := by
  rw [State.workWaitQueueUpTo_changes]
@[simp] theorem State.workWaitQueueUpTo_quiet (s : State) (n : Nat) : (s.workWaitQueueUpTo n).quiet = s.quiet := by
  rw [State.workWaitQueueUpTo_changes]
@[simp] theorem State.workWaitQueueUpTo_settings (s : State) (n : Nat) : (s.workWaitQueueUpTo n).settings = s.settings := by
  rw [State.workWaitQueueUpTo_changes]
@[simp] theorem State.workWaitQueueUpTo_clearPosition (s : State) (n : Nat) : (s.workWaitQueueUpTo n).clearPosition = s.clearPosition := by
  rw [State.workWaitQueueUpTo_changes]
@[simp] theorem State.workWaitQueueUpTo_engines (s : State) (n : Nat) : (s.workWaitQueueUpTo n).engines = s.engines := by
  rw [State.workWaitQueueUpTo_changes]
@[simp] theorem State.workWaitQueueUpTo_lastAssigned (s : State) (n : Nat) : (s.workWaitQueueUpTo n).lastAssigned = s.lastAssigned := by
  rw [State.workWaitQueueUpTo_changes]
@[simp] theorem State.workWaitQueueUpTo_digestQueue (s : State) (n : Nat) : (s.workWaitQueueUpTo n).digestQueue = s.digestQueue := by
  rw [State.workWaitQueueUpTo_changes]
@[simp] theorem State.workWaitQueueUpTo_index (s : State) (n : Nat) : (s.workWaitQueueUpTo n).index = s.index := by
  rw [State.workWaitQueueUpTo_changes]
@[simp] theorem State.workWaitQueueUpTo_containers (s : State) (n : Nat) : (s.workWaitQueueUpTo n).containers = s.containers := by
  rw [State.workWaitQueueUpTo_changes]
@[simp] theorem State.workWaitQueueUpTo_sealUnit (s : State) (n : Nat) : (s.workWaitQueueUpTo n).sealUnit = s.sealUnit := by
  rw [State.workWaitQueueUpTo_changes]
@[simp] theorem State.workWaitQueueUpTo_sealLineLow (s : State) (n : Nat) : (s.workWaitQueueUpTo n).sealLineLow = s.sealLineLow := by
  rw [State.workWaitQueueUpTo_changes]
@[simp] theorem State.workWaitQueueUpTo_store (s : State) (n : Nat) : (s.workWaitQueueUpTo n).store = s.store := by
  rw [State.workWaitQueueUpTo_changes]
@[simp] theorem State.workWaitQueueUpTo_walker (s : State) (n : Nat) : (s.workWaitQueueUpTo n).walker = s.walker := by
  rw [State.workWaitQueueUpTo_changes]
@[simp] theorem State.workWaitQueueUpTo_management (s : State) (n : Nat) : (s.workWaitQueueUpTo n).management = s.management := by
  rw [State.workWaitQueueUpTo_changes]
@[simp] theorem State.workWaitQueueUpTo_staging (s : State) (n : Nat) : (s.workWaitQueueUpTo n).staging = s.staging := by
  rw [State.workWaitQueueUpTo_changes]
@[simp] theorem State.workWaitQueueUpTo_now (s : State) (n : Nat) : (s.workWaitQueueUpTo n).now = s.now := by
  rw [State.workWaitQueueUpTo_changes]
@[simp] theorem State.workWaitQueueUpTo_choices (s : State) (n : Nat) : (s.workWaitQueueUpTo n).choices = s.choices := by
  rw [State.workWaitQueueUpTo_changes]
@[simp] theorem State.workWaitQueueUpTo_sent (s : State) (n : Nat) : (s.workWaitQueueUpTo n).sent = s.sent := by
  rw [State.workWaitQueueUpTo_changes]
@[simp] theorem State.workWaitQueueUpTo_pending (s : State) (n : Nat) : (s.workWaitQueueUpTo n).pending = s.pending := by
  rw [State.workWaitQueueUpTo_changes]

theorem State.workWaitQueue_changes (s : State) :
    (s.workWaitQueue) = { s with
      streams := (s.workWaitQueue).streams, resolution := (s.workWaitQueue).resolution
      bus := (s.workWaitQueue).bus } := by
  exact s.workWaitQueueUpTo_changes _

@[simp] theorem State.workWaitQueue_station (s : State) : (s.workWaitQueue).station = s.station := by
  rw [State.workWaitQueue_changes]
@[simp] theorem State.workWaitQueue_hold (s : State) : (s.workWaitQueue).hold = s.hold := by
  rw [State.workWaitQueue_changes]
@[simp] theorem State.workWaitQueue_quiet (s : State) : (s.workWaitQueue).quiet = s.quiet := by
  rw [State.workWaitQueue_changes]
@[simp] theorem State.workWaitQueue_settings (s : State) : (s.workWaitQueue).settings = s.settings := by
  rw [State.workWaitQueue_changes]
@[simp] theorem State.workWaitQueue_clearPosition (s : State) : (s.workWaitQueue).clearPosition = s.clearPosition := by
  rw [State.workWaitQueue_changes]
@[simp] theorem State.workWaitQueue_engines (s : State) : (s.workWaitQueue).engines = s.engines := by
  rw [State.workWaitQueue_changes]
@[simp] theorem State.workWaitQueue_lastAssigned (s : State) : (s.workWaitQueue).lastAssigned = s.lastAssigned := by
  rw [State.workWaitQueue_changes]
@[simp] theorem State.workWaitQueue_digestQueue (s : State) : (s.workWaitQueue).digestQueue = s.digestQueue := by
  rw [State.workWaitQueue_changes]
@[simp] theorem State.workWaitQueue_index (s : State) : (s.workWaitQueue).index = s.index := by
  rw [State.workWaitQueue_changes]
@[simp] theorem State.workWaitQueue_containers (s : State) : (s.workWaitQueue).containers = s.containers := by
  rw [State.workWaitQueue_changes]
@[simp] theorem State.workWaitQueue_sealUnit (s : State) : (s.workWaitQueue).sealUnit = s.sealUnit := by
  rw [State.workWaitQueue_changes]
@[simp] theorem State.workWaitQueue_sealLineLow (s : State) : (s.workWaitQueue).sealLineLow = s.sealLineLow := by
  rw [State.workWaitQueue_changes]
@[simp] theorem State.workWaitQueue_store (s : State) : (s.workWaitQueue).store = s.store := by
  rw [State.workWaitQueue_changes]
@[simp] theorem State.workWaitQueue_walker (s : State) : (s.workWaitQueue).walker = s.walker := by
  rw [State.workWaitQueue_changes]
@[simp] theorem State.workWaitQueue_management (s : State) : (s.workWaitQueue).management = s.management := by
  rw [State.workWaitQueue_changes]
@[simp] theorem State.workWaitQueue_staging (s : State) : (s.workWaitQueue).staging = s.staging := by
  rw [State.workWaitQueue_changes]
@[simp] theorem State.workWaitQueue_now (s : State) : (s.workWaitQueue).now = s.now := by
  rw [State.workWaitQueue_changes]
@[simp] theorem State.workWaitQueue_choices (s : State) : (s.workWaitQueue).choices = s.choices := by
  rw [State.workWaitQueue_changes]
@[simp] theorem State.workWaitQueue_sent (s : State) : (s.workWaitQueue).sent = s.sent := by
  rw [State.workWaitQueue_changes]
@[simp] theorem State.workWaitQueue_pending (s : State) : (s.workWaitQueue).pending = s.pending := by
  rw [State.workWaitQueue_changes]

theorem State.freeAsk_changes (s : State) (e : AskEntry) :
    (s.freeAsk e) = { s with
      streams := (s.freeAsk e).streams, resolution := (s.freeAsk e).resolution
      bus := (s.freeAsk e).bus } := by
  apply State.ext <;> simp [State.freeAsk]

@[simp] theorem State.freeAsk_station (s : State) (e : AskEntry) : (s.freeAsk e).station = s.station := by
  rw [State.freeAsk_changes]
@[simp] theorem State.freeAsk_hold (s : State) (e : AskEntry) : (s.freeAsk e).hold = s.hold := by
  rw [State.freeAsk_changes]
@[simp] theorem State.freeAsk_quiet (s : State) (e : AskEntry) : (s.freeAsk e).quiet = s.quiet := by
  rw [State.freeAsk_changes]
@[simp] theorem State.freeAsk_settings (s : State) (e : AskEntry) : (s.freeAsk e).settings = s.settings := by
  rw [State.freeAsk_changes]
@[simp] theorem State.freeAsk_clearPosition (s : State) (e : AskEntry) : (s.freeAsk e).clearPosition = s.clearPosition := by
  rw [State.freeAsk_changes]
@[simp] theorem State.freeAsk_engines (s : State) (e : AskEntry) : (s.freeAsk e).engines = s.engines := by
  rw [State.freeAsk_changes]
@[simp] theorem State.freeAsk_lastAssigned (s : State) (e : AskEntry) : (s.freeAsk e).lastAssigned = s.lastAssigned := by
  rw [State.freeAsk_changes]
@[simp] theorem State.freeAsk_digestQueue (s : State) (e : AskEntry) : (s.freeAsk e).digestQueue = s.digestQueue := by
  rw [State.freeAsk_changes]
@[simp] theorem State.freeAsk_index (s : State) (e : AskEntry) : (s.freeAsk e).index = s.index := by
  rw [State.freeAsk_changes]
@[simp] theorem State.freeAsk_containers (s : State) (e : AskEntry) : (s.freeAsk e).containers = s.containers := by
  rw [State.freeAsk_changes]
@[simp] theorem State.freeAsk_sealUnit (s : State) (e : AskEntry) : (s.freeAsk e).sealUnit = s.sealUnit := by
  rw [State.freeAsk_changes]
@[simp] theorem State.freeAsk_sealLineLow (s : State) (e : AskEntry) : (s.freeAsk e).sealLineLow = s.sealLineLow := by
  rw [State.freeAsk_changes]
@[simp] theorem State.freeAsk_store (s : State) (e : AskEntry) : (s.freeAsk e).store = s.store := by
  rw [State.freeAsk_changes]
@[simp] theorem State.freeAsk_walker (s : State) (e : AskEntry) : (s.freeAsk e).walker = s.walker := by
  rw [State.freeAsk_changes]
@[simp] theorem State.freeAsk_management (s : State) (e : AskEntry) : (s.freeAsk e).management = s.management := by
  rw [State.freeAsk_changes]
@[simp] theorem State.freeAsk_staging (s : State) (e : AskEntry) : (s.freeAsk e).staging = s.staging := by
  rw [State.freeAsk_changes]
@[simp] theorem State.freeAsk_now (s : State) (e : AskEntry) : (s.freeAsk e).now = s.now := by
  rw [State.freeAsk_changes]
@[simp] theorem State.freeAsk_choices (s : State) (e : AskEntry) : (s.freeAsk e).choices = s.choices := by
  rw [State.freeAsk_changes]
@[simp] theorem State.freeAsk_sent (s : State) (e : AskEntry) : (s.freeAsk e).sent = s.sent := by
  rw [State.freeAsk_changes]
@[simp] theorem State.freeAsk_pending (s : State) (e : AskEntry) : (s.freeAsk e).pending = s.pending := by
  rw [State.freeAsk_changes]

theorem State.storeOrFree_changes (s : State) (e : AskEntry) :
    (s.storeOrFree e) = { s with
      streams := (s.storeOrFree e).streams, resolution := (s.storeOrFree e).resolution
      bus := (s.storeOrFree e).bus, containers := (s.storeOrFree e).containers
      store := (s.storeOrFree e).store } := by
  generalize h : (s.storeOrFree e) = t
  simp only [State.storeOrFree] at h
  repeat' split at h
  all_goals subst h; apply State.ext <;> simp

@[simp] theorem State.storeOrFree_station (s : State) (e : AskEntry) : (s.storeOrFree e).station = s.station := by
  rw [State.storeOrFree_changes]
@[simp] theorem State.storeOrFree_hold (s : State) (e : AskEntry) : (s.storeOrFree e).hold = s.hold := by
  rw [State.storeOrFree_changes]
@[simp] theorem State.storeOrFree_quiet (s : State) (e : AskEntry) : (s.storeOrFree e).quiet = s.quiet := by
  rw [State.storeOrFree_changes]
@[simp] theorem State.storeOrFree_settings (s : State) (e : AskEntry) : (s.storeOrFree e).settings = s.settings := by
  rw [State.storeOrFree_changes]
@[simp] theorem State.storeOrFree_clearPosition (s : State) (e : AskEntry) : (s.storeOrFree e).clearPosition = s.clearPosition := by
  rw [State.storeOrFree_changes]
@[simp] theorem State.storeOrFree_engines (s : State) (e : AskEntry) : (s.storeOrFree e).engines = s.engines := by
  rw [State.storeOrFree_changes]
@[simp] theorem State.storeOrFree_lastAssigned (s : State) (e : AskEntry) : (s.storeOrFree e).lastAssigned = s.lastAssigned := by
  rw [State.storeOrFree_changes]
@[simp] theorem State.storeOrFree_digestQueue (s : State) (e : AskEntry) : (s.storeOrFree e).digestQueue = s.digestQueue := by
  rw [State.storeOrFree_changes]
@[simp] theorem State.storeOrFree_index (s : State) (e : AskEntry) : (s.storeOrFree e).index = s.index := by
  rw [State.storeOrFree_changes]
@[simp] theorem State.storeOrFree_sealUnit (s : State) (e : AskEntry) : (s.storeOrFree e).sealUnit = s.sealUnit := by
  rw [State.storeOrFree_changes]
@[simp] theorem State.storeOrFree_sealLineLow (s : State) (e : AskEntry) : (s.storeOrFree e).sealLineLow = s.sealLineLow := by
  rw [State.storeOrFree_changes]
@[simp] theorem State.storeOrFree_walker (s : State) (e : AskEntry) : (s.storeOrFree e).walker = s.walker := by
  rw [State.storeOrFree_changes]
@[simp] theorem State.storeOrFree_management (s : State) (e : AskEntry) : (s.storeOrFree e).management = s.management := by
  rw [State.storeOrFree_changes]
@[simp] theorem State.storeOrFree_staging (s : State) (e : AskEntry) : (s.storeOrFree e).staging = s.staging := by
  rw [State.storeOrFree_changes]
@[simp] theorem State.storeOrFree_now (s : State) (e : AskEntry) : (s.storeOrFree e).now = s.now := by
  rw [State.storeOrFree_changes]
@[simp] theorem State.storeOrFree_choices (s : State) (e : AskEntry) : (s.storeOrFree e).choices = s.choices := by
  rw [State.storeOrFree_changes]
@[simp] theorem State.storeOrFree_sent (s : State) (e : AskEntry) : (s.storeOrFree e).sent = s.sent := by
  rw [State.storeOrFree_changes]
@[simp] theorem State.storeOrFree_pending (s : State) (e : AskEntry) : (s.storeOrFree e).pending = s.pending := by
  rw [State.storeOrFree_changes]

theorem State.remoteFound_changes (s : State) (f : Fingerprint) (l : Location) (h : Bool) :
    (s.remoteFound f l h) = { s with
      streams := (s.remoteFound f l h).streams, resolution := (s.remoteFound f l h).resolution
      bus := (s.remoteFound f l h).bus } := by
  generalize h' : (s.remoteFound f l h) = t
  simp only [State.remoteFound] at h'
  repeat' split at h'
  all_goals subst h'; apply State.ext <;> simp

@[simp] theorem State.remoteFound_station (s : State) (f : Fingerprint) (l : Location) (h : Bool) : (s.remoteFound f l h).station = s.station := by
  rw [State.remoteFound_changes]
@[simp] theorem State.remoteFound_hold (s : State) (f : Fingerprint) (l : Location) (h : Bool) : (s.remoteFound f l h).hold = s.hold := by
  rw [State.remoteFound_changes]
@[simp] theorem State.remoteFound_quiet (s : State) (f : Fingerprint) (l : Location) (h : Bool) : (s.remoteFound f l h).quiet = s.quiet := by
  rw [State.remoteFound_changes]
@[simp] theorem State.remoteFound_settings (s : State) (f : Fingerprint) (l : Location) (h : Bool) : (s.remoteFound f l h).settings = s.settings := by
  rw [State.remoteFound_changes]
@[simp] theorem State.remoteFound_clearPosition (s : State) (f : Fingerprint) (l : Location) (h : Bool) : (s.remoteFound f l h).clearPosition = s.clearPosition := by
  rw [State.remoteFound_changes]
@[simp] theorem State.remoteFound_engines (s : State) (f : Fingerprint) (l : Location) (h : Bool) : (s.remoteFound f l h).engines = s.engines := by
  rw [State.remoteFound_changes]
@[simp] theorem State.remoteFound_lastAssigned (s : State) (f : Fingerprint) (l : Location) (h : Bool) : (s.remoteFound f l h).lastAssigned = s.lastAssigned := by
  rw [State.remoteFound_changes]
@[simp] theorem State.remoteFound_digestQueue (s : State) (f : Fingerprint) (l : Location) (h : Bool) : (s.remoteFound f l h).digestQueue = s.digestQueue := by
  rw [State.remoteFound_changes]
@[simp] theorem State.remoteFound_index (s : State) (f : Fingerprint) (l : Location) (h : Bool) : (s.remoteFound f l h).index = s.index := by
  rw [State.remoteFound_changes]
@[simp] theorem State.remoteFound_containers (s : State) (f : Fingerprint) (l : Location) (h : Bool) : (s.remoteFound f l h).containers = s.containers := by
  rw [State.remoteFound_changes]
@[simp] theorem State.remoteFound_sealUnit (s : State) (f : Fingerprint) (l : Location) (h : Bool) : (s.remoteFound f l h).sealUnit = s.sealUnit := by
  rw [State.remoteFound_changes]
@[simp] theorem State.remoteFound_sealLineLow (s : State) (f : Fingerprint) (l : Location) (h : Bool) : (s.remoteFound f l h).sealLineLow = s.sealLineLow := by
  rw [State.remoteFound_changes]
@[simp] theorem State.remoteFound_store (s : State) (f : Fingerprint) (l : Location) (h : Bool) : (s.remoteFound f l h).store = s.store := by
  rw [State.remoteFound_changes]
@[simp] theorem State.remoteFound_walker (s : State) (f : Fingerprint) (l : Location) (h : Bool) : (s.remoteFound f l h).walker = s.walker := by
  rw [State.remoteFound_changes]
@[simp] theorem State.remoteFound_management (s : State) (f : Fingerprint) (l : Location) (h : Bool) : (s.remoteFound f l h).management = s.management := by
  rw [State.remoteFound_changes]
@[simp] theorem State.remoteFound_staging (s : State) (f : Fingerprint) (l : Location) (h : Bool) : (s.remoteFound f l h).staging = s.staging := by
  rw [State.remoteFound_changes]
@[simp] theorem State.remoteFound_now (s : State) (f : Fingerprint) (l : Location) (h : Bool) : (s.remoteFound f l h).now = s.now := by
  rw [State.remoteFound_changes]
@[simp] theorem State.remoteFound_choices (s : State) (f : Fingerprint) (l : Location) (h : Bool) : (s.remoteFound f l h).choices = s.choices := by
  rw [State.remoteFound_changes]
@[simp] theorem State.remoteFound_sent (s : State) (f : Fingerprint) (l : Location) (h : Bool) : (s.remoteFound f l h).sent = s.sent := by
  rw [State.remoteFound_changes]
@[simp] theorem State.remoteFound_pending (s : State) (f : Fingerprint) (l : Location) (h : Bool) : (s.remoteFound f l h).pending = s.pending := by
  rw [State.remoteFound_changes]

theorem State.yieldTo_changes (s : State) (sender : Byte) (f : Fingerprint) :
    (s.yieldTo sender f) = { s with
      resolution := (s.yieldTo sender f).resolution, bus := (s.yieldTo sender f).bus } := by
  generalize h : (s.yieldTo sender f) = t
  simp only [State.yieldTo] at h
  repeat' split at h
  all_goals subst h; apply State.ext <;> simp

@[simp] theorem State.yieldTo_station (s : State) (sender : Byte) (f : Fingerprint) : (s.yieldTo sender f).station = s.station := by
  rw [State.yieldTo_changes]
@[simp] theorem State.yieldTo_hold (s : State) (sender : Byte) (f : Fingerprint) : (s.yieldTo sender f).hold = s.hold := by
  rw [State.yieldTo_changes]
@[simp] theorem State.yieldTo_quiet (s : State) (sender : Byte) (f : Fingerprint) : (s.yieldTo sender f).quiet = s.quiet := by
  rw [State.yieldTo_changes]
@[simp] theorem State.yieldTo_settings (s : State) (sender : Byte) (f : Fingerprint) : (s.yieldTo sender f).settings = s.settings := by
  rw [State.yieldTo_changes]
@[simp] theorem State.yieldTo_clearPosition (s : State) (sender : Byte) (f : Fingerprint) : (s.yieldTo sender f).clearPosition = s.clearPosition := by
  rw [State.yieldTo_changes]
@[simp] theorem State.yieldTo_streams (s : State) (sender : Byte) (f : Fingerprint) : (s.yieldTo sender f).streams = s.streams := by
  rw [State.yieldTo_changes]
@[simp] theorem State.yieldTo_engines (s : State) (sender : Byte) (f : Fingerprint) : (s.yieldTo sender f).engines = s.engines := by
  rw [State.yieldTo_changes]
@[simp] theorem State.yieldTo_lastAssigned (s : State) (sender : Byte) (f : Fingerprint) : (s.yieldTo sender f).lastAssigned = s.lastAssigned := by
  rw [State.yieldTo_changes]
@[simp] theorem State.yieldTo_digestQueue (s : State) (sender : Byte) (f : Fingerprint) : (s.yieldTo sender f).digestQueue = s.digestQueue := by
  rw [State.yieldTo_changes]
@[simp] theorem State.yieldTo_index (s : State) (sender : Byte) (f : Fingerprint) : (s.yieldTo sender f).index = s.index := by
  rw [State.yieldTo_changes]
@[simp] theorem State.yieldTo_containers (s : State) (sender : Byte) (f : Fingerprint) : (s.yieldTo sender f).containers = s.containers := by
  rw [State.yieldTo_changes]
@[simp] theorem State.yieldTo_sealUnit (s : State) (sender : Byte) (f : Fingerprint) : (s.yieldTo sender f).sealUnit = s.sealUnit := by
  rw [State.yieldTo_changes]
@[simp] theorem State.yieldTo_sealLineLow (s : State) (sender : Byte) (f : Fingerprint) : (s.yieldTo sender f).sealLineLow = s.sealLineLow := by
  rw [State.yieldTo_changes]
@[simp] theorem State.yieldTo_store (s : State) (sender : Byte) (f : Fingerprint) : (s.yieldTo sender f).store = s.store := by
  rw [State.yieldTo_changes]
@[simp] theorem State.yieldTo_walker (s : State) (sender : Byte) (f : Fingerprint) : (s.yieldTo sender f).walker = s.walker := by
  rw [State.yieldTo_changes]
@[simp] theorem State.yieldTo_management (s : State) (sender : Byte) (f : Fingerprint) : (s.yieldTo sender f).management = s.management := by
  rw [State.yieldTo_changes]
@[simp] theorem State.yieldTo_staging (s : State) (sender : Byte) (f : Fingerprint) : (s.yieldTo sender f).staging = s.staging := by
  rw [State.yieldTo_changes]
@[simp] theorem State.yieldTo_now (s : State) (sender : Byte) (f : Fingerprint) : (s.yieldTo sender f).now = s.now := by
  rw [State.yieldTo_changes]
@[simp] theorem State.yieldTo_choices (s : State) (sender : Byte) (f : Fingerprint) : (s.yieldTo sender f).choices = s.choices := by
  rw [State.yieldTo_changes]
@[simp] theorem State.yieldTo_sent (s : State) (sender : Byte) (f : Fingerprint) : (s.yieldTo sender f).sent = s.sent := by
  rw [State.yieldTo_changes]
@[simp] theorem State.yieldTo_pending (s : State) (sender : Byte) (f : Fingerprint) : (s.yieldTo sender f).pending = s.pending := by
  rw [State.yieldTo_changes]

theorem State.askLeft_changes (s : State) (tag : Byte) (f : Fingerprint) :
    (s.askLeft tag f) = { s with
      resolution := (s.askLeft tag f).resolution } := by
  generalize h : (s.askLeft tag f) = t
  simp only [State.askLeft] at h
  repeat' split at h
  all_goals subst h; apply State.ext <;> simp

@[simp] theorem State.askLeft_station (s : State) (tag : Byte) (f : Fingerprint) : (s.askLeft tag f).station = s.station := by
  rw [State.askLeft_changes]
@[simp] theorem State.askLeft_hold (s : State) (tag : Byte) (f : Fingerprint) : (s.askLeft tag f).hold = s.hold := by
  rw [State.askLeft_changes]
@[simp] theorem State.askLeft_quiet (s : State) (tag : Byte) (f : Fingerprint) : (s.askLeft tag f).quiet = s.quiet := by
  rw [State.askLeft_changes]
@[simp] theorem State.askLeft_settings (s : State) (tag : Byte) (f : Fingerprint) : (s.askLeft tag f).settings = s.settings := by
  rw [State.askLeft_changes]
@[simp] theorem State.askLeft_clearPosition (s : State) (tag : Byte) (f : Fingerprint) : (s.askLeft tag f).clearPosition = s.clearPosition := by
  rw [State.askLeft_changes]
@[simp] theorem State.askLeft_streams (s : State) (tag : Byte) (f : Fingerprint) : (s.askLeft tag f).streams = s.streams := by
  rw [State.askLeft_changes]
@[simp] theorem State.askLeft_engines (s : State) (tag : Byte) (f : Fingerprint) : (s.askLeft tag f).engines = s.engines := by
  rw [State.askLeft_changes]
@[simp] theorem State.askLeft_lastAssigned (s : State) (tag : Byte) (f : Fingerprint) : (s.askLeft tag f).lastAssigned = s.lastAssigned := by
  rw [State.askLeft_changes]
@[simp] theorem State.askLeft_digestQueue (s : State) (tag : Byte) (f : Fingerprint) : (s.askLeft tag f).digestQueue = s.digestQueue := by
  rw [State.askLeft_changes]
@[simp] theorem State.askLeft_index (s : State) (tag : Byte) (f : Fingerprint) : (s.askLeft tag f).index = s.index := by
  rw [State.askLeft_changes]
@[simp] theorem State.askLeft_bus (s : State) (tag : Byte) (f : Fingerprint) : (s.askLeft tag f).bus = s.bus := by
  rw [State.askLeft_changes]
@[simp] theorem State.askLeft_containers (s : State) (tag : Byte) (f : Fingerprint) : (s.askLeft tag f).containers = s.containers := by
  rw [State.askLeft_changes]
@[simp] theorem State.askLeft_sealUnit (s : State) (tag : Byte) (f : Fingerprint) : (s.askLeft tag f).sealUnit = s.sealUnit := by
  rw [State.askLeft_changes]
@[simp] theorem State.askLeft_sealLineLow (s : State) (tag : Byte) (f : Fingerprint) : (s.askLeft tag f).sealLineLow = s.sealLineLow := by
  rw [State.askLeft_changes]
@[simp] theorem State.askLeft_store (s : State) (tag : Byte) (f : Fingerprint) : (s.askLeft tag f).store = s.store := by
  rw [State.askLeft_changes]
@[simp] theorem State.askLeft_walker (s : State) (tag : Byte) (f : Fingerprint) : (s.askLeft tag f).walker = s.walker := by
  rw [State.askLeft_changes]
@[simp] theorem State.askLeft_management (s : State) (tag : Byte) (f : Fingerprint) : (s.askLeft tag f).management = s.management := by
  rw [State.askLeft_changes]
@[simp] theorem State.askLeft_staging (s : State) (tag : Byte) (f : Fingerprint) : (s.askLeft tag f).staging = s.staging := by
  rw [State.askLeft_changes]
@[simp] theorem State.askLeft_now (s : State) (tag : Byte) (f : Fingerprint) : (s.askLeft tag f).now = s.now := by
  rw [State.askLeft_changes]
@[simp] theorem State.askLeft_choices (s : State) (tag : Byte) (f : Fingerprint) : (s.askLeft tag f).choices = s.choices := by
  rw [State.askLeft_changes]
@[simp] theorem State.askLeft_sent (s : State) (tag : Byte) (f : Fingerprint) : (s.askLeft tag f).sent = s.sent := by
  rw [State.askLeft_changes]
@[simp] theorem State.askLeft_pending (s : State) (tag : Byte) (f : Fingerprint) : (s.askLeft tag f).pending = s.pending := by
  rw [State.askLeft_changes]

theorem State.withdrawFor_changes (s : State) (tag : Byte) :
    (s.withdrawFor tag) = { s with
      streams := (s.withdrawFor tag).streams, resolution := (s.withdrawFor tag).resolution
      bus := (s.withdrawFor tag).bus, containers := (s.withdrawFor tag).containers
      store := (s.withdrawFor tag).store } := by
  generalize h : (s.withdrawFor tag) = t
  simp only [State.withdrawFor] at h
  repeat' split at h
  all_goals subst h; apply State.ext <;> simp

@[simp] theorem State.withdrawFor_station (s : State) (tag : Byte) : (s.withdrawFor tag).station = s.station := by
  rw [State.withdrawFor_changes]
@[simp] theorem State.withdrawFor_hold (s : State) (tag : Byte) : (s.withdrawFor tag).hold = s.hold := by
  rw [State.withdrawFor_changes]
@[simp] theorem State.withdrawFor_quiet (s : State) (tag : Byte) : (s.withdrawFor tag).quiet = s.quiet := by
  rw [State.withdrawFor_changes]
@[simp] theorem State.withdrawFor_settings (s : State) (tag : Byte) : (s.withdrawFor tag).settings = s.settings := by
  rw [State.withdrawFor_changes]
@[simp] theorem State.withdrawFor_clearPosition (s : State) (tag : Byte) : (s.withdrawFor tag).clearPosition = s.clearPosition := by
  rw [State.withdrawFor_changes]
@[simp] theorem State.withdrawFor_engines (s : State) (tag : Byte) : (s.withdrawFor tag).engines = s.engines := by
  rw [State.withdrawFor_changes]
@[simp] theorem State.withdrawFor_lastAssigned (s : State) (tag : Byte) : (s.withdrawFor tag).lastAssigned = s.lastAssigned := by
  rw [State.withdrawFor_changes]
@[simp] theorem State.withdrawFor_digestQueue (s : State) (tag : Byte) : (s.withdrawFor tag).digestQueue = s.digestQueue := by
  rw [State.withdrawFor_changes]
@[simp] theorem State.withdrawFor_index (s : State) (tag : Byte) : (s.withdrawFor tag).index = s.index := by
  rw [State.withdrawFor_changes]
@[simp] theorem State.withdrawFor_sealUnit (s : State) (tag : Byte) : (s.withdrawFor tag).sealUnit = s.sealUnit := by
  rw [State.withdrawFor_changes]
@[simp] theorem State.withdrawFor_sealLineLow (s : State) (tag : Byte) : (s.withdrawFor tag).sealLineLow = s.sealLineLow := by
  rw [State.withdrawFor_changes]
@[simp] theorem State.withdrawFor_walker (s : State) (tag : Byte) : (s.withdrawFor tag).walker = s.walker := by
  rw [State.withdrawFor_changes]
@[simp] theorem State.withdrawFor_management (s : State) (tag : Byte) : (s.withdrawFor tag).management = s.management := by
  rw [State.withdrawFor_changes]
@[simp] theorem State.withdrawFor_staging (s : State) (tag : Byte) : (s.withdrawFor tag).staging = s.staging := by
  rw [State.withdrawFor_changes]
@[simp] theorem State.withdrawFor_now (s : State) (tag : Byte) : (s.withdrawFor tag).now = s.now := by
  rw [State.withdrawFor_changes]
@[simp] theorem State.withdrawFor_choices (s : State) (tag : Byte) : (s.withdrawFor tag).choices = s.choices := by
  rw [State.withdrawFor_changes]
@[simp] theorem State.withdrawFor_sent (s : State) (tag : Byte) : (s.withdrawFor tag).sent = s.sent := by
  rw [State.withdrawFor_changes]
@[simp] theorem State.withdrawFor_pending (s : State) (tag : Byte) : (s.withdrawFor tag).pending = s.pending := by
  rw [State.withdrawFor_changes]

theorem State.dropWaiters_changes (s : State) (i : Fin 16) :
    (s.dropWaiters i) = { s with
      streams := (s.dropWaiters i).streams, resolution := (s.dropWaiters i).resolution
      bus := (s.dropWaiters i).bus, containers := (s.dropWaiters i).containers
      store := (s.dropWaiters i).store, choices := (s.dropWaiters i).choices } := by
  have key : ∀ (l : List Byte) (u : State), (l.foldl State.withdrawFor u) = { u with streams := (l.foldl State.withdrawFor u).streams, resolution := (l.foldl State.withdrawFor u).resolution, bus := (l.foldl State.withdrawFor u).bus, containers := (l.foldl State.withdrawFor u).containers, store := (l.foldl State.withdrawFor u).store } := by
    intro l
    induction l with
    | nil => intro u; rfl
    | cons a rest ih => intro u; rw [List.foldl_cons, ih]; apply State.ext <;> simp
  generalize h : (s.dropWaiters i) = t
  simp only [State.dropWaiters, State.anyOrder] at h
  rw [key] at h
  repeat' split at h
  all_goals subst h; apply State.ext <;> simp

@[simp] theorem State.dropWaiters_station (s : State) (i : Fin 16) : (s.dropWaiters i).station = s.station := by
  rw [State.dropWaiters_changes]
@[simp] theorem State.dropWaiters_hold (s : State) (i : Fin 16) : (s.dropWaiters i).hold = s.hold := by
  rw [State.dropWaiters_changes]
@[simp] theorem State.dropWaiters_quiet (s : State) (i : Fin 16) : (s.dropWaiters i).quiet = s.quiet := by
  rw [State.dropWaiters_changes]
@[simp] theorem State.dropWaiters_settings (s : State) (i : Fin 16) : (s.dropWaiters i).settings = s.settings := by
  rw [State.dropWaiters_changes]
@[simp] theorem State.dropWaiters_clearPosition (s : State) (i : Fin 16) : (s.dropWaiters i).clearPosition = s.clearPosition := by
  rw [State.dropWaiters_changes]
@[simp] theorem State.dropWaiters_engines (s : State) (i : Fin 16) : (s.dropWaiters i).engines = s.engines := by
  rw [State.dropWaiters_changes]
@[simp] theorem State.dropWaiters_lastAssigned (s : State) (i : Fin 16) : (s.dropWaiters i).lastAssigned = s.lastAssigned := by
  rw [State.dropWaiters_changes]
@[simp] theorem State.dropWaiters_digestQueue (s : State) (i : Fin 16) : (s.dropWaiters i).digestQueue = s.digestQueue := by
  rw [State.dropWaiters_changes]
@[simp] theorem State.dropWaiters_index (s : State) (i : Fin 16) : (s.dropWaiters i).index = s.index := by
  rw [State.dropWaiters_changes]
@[simp] theorem State.dropWaiters_sealUnit (s : State) (i : Fin 16) : (s.dropWaiters i).sealUnit = s.sealUnit := by
  rw [State.dropWaiters_changes]
@[simp] theorem State.dropWaiters_sealLineLow (s : State) (i : Fin 16) : (s.dropWaiters i).sealLineLow = s.sealLineLow := by
  rw [State.dropWaiters_changes]
@[simp] theorem State.dropWaiters_walker (s : State) (i : Fin 16) : (s.dropWaiters i).walker = s.walker := by
  rw [State.dropWaiters_changes]
@[simp] theorem State.dropWaiters_management (s : State) (i : Fin 16) : (s.dropWaiters i).management = s.management := by
  rw [State.dropWaiters_changes]
@[simp] theorem State.dropWaiters_staging (s : State) (i : Fin 16) : (s.dropWaiters i).staging = s.staging := by
  rw [State.dropWaiters_changes]
@[simp] theorem State.dropWaiters_now (s : State) (i : Fin 16) : (s.dropWaiters i).now = s.now := by
  rw [State.dropWaiters_changes]
@[simp] theorem State.dropWaiters_sent (s : State) (i : Fin 16) : (s.dropWaiters i).sent = s.sent := by
  rw [State.dropWaiters_changes]
@[simp] theorem State.dropWaiters_pending (s : State) (i : Fin 16) : (s.dropWaiters i).pending = s.pending := by
  rw [State.dropWaiters_changes]

theorem State.discardPending_changes (s : State) (i : Fin 16) :
    (s.discardPending i) = { s with
      streams := (s.discardPending i).streams, containers := (s.discardPending i).containers } := by
  have key : ∀ (l : List PendingSlot) (u : State), (l.foldl State.releaseChunk u) = { u with containers := (l.foldl State.releaseChunk u).containers } := by
    intro l
    induction l with
    | nil => intro u; rfl
    | cons a rest ih => intro u; rw [List.foldl_cons, ih]; apply State.ext <;> simp
  generalize h : (s.discardPending i) = t
  simp only [State.discardPending] at h
  rw [key] at h
  repeat' split at h
  all_goals subst h; apply State.ext <;> simp

@[simp] theorem State.discardPending_station (s : State) (i : Fin 16) : (s.discardPending i).station = s.station := by
  rw [State.discardPending_changes]
@[simp] theorem State.discardPending_hold (s : State) (i : Fin 16) : (s.discardPending i).hold = s.hold := by
  rw [State.discardPending_changes]
@[simp] theorem State.discardPending_quiet (s : State) (i : Fin 16) : (s.discardPending i).quiet = s.quiet := by
  rw [State.discardPending_changes]
@[simp] theorem State.discardPending_settings (s : State) (i : Fin 16) : (s.discardPending i).settings = s.settings := by
  rw [State.discardPending_changes]
@[simp] theorem State.discardPending_clearPosition (s : State) (i : Fin 16) : (s.discardPending i).clearPosition = s.clearPosition := by
  rw [State.discardPending_changes]
@[simp] theorem State.discardPending_engines (s : State) (i : Fin 16) : (s.discardPending i).engines = s.engines := by
  rw [State.discardPending_changes]
@[simp] theorem State.discardPending_lastAssigned (s : State) (i : Fin 16) : (s.discardPending i).lastAssigned = s.lastAssigned := by
  rw [State.discardPending_changes]
@[simp] theorem State.discardPending_digestQueue (s : State) (i : Fin 16) : (s.discardPending i).digestQueue = s.digestQueue := by
  rw [State.discardPending_changes]
@[simp] theorem State.discardPending_index (s : State) (i : Fin 16) : (s.discardPending i).index = s.index := by
  rw [State.discardPending_changes]
@[simp] theorem State.discardPending_resolution (s : State) (i : Fin 16) : (s.discardPending i).resolution = s.resolution := by
  rw [State.discardPending_changes]
@[simp] theorem State.discardPending_bus (s : State) (i : Fin 16) : (s.discardPending i).bus = s.bus := by
  rw [State.discardPending_changes]
@[simp] theorem State.discardPending_sealUnit (s : State) (i : Fin 16) : (s.discardPending i).sealUnit = s.sealUnit := by
  rw [State.discardPending_changes]
@[simp] theorem State.discardPending_sealLineLow (s : State) (i : Fin 16) : (s.discardPending i).sealLineLow = s.sealLineLow := by
  rw [State.discardPending_changes]
@[simp] theorem State.discardPending_store (s : State) (i : Fin 16) : (s.discardPending i).store = s.store := by
  rw [State.discardPending_changes]
@[simp] theorem State.discardPending_walker (s : State) (i : Fin 16) : (s.discardPending i).walker = s.walker := by
  rw [State.discardPending_changes]
@[simp] theorem State.discardPending_management (s : State) (i : Fin 16) : (s.discardPending i).management = s.management := by
  rw [State.discardPending_changes]
@[simp] theorem State.discardPending_staging (s : State) (i : Fin 16) : (s.discardPending i).staging = s.staging := by
  rw [State.discardPending_changes]
@[simp] theorem State.discardPending_now (s : State) (i : Fin 16) : (s.discardPending i).now = s.now := by
  rw [State.discardPending_changes]
@[simp] theorem State.discardPending_choices (s : State) (i : Fin 16) : (s.discardPending i).choices = s.choices := by
  rw [State.discardPending_changes]
@[simp] theorem State.discardPending_sent (s : State) (i : Fin 16) : (s.discardPending i).sent = s.sent := by
  rw [State.discardPending_changes]
@[simp] theorem State.discardPending_pending (s : State) (i : Fin 16) : (s.discardPending i).pending = s.pending := by
  rw [State.discardPending_changes]

theorem State.tearDown_changes (s : State) (i : Fin 16) (fate : DigestFate) :
    (s.tearDown i fate) = { s with
      streams := (s.tearDown i fate).streams, engines := (s.tearDown i fate).engines
      digestQueue := (s.tearDown i fate).digestQueue, index := (s.tearDown i fate).index
      resolution := (s.tearDown i fate).resolution, bus := (s.tearDown i fate).bus
      containers := (s.tearDown i fate).containers, store := (s.tearDown i fate).store
      choices := (s.tearDown i fate).choices } := by
  apply State.ext <;> simp [State.tearDown]

@[simp] theorem State.tearDown_station (s : State) (i : Fin 16) (fate : DigestFate) : (s.tearDown i fate).station = s.station := by
  rw [State.tearDown_changes]
@[simp] theorem State.tearDown_hold (s : State) (i : Fin 16) (fate : DigestFate) : (s.tearDown i fate).hold = s.hold := by
  rw [State.tearDown_changes]
@[simp] theorem State.tearDown_quiet (s : State) (i : Fin 16) (fate : DigestFate) : (s.tearDown i fate).quiet = s.quiet := by
  rw [State.tearDown_changes]
@[simp] theorem State.tearDown_settings (s : State) (i : Fin 16) (fate : DigestFate) : (s.tearDown i fate).settings = s.settings := by
  rw [State.tearDown_changes]
@[simp] theorem State.tearDown_clearPosition (s : State) (i : Fin 16) (fate : DigestFate) : (s.tearDown i fate).clearPosition = s.clearPosition := by
  rw [State.tearDown_changes]
@[simp] theorem State.tearDown_lastAssigned (s : State) (i : Fin 16) (fate : DigestFate) : (s.tearDown i fate).lastAssigned = s.lastAssigned := by
  rw [State.tearDown_changes]
@[simp] theorem State.tearDown_sealUnit (s : State) (i : Fin 16) (fate : DigestFate) : (s.tearDown i fate).sealUnit = s.sealUnit := by
  rw [State.tearDown_changes]
@[simp] theorem State.tearDown_sealLineLow (s : State) (i : Fin 16) (fate : DigestFate) : (s.tearDown i fate).sealLineLow = s.sealLineLow := by
  rw [State.tearDown_changes]
@[simp] theorem State.tearDown_walker (s : State) (i : Fin 16) (fate : DigestFate) : (s.tearDown i fate).walker = s.walker := by
  rw [State.tearDown_changes]
@[simp] theorem State.tearDown_management (s : State) (i : Fin 16) (fate : DigestFate) : (s.tearDown i fate).management = s.management := by
  rw [State.tearDown_changes]
@[simp] theorem State.tearDown_staging (s : State) (i : Fin 16) (fate : DigestFate) : (s.tearDown i fate).staging = s.staging := by
  rw [State.tearDown_changes]
@[simp] theorem State.tearDown_now (s : State) (i : Fin 16) (fate : DigestFate) : (s.tearDown i fate).now = s.now := by
  rw [State.tearDown_changes]
@[simp] theorem State.tearDown_sent (s : State) (i : Fin 16) (fate : DigestFate) : (s.tearDown i fate).sent = s.sent := by
  rw [State.tearDown_changes]
@[simp] theorem State.tearDown_pending (s : State) (i : Fin 16) (fate : DigestFate) : (s.tearDown i fate).pending = s.pending := by
  rw [State.tearDown_changes]

theorem State.abortRelease_changes (s : State) (i : Fin 16) :
    (s.abortRelease i) = { s with
      management := (s.abortRelease i).management } := by
  generalize h : (s.abortRelease i) = t
  simp only [State.abortRelease] at h
  repeat' split at h
  all_goals subst h; apply State.ext <;> simp

@[simp] theorem State.abortRelease_station (s : State) (i : Fin 16) : (s.abortRelease i).station = s.station := by
  rw [State.abortRelease_changes]
@[simp] theorem State.abortRelease_hold (s : State) (i : Fin 16) : (s.abortRelease i).hold = s.hold := by
  rw [State.abortRelease_changes]
@[simp] theorem State.abortRelease_quiet (s : State) (i : Fin 16) : (s.abortRelease i).quiet = s.quiet := by
  rw [State.abortRelease_changes]
@[simp] theorem State.abortRelease_settings (s : State) (i : Fin 16) : (s.abortRelease i).settings = s.settings := by
  rw [State.abortRelease_changes]
@[simp] theorem State.abortRelease_clearPosition (s : State) (i : Fin 16) : (s.abortRelease i).clearPosition = s.clearPosition := by
  rw [State.abortRelease_changes]
@[simp] theorem State.abortRelease_streams (s : State) (i : Fin 16) : (s.abortRelease i).streams = s.streams := by
  rw [State.abortRelease_changes]
@[simp] theorem State.abortRelease_engines (s : State) (i : Fin 16) : (s.abortRelease i).engines = s.engines := by
  rw [State.abortRelease_changes]
@[simp] theorem State.abortRelease_lastAssigned (s : State) (i : Fin 16) : (s.abortRelease i).lastAssigned = s.lastAssigned := by
  rw [State.abortRelease_changes]
@[simp] theorem State.abortRelease_digestQueue (s : State) (i : Fin 16) : (s.abortRelease i).digestQueue = s.digestQueue := by
  rw [State.abortRelease_changes]
@[simp] theorem State.abortRelease_index (s : State) (i : Fin 16) : (s.abortRelease i).index = s.index := by
  rw [State.abortRelease_changes]
@[simp] theorem State.abortRelease_resolution (s : State) (i : Fin 16) : (s.abortRelease i).resolution = s.resolution := by
  rw [State.abortRelease_changes]
@[simp] theorem State.abortRelease_bus (s : State) (i : Fin 16) : (s.abortRelease i).bus = s.bus := by
  rw [State.abortRelease_changes]
@[simp] theorem State.abortRelease_containers (s : State) (i : Fin 16) : (s.abortRelease i).containers = s.containers := by
  rw [State.abortRelease_changes]
@[simp] theorem State.abortRelease_sealUnit (s : State) (i : Fin 16) : (s.abortRelease i).sealUnit = s.sealUnit := by
  rw [State.abortRelease_changes]
@[simp] theorem State.abortRelease_sealLineLow (s : State) (i : Fin 16) : (s.abortRelease i).sealLineLow = s.sealLineLow := by
  rw [State.abortRelease_changes]
@[simp] theorem State.abortRelease_store (s : State) (i : Fin 16) : (s.abortRelease i).store = s.store := by
  rw [State.abortRelease_changes]
@[simp] theorem State.abortRelease_walker (s : State) (i : Fin 16) : (s.abortRelease i).walker = s.walker := by
  rw [State.abortRelease_changes]
@[simp] theorem State.abortRelease_staging (s : State) (i : Fin 16) : (s.abortRelease i).staging = s.staging := by
  rw [State.abortRelease_changes]
@[simp] theorem State.abortRelease_now (s : State) (i : Fin 16) : (s.abortRelease i).now = s.now := by
  rw [State.abortRelease_changes]
@[simp] theorem State.abortRelease_choices (s : State) (i : Fin 16) : (s.abortRelease i).choices = s.choices := by
  rw [State.abortRelease_changes]
@[simp] theorem State.abortRelease_sent (s : State) (i : Fin 16) : (s.abortRelease i).sent = s.sent := by
  rw [State.abortRelease_changes]
@[simp] theorem State.abortRelease_pending (s : State) (i : Fin 16) : (s.abortRelease i).pending = s.pending := by
  rw [State.abortRelease_changes]

theorem State.closeCheck_changes (s : State) (i : Fin 16) :
    (s.closeCheck i) = { s with
      streams := (s.closeCheck i).streams, containers := (s.closeCheck i).containers
      store := (s.closeCheck i).store, management := (s.closeCheck i).management } := by
  generalize h : (s.closeCheck i) = t
  simp only [State.closeCheck] at h
  repeat' split at h
  all_goals subst h; apply State.ext <;> simp

@[simp] theorem State.closeCheck_station (s : State) (i : Fin 16) : (s.closeCheck i).station = s.station := by
  rw [State.closeCheck_changes]
@[simp] theorem State.closeCheck_hold (s : State) (i : Fin 16) : (s.closeCheck i).hold = s.hold := by
  rw [State.closeCheck_changes]
@[simp] theorem State.closeCheck_quiet (s : State) (i : Fin 16) : (s.closeCheck i).quiet = s.quiet := by
  rw [State.closeCheck_changes]
@[simp] theorem State.closeCheck_settings (s : State) (i : Fin 16) : (s.closeCheck i).settings = s.settings := by
  rw [State.closeCheck_changes]
@[simp] theorem State.closeCheck_clearPosition (s : State) (i : Fin 16) : (s.closeCheck i).clearPosition = s.clearPosition := by
  rw [State.closeCheck_changes]
@[simp] theorem State.closeCheck_engines (s : State) (i : Fin 16) : (s.closeCheck i).engines = s.engines := by
  rw [State.closeCheck_changes]
@[simp] theorem State.closeCheck_lastAssigned (s : State) (i : Fin 16) : (s.closeCheck i).lastAssigned = s.lastAssigned := by
  rw [State.closeCheck_changes]
@[simp] theorem State.closeCheck_digestQueue (s : State) (i : Fin 16) : (s.closeCheck i).digestQueue = s.digestQueue := by
  rw [State.closeCheck_changes]
@[simp] theorem State.closeCheck_index (s : State) (i : Fin 16) : (s.closeCheck i).index = s.index := by
  rw [State.closeCheck_changes]
@[simp] theorem State.closeCheck_resolution (s : State) (i : Fin 16) : (s.closeCheck i).resolution = s.resolution := by
  rw [State.closeCheck_changes]
@[simp] theorem State.closeCheck_bus (s : State) (i : Fin 16) : (s.closeCheck i).bus = s.bus := by
  rw [State.closeCheck_changes]
@[simp] theorem State.closeCheck_sealUnit (s : State) (i : Fin 16) : (s.closeCheck i).sealUnit = s.sealUnit := by
  rw [State.closeCheck_changes]
@[simp] theorem State.closeCheck_sealLineLow (s : State) (i : Fin 16) : (s.closeCheck i).sealLineLow = s.sealLineLow := by
  rw [State.closeCheck_changes]
@[simp] theorem State.closeCheck_walker (s : State) (i : Fin 16) : (s.closeCheck i).walker = s.walker := by
  rw [State.closeCheck_changes]
@[simp] theorem State.closeCheck_staging (s : State) (i : Fin 16) : (s.closeCheck i).staging = s.staging := by
  rw [State.closeCheck_changes]
@[simp] theorem State.closeCheck_now (s : State) (i : Fin 16) : (s.closeCheck i).now = s.now := by
  rw [State.closeCheck_changes]
@[simp] theorem State.closeCheck_choices (s : State) (i : Fin 16) : (s.closeCheck i).choices = s.choices := by
  rw [State.closeCheck_changes]
@[simp] theorem State.closeCheck_sent (s : State) (i : Fin 16) : (s.closeCheck i).sent = s.sent := by
  rw [State.closeCheck_changes]
@[simp] theorem State.closeCheck_pending (s : State) (i : Fin 16) : (s.closeCheck i).pending = s.pending := by
  rw [State.closeCheck_changes]

theorem State.issueRecord_changes (s : State) (i : Fin 16) :
    (s.issueRecord i) = { s with
      streams := (s.issueRecord i).streams, store := (s.issueRecord i).store
      choices := (s.issueRecord i).choices } := by
  generalize h : (s.issueRecord i) = t
  simp only [State.issueRecord, State.addressWord] at h
  repeat' split at h
  all_goals subst h; apply State.ext <;> simp

@[simp] theorem State.issueRecord_station (s : State) (i : Fin 16) : (s.issueRecord i).station = s.station := by
  rw [State.issueRecord_changes]
@[simp] theorem State.issueRecord_hold (s : State) (i : Fin 16) : (s.issueRecord i).hold = s.hold := by
  rw [State.issueRecord_changes]
@[simp] theorem State.issueRecord_quiet (s : State) (i : Fin 16) : (s.issueRecord i).quiet = s.quiet := by
  rw [State.issueRecord_changes]
@[simp] theorem State.issueRecord_settings (s : State) (i : Fin 16) : (s.issueRecord i).settings = s.settings := by
  rw [State.issueRecord_changes]
@[simp] theorem State.issueRecord_clearPosition (s : State) (i : Fin 16) : (s.issueRecord i).clearPosition = s.clearPosition := by
  rw [State.issueRecord_changes]
@[simp] theorem State.issueRecord_engines (s : State) (i : Fin 16) : (s.issueRecord i).engines = s.engines := by
  rw [State.issueRecord_changes]
@[simp] theorem State.issueRecord_lastAssigned (s : State) (i : Fin 16) : (s.issueRecord i).lastAssigned = s.lastAssigned := by
  rw [State.issueRecord_changes]
@[simp] theorem State.issueRecord_digestQueue (s : State) (i : Fin 16) : (s.issueRecord i).digestQueue = s.digestQueue := by
  rw [State.issueRecord_changes]
@[simp] theorem State.issueRecord_index (s : State) (i : Fin 16) : (s.issueRecord i).index = s.index := by
  rw [State.issueRecord_changes]
@[simp] theorem State.issueRecord_resolution (s : State) (i : Fin 16) : (s.issueRecord i).resolution = s.resolution := by
  rw [State.issueRecord_changes]
@[simp] theorem State.issueRecord_bus (s : State) (i : Fin 16) : (s.issueRecord i).bus = s.bus := by
  rw [State.issueRecord_changes]
@[simp] theorem State.issueRecord_containers (s : State) (i : Fin 16) : (s.issueRecord i).containers = s.containers := by
  rw [State.issueRecord_changes]
@[simp] theorem State.issueRecord_sealUnit (s : State) (i : Fin 16) : (s.issueRecord i).sealUnit = s.sealUnit := by
  rw [State.issueRecord_changes]
@[simp] theorem State.issueRecord_sealLineLow (s : State) (i : Fin 16) : (s.issueRecord i).sealLineLow = s.sealLineLow := by
  rw [State.issueRecord_changes]
@[simp] theorem State.issueRecord_walker (s : State) (i : Fin 16) : (s.issueRecord i).walker = s.walker := by
  rw [State.issueRecord_changes]
@[simp] theorem State.issueRecord_management (s : State) (i : Fin 16) : (s.issueRecord i).management = s.management := by
  rw [State.issueRecord_changes]
@[simp] theorem State.issueRecord_staging (s : State) (i : Fin 16) : (s.issueRecord i).staging = s.staging := by
  rw [State.issueRecord_changes]
@[simp] theorem State.issueRecord_now (s : State) (i : Fin 16) : (s.issueRecord i).now = s.now := by
  rw [State.issueRecord_changes]
@[simp] theorem State.issueRecord_sent (s : State) (i : Fin 16) : (s.issueRecord i).sent = s.sent := by
  rw [State.issueRecord_changes]
@[simp] theorem State.issueRecord_pending (s : State) (i : Fin 16) : (s.issueRecord i).pending = s.pending := by
  rw [State.issueRecord_changes]

theorem State.emitRecords_changes (s : State) :
    (s.emitRecords) = { s with
      streams := (s.emitRecords).streams, store := (s.emitRecords).store
      choices := (s.emitRecords).choices } := by
  have key : ∀ (l : List (Fin 16)) (u : State), (l.foldl State.issueRecord u) = { u with streams := (l.foldl State.issueRecord u).streams, store := (l.foldl State.issueRecord u).store, choices := (l.foldl State.issueRecord u).choices } := by
    intro l
    induction l with
    | nil => intro u; rfl
    | cons a rest ih => intro u; rw [List.foldl_cons, ih]; apply State.ext <;> simp
  generalize h : (s.emitRecords) = t
  simp only [State.emitRecords, State.anyOrder] at h
  rw [key] at h
  repeat' split at h
  all_goals subst h; apply State.ext <;> simp

@[simp] theorem State.emitRecords_station (s : State) : (s.emitRecords).station = s.station := by
  rw [State.emitRecords_changes]
@[simp] theorem State.emitRecords_hold (s : State) : (s.emitRecords).hold = s.hold := by
  rw [State.emitRecords_changes]
@[simp] theorem State.emitRecords_quiet (s : State) : (s.emitRecords).quiet = s.quiet := by
  rw [State.emitRecords_changes]
@[simp] theorem State.emitRecords_settings (s : State) : (s.emitRecords).settings = s.settings := by
  rw [State.emitRecords_changes]
@[simp] theorem State.emitRecords_clearPosition (s : State) : (s.emitRecords).clearPosition = s.clearPosition := by
  rw [State.emitRecords_changes]
@[simp] theorem State.emitRecords_engines (s : State) : (s.emitRecords).engines = s.engines := by
  rw [State.emitRecords_changes]
@[simp] theorem State.emitRecords_lastAssigned (s : State) : (s.emitRecords).lastAssigned = s.lastAssigned := by
  rw [State.emitRecords_changes]
@[simp] theorem State.emitRecords_digestQueue (s : State) : (s.emitRecords).digestQueue = s.digestQueue := by
  rw [State.emitRecords_changes]
@[simp] theorem State.emitRecords_index (s : State) : (s.emitRecords).index = s.index := by
  rw [State.emitRecords_changes]
@[simp] theorem State.emitRecords_resolution (s : State) : (s.emitRecords).resolution = s.resolution := by
  rw [State.emitRecords_changes]
@[simp] theorem State.emitRecords_bus (s : State) : (s.emitRecords).bus = s.bus := by
  rw [State.emitRecords_changes]
@[simp] theorem State.emitRecords_containers (s : State) : (s.emitRecords).containers = s.containers := by
  rw [State.emitRecords_changes]
@[simp] theorem State.emitRecords_sealUnit (s : State) : (s.emitRecords).sealUnit = s.sealUnit := by
  rw [State.emitRecords_changes]
@[simp] theorem State.emitRecords_sealLineLow (s : State) : (s.emitRecords).sealLineLow = s.sealLineLow := by
  rw [State.emitRecords_changes]
@[simp] theorem State.emitRecords_walker (s : State) : (s.emitRecords).walker = s.walker := by
  rw [State.emitRecords_changes]
@[simp] theorem State.emitRecords_management (s : State) : (s.emitRecords).management = s.management := by
  rw [State.emitRecords_changes]
@[simp] theorem State.emitRecords_staging (s : State) : (s.emitRecords).staging = s.staging := by
  rw [State.emitRecords_changes]
@[simp] theorem State.emitRecords_now (s : State) : (s.emitRecords).now = s.now := by
  rw [State.emitRecords_changes]
@[simp] theorem State.emitRecords_sent (s : State) : (s.emitRecords).sent = s.sent := by
  rw [State.emitRecords_changes]
@[simp] theorem State.emitRecords_pending (s : State) : (s.emitRecords).pending = s.pending := by
  rw [State.emitRecords_changes]

theorem State.beginRound_changes (s : State) :
    (s.beginRound) = { s with
      streams := (s.beginRound).streams, containers := (s.beginRound).containers
      sealUnit := (s.beginRound).sealUnit, store := (s.beginRound).store
      choices := (s.beginRound).choices } := by
  have key : ∀ (l : List Nat) (u : State) (r : Half), l.foldl (fun t slot => t.enrol r slot) u =
      { u with containers := (l.foldl (fun t slot => t.enrol r slot) u).containers } := by
    intro l
    induction l with
    | nil => intro u r; rfl
    | cons k rest ih => intro u r; rw [List.foldl_cons, ih]; apply State.ext <;> simp
  have key2 : ∀ (l : List Nat) (u : State), l.foldl (fun t slot => t.sealRequest slot .round) u =
      { u with streams := (l.foldl (fun t slot => t.sealRequest slot .round) u).streams
               containers := (l.foldl (fun t slot => t.sealRequest slot .round) u).containers
               store := (l.foldl (fun t slot => t.sealRequest slot .round) u).store } := by
    intro l
    induction l with
    | nil => intro u; rfl
    | cons k rest ih => intro u; rw [List.foldl_cons, ih]; apply State.ext <;> simp
  generalize h : (s.beginRound) = t
  simp only [State.beginRound, State.anyOrder] at h
  rw [key, key2] at h
  subst h
  split <;> rfl

@[simp] theorem State.beginRound_station (s : State) : (s.beginRound).station = s.station := by
  rw [State.beginRound_changes]
@[simp] theorem State.beginRound_hold (s : State) : (s.beginRound).hold = s.hold := by
  rw [State.beginRound_changes]
@[simp] theorem State.beginRound_quiet (s : State) : (s.beginRound).quiet = s.quiet := by
  rw [State.beginRound_changes]
@[simp] theorem State.beginRound_settings (s : State) : (s.beginRound).settings = s.settings := by
  rw [State.beginRound_changes]
@[simp] theorem State.beginRound_clearPosition (s : State) : (s.beginRound).clearPosition = s.clearPosition := by
  rw [State.beginRound_changes]
@[simp] theorem State.beginRound_engines (s : State) : (s.beginRound).engines = s.engines := by
  rw [State.beginRound_changes]
@[simp] theorem State.beginRound_lastAssigned (s : State) : (s.beginRound).lastAssigned = s.lastAssigned := by
  rw [State.beginRound_changes]
@[simp] theorem State.beginRound_digestQueue (s : State) : (s.beginRound).digestQueue = s.digestQueue := by
  rw [State.beginRound_changes]
@[simp] theorem State.beginRound_index (s : State) : (s.beginRound).index = s.index := by
  rw [State.beginRound_changes]
@[simp] theorem State.beginRound_resolution (s : State) : (s.beginRound).resolution = s.resolution := by
  rw [State.beginRound_changes]
@[simp] theorem State.beginRound_bus (s : State) : (s.beginRound).bus = s.bus := by
  rw [State.beginRound_changes]
@[simp] theorem State.beginRound_sealLineLow (s : State) : (s.beginRound).sealLineLow = s.sealLineLow := by
  rw [State.beginRound_changes]
@[simp] theorem State.beginRound_walker (s : State) : (s.beginRound).walker = s.walker := by
  rw [State.beginRound_changes]
@[simp] theorem State.beginRound_management (s : State) : (s.beginRound).management = s.management := by
  rw [State.beginRound_changes]
@[simp] theorem State.beginRound_staging (s : State) : (s.beginRound).staging = s.staging := by
  rw [State.beginRound_changes]
@[simp] theorem State.beginRound_now (s : State) : (s.beginRound).now = s.now := by
  rw [State.beginRound_changes]
@[simp] theorem State.beginRound_sent (s : State) : (s.beginRound).sent = s.sent := by
  rw [State.beginRound_changes]
@[simp] theorem State.beginRound_pending (s : State) : (s.beginRound).pending = s.pending := by
  rw [State.beginRound_changes]

theorem State.finishRound_changes (s : State) :
    (s.finishRound) = { s with
      streams := (s.finishRound).streams, sealUnit := (s.finishRound).sealUnit } := by
  generalize h : (s.finishRound) = t
  simp only [State.finishRound] at h
  repeat' split at h
  all_goals subst h; apply State.ext <;> simp

@[simp] theorem State.finishRound_station (s : State) : (s.finishRound).station = s.station := by
  rw [State.finishRound_changes]
@[simp] theorem State.finishRound_hold (s : State) : (s.finishRound).hold = s.hold := by
  rw [State.finishRound_changes]
@[simp] theorem State.finishRound_quiet (s : State) : (s.finishRound).quiet = s.quiet := by
  rw [State.finishRound_changes]
@[simp] theorem State.finishRound_settings (s : State) : (s.finishRound).settings = s.settings := by
  rw [State.finishRound_changes]
@[simp] theorem State.finishRound_clearPosition (s : State) : (s.finishRound).clearPosition = s.clearPosition := by
  rw [State.finishRound_changes]
@[simp] theorem State.finishRound_engines (s : State) : (s.finishRound).engines = s.engines := by
  rw [State.finishRound_changes]
@[simp] theorem State.finishRound_lastAssigned (s : State) : (s.finishRound).lastAssigned = s.lastAssigned := by
  rw [State.finishRound_changes]
@[simp] theorem State.finishRound_digestQueue (s : State) : (s.finishRound).digestQueue = s.digestQueue := by
  rw [State.finishRound_changes]
@[simp] theorem State.finishRound_index (s : State) : (s.finishRound).index = s.index := by
  rw [State.finishRound_changes]
@[simp] theorem State.finishRound_resolution (s : State) : (s.finishRound).resolution = s.resolution := by
  rw [State.finishRound_changes]
@[simp] theorem State.finishRound_bus (s : State) : (s.finishRound).bus = s.bus := by
  rw [State.finishRound_changes]
@[simp] theorem State.finishRound_containers (s : State) : (s.finishRound).containers = s.containers := by
  rw [State.finishRound_changes]
@[simp] theorem State.finishRound_sealLineLow (s : State) : (s.finishRound).sealLineLow = s.sealLineLow := by
  rw [State.finishRound_changes]
@[simp] theorem State.finishRound_store (s : State) : (s.finishRound).store = s.store := by
  rw [State.finishRound_changes]
@[simp] theorem State.finishRound_walker (s : State) : (s.finishRound).walker = s.walker := by
  rw [State.finishRound_changes]
@[simp] theorem State.finishRound_management (s : State) : (s.finishRound).management = s.management := by
  rw [State.finishRound_changes]
@[simp] theorem State.finishRound_staging (s : State) : (s.finishRound).staging = s.staging := by
  rw [State.finishRound_changes]
@[simp] theorem State.finishRound_now (s : State) : (s.finishRound).now = s.now := by
  rw [State.finishRound_changes]
@[simp] theorem State.finishRound_choices (s : State) : (s.finishRound).choices = s.choices := by
  rw [State.finishRound_changes]
@[simp] theorem State.finishRound_sent (s : State) : (s.finishRound).sent = s.sent := by
  rw [State.finishRound_changes]
@[simp] theorem State.finishRound_pending (s : State) : (s.finishRound).pending = s.pending := by
  rw [State.finishRound_changes]

theorem State.completeRound_changes (s : State) :
    (s.completeRound) = { s with
      streams := (s.completeRound).streams, containers := (s.completeRound).containers
      sealUnit := (s.completeRound).sealUnit, store := (s.completeRound).store
      choices := (s.completeRound).choices } := by
  generalize h : (s.completeRound) = t
  simp only [State.completeRound] at h
  repeat' split at h
  all_goals subst h; apply State.ext <;> simp

@[simp] theorem State.completeRound_station (s : State) : (s.completeRound).station = s.station := by
  rw [State.completeRound_changes]
@[simp] theorem State.completeRound_hold (s : State) : (s.completeRound).hold = s.hold := by
  rw [State.completeRound_changes]
@[simp] theorem State.completeRound_quiet (s : State) : (s.completeRound).quiet = s.quiet := by
  rw [State.completeRound_changes]
@[simp] theorem State.completeRound_settings (s : State) : (s.completeRound).settings = s.settings := by
  rw [State.completeRound_changes]
@[simp] theorem State.completeRound_clearPosition (s : State) : (s.completeRound).clearPosition = s.clearPosition := by
  rw [State.completeRound_changes]
@[simp] theorem State.completeRound_engines (s : State) : (s.completeRound).engines = s.engines := by
  rw [State.completeRound_changes]
@[simp] theorem State.completeRound_lastAssigned (s : State) : (s.completeRound).lastAssigned = s.lastAssigned := by
  rw [State.completeRound_changes]
@[simp] theorem State.completeRound_digestQueue (s : State) : (s.completeRound).digestQueue = s.digestQueue := by
  rw [State.completeRound_changes]
@[simp] theorem State.completeRound_index (s : State) : (s.completeRound).index = s.index := by
  rw [State.completeRound_changes]
@[simp] theorem State.completeRound_resolution (s : State) : (s.completeRound).resolution = s.resolution := by
  rw [State.completeRound_changes]
@[simp] theorem State.completeRound_bus (s : State) : (s.completeRound).bus = s.bus := by
  rw [State.completeRound_changes]
@[simp] theorem State.completeRound_sealLineLow (s : State) : (s.completeRound).sealLineLow = s.sealLineLow := by
  rw [State.completeRound_changes]
@[simp] theorem State.completeRound_walker (s : State) : (s.completeRound).walker = s.walker := by
  rw [State.completeRound_changes]
@[simp] theorem State.completeRound_management (s : State) : (s.completeRound).management = s.management := by
  rw [State.completeRound_changes]
@[simp] theorem State.completeRound_staging (s : State) : (s.completeRound).staging = s.staging := by
  rw [State.completeRound_changes]
@[simp] theorem State.completeRound_now (s : State) : (s.completeRound).now = s.now := by
  rw [State.completeRound_changes]
@[simp] theorem State.completeRound_sent (s : State) : (s.completeRound).sent = s.sent := by
  rw [State.completeRound_changes]
@[simp] theorem State.completeRound_pending (s : State) : (s.completeRound).pending = s.pending := by
  rw [State.completeRound_changes]

theorem State.startRound_changes (s : State) :
    (s.startRound) = { s with
      streams := (s.startRound).streams, containers := (s.startRound).containers
      sealUnit := (s.startRound).sealUnit, store := (s.startRound).store
      choices := (s.startRound).choices } := by
  generalize h : (s.startRound) = t
  simp only [State.startRound] at h
  repeat' split at h
  all_goals subst h; apply State.ext <;> simp

@[simp] theorem State.startRound_station (s : State) : (s.startRound).station = s.station := by
  rw [State.startRound_changes]
@[simp] theorem State.startRound_hold (s : State) : (s.startRound).hold = s.hold := by
  rw [State.startRound_changes]
@[simp] theorem State.startRound_quiet (s : State) : (s.startRound).quiet = s.quiet := by
  rw [State.startRound_changes]
@[simp] theorem State.startRound_settings (s : State) : (s.startRound).settings = s.settings := by
  rw [State.startRound_changes]
@[simp] theorem State.startRound_clearPosition (s : State) : (s.startRound).clearPosition = s.clearPosition := by
  rw [State.startRound_changes]
@[simp] theorem State.startRound_engines (s : State) : (s.startRound).engines = s.engines := by
  rw [State.startRound_changes]
@[simp] theorem State.startRound_lastAssigned (s : State) : (s.startRound).lastAssigned = s.lastAssigned := by
  rw [State.startRound_changes]
@[simp] theorem State.startRound_digestQueue (s : State) : (s.startRound).digestQueue = s.digestQueue := by
  rw [State.startRound_changes]
@[simp] theorem State.startRound_index (s : State) : (s.startRound).index = s.index := by
  rw [State.startRound_changes]
@[simp] theorem State.startRound_resolution (s : State) : (s.startRound).resolution = s.resolution := by
  rw [State.startRound_changes]
@[simp] theorem State.startRound_bus (s : State) : (s.startRound).bus = s.bus := by
  rw [State.startRound_changes]
@[simp] theorem State.startRound_sealLineLow (s : State) : (s.startRound).sealLineLow = s.sealLineLow := by
  rw [State.startRound_changes]
@[simp] theorem State.startRound_walker (s : State) : (s.startRound).walker = s.walker := by
  rw [State.startRound_changes]
@[simp] theorem State.startRound_management (s : State) : (s.startRound).management = s.management := by
  rw [State.startRound_changes]
@[simp] theorem State.startRound_staging (s : State) : (s.startRound).staging = s.staging := by
  rw [State.startRound_changes]
@[simp] theorem State.startRound_now (s : State) : (s.startRound).now = s.now := by
  rw [State.startRound_changes]
@[simp] theorem State.startRound_sent (s : State) : (s.startRound).sent = s.sent := by
  rw [State.startRound_changes]
@[simp] theorem State.startRound_pending (s : State) : (s.startRound).pending = s.pending := by
  rw [State.startRound_changes]

theorem State.askRound_changes (s : State) :
    (s.askRound) = { s with
      streams := (s.askRound).streams, containers := (s.askRound).containers
      sealUnit := (s.askRound).sealUnit, store := (s.askRound).store, choices := (s.askRound).choices } := by
  generalize h : (s.askRound) = t
  simp only [State.askRound] at h
  repeat' split at h
  all_goals subst h; apply State.ext <;> simp

@[simp] theorem State.askRound_station (s : State) : (s.askRound).station = s.station := by
  rw [State.askRound_changes]
@[simp] theorem State.askRound_hold (s : State) : (s.askRound).hold = s.hold := by
  rw [State.askRound_changes]
@[simp] theorem State.askRound_quiet (s : State) : (s.askRound).quiet = s.quiet := by
  rw [State.askRound_changes]
@[simp] theorem State.askRound_settings (s : State) : (s.askRound).settings = s.settings := by
  rw [State.askRound_changes]
@[simp] theorem State.askRound_clearPosition (s : State) : (s.askRound).clearPosition = s.clearPosition := by
  rw [State.askRound_changes]
@[simp] theorem State.askRound_engines (s : State) : (s.askRound).engines = s.engines := by
  rw [State.askRound_changes]
@[simp] theorem State.askRound_lastAssigned (s : State) : (s.askRound).lastAssigned = s.lastAssigned := by
  rw [State.askRound_changes]
@[simp] theorem State.askRound_digestQueue (s : State) : (s.askRound).digestQueue = s.digestQueue := by
  rw [State.askRound_changes]
@[simp] theorem State.askRound_index (s : State) : (s.askRound).index = s.index := by
  rw [State.askRound_changes]
@[simp] theorem State.askRound_resolution (s : State) : (s.askRound).resolution = s.resolution := by
  rw [State.askRound_changes]
@[simp] theorem State.askRound_bus (s : State) : (s.askRound).bus = s.bus := by
  rw [State.askRound_changes]
@[simp] theorem State.askRound_sealLineLow (s : State) : (s.askRound).sealLineLow = s.sealLineLow := by
  rw [State.askRound_changes]
@[simp] theorem State.askRound_walker (s : State) : (s.askRound).walker = s.walker := by
  rw [State.askRound_changes]
@[simp] theorem State.askRound_management (s : State) : (s.askRound).management = s.management := by
  rw [State.askRound_changes]
@[simp] theorem State.askRound_staging (s : State) : (s.askRound).staging = s.staging := by
  rw [State.askRound_changes]
@[simp] theorem State.askRound_now (s : State) : (s.askRound).now = s.now := by
  rw [State.askRound_changes]
@[simp] theorem State.askRound_sent (s : State) : (s.askRound).sent = s.sent := by
  rw [State.askRound_changes]
@[simp] theorem State.askRound_pending (s : State) : (s.askRound).pending = s.pending := by
  rw [State.askRound_changes]

theorem State.containerNotice_changes (s : State) (slot : Nat) (lost : Bool) :
    (s.containerNotice slot lost) = { s with
      streams := (s.containerNotice slot lost).streams
      containers := (s.containerNotice slot lost).containers
      sealUnit := (s.containerNotice slot lost).sealUnit
      store := (s.containerNotice slot lost).store, choices := (s.containerNotice slot lost).choices } := by
  generalize h : (s.containerNotice slot lost) = t
  simp only [State.containerNotice] at h
  repeat' split at h
  all_goals subst h; apply State.ext <;> simp

@[simp] theorem State.containerNotice_station (s : State) (slot : Nat) (lost : Bool) : (s.containerNotice slot lost).station = s.station := by
  rw [State.containerNotice_changes]
@[simp] theorem State.containerNotice_hold (s : State) (slot : Nat) (lost : Bool) : (s.containerNotice slot lost).hold = s.hold := by
  rw [State.containerNotice_changes]
@[simp] theorem State.containerNotice_quiet (s : State) (slot : Nat) (lost : Bool) : (s.containerNotice slot lost).quiet = s.quiet := by
  rw [State.containerNotice_changes]
@[simp] theorem State.containerNotice_settings (s : State) (slot : Nat) (lost : Bool) : (s.containerNotice slot lost).settings = s.settings := by
  rw [State.containerNotice_changes]
@[simp] theorem State.containerNotice_clearPosition (s : State) (slot : Nat) (lost : Bool) : (s.containerNotice slot lost).clearPosition = s.clearPosition := by
  rw [State.containerNotice_changes]
@[simp] theorem State.containerNotice_engines (s : State) (slot : Nat) (lost : Bool) : (s.containerNotice slot lost).engines = s.engines := by
  rw [State.containerNotice_changes]
@[simp] theorem State.containerNotice_lastAssigned (s : State) (slot : Nat) (lost : Bool) : (s.containerNotice slot lost).lastAssigned = s.lastAssigned := by
  rw [State.containerNotice_changes]
@[simp] theorem State.containerNotice_digestQueue (s : State) (slot : Nat) (lost : Bool) : (s.containerNotice slot lost).digestQueue = s.digestQueue := by
  rw [State.containerNotice_changes]
@[simp] theorem State.containerNotice_index (s : State) (slot : Nat) (lost : Bool) : (s.containerNotice slot lost).index = s.index := by
  rw [State.containerNotice_changes]
@[simp] theorem State.containerNotice_resolution (s : State) (slot : Nat) (lost : Bool) : (s.containerNotice slot lost).resolution = s.resolution := by
  rw [State.containerNotice_changes]
@[simp] theorem State.containerNotice_bus (s : State) (slot : Nat) (lost : Bool) : (s.containerNotice slot lost).bus = s.bus := by
  rw [State.containerNotice_changes]
@[simp] theorem State.containerNotice_sealLineLow (s : State) (slot : Nat) (lost : Bool) : (s.containerNotice slot lost).sealLineLow = s.sealLineLow := by
  rw [State.containerNotice_changes]
@[simp] theorem State.containerNotice_walker (s : State) (slot : Nat) (lost : Bool) : (s.containerNotice slot lost).walker = s.walker := by
  rw [State.containerNotice_changes]
@[simp] theorem State.containerNotice_management (s : State) (slot : Nat) (lost : Bool) : (s.containerNotice slot lost).management = s.management := by
  rw [State.containerNotice_changes]
@[simp] theorem State.containerNotice_staging (s : State) (slot : Nat) (lost : Bool) : (s.containerNotice slot lost).staging = s.staging := by
  rw [State.containerNotice_changes]
@[simp] theorem State.containerNotice_now (s : State) (slot : Nat) (lost : Bool) : (s.containerNotice slot lost).now = s.now := by
  rw [State.containerNotice_changes]
@[simp] theorem State.containerNotice_sent (s : State) (slot : Nat) (lost : Bool) : (s.containerNotice slot lost).sent = s.sent := by
  rw [State.containerNotice_changes]
@[simp] theorem State.containerNotice_pending (s : State) (slot : Nat) (lost : Bool) : (s.containerNotice slot lost).pending = s.pending := by
  rw [State.containerNotice_changes]

theorem State.flushOutcome_changes (s : State) (slot : Nat) (error : Bool) :
    (s.flushOutcome slot error) = { s with
      streams := (s.flushOutcome slot error).streams
      containers := (s.flushOutcome slot error).containers
      sealUnit := (s.flushOutcome slot error).sealUnit, store := (s.flushOutcome slot error).store
      choices := (s.flushOutcome slot error).choices
      management := (s.flushOutcome slot error).management } := by
  generalize h : (s.flushOutcome slot error) = t
  simp only [State.flushOutcome] at h
  repeat' split at h
  all_goals subst h; apply State.ext <;> simp

@[simp] theorem State.flushOutcome_station (s : State) (slot : Nat) (error : Bool) : (s.flushOutcome slot error).station = s.station := by
  rw [State.flushOutcome_changes]
@[simp] theorem State.flushOutcome_hold (s : State) (slot : Nat) (error : Bool) : (s.flushOutcome slot error).hold = s.hold := by
  rw [State.flushOutcome_changes]
@[simp] theorem State.flushOutcome_quiet (s : State) (slot : Nat) (error : Bool) : (s.flushOutcome slot error).quiet = s.quiet := by
  rw [State.flushOutcome_changes]
@[simp] theorem State.flushOutcome_settings (s : State) (slot : Nat) (error : Bool) : (s.flushOutcome slot error).settings = s.settings := by
  rw [State.flushOutcome_changes]
@[simp] theorem State.flushOutcome_clearPosition (s : State) (slot : Nat) (error : Bool) : (s.flushOutcome slot error).clearPosition = s.clearPosition := by
  rw [State.flushOutcome_changes]
@[simp] theorem State.flushOutcome_engines (s : State) (slot : Nat) (error : Bool) : (s.flushOutcome slot error).engines = s.engines := by
  rw [State.flushOutcome_changes]
@[simp] theorem State.flushOutcome_lastAssigned (s : State) (slot : Nat) (error : Bool) : (s.flushOutcome slot error).lastAssigned = s.lastAssigned := by
  rw [State.flushOutcome_changes]
@[simp] theorem State.flushOutcome_digestQueue (s : State) (slot : Nat) (error : Bool) : (s.flushOutcome slot error).digestQueue = s.digestQueue := by
  rw [State.flushOutcome_changes]
@[simp] theorem State.flushOutcome_index (s : State) (slot : Nat) (error : Bool) : (s.flushOutcome slot error).index = s.index := by
  rw [State.flushOutcome_changes]
@[simp] theorem State.flushOutcome_resolution (s : State) (slot : Nat) (error : Bool) : (s.flushOutcome slot error).resolution = s.resolution := by
  rw [State.flushOutcome_changes]
@[simp] theorem State.flushOutcome_bus (s : State) (slot : Nat) (error : Bool) : (s.flushOutcome slot error).bus = s.bus := by
  rw [State.flushOutcome_changes]
@[simp] theorem State.flushOutcome_sealLineLow (s : State) (slot : Nat) (error : Bool) : (s.flushOutcome slot error).sealLineLow = s.sealLineLow := by
  rw [State.flushOutcome_changes]
@[simp] theorem State.flushOutcome_walker (s : State) (slot : Nat) (error : Bool) : (s.flushOutcome slot error).walker = s.walker := by
  rw [State.flushOutcome_changes]
@[simp] theorem State.flushOutcome_staging (s : State) (slot : Nat) (error : Bool) : (s.flushOutcome slot error).staging = s.staging := by
  rw [State.flushOutcome_changes]
@[simp] theorem State.flushOutcome_now (s : State) (slot : Nat) (error : Bool) : (s.flushOutcome slot error).now = s.now := by
  rw [State.flushOutcome_changes]
@[simp] theorem State.flushOutcome_sent (s : State) (slot : Nat) (error : Bool) : (s.flushOutcome slot error).sent = s.sent := by
  rw [State.flushOutcome_changes]
@[simp] theorem State.flushOutcome_pending (s : State) (slot : Nat) (error : Bool) : (s.flushOutcome slot error).pending = s.pending := by
  rw [State.flushOutcome_changes]

theorem State.startFlush_changes (s : State) (j : FlushJob) (rest : List FlushJob) :
    (s.startFlush j rest) = { s with
      store := (s.startFlush j rest).store, sent := (s.startFlush j rest).sent } := by
  apply State.ext <;> simp [State.startFlush]

@[simp] theorem State.startFlush_station (s : State) (j : FlushJob) (rest : List FlushJob) : (s.startFlush j rest).station = s.station := by
  rw [State.startFlush_changes]
@[simp] theorem State.startFlush_hold (s : State) (j : FlushJob) (rest : List FlushJob) : (s.startFlush j rest).hold = s.hold := by
  rw [State.startFlush_changes]
@[simp] theorem State.startFlush_quiet (s : State) (j : FlushJob) (rest : List FlushJob) : (s.startFlush j rest).quiet = s.quiet := by
  rw [State.startFlush_changes]
@[simp] theorem State.startFlush_settings (s : State) (j : FlushJob) (rest : List FlushJob) : (s.startFlush j rest).settings = s.settings := by
  rw [State.startFlush_changes]
@[simp] theorem State.startFlush_clearPosition (s : State) (j : FlushJob) (rest : List FlushJob) : (s.startFlush j rest).clearPosition = s.clearPosition := by
  rw [State.startFlush_changes]
@[simp] theorem State.startFlush_streams (s : State) (j : FlushJob) (rest : List FlushJob) : (s.startFlush j rest).streams = s.streams := by
  rw [State.startFlush_changes]
@[simp] theorem State.startFlush_engines (s : State) (j : FlushJob) (rest : List FlushJob) : (s.startFlush j rest).engines = s.engines := by
  rw [State.startFlush_changes]
@[simp] theorem State.startFlush_lastAssigned (s : State) (j : FlushJob) (rest : List FlushJob) : (s.startFlush j rest).lastAssigned = s.lastAssigned := by
  rw [State.startFlush_changes]
@[simp] theorem State.startFlush_digestQueue (s : State) (j : FlushJob) (rest : List FlushJob) : (s.startFlush j rest).digestQueue = s.digestQueue := by
  rw [State.startFlush_changes]
@[simp] theorem State.startFlush_index (s : State) (j : FlushJob) (rest : List FlushJob) : (s.startFlush j rest).index = s.index := by
  rw [State.startFlush_changes]
@[simp] theorem State.startFlush_resolution (s : State) (j : FlushJob) (rest : List FlushJob) : (s.startFlush j rest).resolution = s.resolution := by
  rw [State.startFlush_changes]
@[simp] theorem State.startFlush_bus (s : State) (j : FlushJob) (rest : List FlushJob) : (s.startFlush j rest).bus = s.bus := by
  rw [State.startFlush_changes]
@[simp] theorem State.startFlush_containers (s : State) (j : FlushJob) (rest : List FlushJob) : (s.startFlush j rest).containers = s.containers := by
  rw [State.startFlush_changes]
@[simp] theorem State.startFlush_sealUnit (s : State) (j : FlushJob) (rest : List FlushJob) : (s.startFlush j rest).sealUnit = s.sealUnit := by
  rw [State.startFlush_changes]
@[simp] theorem State.startFlush_sealLineLow (s : State) (j : FlushJob) (rest : List FlushJob) : (s.startFlush j rest).sealLineLow = s.sealLineLow := by
  rw [State.startFlush_changes]
@[simp] theorem State.startFlush_walker (s : State) (j : FlushJob) (rest : List FlushJob) : (s.startFlush j rest).walker = s.walker := by
  rw [State.startFlush_changes]
@[simp] theorem State.startFlush_management (s : State) (j : FlushJob) (rest : List FlushJob) : (s.startFlush j rest).management = s.management := by
  rw [State.startFlush_changes]
@[simp] theorem State.startFlush_staging (s : State) (j : FlushJob) (rest : List FlushJob) : (s.startFlush j rest).staging = s.staging := by
  rw [State.startFlush_changes]
@[simp] theorem State.startFlush_now (s : State) (j : FlushJob) (rest : List FlushJob) : (s.startFlush j rest).now = s.now := by
  rw [State.startFlush_changes]
@[simp] theorem State.startFlush_choices (s : State) (j : FlushJob) (rest : List FlushJob) : (s.startFlush j rest).choices = s.choices := by
  rw [State.startFlush_changes]
@[simp] theorem State.startFlush_pending (s : State) (j : FlushJob) (rest : List FlushJob) : (s.startFlush j rest).pending = s.pending := by
  rw [State.startFlush_changes]

theorem State.refuseFlush_changes (s : State) (j : FlushJob) (rest : List FlushJob) :
    (s.refuseFlush j rest) = { s with
      streams := (s.refuseFlush j rest).streams, containers := (s.refuseFlush j rest).containers
      sealUnit := (s.refuseFlush j rest).sealUnit, store := (s.refuseFlush j rest).store
      choices := (s.refuseFlush j rest).choices, management := (s.refuseFlush j rest).management } := by
  apply State.ext <;> simp [State.refuseFlush]

@[simp] theorem State.refuseFlush_station (s : State) (j : FlushJob) (rest : List FlushJob) : (s.refuseFlush j rest).station = s.station := by
  rw [State.refuseFlush_changes]
@[simp] theorem State.refuseFlush_hold (s : State) (j : FlushJob) (rest : List FlushJob) : (s.refuseFlush j rest).hold = s.hold := by
  rw [State.refuseFlush_changes]
@[simp] theorem State.refuseFlush_quiet (s : State) (j : FlushJob) (rest : List FlushJob) : (s.refuseFlush j rest).quiet = s.quiet := by
  rw [State.refuseFlush_changes]
@[simp] theorem State.refuseFlush_settings (s : State) (j : FlushJob) (rest : List FlushJob) : (s.refuseFlush j rest).settings = s.settings := by
  rw [State.refuseFlush_changes]
@[simp] theorem State.refuseFlush_clearPosition (s : State) (j : FlushJob) (rest : List FlushJob) : (s.refuseFlush j rest).clearPosition = s.clearPosition := by
  rw [State.refuseFlush_changes]
@[simp] theorem State.refuseFlush_engines (s : State) (j : FlushJob) (rest : List FlushJob) : (s.refuseFlush j rest).engines = s.engines := by
  rw [State.refuseFlush_changes]
@[simp] theorem State.refuseFlush_lastAssigned (s : State) (j : FlushJob) (rest : List FlushJob) : (s.refuseFlush j rest).lastAssigned = s.lastAssigned := by
  rw [State.refuseFlush_changes]
@[simp] theorem State.refuseFlush_digestQueue (s : State) (j : FlushJob) (rest : List FlushJob) : (s.refuseFlush j rest).digestQueue = s.digestQueue := by
  rw [State.refuseFlush_changes]
@[simp] theorem State.refuseFlush_index (s : State) (j : FlushJob) (rest : List FlushJob) : (s.refuseFlush j rest).index = s.index := by
  rw [State.refuseFlush_changes]
@[simp] theorem State.refuseFlush_resolution (s : State) (j : FlushJob) (rest : List FlushJob) : (s.refuseFlush j rest).resolution = s.resolution := by
  rw [State.refuseFlush_changes]
@[simp] theorem State.refuseFlush_bus (s : State) (j : FlushJob) (rest : List FlushJob) : (s.refuseFlush j rest).bus = s.bus := by
  rw [State.refuseFlush_changes]
@[simp] theorem State.refuseFlush_sealLineLow (s : State) (j : FlushJob) (rest : List FlushJob) : (s.refuseFlush j rest).sealLineLow = s.sealLineLow := by
  rw [State.refuseFlush_changes]
@[simp] theorem State.refuseFlush_walker (s : State) (j : FlushJob) (rest : List FlushJob) : (s.refuseFlush j rest).walker = s.walker := by
  rw [State.refuseFlush_changes]
@[simp] theorem State.refuseFlush_staging (s : State) (j : FlushJob) (rest : List FlushJob) : (s.refuseFlush j rest).staging = s.staging := by
  rw [State.refuseFlush_changes]
@[simp] theorem State.refuseFlush_now (s : State) (j : FlushJob) (rest : List FlushJob) : (s.refuseFlush j rest).now = s.now := by
  rw [State.refuseFlush_changes]
@[simp] theorem State.refuseFlush_sent (s : State) (j : FlushJob) (rest : List FlushJob) : (s.refuseFlush j rest).sent = s.sent := by
  rw [State.refuseFlush_changes]
@[simp] theorem State.refuseFlush_pending (s : State) (j : FlushJob) (rest : List FlushJob) : (s.refuseFlush j rest).pending = s.pending := by
  rw [State.refuseFlush_changes]

theorem State.arbitrate_changes (s : State) (n : Nat) :
    (s.arbitrate n) = { s with
      streams := (s.arbitrate n).streams, containers := (s.arbitrate n).containers
      sealUnit := (s.arbitrate n).sealUnit, store := (s.arbitrate n).store
      choices := (s.arbitrate n).choices, management := (s.arbitrate n).management
      sent := (s.arbitrate n).sent } := by
  induction n generalizing s with
  | zero => rfl
  | succ n ih =>
    generalize h : s.arbitrate (n + 1) = t
    simp only [State.arbitrate] at h
    repeat' split at h
    all_goals subst h
    all_goals first
      | (apply State.ext <;> simp; done)
      | (rw [ih]; apply State.ext <;> simp; done)

@[simp] theorem State.arbitrate_station (s : State) (n : Nat) : (s.arbitrate n).station = s.station := by
  rw [State.arbitrate_changes]
@[simp] theorem State.arbitrate_hold (s : State) (n : Nat) : (s.arbitrate n).hold = s.hold := by
  rw [State.arbitrate_changes]
@[simp] theorem State.arbitrate_quiet (s : State) (n : Nat) : (s.arbitrate n).quiet = s.quiet := by
  rw [State.arbitrate_changes]
@[simp] theorem State.arbitrate_settings (s : State) (n : Nat) : (s.arbitrate n).settings = s.settings := by
  rw [State.arbitrate_changes]
@[simp] theorem State.arbitrate_clearPosition (s : State) (n : Nat) : (s.arbitrate n).clearPosition = s.clearPosition := by
  rw [State.arbitrate_changes]
@[simp] theorem State.arbitrate_engines (s : State) (n : Nat) : (s.arbitrate n).engines = s.engines := by
  rw [State.arbitrate_changes]
@[simp] theorem State.arbitrate_lastAssigned (s : State) (n : Nat) : (s.arbitrate n).lastAssigned = s.lastAssigned := by
  rw [State.arbitrate_changes]
@[simp] theorem State.arbitrate_digestQueue (s : State) (n : Nat) : (s.arbitrate n).digestQueue = s.digestQueue := by
  rw [State.arbitrate_changes]
@[simp] theorem State.arbitrate_index (s : State) (n : Nat) : (s.arbitrate n).index = s.index := by
  rw [State.arbitrate_changes]
@[simp] theorem State.arbitrate_resolution (s : State) (n : Nat) : (s.arbitrate n).resolution = s.resolution := by
  rw [State.arbitrate_changes]
@[simp] theorem State.arbitrate_bus (s : State) (n : Nat) : (s.arbitrate n).bus = s.bus := by
  rw [State.arbitrate_changes]
@[simp] theorem State.arbitrate_sealLineLow (s : State) (n : Nat) : (s.arbitrate n).sealLineLow = s.sealLineLow := by
  rw [State.arbitrate_changes]
@[simp] theorem State.arbitrate_walker (s : State) (n : Nat) : (s.arbitrate n).walker = s.walker := by
  rw [State.arbitrate_changes]
@[simp] theorem State.arbitrate_staging (s : State) (n : Nat) : (s.arbitrate n).staging = s.staging := by
  rw [State.arbitrate_changes]
@[simp] theorem State.arbitrate_now (s : State) (n : Nat) : (s.arbitrate n).now = s.now := by
  rw [State.arbitrate_changes]
@[simp] theorem State.arbitrate_pending (s : State) (n : Nat) : (s.arbitrate n).pending = s.pending := by
  rw [State.arbitrate_changes]

theorem State.takeHandedOver_changes (s : State) (n : Nat) :
    (s.takeHandedOver n) = { s with
      streams := (s.takeHandedOver n).streams, containers := (s.takeHandedOver n).containers
      sealUnit := (s.takeHandedOver n).sealUnit, store := (s.takeHandedOver n).store
      choices := (s.takeHandedOver n).choices, management := (s.takeHandedOver n).management
      sent := (s.takeHandedOver n).sent } := by
  induction n generalizing s with
  | zero => rfl
  | succ n ih =>
    generalize h : s.takeHandedOver (n + 1) = t
    simp only [State.takeHandedOver] at h
    repeat' split at h
    all_goals subst h
    all_goals first
      | (apply State.ext <;> simp; done)
      | (rw [ih]; apply State.ext <;> simp; done)

@[simp] theorem State.takeHandedOver_station (s : State) (n : Nat) : (s.takeHandedOver n).station = s.station := by
  rw [State.takeHandedOver_changes]
@[simp] theorem State.takeHandedOver_hold (s : State) (n : Nat) : (s.takeHandedOver n).hold = s.hold := by
  rw [State.takeHandedOver_changes]
@[simp] theorem State.takeHandedOver_quiet (s : State) (n : Nat) : (s.takeHandedOver n).quiet = s.quiet := by
  rw [State.takeHandedOver_changes]
@[simp] theorem State.takeHandedOver_settings (s : State) (n : Nat) : (s.takeHandedOver n).settings = s.settings := by
  rw [State.takeHandedOver_changes]
@[simp] theorem State.takeHandedOver_clearPosition (s : State) (n : Nat) : (s.takeHandedOver n).clearPosition = s.clearPosition := by
  rw [State.takeHandedOver_changes]
@[simp] theorem State.takeHandedOver_engines (s : State) (n : Nat) : (s.takeHandedOver n).engines = s.engines := by
  rw [State.takeHandedOver_changes]
@[simp] theorem State.takeHandedOver_lastAssigned (s : State) (n : Nat) : (s.takeHandedOver n).lastAssigned = s.lastAssigned := by
  rw [State.takeHandedOver_changes]
@[simp] theorem State.takeHandedOver_digestQueue (s : State) (n : Nat) : (s.takeHandedOver n).digestQueue = s.digestQueue := by
  rw [State.takeHandedOver_changes]
@[simp] theorem State.takeHandedOver_index (s : State) (n : Nat) : (s.takeHandedOver n).index = s.index := by
  rw [State.takeHandedOver_changes]
@[simp] theorem State.takeHandedOver_resolution (s : State) (n : Nat) : (s.takeHandedOver n).resolution = s.resolution := by
  rw [State.takeHandedOver_changes]
@[simp] theorem State.takeHandedOver_bus (s : State) (n : Nat) : (s.takeHandedOver n).bus = s.bus := by
  rw [State.takeHandedOver_changes]
@[simp] theorem State.takeHandedOver_sealLineLow (s : State) (n : Nat) : (s.takeHandedOver n).sealLineLow = s.sealLineLow := by
  rw [State.takeHandedOver_changes]
@[simp] theorem State.takeHandedOver_walker (s : State) (n : Nat) : (s.takeHandedOver n).walker = s.walker := by
  rw [State.takeHandedOver_changes]
@[simp] theorem State.takeHandedOver_staging (s : State) (n : Nat) : (s.takeHandedOver n).staging = s.staging := by
  rw [State.takeHandedOver_changes]
@[simp] theorem State.takeHandedOver_now (s : State) (n : Nat) : (s.takeHandedOver n).now = s.now := by
  rw [State.takeHandedOver_changes]
@[simp] theorem State.takeHandedOver_pending (s : State) (n : Nat) : (s.takeHandedOver n).pending = s.pending := by
  rw [State.takeHandedOver_changes]

theorem State.lookAtPort_changes (s : State) :
    (s.lookAtPort) = { s with
      streams := (s.lookAtPort).streams, containers := (s.lookAtPort).containers
      sealUnit := (s.lookAtPort).sealUnit, store := (s.lookAtPort).store
      choices := (s.lookAtPort).choices, management := (s.lookAtPort).management
      sent := (s.lookAtPort).sent } := by
  generalize h : (s.lookAtPort) = t
  simp only [State.lookAtPort] at h
  repeat' split at h
  all_goals subst h; apply State.ext <;> simp

@[simp] theorem State.lookAtPort_station (s : State) : (s.lookAtPort).station = s.station := by
  rw [State.lookAtPort_changes]
@[simp] theorem State.lookAtPort_hold (s : State) : (s.lookAtPort).hold = s.hold := by
  rw [State.lookAtPort_changes]
@[simp] theorem State.lookAtPort_quiet (s : State) : (s.lookAtPort).quiet = s.quiet := by
  rw [State.lookAtPort_changes]
@[simp] theorem State.lookAtPort_settings (s : State) : (s.lookAtPort).settings = s.settings := by
  rw [State.lookAtPort_changes]
@[simp] theorem State.lookAtPort_clearPosition (s : State) : (s.lookAtPort).clearPosition = s.clearPosition := by
  rw [State.lookAtPort_changes]
@[simp] theorem State.lookAtPort_engines (s : State) : (s.lookAtPort).engines = s.engines := by
  rw [State.lookAtPort_changes]
@[simp] theorem State.lookAtPort_lastAssigned (s : State) : (s.lookAtPort).lastAssigned = s.lastAssigned := by
  rw [State.lookAtPort_changes]
@[simp] theorem State.lookAtPort_digestQueue (s : State) : (s.lookAtPort).digestQueue = s.digestQueue := by
  rw [State.lookAtPort_changes]
@[simp] theorem State.lookAtPort_index (s : State) : (s.lookAtPort).index = s.index := by
  rw [State.lookAtPort_changes]
@[simp] theorem State.lookAtPort_resolution (s : State) : (s.lookAtPort).resolution = s.resolution := by
  rw [State.lookAtPort_changes]
@[simp] theorem State.lookAtPort_bus (s : State) : (s.lookAtPort).bus = s.bus := by
  rw [State.lookAtPort_changes]
@[simp] theorem State.lookAtPort_sealLineLow (s : State) : (s.lookAtPort).sealLineLow = s.sealLineLow := by
  rw [State.lookAtPort_changes]
@[simp] theorem State.lookAtPort_walker (s : State) : (s.lookAtPort).walker = s.walker := by
  rw [State.lookAtPort_changes]
@[simp] theorem State.lookAtPort_staging (s : State) : (s.lookAtPort).staging = s.staging := by
  rw [State.lookAtPort_changes]
@[simp] theorem State.lookAtPort_now (s : State) : (s.lookAtPort).now = s.now := by
  rw [State.lookAtPort_changes]
@[simp] theorem State.lookAtPort_pending (s : State) : (s.lookAtPort).pending = s.pending := by
  rw [State.lookAtPort_changes]

theorem State.settle_changes (s : State) :
    (s.settle) = { s with
      streams := (s.settle).streams, containers := (s.settle).containers
      sealUnit := (s.settle).sealUnit, store := (s.settle).store, choices := (s.settle).choices
      management := (s.settle).management, sent := (s.settle).sent, walker := (s.settle).walker
      quiet := (s.settle).quiet } := by
  apply State.ext <;> simp [State.settle]

@[simp] theorem State.settle_station (s : State) : (s.settle).station = s.station := by
  rw [State.settle_changes]
@[simp] theorem State.settle_hold (s : State) : (s.settle).hold = s.hold := by
  rw [State.settle_changes]
@[simp] theorem State.settle_settings (s : State) : (s.settle).settings = s.settings := by
  rw [State.settle_changes]
@[simp] theorem State.settle_clearPosition (s : State) : (s.settle).clearPosition = s.clearPosition := by
  rw [State.settle_changes]
@[simp] theorem State.settle_engines (s : State) : (s.settle).engines = s.engines := by
  rw [State.settle_changes]
@[simp] theorem State.settle_lastAssigned (s : State) : (s.settle).lastAssigned = s.lastAssigned := by
  rw [State.settle_changes]
@[simp] theorem State.settle_digestQueue (s : State) : (s.settle).digestQueue = s.digestQueue := by
  rw [State.settle_changes]
@[simp] theorem State.settle_index (s : State) : (s.settle).index = s.index := by
  rw [State.settle_changes]
@[simp] theorem State.settle_resolution (s : State) : (s.settle).resolution = s.resolution := by
  rw [State.settle_changes]
@[simp] theorem State.settle_bus (s : State) : (s.settle).bus = s.bus := by
  rw [State.settle_changes]
@[simp] theorem State.settle_sealLineLow (s : State) : (s.settle).sealLineLow = s.sealLineLow := by
  rw [State.settle_changes]
@[simp] theorem State.settle_staging (s : State) : (s.settle).staging = s.staging := by
  rw [State.settle_changes]
@[simp] theorem State.settle_now (s : State) : (s.settle).now = s.now := by
  rw [State.settle_changes]
@[simp] theorem State.settle_pending (s : State) : (s.settle).pending = s.pending := by
  rw [State.settle_changes]

theorem State.settleCompletion_changes (s : State) :
    (s.settleCompletion) = { s with
      streams := (s.settleCompletion).streams, containers := (s.settleCompletion).containers
      sealUnit := (s.settleCompletion).sealUnit, store := (s.settleCompletion).store
      choices := (s.settleCompletion).choices, management := (s.settleCompletion).management
      sent := (s.settleCompletion).sent, walker := (s.settleCompletion).walker
      quiet := (s.settleCompletion).quiet } := by
  apply State.ext <;> simp [State.settleCompletion]

@[simp] theorem State.settleCompletion_station (s : State) : (s.settleCompletion).station = s.station := by
  rw [State.settleCompletion_changes]
@[simp] theorem State.settleCompletion_hold (s : State) : (s.settleCompletion).hold = s.hold := by
  rw [State.settleCompletion_changes]
@[simp] theorem State.settleCompletion_settings (s : State) : (s.settleCompletion).settings = s.settings := by
  rw [State.settleCompletion_changes]
@[simp] theorem State.settleCompletion_clearPosition (s : State) : (s.settleCompletion).clearPosition = s.clearPosition := by
  rw [State.settleCompletion_changes]
@[simp] theorem State.settleCompletion_engines (s : State) : (s.settleCompletion).engines = s.engines := by
  rw [State.settleCompletion_changes]
@[simp] theorem State.settleCompletion_lastAssigned (s : State) : (s.settleCompletion).lastAssigned = s.lastAssigned := by
  rw [State.settleCompletion_changes]
@[simp] theorem State.settleCompletion_digestQueue (s : State) : (s.settleCompletion).digestQueue = s.digestQueue := by
  rw [State.settleCompletion_changes]
@[simp] theorem State.settleCompletion_index (s : State) : (s.settleCompletion).index = s.index := by
  rw [State.settleCompletion_changes]
@[simp] theorem State.settleCompletion_resolution (s : State) : (s.settleCompletion).resolution = s.resolution := by
  rw [State.settleCompletion_changes]
@[simp] theorem State.settleCompletion_bus (s : State) : (s.settleCompletion).bus = s.bus := by
  rw [State.settleCompletion_changes]
@[simp] theorem State.settleCompletion_sealLineLow (s : State) : (s.settleCompletion).sealLineLow = s.sealLineLow := by
  rw [State.settleCompletion_changes]
@[simp] theorem State.settleCompletion_staging (s : State) : (s.settleCompletion).staging = s.staging := by
  rw [State.settleCompletion_changes]
@[simp] theorem State.settleCompletion_now (s : State) : (s.settleCompletion).now = s.now := by
  rw [State.settleCompletion_changes]
@[simp] theorem State.settleCompletion_pending (s : State) : (s.settleCompletion).pending = s.pending := by
  rw [State.settleCompletion_changes]

theorem State.conclude_changes (s : State) :
    (s.conclude) = { s with
      streams := (s.conclude).streams, walker := (s.conclude).walker
      management := (s.conclude).management, choices := (s.conclude).choices
      quiet := (s.conclude).quiet } := by
  apply State.ext <;> simp [State.conclude]

@[simp] theorem State.conclude_station (s : State) : (s.conclude).station = s.station := by
  rw [State.conclude_changes]
@[simp] theorem State.conclude_hold (s : State) : (s.conclude).hold = s.hold := by
  rw [State.conclude_changes]
@[simp] theorem State.conclude_settings (s : State) : (s.conclude).settings = s.settings := by
  rw [State.conclude_changes]
@[simp] theorem State.conclude_clearPosition (s : State) : (s.conclude).clearPosition = s.clearPosition := by
  rw [State.conclude_changes]
@[simp] theorem State.conclude_engines (s : State) : (s.conclude).engines = s.engines := by
  rw [State.conclude_changes]
@[simp] theorem State.conclude_lastAssigned (s : State) : (s.conclude).lastAssigned = s.lastAssigned := by
  rw [State.conclude_changes]
@[simp] theorem State.conclude_digestQueue (s : State) : (s.conclude).digestQueue = s.digestQueue := by
  rw [State.conclude_changes]
@[simp] theorem State.conclude_index (s : State) : (s.conclude).index = s.index := by
  rw [State.conclude_changes]
@[simp] theorem State.conclude_resolution (s : State) : (s.conclude).resolution = s.resolution := by
  rw [State.conclude_changes]
@[simp] theorem State.conclude_bus (s : State) : (s.conclude).bus = s.bus := by
  rw [State.conclude_changes]
@[simp] theorem State.conclude_containers (s : State) : (s.conclude).containers = s.containers := by
  rw [State.conclude_changes]
@[simp] theorem State.conclude_sealUnit (s : State) : (s.conclude).sealUnit = s.sealUnit := by
  rw [State.conclude_changes]
@[simp] theorem State.conclude_sealLineLow (s : State) : (s.conclude).sealLineLow = s.sealLineLow := by
  rw [State.conclude_changes]
@[simp] theorem State.conclude_store (s : State) : (s.conclude).store = s.store := by
  rw [State.conclude_changes]
@[simp] theorem State.conclude_staging (s : State) : (s.conclude).staging = s.staging := by
  rw [State.conclude_changes]
@[simp] theorem State.conclude_now (s : State) : (s.conclude).now = s.now := by
  rw [State.conclude_changes]
@[simp] theorem State.conclude_sent (s : State) : (s.conclude).sent = s.sent := by
  rw [State.conclude_changes]
@[simp] theorem State.conclude_pending (s : State) : (s.conclude).pending = s.pending := by
  rw [State.conclude_changes]

end Sys2Proof.Machine
end

