-- ==== Sys2Proof/Laws/Kept.lean ====
section
/-! SUPPORT. What the last part of a step keeps of every stream and of every container that is not FREE, and the table
lookups by tag and fingerprint. -/

namespace Sys2Proof.Machine

/-! ## Streams -/

/-- Only the stream's state, current container, owed MARK, queue, write in flight and end progress have changed. -/
def Stream.Kept (x y : Stream) : Prop :=
  y = { x with state := y.state, current := y.current, owedMark := y.owedMark, queue := y.queue
               writeInFlight := y.writeInFlight, endProgress := y.endProgress }

theorem Stream.Kept.refl (x : Stream) : x.Kept x := by simp [Stream.Kept]

theorem Stream.Kept.trans {x y z : Stream} (h : x.Kept y) (g : y.Kept z) : x.Kept z := by
  simp only [Stream.Kept] at *
  rw [g, h]

theorem Stream.Kept.pending {x y : Stream} (h : x.Kept y) : y.pending = x.pending := by rw [h]
theorem Stream.Kept.chunker {x y : Stream} (h : x.Kept y) : y.chunker = x.chunker := by rw [h]
theorem Stream.Kept.chunks {x y : Stream} (h : x.Kept y) : y.chunks = x.chunks := by rw [h]
theorem Stream.Kept.written {x y : Stream} (h : x.Kept y) : y.written = x.written := by rw [h]
theorem Stream.Kept.taken {x y : Stream} (h : x.Kept y) : y.taken = x.taken := by rw [h]
theorem Stream.Kept.surveyNew {x y : Stream} (h : x.Kept y) : y.surveyNew = x.surveyNew := by rw [h]
theorem Stream.Kept.surveyDup {x y : Stream} (h : x.Kept y) : y.surveyDup = x.surveyDup := by rw [h]
theorem Stream.Kept.bytesAccepted {x y : Stream} (h : x.Kept y) : y.bytesAccepted = x.bytesAccepted := by rw [h]

theorem Stream.Kept.sameWork {x y : Stream} (h : x.Kept y) : x.sameWork y := by rw [h]; simp [Stream.sameWork]

/-- Every stream is kept. -/
def State.StreamsKept (s t : State) : Prop := ∀ i, (s.stream i).Kept (t.stream i)

theorem State.StreamsKept.refl (s : State) : s.StreamsKept s := fun _ => Stream.Kept.refl _

theorem State.StreamsKept.trans {s t u : State} (h : s.StreamsKept t) (g : t.StreamsKept u) : s.StreamsKept u :=
  fun i => (h i).trans (g i)

theorem State.StreamsKept.of_eq {s t : State} (h : t.streams = s.streams) : s.StreamsKept t := by
  intro i; simp [State.stream, h, Stream.Kept]

theorem State.StreamsKept.set {s : State} {i : Fin 16} {x : Stream} (h : (s.stream i).Kept x) :
    s.StreamsKept (s.setStream i x) := by
  intro j
  rw [State.stream_setStream]
  split
  · rename_i e; subst e; exact h
  · exact Stream.Kept.refl _

theorem State.StreamsKept.after {s t u : State} (h : s.StreamsKept t) (g : u.streams = t.streams) : s.StreamsKept u :=
  h.trans (State.StreamsKept.of_eq g)

theorem State.StreamsKept.before {s t u : State} (g : t.streams = s.streams) (h : t.StreamsKept u) : s.StreamsKept u :=
  (State.StreamsKept.of_eq g).trans h

theorem State.StreamsKept.fold {β : Type} {f : State → β → State} (h : ∀ (s : State) b, s.StreamsKept (f s b)) (l : List β)
    (s : State) : s.StreamsKept (l.foldl f s) := by
  induction l generalizing s with
  | nil => exact State.StreamsKept.refl s
  | cons b rest ih => exact (h s b).trans (ih _)

theorem Stream.Kept.toIdle (x : Stream) : x.Kept x.toIdle := by simp [Stream.Kept, Stream.toIdle]

theorem State.dropCurrent_kept (s : State) (slot : Nat) (o : Option (Fin 16)) : s.StreamsKept (s.dropCurrent slot o) := by
  cases o with
  | none => exact State.StreamsKept.refl s
  | some i =>
    refine State.StreamsKept.set ?_
    dsimp only
    split <;> rfl

theorem State.turnSealing_kept (s : State) (slot : Nat) (r : SealReason) : s.StreamsKept (s.turnSealing slot r) :=
  (State.dropCurrent_kept s slot (s.container slot).owner).after rfl

theorem State.sealRequest_kept (s : State) (slot : Nat) (r : SealReason) : s.StreamsKept (s.sealRequest slot r) := by
  simp only [State.sealRequest]
  split
  · split
    · exact State.turnSealing_kept s slot r
    · exact (State.dropCurrent_kept s slot (s.container slot).owner).after rfl
  · exact State.StreamsKept.refl s

theorem State.sealCurrent_kept (s : State) (i : Fin 16) (r : SealReason) : s.StreamsKept (s.sealCurrent i r) := by
  simp only [State.sealCurrent]
  split
  · exact (State.sealRequest_kept s _ r).trans (State.StreamsKept.set rfl)
  · exact State.StreamsKept.refl s

theorem State.requestAppend_kept (s : State) (r : AppendRequest) : s.StreamsKept (s.requestAppend r) := by
  simp only [State.requestAppend]
  repeat' split
  · exact State.StreamsKept.of_eq (by simp)
  · exact State.StreamsKept.of_eq (by simp)
  · exact (State.sealRequest_kept s _ _).after rfl
  · exact State.StreamsKept.of_eq (by simp)

theorem State.openContainer_kept (s : State) (slot area : Nat) (i : Fin 16) :
    s.StreamsKept (s.openContainer slot area i) := by
  simp only [State.openContainer]
  exact State.StreamsKept.before rfl (State.StreamsKept.set rfl)

theorem State.issueFollowers_kept (s : State) (slot : Nat) (i : Fin 16) (l : List AppendRequest) :
    s.StreamsKept (s.issueFollowers slot i l).1 := by
  induction l generalizing s with
  | nil => exact State.StreamsKept.refl s
  | cons r rest ih =>
    simp only [State.issueFollowers]
    repeat' split
    · exact State.StreamsKept.before rfl (ih _)
    · exact State.sealRequest_kept s slot _
    · exact ih s

theorem State.serveOpenWaitUpTo_kept (s : State) (n : Nat) : s.StreamsKept (s.serveOpenWaitUpTo n) := by
  induction n generalizing s with
  | zero => exact State.StreamsKept.refl s
  | succ n ih =>
    simp only [State.serveOpenWaitUpTo]
    split
    · rename_i r others slot area _ _ _
      refine State.StreamsKept.trans ?_ (ih _)
      refine State.StreamsKept.trans (State.openContainer_kept s slot area r.stream) ?_
      exact State.StreamsKept.before (t := (s.openContainer slot area r.stream).issueAppend slot r) rfl
        ((State.issueFollowers_kept _ slot r.stream others).after rfl)
    · exact State.StreamsKept.refl s

theorem State.serveOpenWait_kept (s : State) : s.StreamsKept s.serveOpenWait := State.serveOpenWaitUpTo_kept s _

theorem State.issueRecord_kept (s : State) (i : Fin 16) : s.StreamsKept (s.issueRecord i) := by
  simp only [State.issueRecord]
  split
  · exact State.StreamsKept.refl s
  · refine State.StreamsKept.before ?_ (State.StreamsKept.set rfl)
    simp only [State.addressWord]
    split <;> rfl

theorem State.emitRecords_kept (s : State) : s.StreamsKept s.emitRecords := by
  simp only [State.emitRecords]
  refine State.StreamsKept.before ?_ (State.StreamsKept.fold State.issueRecord_kept _ _)
  simp only [State.anyOrder]
  split <;> rfl

theorem State.beginRound_kept (s : State) : s.StreamsKept s.beginRound := by
  simp only [State.beginRound]
  refine State.StreamsKept.before ?_ (State.StreamsKept.fold (fun s k => State.sealRequest_kept s k .round) _ _)
  simp only [State.anyOrder]
  split <;> exact foldl_keep State.streams (fun t k => t.enrol (nextRound s.sealUnit.counter) k) (by intro s a; rfl) s _

theorem Stream.Kept.owe (x : Stream) (r : Half) (st : RoundStatus) : x.Kept (x.owe r st) := by
  simp only [Stream.owe]
  repeat' split
  all_goals simp [Stream.Kept]

theorem State.finishRound_kept (s : State) : s.StreamsKept s.finishRound := by
  simp only [State.finishRound]
  split
  · exact State.StreamsKept.refl s
  · intro i
    simp only [State.stream, Fin.getElem_fin, Vector.getElem_map]
    exact Stream.Kept.owe _ _ _

theorem State.completeRound_kept (s : State) : s.StreamsKept s.completeRound := by
  simp only [State.completeRound]
  have h1 := State.finishRound_kept s
  have h2 := h1.trans (State.StreamsKept.before (s := s.finishRound) rfl
    (State.beginRound_kept { s.finishRound with sealUnit := { s.finishRound.sealUnit with roundAgain := false } }))
  split
  · split
    · exact h2.trans (State.finishRound_kept _)
    · exact h2
  · exact h1

theorem State.startRound_kept (s : State) : s.StreamsKept s.startRound := by
  simp only [State.startRound]
  split
  · exact (State.beginRound_kept s).trans (State.completeRound_kept _)
  · exact State.beginRound_kept s

theorem State.askRound_kept (s : State) : s.StreamsKept s.askRound := by
  simp only [State.askRound]
  split
  · exact State.startRound_kept s
  · exact State.StreamsKept.of_eq rfl

theorem State.containerNotice_kept (s : State) (slot : Nat) (lost : Bool) : s.StreamsKept (s.containerNotice slot lost) := by
  simp only [State.containerNotice]
  repeat' split
  · exact State.StreamsKept.before rfl (State.completeRound_kept _)
  · exact State.StreamsKept.of_eq rfl
  · exact State.StreamsKept.of_eq rfl
  · exact State.StreamsKept.refl s

theorem State.flushOutcome_kept (s : State) (slot : Nat) (e : Bool) : s.StreamsKept (s.flushOutcome slot e) := by
  simp only [State.flushOutcome]
  refine State.StreamsKept.before ?_ (State.containerNotice_kept _ _ _)
  split <;> rfl

theorem State.refuseFlush_kept (s : State) (j : FlushJob) (rest : List FlushJob) : s.StreamsKept (s.refuseFlush j rest) := by
  simp only [State.refuseFlush]
  exact (State.StreamsKept.of_eq (t := { s with store := { s.store with flushQueue := rest } }) rfl).trans
    ((State.flushOutcome_kept _ _ _).trans ((State.serveOpenWait_kept _).trans (State.emitRecords_kept _)))

theorem State.arbitrate_kept (s : State) (n : Nat) : s.StreamsKept (s.arbitrate n) := by
  induction n generalizing s with
  | zero => exact State.StreamsKept.refl s
  | succ n ih =>
    simp only [State.arbitrate]
    repeat' split
    · exact State.StreamsKept.of_eq rfl
    · exact State.StreamsKept.of_eq rfl
    · exact State.StreamsKept.of_eq rfl
    · exact (State.refuseFlush_kept s _ _).trans (ih _)
    · exact State.StreamsKept.refl s

theorem State.takeHandedOver_kept (s : State) (n : Nat) : s.StreamsKept (s.takeHandedOver n) := by
  induction n generalizing s with
  | zero => exact State.StreamsKept.refl s
  | succ n ih =>
    simp only [State.takeHandedOver]
    repeat' split
    · exact State.StreamsKept.of_eq rfl
    · exact State.StreamsKept.of_eq rfl
    · exact State.StreamsKept.before rfl ((State.refuseFlush_kept { s with choices := s.choices + 1 } _ _).trans (ih _))
    · exact State.StreamsKept.of_eq rfl
    · exact (State.refuseFlush_kept s _ _).trans (ih _)
    · exact State.arbitrate_kept s _

theorem State.lookAtPort_kept (s : State) : s.StreamsKept s.lookAtPort := by
  simp only [State.lookAtPort]
  split
  · exact State.takeHandedOver_kept s _
  · exact State.StreamsKept.refl s

theorem State.reportEntered_kept (s : State) (r : Report) : s.StreamsKept (s.reportEntered r) := by
  cases r with
  | closed i _ _ _ _ _ _ _ _ _ => exact State.StreamsKept.set (Stream.Kept.toIdle _)
  | aborted i _ _ _ => exact State.StreamsKept.set (Stream.Kept.toIdle _)
  | faulted _ _ _ _ _ _ => exact State.StreamsKept.refl s
  | lost _ _ _ _ _ => exact State.StreamsKept.refl s
  | purged slot _ => exact State.StreamsKept.of_eq (by simp [State.reportEntered])

theorem State.enterReport_kept (s : State) (r : Report) : s.StreamsKept (s.enterReport r) :=
  State.StreamsKept.before rfl
    (State.reportEntered_kept { s with management := { s.management with reports := s.management.reports ++ [r] } } r)

theorem State.placeReport_kept (s : State) (r : Report) : s.StreamsKept (s.placeReport r) := by
  simp only [State.placeReport]
  split
  · exact State.enterReport_kept s r
  · exact State.StreamsKept.of_eq rfl

theorem State.placeReports_kept (s : State) : s.StreamsKept s.placeReports := by
  simp only [State.placeReports]
  refine State.StreamsKept.before ?_ (State.StreamsKept.fold State.placeReport_kept _ _)
  simp only [State.reportOrder]
  repeat' split
  all_goals rfl

/-- The last part of a step leaves every stream's work as it was. -/
theorem State.settle_kept (s : State) : s.StreamsKept s.settle :=
  (State.serveOpenWait_kept s).trans ((State.emitRecords_kept _).trans ((State.lookAtPort_kept _).trans
    ((State.placeReports_kept _).after (by simp only [State.settle, State.refresh_streams]))))

theorem State.settleCompletion_kept (s : State) : s.StreamsKept s.settleCompletion :=
  (State.serveOpenWait_kept s).trans ((State.emitRecords_kept _).trans ((State.arbitrate_kept _ s.serveOpenWait.emitRecords.looks).trans
    ((State.placeReports_kept _).after (by simp only [State.settleCompletion, State.refresh_streams]))))

theorem State.conclude_kept (s : State) : s.StreamsKept s.conclude :=
  (State.placeReports_kept s).after rfl

/-! ## Containers -/

/-- A container that is not FREE stays so, with its count, payload length, fill mark, appends in flight and references. -/
def Container.Kept (c d : Container) : Prop :=
  c.state ≠ .free → d.state ≠ .free ∧ d.count = c.count ∧ d.payload = c.payload ∧ d.fill = c.fill ∧
    d.inFlight = c.inFlight ∧ d.references = c.references

theorem Container.Kept.refl (c : Container) : c.Kept c := fun h => ⟨h, rfl, rfl, rfl, rfl, rfl⟩

theorem Container.Kept.trans {c d e : Container} (h : c.Kept d) (g : d.Kept e) : c.Kept e := by
  intro hc
  obtain ⟨h0, h1, h2, h3, h4, h5⟩ := h hc
  obtain ⟨g0, g1, g2, g3, g4, g5⟩ := g h0
  exact ⟨g0, g1.trans h1, g2.trans h2, g3.trans h3, g4.trans h4, g5.trans h5⟩

/-- Every container is kept. -/
def State.ContainersKept (s t : State) : Prop := ∀ k, (s.container k).Kept (t.container k)

theorem State.ContainersKept.refl (s : State) : s.ContainersKept s := fun _ => Container.Kept.refl _

theorem State.ContainersKept.trans {s t u : State} (h : s.ContainersKept t) (g : t.ContainersKept u) :
    s.ContainersKept u := fun k => (h k).trans (g k)

theorem State.ContainersKept.of_eq {s t : State} (h : t.containers.table = s.containers.table) : s.ContainersKept t := by
  intro k; simp only [State.container, h]; exact Container.Kept.refl _

theorem State.ContainersKept.set {s : State} {slot : Nat} {c : Container} (h : (s.container slot).Kept c) :
    s.ContainersKept (s.setContainer slot c) := by
  intro k
  rw [State.container_setContainer]
  split
  · rename_i e; subst e; exact h
  · exact Container.Kept.refl _

theorem State.ContainersKept.after {s t u : State} (h : s.ContainersKept t)
    (g : u.containers.table = t.containers.table) : s.ContainersKept u := h.trans (State.ContainersKept.of_eq g)

theorem State.ContainersKept.before {s t u : State} (g : t.containers.table = s.containers.table)
    (h : t.ContainersKept u) : s.ContainersKept u := (State.ContainersKept.of_eq g).trans h

theorem State.ContainersKept.fold {β : Type} {f : State → β → State} (h : ∀ (s : State) b, s.ContainersKept (f s b)) (l : List β)
    (s : State) : s.ContainersKept (l.foldl f s) := by
  induction l generalizing s with
  | nil => exact State.ContainersKept.refl s
  | cons b rest ih => exact (h s b).trans (ih _)

theorem State.turnSealing_containers (s : State) (slot : Nat) (r : SealReason) :
    s.ContainersKept (s.turnSealing slot r) := by
  have h1 : s.ContainersKept (s.dropCurrent slot (s.container slot).owner) := State.ContainersKept.of_eq (by simp)
  have h2 : ((s.dropCurrent slot (s.container slot).owner).container slot) = s.container slot := by
    simp [State.container]
  refine h1.trans (State.ContainersKept.after (State.ContainersKept.set (slot := slot)
    (c := { s.container slot with state := .seals, owner := none, sealRequested := none, sealedFor := some r }) ?_)
    (u := s.turnSealing slot r) rfl)
  rw [h2]
  exact fun _ => ⟨by simp, rfl, rfl, rfl, rfl, rfl⟩

theorem State.sealRequest_containers (s : State) (slot : Nat) (r : SealReason) :
    s.ContainersKept (s.sealRequest slot r) := by
  simp only [State.sealRequest]
  split
  · rename_i h
    split
    · exact State.turnSealing_containers s slot r
    · have h1 : s.ContainersKept (s.dropCurrent slot (s.container slot).owner) := State.ContainersKept.of_eq (by simp)
      have h2 : ((s.dropCurrent slot (s.container slot).owner).container slot) = s.container slot := by
        simp [State.container]
      refine h1.trans (State.ContainersKept.set ?_)
      rw [h2]
      exact fun hc => ⟨hc, rfl, rfl, rfl, rfl, rfl⟩
  · exact State.ContainersKept.refl s

theorem State.firstFreeSlot_free {s : State} {start count slot : Nat} (h : s.firstFreeSlot start count = some slot) :
    (s.container slot).state = .free := by
  induction count generalizing start with
  | zero => simp [State.firstFreeSlot] at h
  | succ n ih =>
    simp only [State.firstFreeSlot] at h
    split at h
    · rename_i hf; cases h; exact hf
    · exact ih h

/-- Every container but `slot` is kept. -/
def State.OthersKept (s t : State) (slot : Nat) : Prop := ∀ k, k ≠ slot → (s.container k).Kept (t.container k)

theorem State.issueFollowers_others (s : State) (slot : Nat) (i : Fin 16) (l : List AppendRequest) :
    s.OthersKept (s.issueFollowers slot i l).1 slot := by
  induction l generalizing s with
  | nil => exact fun k _ => Container.Kept.refl _
  | cons r rest ih =>
    simp only [State.issueFollowers]
    repeat' split
    · intro k hk
      have := ih (s.issueAppend slot r) k hk
      rwa [show (s.issueAppend slot r).container k = s.container k by
        simp [State.issueAppend, State.container_setContainer, hk]] at this
    · exact fun k _ => State.sealRequest_containers s slot _ k
    · exact ih s

theorem State.serveOpenWaitUpTo_containers (s : State) (n : Nat) : s.ContainersKept (s.serveOpenWaitUpTo n) := by
  induction n generalizing s with
  | zero => exact State.ContainersKept.refl s
  | succ n ih =>
    simp only [State.serveOpenWaitUpTo]
    split
    · rename_i r others slot area _ hs _
      have hfree := State.firstFreeSlot_free hs
      refine State.ContainersKept.trans ?_ (ih _)
      intro k
      by_cases hk : k = slot
      · subst hk; intro hc; exact absurd hfree hc
      · have h1 : ((s.openContainer slot area r.stream).issueAppend slot r).container k = s.container k := by
          simp only [State.issueAppend, State.container_setContainer, hk, if_false]
          simp only [State.openContainer, State.container, State.modStream_containers]
          simp [State.setContainer, Sparse.find_put, hk]
        have h2 := State.issueFollowers_others ((s.openContainer slot area r.stream).issueAppend slot r) slot r.stream
          others k hk
        rw [h1] at h2
        exact h2
    · exact State.ContainersKept.refl s

theorem State.serveOpenWait_containers (s : State) : s.ContainersKept s.serveOpenWait :=
  State.serveOpenWaitUpTo_containers s _

theorem State.enrol_containers (s : State) (r : Half) (slot : Nat) : s.ContainersKept (s.enrol r slot) :=
  State.ContainersKept.set (fun h => ⟨h, rfl, rfl, rfl, rfl, rfl⟩)

theorem State.beginRound_containers (s : State) : s.ContainersKept s.beginRound := by
  simp only [State.beginRound]
  have h1 := State.ContainersKept.fold (fun t k => State.enrol_containers t (nextRound s.sealUnit.counter) k)
    s.roundMembers s
  refine State.ContainersKept.trans (h1.after ?_)
    (State.ContainersKept.fold (fun s k => State.sealRequest_containers s k .round) _ _)
  simp only [State.anyOrder]
  split <;> rfl

theorem State.finishRound_table (s : State) : s.finishRound.containers.table = s.containers.table := by
  simp only [State.finishRound]
  split <;> rfl

theorem State.completeRound_containers (s : State) : s.ContainersKept s.completeRound := by
  simp only [State.completeRound]
  have h1 : s.ContainersKept s.finishRound := State.ContainersKept.of_eq (State.finishRound_table s)
  have h2 := h1.trans (State.ContainersKept.before (s := s.finishRound) rfl
    (State.beginRound_containers { s.finishRound with sealUnit := { s.finishRound.sealUnit with roundAgain := false } }))
  split
  · split
    · exact h2.after (State.finishRound_table _)
    · exact h2
  · exact h1

theorem State.startRound_containers (s : State) : s.ContainersKept s.startRound := by
  simp only [State.startRound]
  split
  · exact (State.beginRound_containers s).trans (State.completeRound_containers _)
  · exact State.beginRound_containers s

theorem State.askRound_containers (s : State) : s.ContainersKept s.askRound := by
  simp only [State.askRound]
  split
  · exact State.startRound_containers s
  · exact State.ContainersKept.of_eq rfl

theorem State.containerNotice_containers (s : State) (slot : Nat) (lost : Bool) :
    s.ContainersKept (s.containerNotice slot lost) := by
  simp only [State.containerNotice]
  repeat' split
  · refine State.ContainersKept.before ?_ (State.completeRound_containers _)
    rfl
  · exact State.ContainersKept.of_eq rfl
  · exact State.ContainersKept.of_eq rfl
  · exact State.ContainersKept.refl s

theorem State.flushOutcome_containers (s : State) (slot : Nat) (e : Bool) :
    s.ContainersKept (s.flushOutcome slot e) := by
  simp only [State.flushOutcome]
  refine State.ContainersKept.trans ?_ (State.containerNotice_containers _ _ _)
  refine State.ContainersKept.after (State.ContainersKept.set (slot := slot)
    (c := { s.container slot with state := if e then .lost else .sealed, area := none })
    (fun h => ⟨by cases e <;> simp, rfl, rfl, rfl, rfl, rfl⟩)) ?_
  split <;> rfl

theorem State.refuseFlush_containers (s : State) (j : FlushJob) (rest : List FlushJob) :
    s.ContainersKept (s.refuseFlush j rest) := by
  simp only [State.refuseFlush]
  exact (State.ContainersKept.of_eq (t := { s with store := { s.store with flushQueue := rest } }) rfl).trans
    ((State.flushOutcome_containers _ _ _).trans
      ((State.serveOpenWait_containers _).after (by rw [State.emitRecords_containers])))

theorem State.arbitrate_containers (s : State) (n : Nat) : s.ContainersKept (s.arbitrate n) := by
  induction n generalizing s with
  | zero => exact State.ContainersKept.refl s
  | succ n ih =>
    simp only [State.arbitrate]
    repeat' split
    · exact State.ContainersKept.of_eq rfl
    · exact State.ContainersKept.of_eq rfl
    · exact State.ContainersKept.of_eq rfl
    · exact (State.refuseFlush_containers s _ _).trans (ih _)
    · exact State.ContainersKept.refl s

theorem State.takeHandedOver_containers (s : State) (n : Nat) : s.ContainersKept (s.takeHandedOver n) := by
  induction n generalizing s with
  | zero => exact State.ContainersKept.refl s
  | succ n ih =>
    simp only [State.takeHandedOver]
    repeat' split
    · exact State.ContainersKept.of_eq rfl
    · exact State.ContainersKept.of_eq rfl
    · exact State.ContainersKept.before rfl
        ((State.refuseFlush_containers { s with choices := s.choices + 1 } _ _).trans (ih _))
    · exact State.ContainersKept.of_eq rfl
    · exact (State.refuseFlush_containers s _ _).trans (ih _)
    · exact State.arbitrate_containers s _

theorem State.lookAtPort_containers (s : State) : s.ContainersKept s.lookAtPort := by
  simp only [State.lookAtPort]
  split
  · exact State.takeHandedOver_containers s _
  · exact State.ContainersKept.refl s

/-- The last part of a step keeps every container that is not FREE. -/
theorem State.settle_containers (s : State) : s.ContainersKept s.settle :=
  (State.serveOpenWait_containers s).trans (State.ContainersKept.before (by rw [State.emitRecords_containers])
    ((State.lookAtPort_containers s.serveOpenWait.emitRecords).after (by simp [State.settle])))

theorem State.settleCompletion_containers (s : State) : s.ContainersKept s.settleCompletion :=
  (State.serveOpenWait_containers s).trans (State.ContainersKept.before (by rw [State.emitRecords_containers])
    ((State.arbitrate_containers s.serveOpenWait.emitRecords s.serveOpenWait.emitRecords.looks).after
      (by simp [State.settleCompletion])))

/-! ## Lookups in the ask table -/

/-- In a table with distinct tags the entry that carries a tag is the one found by it. -/
theorem State.askTagged_of_mem {s : State} {a : AskEntry} (h : (s.resolution.entries.map (·.tag)).Nodup)
    (ha : a ∈ s.resolution.entries) : s.askTagged a.tag = some a := by
  simp only [State.askTagged]
  generalize s.resolution.entries = l at *
  induction l with
  | nil => simp at ha
  | cons e rest ih =>
    simp only [List.map_cons, List.nodup_cons] at h
    rcases List.mem_cons.1 ha with rfl | ha
    · simp
    · rw [List.find?_cons_of_neg, ih h.2 ha]
      simp only [decide_eq_true_eq]
      intro he
      exact h.1 (he ▸ List.mem_map_of_mem ha)

/-- In a table with distinct fingerprints the entry for a fingerprint is the one found by it. -/
theorem State.askFor_of_mem {s : State} {a : AskEntry} (h : (s.resolution.entries.map (·.fingerprint)).Nodup)
    (ha : a ∈ s.resolution.entries) : s.askFor a.fingerprint = some a := by
  simp only [State.askFor]
  generalize s.resolution.entries = l at *
  induction l with
  | nil => simp at ha
  | cons e rest ih =>
    simp only [List.map_cons, List.nodup_cons] at h
    rcases List.mem_cons.1 ha with rfl | ha
    · simp
    · rw [List.find?_cons_of_neg, ih h.2 ha]
      simp only [decide_eq_true_eq]
      intro he
      exact h.1 (he ▸ List.mem_map_of_mem ha)

theorem State.askFor_none {s : State} {f : Fingerprint} (h : ∀ a ∈ s.resolution.entries, a.fingerprint ≠ f) :
    s.askFor f = none := by simpa [State.askFor] using h

end Sys2Proof.Machine
end

