-- ==== Sys2Proof/Laws/Spelled.lean ====
section
/-! SUPPORT. The model's shared operations as Sys2Proof/Safety.lean spells them from the rules: what the statements say in the
rules' words, for proofs that meet the operation's own name. -/

namespace Sys2Proof.Machine

/-- A request made enters the queue or is held (R43). -/
theorem Index.make_eq_withRequest (x : Index) (p : Producer) (r : IndexRequest) : x.make p r = x.withRequest p r := by
  cases p <;> rfl

/-- A frame enters the transmit queue (R86, R87). -/
theorem PeerBus.enqueue_eq_withFrame (b : PeerBus) (f : Frame) : b.enqueue f = b.withFrame f := by
  simp only [PeerBus.enqueue, PeerBus.withFrame]
  cases b.transmitter <;> simp

/-- A first ASK is placed in the queue or in the holding line (R86). -/
theorem PeerBus.handAsk_eq_withFirstAsk (b : PeerBus) (tag : Byte) (f : Fingerprint) :
    b.handAsk tag f = b.withFirstAsk tag f := by
  simp [PeerBus.handAsk, PeerBus.withFirstAsk, PeerBus.room, PeerBus.enqueue_eq_withFrame]

/-- A HAVE or a CLAIM is placed in the queue or dropped (R86). -/
theorem PeerBus.handOrDrop_eq_withHaveOrClaim (b : PeerBus) (f : Frame) : b.handOrDrop f = b.withHaveOrClaim f := by
  simp [PeerBus.handOrDrop, PeerBus.withHaveOrClaim, PeerBus.room, PeerBus.enqueue_eq_withFrame]

/-- The test value of two sums (R25). -/
theorem testValue_eq (a b : Nat) : testValue a b = (b * 40503 + a) % 2 ^ 32 / 65536 := rfl

/-- A container as one run of bytes (R149). -/
theorem State.containerBytes_eq_containerRun (s : State) (k : Nat) (header : List Byte) :
    s.containerBytes k header = s.containerRun k header := rfl

/-- One burst on the link (R175). -/
theorem burstTransaction_eq_containerWrite (lastBurst : Bool) (slot offset : Nat) (bytes : List Byte) :
    burstTransaction lastBurst slot offset bytes = containerWrite lastBurst slot offset bytes := by
  cases lastBurst <;> rfl

/-- The condition of QUIET (R165). -/
theorem State.quietHolds_iff (s : State) : s.quietHolds = true ↔ s.quietDue := by
  simp [State.quietHolds, State.quietDue, StorePort.clear, Container.nonEmpty, and_assoc, imp_iff_not_or]

end Sys2Proof.Machine
end

