-- ==== Sys2Proof/Tests/Slice0.lean ====
section
/-! SUPPORT. Tests: the well-formedness checks on ill-formed commands, the manual's own worked values, and for each
statement with hypotheses a concrete state and operands that meet them together. -/

namespace Sys2Proof.Tests

open Sys2Proof.Machine

set_option Elab.async false

/-! ## Well-formed commands -/

theorem test_data_too_long_refused : (Instr.dataSegment 0 1 (List.replicate 65536 0)).wellFormed = false := by
  simp only [Instr.wellFormed, List.length_replicate]; decide
theorem test_malformed_of_known_kind_refused : (Instr.malformedSegment 4 15 0).wellFormed = false := by decide
theorem test_malformed_stream_accepted : (Instr.malformedSegment 4 16 0).wellFormed = true := by decide
theorem test_short_image_refused : (Instr.settingsLoaded true [0x2A, 0x5D]).wellFormed = false := by decide
theorem test_append_slot_refused : (Instr.appendComplete 4096 0).wellFormed = false := by decide
theorem test_append_offset_refused : (Instr.appendComplete 0 4194304).wellFormed = false := by decide
theorem test_collision_bit_refused : (Instr.collision 361).wellFormed = false := by decide
theorem test_collision_bit_zero_refused : (Instr.collision 0).wellFormed = false := by decide
theorem test_ask_sender_refused : (Instr.askReceived 16 0 0).wellFormed = false := by decide
theorem test_have_target_refused : (Instr.haveReceived 0 16 0 0 0 0 0 0).wellFormed = false := by decide
theorem test_have_slot_refused : (Instr.haveReceived 0 0 0 0 0 4096 0 0).wellFormed = false := by decide
theorem test_have_ordinal_refused : (Instr.haveReceived 0 0 0 0 0 0 1024 0).wellFormed = false := by decide
theorem test_have_holder_byte_refused : (Instr.haveReceived 0 0 0 0 0 0 0 2).wellFormed = false := by decide
theorem test_claim_holder_byte_refused : (Instr.claimReceived 0 0 0 0 0 1).wellFormed = false := by decide
theorem test_known_code_refused : (Instr.unknownCommand 6).wellFormed = false := by decide

/-! ## The manual's worked values -/

/-- The example of section 2.4: the fingerprint of 0x61 0x62 0x63. -/
theorem test_fingerprint_example : (Digest.initial.feedAll [0x61, 0x62, 0x63]).finish =
    0xba7816bf8f01cfea414140de5dae2223b00361a396177a9cb410ff61f20015ad#256 := by decide +kernel

/-- R40's table of buckets. -/
theorem test_buckets_of_example :
    let f := 0xba7816bf8f01cfea414140de5dae2223b00361a396177a9cb410ff61f20015ad#256
    bucketOf 12 f = 2983 ∧ bucketOf 16 f = 47736 ∧ bucketOf 20 f = 763777 := by decide +kernel

/-- Section 2.5, case 1: A = 4,000, B = 65,000, 100 leaves and 200 enters. -/
theorem test_roll_case_1 :
    let c : ChunkerContext := { ChunkerContext.initial with
      sumA := 4000, sumB := 65000, window := Vector.replicate 32 100#8 }
    (c.roll 200).sumA = 4100 ∧ (c.roll 200).sumB = 65900 ∧ testValue 4100 65900 = 40728 := by decide +kernel

/-- Section 2.5, case 2, with the four bands of its table under the default lengths. -/
theorem test_boundary_case_2 : testValue 4100 66274 = 40959 ∧
    isBoundary Settings.defaults 2047 40959 = false ∧ isBoundary Settings.defaults 8191 40959 = false ∧
    isBoundary Settings.defaults 8192 40959 = true ∧ isBoundary Settings.defaults 32767 40959 = true ∧
    isBoundary Settings.defaults 32768 40728 = true := by decide +kernel

/-- Section 2.5, case 3: 32 bytes of 0xFF and one more. -/
theorem test_window_of_ff :
    let c := (List.replicate 32 0xFF#8).foldl ChunkerContext.roll ChunkerContext.initial
    c.sumA = 8160 ∧ c.sumB = 134640 ∧ (c.roll 0xFF).sumA = 8160 ∧ (c.roll 0xFF).sumB = 134640 ∧
      testValue 8160 134640 = 17675 := by decide +kernel

/-- An image of R176 with a signature and the fields given, every other byte 0. -/
def image (fields : List (Nat × Nat × Nat)) : List Byte :=
  fields.foldl (fun bytes f => (bytes.take f.1 ++ leBytes f.2.1 f.2.2) ++ bytes.drop (f.1 + f.2.1))
    ([0x2A#8, 0x5D#8] ++ List.replicate 62 0#8)

/-- Section 2.5, case 4: both images that clamp. -/
theorem test_settings_that_clamp :
    let t := Settings.load true (image [(16, 4, 4000), (24, 4, 3000), (20, 4, 70000), (7, 1, 20)])
    let u := Settings.load true (image [(16, 4, 100), (24, 4, 60000), (20, 4, 50), (7, 1, 7)])
    t.lMin = 4000 ∧ t.lMax = 4000 ∧ t.nT = 4000 ∧ t.exponent = 15 ∧
    u.lMin = 256 ∧ u.lMax = 60000 ∧ u.nT = 256 ∧ u.exponent = 8 := by decide +kernel

/-- Section 8.7: P = 5 and C = 0 give P = 10 and C = 1. -/
theorem test_seal_period_clamps :
    let t := Settings.load true (image [(6, 1, 5), (8, 2, 0)])
    t.sealP = 10 ∧ t.sealC = 1 := by decide +kernel

/-- R89's value over the nine bytes 0x31 to 0x39. -/
theorem test_frame_check_of_digits :
    frameCheck [0x31, 0x32, 0x33, 0x34, 0x35, 0x36, 0x37, 0x38, 0x39] = 0x29B1#16 := by decide +kernel

/-- R83's waits of section 5's example: station 3 waits 8 µs and station 6 waits 14 µs after their first collision. -/
theorem test_backoff_waits : backoffWait 3 1 = 25 * 8 ∧ backoffWait 6 1 = 25 * 14 := by decide

/-- Section 9.9: the range checks of a region of 128 MiB. -/
theorem test_store_region :
    let s : State := { State.reset with settings := { Settings.defaults with storeUnits := 2048 } }
    s.inStoreRegion ⟨30, 4238592, []⟩ = true ∧ s.inStoreRegion ⟨31, 54304, []⟩ = true ∧
    s.inStoreRegion ⟨31, 4243520, []⟩ = false ∧ s.inStoreRegion ⟨32, 113, []⟩ = false := by decide

/-- R108: 0 and 65,535 are both followed by 1. -/
theorem test_round_order : nextRound 0 = 1 ∧ nextRound 65535 = 1 ∧ nextRound 108 = 109 := by decide

/-- A segment header of R171 spells the command of its kind. -/
theorem test_segment_header_spells_close :
    takeSegment ([3, 5, 0x34, 0x12] ++ List.replicate 12 0) = some (.closeSegment 5 0x1234, []) := by decide

/-- A PURGE of R177 spells its slot little-endian; cut short it is discarded. -/
theorem test_management_bytes :
    takeManagement [5, 0x34, 0x02] = .purge 0x0234 ∧ takeManagement [5, 0x34] = .transactionDiscarded ∧
    takeManagement [9] = .unknownCommand 9 := by decide

/-! ## States for the witnesses -/

/-- The state a command leads to. -/
def after (c : Instr) (s : State) : State :=
  match exec c s with
  | .next t => t
  | .fault _ => s
  | .refused _ => s

/-- A RUNNING station with the default settings, nothing stored. -/
def base : State := { State.reset with
  station := .running, settings := { Settings.defaults with station := 3 }
  containers := { table := [], freeSlots := 1024, cursor := 0, openWait := [] } }

/-- The same station RESET, LOADING, CLEARING or HOLDING. -/
def inState (x : StationState) : State := { base with station := x }

/-- A fingerprint in bucket 0. -/
def fp : Fingerprint := 5

/-- A chunk in pending slot 4 with that fingerprint. -/
def chunk (phase : Phase) : PendingSlot :=
  { number := 4, sequence := 0, length := 3, fingerprint := some fp, phase := phase, disposition := none
    location := none, holderSealed := none }

/-- An open NORMAL stream with one DATA of three bytes in its queue and a window of 16 records. -/
def stream1 : Stream := { Stream.initial with
  state := .opened, windowSize := 16, queue := [{ slot := 0, sequence := 1, kind := .data 3 }], nextQueueSlot := 1
  expected := 2, lastAccepted := 1 }

/-- The base station with stream 1 open. -/
def opened : State := base.setStream 1 stream1

/-- A chunk begun by engine 0, which stands at the last byte of the DATA. -/
def working : State :=
  let c : ChunkerContext := { ChunkerContext.initial with length := 2, slot := some 4 }
  ((base.setStream 1 { stream1 with pending := [chunk .chunking] }).setEngine 0 (.serving 1 c 2))

/-- Stream 1 closing, its CLOSE at the head of the queue and a chunk begun. -/
def closeHead : State := base.setStream 1 { stream1 with
  state := .closing, queue := [{ slot := 0, sequence := 1, kind := .close }], pending := [chunk .chunking]
  chunker := { ChunkerContext.initial with length := 3, slot := some 4 } }

/-- A stream with every pending slot in use. -/
def fullPending : List PendingSlot := (List.finRange 32).map (fun p => { chunk .waiting with number := p })

/-- An ask entry for the fingerprint, waited for by stream 1's chunk. -/
def entry : AskEntry :=
  { fingerprint := fp, tag := 9, state := .asked, yielded := false, timer := .running 0 true true, found := none
    waiters := [(1, 4)], storingWaiter := none }

/-- Stream 1's chunk waits on the entry. -/
def asking : State := { base.setStream 1 { stream1 with pending := [chunk .waiting] } with
  resolution := { entries := [entry], nextTag := 10, waitQueue := [] } }

/-- The same without waiters. -/
def unwaited : State := { base with resolution := { entries := [{ entry with waiters := [] }], nextTag := 10, waitQueue := [] } }

/-- A container of stream 1 with one append in flight, requested by the entry. -/
def filled : Container := { Container.initial with
  state := .opened, area := some 0, owner := some 1, fill := 3
  inFlight := [{ offset := 0, length := 3, fingerprint := fp, stream := 1, slot := 4, tag := 9 }] }

/-- The entry is storing its chunk into slot 7. -/
def storing : State := { asking with
  resolution := { entries := [{ entry with state := .storing, timer := .stopped, storingWaiter := some (1, 4) }]
                  nextTag := 10, waitQueue := [] }
  containers := { table := [(7, filled)], freeSlots := 1023, cursor := 8, openWait := [] } }

/-- A station serving a request, with one container in slot 7. -/
def serving (x : State) (r : IndexRequest) (state : ContainerState) : State := { x with
  index := { x.index with service := .request r, buckets := [(0, [{ fingerprint := fp, slot := 7, ordinal := 2 }])] }
  containers := { table := [(7, { Container.initial with state := state, count := 3, payload := 9, references := 1 })]
                  freeSlots := 1023, cursor := 8, openWait := [] } }

/-- A lookup of stream 1's chunk. -/
def lookup (kind : StreamKind) (void : Bool) : IndexRequest := .lookup fp 1 4 0 kind void

/-- Another station is sending and this one gathers. -/
def gathering (x : State) : State :=
  { x with bus := { x.bus with line := .driven 0, receiver := .gathering } }

/-- A frame at the head of the transmit queue. -/
def sends (x : Transmitter) (attempts : Nat) : State := { asking with
  bus := { asking.bus with txQueue := [{ frame := .ask 9 fp, attempts := attempts }], transmitter := x } }

/-- A flush of slot 7 under way with `next` of its 70,000 bytes issued. -/
def flushing (next : Nat) (writes : List RecipeWrite) : State := { base with
  containers := { table := [(7, { Container.initial with state := .seals, area := some 0, count := 1, payload := 69888 })]
                  freeSlots := 1023, cursor := 8, openWait := [] }
  store := { StorePort.initial with
    port := .burst, recipeQueue := writes
    active := some { slot := 7, length := 70000, header := [], next := next, error := false } } }

/-- A pulse is on the line and not yet detected. -/
def lowLine : SealUnit := { SealUnit.initial with mode := .follow, detect := .lowUndetected 0 }

/-- Round 3 is in progress and the port is at work. -/
def duringRound (x : StationState) : State :=
  { flushing 0 [] with station := x, sealUnit := { lowLine with inProgress := some 3 } }

/-- No round, and no container that a round could take in. -/
def roundless (x : StationState) : State := { base with station := x, sealUnit := lowLine }

/-- No round, and a container of each shape that a round takes in. -/
def gatherable (x : StationState) : State := { flushing 0 [] with
  station := x, sealUnit := lowLine
  containers := { table := [(7, { Container.initial with state := .seals }), (8, filled),
                            (9, { Container.initial with state := .opened, count := 1 })]
                  freeSlots := 1021, cursor := 10, openWait := [] } }

/-- The same on an IDLE port. -/
def gatherableIdle (x : StationState) : State := { gatherable x with store := StorePort.initial }

/-- A SCRUB walk at its last bucket with slot 7 RETIRED and in its snapshot. -/
def walking (position : Nat) : State := { base with
  index := { base.index with service := .scrub position }
  walker := { Walker.initial with state := .walking, position := position, snapshot := [7] }
  containers := { table := [(7, { Container.initial with state := .retired, count := 3 })], freeSlots := 1023, cursor := 8
                  openWait := [] } }

/-! ## One step of each family, with values of the manual -/

theorem test_open_answers_accepted :
    (after (.openSegment 1 0 7 0 16) base).sent = [.intake [1, 1, 1, 0, 0, 0, 64, 0]] := by decide +kernel
theorem test_data_answers_with_free_slots :
    (after (.dataSegment 1 2 [8]) opened).sent = [.intake [1, 1, 2, 0, 2, 0, 62, 0]] := by decide +kernel
theorem test_duplicate_answered :
    (after (.dataSegment 1 1 [8]) opened).sent = [.intake [1, 1, 2, 1, 1, 0, 63, 0]] := by decide +kernel
theorem test_malformed_answered_not_open :
    (after (.malformedSegment 9 3 0x0102) base).sent = [.intake [1, 3, 9, 4, 2, 1, 0, 0]] := by decide +kernel
theorem test_last_byte_frees_the_engine :
    (after (.engineTakeByte 0) working).engine 0 = .free ∧ ((after (.engineTakeByte 0) working).stream 1).queue = [] := by
  decide +kernel
theorem test_close_ends_the_short_chunk :
    ((after .engineAssign closeHead).stream 1).chunks = 1 ∧ (after .engineAssign closeHead).digestQueue.length = 1 := by
  decide +kernel
theorem test_hit_pins_the_container :
    ((after .resolutionLookupComplete (serving asking (lookup .normal false) .sealed)).container 7).references = 2 := by
  decide +kernel
theorem test_dead_entry_is_removed_on_a_miss :
    (after .resolutionLookupComplete (serving asking (lookup .normal true) .retired)).bucket 0 = [] := by decide +kernel
theorem test_insert_resolves_local_new :
    ((after .insertComplete (serving asking (.insert fp 7 2 3 9) .sealed)).stream 1).pending.map (·.disposition) =
      [some .localNew] := by decide +kernel
theorem test_append_copies_into_the_area :
    (after (.appendComplete 7 0) { storing with staging := [(stagingExtent 1 4 + 1, 0xAB)] }).index.heldResolution = [] ∧
    readByte (after (.appendComplete 7 0) { storing with staging := [(stagingExtent 1 4 + 1, 0xAB)] }).staging
      (areaPayload 0 + 1) = 0xAB := by decide +kernel
theorem test_claim_resolves_remote :
    ((after (.claimReceived 2 fp 1 5 6 0) (gathering asking)).stream 1).pending.map (·.disposition) = [some .remote] := by
  decide +kernel
/-- R82: the frame is cut at the colliding bit, and the jam alternates beginning with a high bit. -/
theorem test_collision_cuts_the_frame : (after (.collision 5) (sends (.sending 0) 1)).sent =
    [.bus ((bitsOf ((Frame.ask 9 fp).bytes 3)).take 5)] := by decide +kernel
theorem test_jam_alternates : ∃ rest, (after .jamEnd (sends (.jamming 5) 1)).sent =
    [.bus ([true, false, true, false] ++ rest)] ∧ rest.length = 28 := ⟨_, rfl, by decide⟩
/-- R100: RESET stops the frame at the bit it has reached, and the line is idle from there. -/
theorem test_reset_cuts_the_frame :
    (after .resetAssert { sends (.sending 5) 1 with now := 12 }).sent =
        [.bus ((bitsOf ((Frame.ask 9 fp).bytes 3)).take 7)] ∧
      (after .resetAssert { sends (.sending 5) 1 with now := 12 }).bus.line = .idle 12 := by decide +kernel
/-- R91: a frame that begins 24 bit times after the station entered RUNNING is not taken up, one that begins after 25 is. -/
theorem test_frame_before_the_gap_is_not_gathered :
    (after .frameBegins { base with now := 64, bus := { base.bus with watchedSince := 40 } }).bus.receiver = .listening ∧
      (after .frameBegins { base with now := 65, bus := { base.bus with watchedSince := 40 } }).bus.receiver =
        .gathering := by decide +kernel
theorem test_compare_b_stores : (after (.compareBExpiry 9) asking).resolution.entries.map (·.state) = [.storing] := by
  decide +kernel
theorem test_walk_frees_retired_slots :
    ((after .scrubStepComplete (walking 65535)).container 7).state = .free ∧
      (after .scrubStepComplete (walking 65535)).management.reports = [.purged 7 1] := by decide +kernel
theorem test_last_burst_seals :
    ((after (.completion 0) (flushing 70000 [])).container 7).state = .sealed ∧
      ((after (.completion 1) (flushing 70000 [])).container 7).state = .lost := by decide +kernel
theorem test_purge_of_a_free_slot : (after (.purge 7) base).sent = [.management [4]] := by decide +kernel
theorem test_unknown_command_answered : (after (.unknownCommand 9) base).sent = [.management [6]] := by decide +kernel
theorem test_no_report_to_read : (after .readReport base).sent = [.management [1]] := by decide +kernel

/-! ## Witnesses for conditions that several statements name -/

/-- A table that lists nothing has no container that joins a round. -/
theorem roundless_takes_none (x : StationState) (k : Nat) : ¬ (roundless x).takesIn k := by
  simp [State.takesIn, State.container, roundless, base, Container.initial, Sparse.find]

/-- Slots 7, 8 and 9 are all that a round takes in there. -/
theorem gatherable_takes (x : StationState) (k : Nat) (h : (gatherableIdle x).takesIn k) : k = 7 ∨ k = 8 ∨ k = 9 := by
  simp only [State.takesIn, State.container, gatherableIdle, gatherable, Sparse.find] at h
  split at h
  · omega
  · split at h
    · omega
    · split at h
      · omega
      · simp [Container.initial] at h

/-- On the IDLE port every container that the round takes in passes the range check. -/
theorem witness_flushesPass (x : StationState) :
    (gatherableIdle x).store.port = .idle ∧ (gatherableIdle x).canonical ∧ (gatherableIdle x).sealUnit.inProgress = none ∧
    (∃ k, (gatherableIdle x).takesIn k) ∧ (gatherableIdle x).flushesPass (gatherableIdle x).takesIn ∧
    (gatherableIdle x).flushesPass (fun _ => False) := by
  refine ⟨rfl, by unfold State.canonical; cases x <;> decide +kernel, rfl, ⟨7, Or.inl (by cases x <;> decide +kernel)⟩,
    ⟨fun j h => by simp [gatherableIdle, StorePort.initial] at h, fun k h => ?_⟩,
    fun j h => by simp [gatherableIdle, StorePort.initial] at h, fun _ h => h.elim⟩
  obtain rfl | rfl | rfl := gatherable_takes x k h <;> unfold FlushJob.inRegion <;> cases x <;> decide +kernel

/-- The hypotheses of every clause of `roundAskedFor`, in any station state. -/
theorem witness_roundAskedFor (x : StationState) :
    ((duringRound x).sealUnit.inProgress ≠ none ∧ (duringRound x).store.port ≠ .idle) ∧
    ((roundless x).sealUnit.inProgress = none ∧ (roundless x).sealUnit.roundAgain = false ∧ (roundless x).canonical ∧
      (∀ k, ¬ (roundless x).takesIn k) ∧ (roundless x).store.flushQueue = [] ∧ (roundless x).management.fresh = [] ∧
      (roundless x).containers.openWait = []) ∧
    (let s := gatherable x
     s.sealUnit.inProgress = none ∧ s.canonical ∧ s.store.port ≠ .idle ∧
     (s.takesIn 7 ∧ (s.container 7).state = .seals) ∧
     (s.takesIn 8 ∧ (s.container 8).state = .opened ∧ (s.container 8).inFlight ≠ []) ∧
     (s.takesIn 9 ∧ (s.container 9).state = .opened ∧ (s.container 9).inFlight = [] ∧
       (s.container 9).sealRequested = none)) := by
  refine ⟨?_, ⟨?_, ?_, ?_, roundless_takes_none x, ?_, ?_, ?_⟩, ?_⟩ <;> cases x <;>
    first
    | decide +kernel
    | (unfold State.canonical; decide +kernel)
    | (unfold State.canonical State.takesIn; decide +kernel)

/-- Stream 1 in the state given, its container in slot 7 with and without an append in flight. -/
def owning (x : StreamState) (inFlight : List Append) : State := { base.setStream 1 { stream1 with
    state := x, queue := [], current := some 7 } with
  containers := { table := [(7, { filled with inFlight := inFlight })], freeSlots := 1023, cursor := 8, openWait := [] } }

/-- The hypotheses of `tornDown` and of `sealTaken` in it, on an append in flight and on none. -/
theorem witness_tornDown : ∀ inFlight ∈ [[], filled.inFlight],
    let s := owning .opened inFlight
    (s.stream 1).current = some 7 ∧ (∀ j, j ≠ 1 → (s.stream j).current ≠ some 7) ∧ (s.container 7).state ≠ .free ∧
    (s.container 7).state = .opened ∧ (s.container 7).sealRequested = none ∧ (s.container 7).inFlight = inFlight := by
  decide +kernel

/-- A stream has a record due of each kind, or none for want of room. -/
theorem witness_recordDue :
    let q := chunk .resolved
    let x : Stream := { stream1 with pending := [q] }
    ({ x with owedMark := some { round := 3, status := .clean } } : Stream).recordDue .mark ∧ x.recordDue .chunk ∧
    ({ x with pending := [], state := .closing, endProgress := .due } : Stream).recordDue .last ∧
    (∀ kind, ¬ ({ x with windowSize := 0 } : Stream).recordDue kind) := by
  refine ⟨⟨by unfold Stream.mayIssueRecord; decide, by decide⟩, ⟨by unfold Stream.mayIssueRecord; decide, by decide,
    _, _, rfl, rfl⟩, ⟨by unfold Stream.mayIssueRecord; decide, by decide, ?_, by decide⟩,
    fun kind h => absurd h.1 (by unfold Stream.mayIssueRecord; decide)⟩
  rintro ⟨q, rest, h, -⟩
  simp at h

/-- Stream 1 is ABORTING with a digest and nothing else, and with nothing at all. -/
def lettingGo (jobs : List DigestJob) (m : Management) (port : PortState) : State :=
  { base.setStream 1 { stream1 with state := .aborting, queue := [] } with
    digestQueue := jobs, management := m, store := { StorePort.initial with port := port } }

/-- The hypotheses of `abortFollowed`, with a place for the report, with a full queue and with a report held; and with work
left. -/
theorem witness_abortFollowed : ∀ port ∈ [PortState.idle, .burst, .recipe 1 .mark 0],
    (let s := lettingGo [] Management.initial port
     (s.stream 1).state = .aborting ∧ s.management.fresh = [] ∧ s.canonical ∧ s.management.held = [] ∧
     s.management.reports.length < 32 ∧ s.workGone 1 (fun _ _ => False) ∧ (s.stream 1).writeInFlight = none) ∧
    (let s := lettingGo [] { Management.initial with reports := List.replicate 32 (.purged 7 1), held := [.purged 7 1] } port
     s.workGone 1 (fun _ _ => False) ∧ s.management.held ≠ [] ∧ 32 ≤ s.management.reports.length ∧
     ∀ branch bytes chunks, .aborted 1 branch bytes chunks ∉ s.management.held) ∧
    ¬ (lettingGo [{ stream := 1, slot := 4, digest := Digest.initial, fate := .awaited }] Management.initial port).workGone 1
      (fun _ _ => False) := by
  have gone (m : Management) (port : PortState) : (lettingGo [] m port).workGone 1 (fun _ _ => False) :=
    ⟨(by decide +kernel : ∀ e, (base.engine e).serves 1 = false), fun j h => by simp [lettingGo] at h,
      fun k a h => by simp [State.container, lettingGo, base, State.setStream, Container.initial, Sparse.find] at h⟩
  intro port hport
  refine ⟨⟨rfl, rfl, ?_, rfl, Nat.zero_lt_succ _, gone _ _, rfl⟩, ⟨gone _ _, List.cons_ne_nil _ _, Nat.le_refl 32, ?_⟩, ?_⟩
  · unfold State.canonical; simp only [lettingGo, base, State.setStream]; decide +kernel
  · intro branch bytes chunks h; simp [lettingGo] at h
  · intro h; exact absurd (h.2.1 _ (List.mem_singleton.2 rfl) rfl) (by decide)

/-! ## Witnesses: states and operands that meet the hypotheses of each statement, clause by clause -/

theorem witness_StepRunsFrontCommand : State.reset.pending = [] := by decide

/-- A line driven by another station and an idle one; nothing being sent, a retry waiting, a frame and a jam cut short, and a
frame cut before its first bit. -/
theorem witness_ResetTakesEveryBlock : (inState .reset).station = .reset ∧ base.station ≠ .reset ∧
    (serving base (lookup .normal false) .sealed).bucketInService ≠ some 1 ∧
    (gathering base).bus.line = .driven 0 ∧ base.bus.transmitter = .empty ∧
    (sends (.waiting (some (10, 200))) 1).bus.transmitter = .waiting (some (10, 200)) ∧
    (let s : State := { sends (.sending 5) 1 with now := 5 }
     s.bus.transmitter = .sending 5 ∧ s.bus.txQueue = { frame := .ask 9 fp, attempts := 1 } :: [] ∧
       s.bus.line = .idle 0 ∧ (bitsOf ((Frame.ask 9 fp).bytes s.settings.station)).take (s.now - 5) = []) ∧
    (let s : State := { sends (.sending 5) 1 with now := 9 }
     (bitsOf ((Frame.ask 9 fp).bytes s.settings.station)).take (s.now - 5) ≠ []) ∧
    (sends (.jamming 5) 1).bus.transmitter = .jamming 5 := by decide +kernel

/-- A valid image with every check at its edge; one not acknowledged, one cut short and one without the signature. -/
theorem witness_SettingsInRange :
    (image []).length = 64 ∧ imageField (image []) 0 2 = 0x5D2A ∧
    (imageField (image [(6, 1, 10)]) 6 1 = 10 ∧ imageField (image [(6, 1, 9)]) 6 1 = 9 ∧
      imageField (image [(10, 2, 5001)]) 10 2 = 5001) ∧
    ¬ (false = true ∧ (image []).length = 64 ∧ imageField (image []) 0 2 = 0x5D2A) ∧
    ¬ (true = true ∧ [0x2A#8, 0x5D#8].length = 64 ∧ imageField [0x2A#8, 0x5D#8] 0 2 = 0x5D2A) ∧
    ¬ (true = true ∧ (List.replicate 64 0#8).length = 64 ∧ imageField (List.replicate 64 0#8) 0 2 = 0x5D2A) := by
  decide +kernel

theorem witness_SettingsComeIntoForce : (inState .loading).station = .loading := by decide

theorem witness_ClearWalkEmptiesBuckets :
    let s : State := { inState .clearing with clearPosition := 65535 }
    s.station = .clearing ∧ ¬ s.clearPosition + 1 < 2 ^ s.settings.indexExponent ∧ s.hold = false ∧
      (inState .clearing).clearPosition + 1 < 2 ^ (inState .clearing).settings.indexExponent ∧
      (let u : State := { roundless .clearing with clearPosition := 65535, hold := true }
       u.station = .clearing ∧ u.hold = true ∧ ¬ u.clearPosition + 1 < 2 ^ u.settings.indexExponent) := by decide +kernel

/-- RUNNING with a round in progress, with none and nothing to take in, and with members in each of their shapes. -/
theorem witness_HoldMakesARound :
    (duringRound .running).station = .running ∧ (roundless .running).station = .running ∧
    (gatherable .running).station = .running ∧ (roundless .running).sealUnit.inProgress = none ∧
    (roundless .running).sealUnit.roundAgain = false ∧
    (inState .clearing).station ≠ .running ∧ (inState .holding).station = .holding ∧ base.station ≠ .holding := by
  decide +kernel

/-- Kinds 0 and 5 and stream 16 are the first outside. -/
theorem witness_MalformedSegmentsAnswered :
    (¬ (1 ≤ (0#8).toNat ∧ (0#8).toNat ≤ 4) ∨ 15 < (15#8).toNat) ∧
    (¬ (1 ≤ (5#8).toNat ∧ (5#8).toNat ≤ 4) ∨ 15 < (15#8).toNat) ∧
    (¬ (1 ≤ (4#8).toNat ∧ (4#8).toNat ≤ 4) ∨ 15 < (16#8).toNat) ∧
    15 < (16#8).toNat ∧
    base.station = .running ∧ (inState .holding).station = .holding ∧ (inState .loading).station = .loading ∧
    (inState .clearing).station = .clearing := by decide

theorem witness_StationStateGatesSegments :
    (inState .loading).station = .loading ∧ (inState .holding).station = .holding ∧
    (inState .reset).station = .reset := by decide

/-- A survey window, and the smallest normal one at the end of the recipe region. -/
theorem witness_OpenSetsUpTheStream :
    base.station = .running ∧ (base.stream 15).state = .idle ∧ windowAcceptable base.settings 0 0 ∧
    windowAcceptable base.settings 67107840 16 := by
  unfold windowAcceptable; decide +kernel

/-- BUSY, SEQUENCE and RANGE; a window of 15 records is too small. -/
theorem witness_OpenRefusedInOrder :
    base.station = .running ∧ (opened.stream 1).state ≠ .idle ∧ opened.station = .running ∧
    (base.stream 1).state = .idle ∧ (1 : Half) ≠ 0 ∧ ¬ windowAcceptable base.settings 0 15 ∧
    ¬ windowAcceptable base.settings 67107904 16 := by
  unfold windowAcceptable; decide +kernel

theorem witness_DataEntersTheQueue :
    opened.station = .running ∧ (opened.stream 1).state = .opened ∧ 1 ≤ [7#8].length ∧ [7#8].length ≤ 8192 ∧
    (opened.stream 1).expected ≠ (opened.stream 1).lastAccepted ∧ (opened.stream 1).queue.length < 64 ∧
    (opened.stream 1).bytesAccepted.toNat + [7#8].length < 2 ^ 64 := by decide +kernel

/-- A stream with a full segment queue. -/
def fullQueue : State := base.setStream 1 { stream1 with
  queue := (List.finRange 64).map (fun q => { slot := q, sequence := 1, kind := .data 3 }) }

theorem witness_DataRefusedInOrder :
    (base.stream 1).state = .idle ∧ ((base.setStream 1 { stream1 with state := .faulted }).stream 1).state = .faulted ∧
    (opened.stream 1).state = .opened ∧ ([] : List Byte).length = 0 ∧ (1 : Half) = (opened.stream 1).lastAccepted ∧
    (3 : Half) ≠ (opened.stream 1).lastAccepted ∧ (3 : Half) ≠ (opened.stream 1).expected ∧
    fullQueue.station = .running ∧ (fullQueue.stream 1).state = .opened ∧ 64 ≤ (fullQueue.stream 1).queue.length ∧
    (2 : Half) ≠ (fullQueue.stream 1).lastAccepted ∧ (2 : Half) = (fullQueue.stream 1).expected := by decide +kernel

theorem witness_CloseEntersTheQueue :
    (base.stream 1).state = .idle ∧ ((base.setStream 1 { stream1 with state := .faulted }).stream 1).state = .faulted ∧
    (opened.stream 1).state = .opened ∧ (3 : Half) ≠ (opened.stream 1).expected ∧
    64 ≤ (fullQueue.stream 1).queue.length ∧ (2 : Half) = (fullQueue.stream 1).expected ∧
    (2 : Half) = (opened.stream 1).expected ∧ (opened.stream 1).queue.length < 64 := by decide +kernel

/-- A stream with nothing in flight, with a place for its report and without one, and with a record in flight; on a port at
work, so that nothing else happens. -/
theorem witness_AbortTearsDownTheStream :
    (base.stream 1).state = .idle ∧ ((base.setStream 1 { stream1 with state := .aborting }).stream 1).state = .aborting ∧
    (let s : State := { opened with store := { StorePort.initial with port := .burst } }
     let full : State := { s with management := { Management.initial with reports := List.replicate 32 (.purged 7 1) } }
     let late : State := { s with management := { Management.initial with
       reports := List.replicate 32 (.purged 7 1), held := [.purged 7 1] } }
     let writing : State := s.setStream 1 { stream1 with writeInFlight := some { kind := .mark, number := 0, slot := none } }
     (s.station = .running ∧ s.management.fresh = [] ∧ (s.stream 1).state = .opened ∧ s.canonical ∧
       s.nothingInFlight 1 ∧ s.store.port ≠ .idle ∧ s.management.held.filter (fun r => !r.closes 1) = [] ∧
       s.management.reports.length < 32) ∧
     (full.nothingInFlight 1 ∧ 32 ≤ full.management.reports.length) ∧
     (late.nothingInFlight 1 ∧ late.management.held.filter (fun r => !r.closes 1) ≠ [] ∧
       ∀ r ∈ late.management.held, r = .purged 7 1) ∧
     (writing.station = .running ∧ ¬ writing.nothingInFlight 1 ∧ writing.canonical ∧ writing.store.port ≠ .idle)) := by
  have nothing (m : Management) : State.nothingInFlight
      { opened with store := { StorePort.initial with port := .burst }, management := m } 1 :=
    ⟨by simp [opened, base, State.reset, State.setStream],
      by simp [State.container, opened, base, State.setStream, Container.initial, Sparse.find], rfl⟩
  refine ⟨by decide +kernel, by decide +kernel, ⟨by decide +kernel, by decide +kernel, by decide +kernel,
    by unfold State.canonical; decide +kernel, nothing _, by decide +kernel, by decide +kernel, by decide +kernel⟩,
    ⟨nothing _, by decide +kernel⟩, ⟨nothing _, by decide +kernel, by decide +kernel⟩,
    by decide +kernel, fun h => absurd h.2.2 (by decide +kernel), by unfold State.canonical; decide +kernel,
    by decide +kernel⟩

theorem witness_EngineTakesNextStream :
    (∀ i, ¬ base.mayBeAssigned i) ∧ opened.firstInTurn 1 ∧ opened.engine 0 = .free ∧
    (∀ d, opened.engine d = .free → 0 ≤ d) ∧
    (opened.stream 1).queue = [{ slot := 0, sequence := 1, kind := .data 3 }] := by
  unfold State.firstInTurn State.mayBeAssigned Stream.hasFreeSlot; decide +kernel

/-- A chunk begun; a NORMAL stream with nothing left but its container, and with a ring that has room and one that has none; a
SURVEY stream with nothing left. -/
theorem witness_EngineEndsStreamAtClose :
    closeHead.firstInTurn 1 ∧ (∃ e, closeHead.engine e = .free) ∧
    (closeHead.stream 1).queue = [{ slot := 0, sequence := 1, kind := .close }] ∧
    (closeHead.stream 1).chunker.slot = some 4 ∧ 1 ≤ (closeHead.stream 1).chunker.length ∧
    (let x : Stream := { closeHead.stream 1 with
       chunker := ChunkerContext.initial, pending := [], current := some 7 }
     let s := (owning .closing []).setStream 1 x
     let survey := (owning .closing []).setStream 1 { x with kind := .survey, current := none }
     s.firstInTurn 1 ∧ x.state = .closing ∧ x.pending = [] ∧ x.chunker.slot = none ∧ s.management.fresh = [] ∧
     x.kind = .normal ∧ x.writeInFlight = none ∧ x.endProgress = .none ∧ x.current = some 7 ∧
     ({ x with queue := [], current := none, endProgress := .due } : Stream).recordDue .last ∧
     survey.firstInTurn 1 ∧ (survey.stream 1).kind = .survey ∧ (∀ r ∈ survey.management.held, r.closes 1 = false)) := by
  have due : ({ closeHead.stream 1 with chunker := ChunkerContext.initial, pending := [], queue := [], current := none
                                        endProgress := .due } : Stream).recordDue .last := by
    refine ⟨by unfold Stream.mayIssueRecord; decide +kernel, by decide +kernel, ?_, by decide +kernel⟩
    rintro ⟨q, rest, h, -⟩
    simp at h
  refine ⟨?_, by decide +kernel, by decide +kernel, by decide +kernel, by decide +kernel, ?_, by decide +kernel,
    by decide +kernel, by decide +kernel, by decide +kernel, by decide +kernel, by decide +kernel, by decide +kernel,
    by decide +kernel, due, ?_, by decide +kernel, by decide +kernel⟩ <;>
    (unfold State.firstInTurn State.mayBeAssigned Stream.hasFreeSlot; decide +kernel)

theorem witness_EngineTakesByte :
    working.active = true ∧
    working.engine 0 = .serving 1 { ChunkerContext.initial with length := 2, slot := some 4 } 2 ∧
    (working.stream 1).queue = [{ slot := 0, sequence := 1, kind := .data 3 }] ∧ 2 < 3 := by decide +kernel

/-- A free pending slot, the lowest of them 0; and none free. -/
theorem witness_ChunkBeginsOrEngineSuspends :
    let s := opened.setEngine 0 (.serving 1 ChunkerContext.initial 0)
    let full := (base.setStream 1 { stream1 with pending := fullPending }).setEngine 0
      (.serving 1 ChunkerContext.initial 0)
    s.active = true ∧ s.engine 0 = .serving 1 ChunkerContext.initial 0 ∧ ChunkerContext.initial.slot = none ∧
    (s.stream 1).queue = [{ slot := 0, sequence := 1, kind := .data 3 }] ∧ 0 < 3 ∧
    (s.stream 1).hasFreeSlot 0 ∧ (∀ q, (s.stream 1).hasFreeSlot q → 0 ≤ q) ∧
    full.engine 0 = .serving 1 ChunkerContext.initial 0 ∧ (∀ p, ¬ (full.stream 1).hasFreeSlot p) ∧
    s.engine 1 = .free := by
  unfold Stream.hasFreeSlot; decide +kernel

theorem witness_RollKeepsSums :
    ChunkerContext.initial.sumA = ChunkerContext.initial.plainSum ∧
    ChunkerContext.initial.sumB = ChunkerContext.initial.weightedSum := by decide +kernel

/-- A digest kept, with and without an ask entry for its fingerprint, and one dropped. -/
theorem witness_FingerprintHandsChunkOn :
    let job : DigestJob := { stream := 1, slot := 4, digest := Digest.initial, fate := .kept }
    let s : State := { base.setStream 1 { stream1 with pending := [chunk .hashing] } with digestQueue := [job] }
    s.active = true ∧ s.digestQueue = [job] ∧ job.fate = .kept ∧
    (s.stream 1).slot? 4 = some (chunk .hashing) ∧ (∀ a ∈ s.resolution.entries, a.fingerprint ≠ job.digest.finish) ∧
    (s.stream 1).kind = .normal ∧ base.digestQueue = [] ∧
    (let u : State := { s with
       resolution := { entries := [{ entry with fingerprint := Digest.initial.finish }], nextTag := 10, waitQueue := [] } }
     u.askTableSound ∧ ∃ a ∈ u.resolution.entries, a.fingerprint = job.digest.finish) ∧
    ({ job with fate := .awaited } : DigestJob).fate ≠ .kept := by
  unfold State.askTableSound; decide +kernel

/-- The digest that an ABORTING stream waits for alone, and one dropped of a stream that is not ABORTING. -/
theorem witness_FingerprintHandsChunkOn_aborting :
    let job : DigestJob := { stream := 1, slot := 4, digest := Digest.initial, fate := .awaited }
    let s := lettingGo [job] Management.initial .idle
    s.active = true ∧ s.digestQueue = job :: [] ∧ job.fate ≠ .kept ∧
    ({ s with digestQueue := [] } : State) = lettingGo [] Management.initial .idle ∧
    (opened.stream 1).state ≠ .aborting ∧ opened.management.fresh = [] :=
  ⟨rfl, rfl, by decide, rfl, by decide +kernel, rfl⟩

theorem witness_IndexServesInOrder :
    let s : State := { base with index := { Index.initial with queue := [lookup .normal false] } }
    s.active = true ∧ s.index.service = .nothing ∧ s.index.queue = [lookup .normal false] ∧ base.index.queue = [] ∧
    (let w : State := { base with walker := { Walker.initial with state := .walking } }
     w.walker.state = .walking ∧ w.index.service = .nothing ∧ w.index.queue = []) ∧
    base.walker.state ≠ .walking := by decide +kernel

theorem witness_LookupHitResolvesLocally :
    let s := serving asking (lookup .normal false) .opened
    let e : IndexEntry := { fingerprint := fp, slot := 7, ordinal := 2 }
    s.active = true ∧ s.index.service = .request (lookup .normal false) ∧
    bucketSound (s.bucket (bucketOf s.settings.indexExponent fp)) ∧
    e ∈ s.bucket (bucketOf s.settings.indexExponent fp) ∧ e.fingerprint = fp ∧ s.isLive e = true := by
  unfold bucketSound; decide +kernel

/-- A miss with an entry for the fingerprint, with room for a new one, and with all 64 in use. -/
theorem witness_LookupMissAsksOrWaits :
    let s := serving asking (lookup .normal false) .lost
    let empty := serving (base.setStream 1 { stream1 with pending := [chunk .checking] }) (lookup .normal false) .lost
    let full : State := { empty with resolution := { empty.resolution with
      entries := (List.range 64).map (fun n =>
        { entry with fingerprint := BitVec.ofNat 256 (n + 100), tag := BitVec.ofNat 8 n, waiters := [] }) } }
    s.active = true ∧ s.index.service = .request (lookup .normal false) ∧ s.askTableSound ∧
    (∀ e ∈ s.bucket (bucketOf s.settings.indexExponent fp), e.fingerprint = fp → s.isLive e = false) ∧
    (∃ a ∈ s.resolution.entries, a.fingerprint = fp) ∧
    (∀ a ∈ empty.resolution.entries, a.fingerprint ≠ fp) ∧ empty.resolution.entries.length < 64 ∧
    full.askTableSound ∧ (∀ a ∈ full.resolution.entries, a.fingerprint ≠ fp) ∧
    full.resolution.entries.length = 64 := by
  unfold State.askTableSound; decide +kernel

theorem witness_VoidedAndSurveyLookups :
    let s := serving asking (lookup .normal true) .sealed
    let hit := serving asking (lookup .survey false) .sealed
    let miss := serving asking (lookup .survey false) .retired
    let e : IndexEntry := { fingerprint := fp, slot := 7, ordinal := 2 }
    s.active = true ∧ s.index.service = .request (lookup .normal true) ∧
    hit.index.service = .request (lookup .survey false) ∧
    (e ∈ hit.bucket (bucketOf hit.settings.indexExponent fp) ∧ e.fingerprint = fp ∧ hit.isLive e = true) ∧
    (∀ e ∈ miss.bucket (bucketOf miss.settings.indexExponent fp), e.fingerprint = fp → miss.isLive e = false) := by
  decide +kernel

/-- The last chunk of a CLOSING SURVEY stream with its queue empty. -/
theorem witness_VoidedAndSurveyLookups_closing :
    let s := serving (base.setStream 1 { stream1 with
      state := .closing, kind := .survey, queue := [], pending := [chunk .checking] }) (lookup .survey false) .sealed
    let x := s.stream 1
    s.active = true ∧ s.index.service = .request (lookup .survey false) ∧ x.state = .closing ∧ x.kind = .survey ∧
    x.queue = [] ∧ (∀ r ∈ x.pending, r.number = 4) ∧ s.management.fresh = [] ∧ s.management.held = [] ∧
    s.management.reports.length < 32 ∧ s.store.flushQueue = [] := by decide +kernel

/-- A hit with room, a miss, no room, with and without a further ASK queued. -/
theorem witness_AnswerLookupSendsHave :
    let s := serving { base with bus := { base.bus with
      answerQueue := [{ asker := 2, tag := 1, fingerprint := fp }], answerOutstanding := true } } (.answer fp 2 1) .sealed
    let e : IndexEntry := { fingerprint := fp, slot := 7, ordinal := 2 }
    let miss := serving base (.answer fp 2 1) .lost
    s.active = true ∧ s.index.service = .request (.answer fp 2 1) ∧
    bucketSound (s.bucket (bucketOf s.settings.indexExponent fp)) ∧
    e ∈ s.bucket (bucketOf s.settings.indexExponent fp) ∧ s.isLive e = true ∧
    (s.bus.txQueue.length < 32 ∧ s.bus.askHolding = []) ∧ s.bus.answerQueue.tail = [] ∧
    (∀ e ∈ miss.bucket (bucketOf miss.settings.indexExponent fp), e.fingerprint = fp → miss.isLive e = false) ∧
    ¬ ((List.replicate 32 ({ frame := .ask 0 0, attempts := 0 } : TxFrame)).length < 32) := by
  unfold bucketSound; decide +kernel

/-- A bucket of eight live entries with other fingerprints, and one with fewer. -/
theorem witness_InsertRewritesBucket :
    let s := serving asking (.insert fp 7 2 3 9) .sealed
    let full : State := { s with index := { s.index with
      buckets := [(0, (List.range 8).map (fun n => { fingerprint := BitVec.ofNat 256 (n + 100), slot := 7, ordinal := n }))] } }
    s.active = true ∧ s.index.service = .request (.insert fp 7 2 3 9) ∧
    ((s.bucket (bucketOf s.settings.indexExponent fp)).filter
      (fun e => s.isLive e && decide (e.fingerprint ≠ fp))).length < 8 ∧
    8 ≤ ((full.bucket (bucketOf full.settings.indexExponent fp)).filter
      (fun e => full.isLive e && decide (e.fingerprint ≠ fp))).length := by decide +kernel

/-- The container live and LOST; a waiter and none; a chunk of another fingerprint in the ask-wait queue. -/
theorem witness_InsertResolvesWaiters :
    let s := serving asking (.insert fp 7 2 3 9) .seals
    let lost := serving asking (.insert fp 7 2 3 9) .lost
    let none' := serving unwaited (.insert fp 7 2 3 9) .lost
    let queued : State := { none' with resolution := { none'.resolution with waitQueue := [(1, 4)] } }.setStream 1
      { stream1 with pending := [{ chunk .waiting with fingerprint := some 6 }] }
    s.active = true ∧ s.index.service = .request (.insert fp 7 2 3 entry.tag) ∧ s.askTableSound ∧
    entry ∈ s.resolution.entries ∧ (s.container 7).state = .seals ∧ entry.waiters.Nodup ∧
    s.resolution.waitQueue = [] ∧
    ¬ ((lost.container 7).state = .opened ∨ (lost.container 7).state = .seals ∨ (lost.container 7).state = .sealed) ∧
    entry.waiters = (1, 4) :: [] ∧ (lost.stream 1).current = none ∧ lost.askTableSound ∧
    ({ entry with waiters := [] } : AskEntry) ∈ none'.resolution.entries ∧ none'.askTableSound ∧
    queued.askTableSound ∧ ({ entry with waiters := [] } : AskEntry) ∈ queued.resolution.entries ∧
    (queued.resolution.waitQueue = [(1, 4)] ∧ ∀ w ∈ queued.resolution.waitQueue, queued.fingerprintOf w ≠ none) := by
  unfold State.askTableSound; decide +kernel

theorem witness_ScrubStepMovesTheWalk :
    let s := walking 65534
    let t := walking 65535
    s.active = true ∧ s.index.service = .scrub 65534 ∧ s.walker.position + 1 < 2 ^ s.settings.indexExponent ∧
    t.index.service = .scrub 65535 ∧ 2 ^ t.settings.indexExponent ≤ t.walker.position + 1 ∧ t.canonical ∧
    t.management.fresh = [] ∧ t.containers.openWait = [] ∧ t.store.flushQueue = [] ∧ t.management.held = [] ∧
    t.management.reports.length + t.walker.snapshot.length ≤ 32 ∧ t.walker.snapshot.Nodup ∧ t.walker.snapshot ≠ [] ∧
    (∀ e ∈ t.containers.table, e.2.state = .retired → e.1 ∈ t.walker.snapshot) ∧
    (let u : State := { t with containers := { t.containers with
       table := t.containers.table ++ [(8, { Container.initial with state := .retired })] } }
     u.canonical ∧ (u.container 8).state = .retired ∧ 8 ∉ u.walker.snapshot) := by
  unfold State.canonical; decide +kernel

theorem witness_CompareAAsksAgain :
    asking.active = true ∧ asking.askTableSound ∧ entry ∈ asking.resolution.entries ∧ entry.state = .asked ∧
    entry.timer = .running 0 true true := by
  unfold State.askTableSound; decide +kernel

/-- A waiter and none, with and without a chunk in the ask-wait queue. -/
theorem witness_CompareBStoresOrFrees :
    asking.active = true ∧ asking.askTableSound ∧ entry ∈ asking.resolution.entries ∧ entry.state = .asked ∧
    entry.timer = .running 0 true true ∧ entry.waiters = (1, 4) :: [] ∧ (asking.stream 1).current = none ∧
    unwaited.askTableSound ∧ ({ entry with waiters := [] } : AskEntry) ∈ unwaited.resolution.entries ∧
    unwaited.resolution.waitQueue = [] ∧
    (let queued : State := { unwaited with resolution := { unwaited.resolution with waitQueue := [(1, 4)] } }.setStream 1
       { stream1 with pending := [{ chunk .waiting with fingerprint := some 6 }] }
     ∀ w ∈ queued.resolution.waitQueue, queued.fingerprintOf w ≠ none) := by
  unfold State.askTableSound; decide +kernel

/-- A current container that fits the chunk, to its last byte, and one that does not; a place to open one and none. -/
theorem witness_CompareBStoresOrFrees_containers :
    asking.chunkOf (1, 4) = some (chunk .waiting) ∧ (∀ r ∈ asking.containers.openWait, r.stream ≠ 1) ∧
    (let owner : State := { asking.setStream 1 { asking.stream 1 with current := some 7 } with
       containers := { table := [(7, filled)], freeSlots := 1023, cursor := 8, openWait := [] } }
     let brimful : State := { owner with containers := { owner.containers with
       table := [(7, { filled with fill := 4194302 })] } }
     (owner.stream 1).current = some 7 ∧ (owner.container 7).state ≠ .free ∧ (owner.container 7).hasRoom 3 ∧
     ({ filled with fill := 4194301 } : Container).hasRoom 3 ∧
     (brimful.stream 1).current = some 7 ∧ ¬ (brimful.container 7).hasRoom 3) ∧
    (let busy : State := { asking with store := { StorePort.initial with port := .burst } }
     let crowded : State := { busy with containers := { busy.containers with
       table := (List.range 20).map (fun a => (a, { Container.initial with state := .seals, area := some a })) } }
     (busy.containers.openWait = [] ∧ ¬ busy.ownerOfOpen 1 ∧ busy.nextSlot 0 ∧ busy.nextArea 0 ∧
       busy.store.port ≠ .idle ∧ busy.management.fresh = []) ∧
     (crowded.store.port ≠ .idle ∧ (∀ b, b < 20 → crowded.areaHeld b) ∧ (crowded.stream 1).current = none)) := by
  unfold Container.hasRoom State.ownerOfOpen State.nextSlot State.nextArea State.areaHeld; decide +kernel

/-- The last append of a container, seal requested, in HOLDING and neither; and one of two. -/
theorem witness_AppendPlacesTheChunk :
    let a : Append := { offset := 0, length := 3, fingerprint := fp, stream := 1, slot := 4, tag := 9 }
    storing.active = true ∧ storing.askTableSound ∧ (storing.container 7).state = .opened ∧
    (storing.container 7).area = some 0 ∧ a ∈ (storing.container 7).inFlight ∧
    (∀ d ∈ (storing.container 7).inFlight, d.offset = a.offset → d = a) ∧ a.offset + a.length ≤ 4194304 ∧
    (storing.container 7).count < 1024 ∧ (∀ d ∈ (storing.container 7).inFlight, d.offset = a.offset) ∧
    (storing.container 7).sealRequested = none ∧ storing.station ≠ .holding ∧
    ({ filled with sealRequested := some .full } : Container).sealRequested = some .full ∧
    ({ storing with station := .holding } : State).station = .holding ∧
    (let two : Container := { filled with inFlight := [a, { a with offset := 3 }] }
     a ∈ two.inFlight ∧ (∀ d ∈ two.inFlight, d.offset = a.offset → d = a) ∧ ¬ ∀ d ∈ two.inFlight, d.offset = a.offset) ∧
    ({ storing with store := { StorePort.initial with port := .burst } } : State).store.port ≠ .idle := by
  unfold State.askTableSound; decide +kernel

/-- The one append of an ABORTING stream, and one of two. -/
theorem witness_AppendPlacesTheChunk_aborting :
    let s : State := { base.setStream 1 { stream1 with state := .aborting, queue := [] } with
      containers := { table := [(7, filled)], freeSlots := 1023, cursor := 8, openWait := [] } }
    (s.stream 1).state = .aborting ∧ s.management.fresh = [] ∧ s.canonical ∧ s.management.held = [] ∧
    s.workGone 1 (fun k d => k = 7 ∧ d.offset = 0) ∧ (s.stream 1).writeInFlight = none ∧
    ¬ s.workGone 1 (fun k d => k = 7 ∧ d.offset = 3) := by
  refine ⟨rfl, rfl, by unfold State.canonical; decide +kernel, rfl,
    ⟨(by decide +kernel : ∀ e, (base.engine e).serves 1 = false), fun j h => by simp [base, State.reset, State.setStream] at h,
      fun k a h _ => ?_⟩, rfl, fun h => ?_⟩
  · simp only [State.container, Sparse.find] at h
    split at h
    · rename_i e
      obtain rfl : a = _ := List.mem_singleton.1 h
      exact ⟨e.symm, rfl⟩
    · simp [Container.initial] at h
  · exact absurd (h.2.2 7 _ (List.mem_singleton.2 rfl) rfl).2 (by decide)

/-- The first tag tried is held, the next is free. -/
theorem witness_NewTagIsFree :
    let r : Resolution := { entries := [entry], nextTag := 9, waitQueue := [] }
    r.entries.length < 256 ∧ 0 < (r.freeTag r.nextTag 256 - r.nextTag).toNat := by decide +kernel

/-- An ASK of a fingerprint being stored; one nobody asks for, on a full, a busy and an empty answer queue; one that makes
the entry yield. -/
theorem witness_AskIsAnsweredUnlessStoring :
    let s := gathering storing
    let b := gathering base
    let y := gathering asking
    s.active = true ∧ s.askTableSound ∧ s.bus.receiver = .gathering ∧ s.bus.line = .driven 0 ∧ (2#8).toNat ≤ 15 ∧
    2#8 ≠ s.settings.station ∧ (∃ a ∈ s.resolution.entries, a.fingerprint = fp ∧ a.state = .storing) ∧
    b.askTableSound ∧ b.resolution.entries = [] ∧ b.bus.answerQueue = [] ∧ b.bus.answerOutstanding = false ∧
    32 ≤ (List.replicate 32 ({ asker := 2, tag := 0, fingerprint := fp } : AnswerEntry)).length ∧
    y.askTableSound ∧ (∃ a ∈ y.resolution.entries, a.fingerprint = fp ∧ a.yielded = false ∧ a.state = .asked ∧
      (2#8).toNat < y.settings.station.toNat) := by
  unfold State.askTableSound; decide +kernel

theorem witness_RemotePlaceResolvesWaiters :
    let y := gathering asking
    let s := gathering storing
    let queued : State := { y with resolution := { y.resolution with waitQueue := [(1, 4)] } }
    y.active = true ∧ y.askTableSound ∧ y.bus.receiver = .gathering ∧ y.bus.line = .driven 0 ∧ (2#8).toNat ≤ 15 ∧
    2#8 ≠ y.settings.station ∧ (15#8).toNat ≤ 15 ∧ (4095#16).toNat ≤ 4095 ∧ (1023#16).toNat ≤ 1023 ∧
    (∃ a ∈ y.resolution.entries, a.fingerprint = fp ∧ a.state ≠ .storing) ∧ y.resolution.waitQueue = [] ∧
    (queued.askTableSound ∧ queued.resolution.waitQueue ≠ [] ∧
      ∀ w ∈ queued.resolution.waitQueue, queued.fingerprintOf w ≠ none) ∧
    s.askTableSound ∧ (∀ a ∈ s.resolution.entries, a.fingerprint = fp → a.state = .storing) := by
  unfold State.askTableSound; decide +kernel

theorem witness_FramesBeginAndBrokenOnesEnd :
    (¬ (0#8 = 1#8 ∧ (List.replicate 36 0#8).length = 36) ∧ ¬ (0#8 = 2#8 ∧ (List.replicate 36 0#8).length = 44) ∧
      ¬ (2#8 = 1#8 ∧ (List.replicate 42 0#8).length = 36) ∧ ¬ (2#8 = 2#8 ∧ (List.replicate 42 0#8).length = 44) ∧
      ¬ (2#8 = 3#8 ∧ (List.replicate 42 0#8).length = 42)) ∧
    ((15#8).toNat ≤ 15 ∧ (4095#16).toNat ≤ 4095 ∧ (1023#16).toNat ≤ 1023 ∧ (1#8).toNat ≤ 1) ∧
    base.bus.line = .idle 0 ∧ (gathering base).bus.line = .driven 0 ∧
    ([true, false].length ≠ 296 ∧ [true, false].length ≠ 344 ∧ [true, false].length ≠ 360) ∧
    (let bytes : List Byte := List.replicate 37 0
     bitsOf bytes = bitsOf bytes ∧ 2 ≤ bytes.length ∧
       leBytes 2 (frameCheck (bytes.take (bytes.length - 2))).toNat ≠ bytes.drop (bytes.length - 2)) ∧
    (15 < (16#8).toNat ∧ 4095 < (4096#16).toNat ∧ 1023 < (1024#16).toNat ∧ 1 < (2#8).toNat ∧ (1#8 : Byte) ≠ 0#8) ∧
    (gathering base).active = true ∧ (gathering base).bus.receiver = .gathering ∧
    (gathering base).settings.station.toNat ≤ 15 := by decide +kernel

/-- A first attempt and a retry on an idle line, a line driven since before now, and an ASK and a CLAIM sent whole. -/
theorem witness_AttemptsAndCompleteFrames :
    let w := sends (.waiting (some (10, 200))) 1
    let c := sends (.sending 0) 1
    let d : State := { gathering w with now := 1 }
    w.active = true ∧ w.bus.txQueue = [{ frame := .ask 9 fp, attempts := 1 }] ∧
    w.bus.transmitter = .waiting (some (10, 200)) ∧ w.bus.line = .idle 0 ∧
    (sends (.waiting none) 0).bus.transmitter = .waiting none ∧ d.bus.line = .driven 0 ∧ 0 ≠ d.now ∧
    c.bus.transmitter = .sending 0 ∧ c.askTableSound ∧
    (∀ tag f, (Frame.claim fp 0 0 0) ≠ .ask tag f) := by
  unfold State.askTableSound
  refine ⟨by decide +kernel, by decide +kernel, by decide +kernel, by decide +kernel, by decide +kernel,
    by decide +kernel, by decide +kernel, by decide +kernel, by decide +kernel, fun tag f => by simp⟩

theorem witness_CollisionsBackOff :
    (sends (.sending 0) 1).active = true ∧ (sends (.sending 0) 1).bus.transmitter = .sending 0 ∧ 1 ≤ 1 ∧
    296 ≤ (Frame.ask 9 fp).bitCount ∧ (sends (.jamming 5) 7).bus.transmitter = .jamming 5 ∧
    (sends (.jamming 5) 7).bus.txQueue = [{ frame := .ask 9 fp, attempts := 7 }] ∧ 7 < 8 ∧
    (sends (.jamming 5) 8).bus.txQueue = [{ frame := .ask 9 fp, attempts := 8 }] ∧
    (sends (.jamming 5) 8).askTableSound := by
  unfold State.askTableSound; decide +kernel

theorem witness_SealTimerDrivesTheLine :
    let s : State := { base with sealUnit := { SealUnit.initial with mode := .drive, timer := some 0, drive := .driving 5 } }
    s.active = true ∧ s.sealUnit.mode = .drive ∧ s.sealUnit.timer = some 0 ∧ s.sealUnit.drive = .driving 5 ∧
    base.sealUnit.mode ≠ .drive ∧ base.sealUnit.drive = .idle := by decide +kernel

/-- OFF, and the three stations of `roundAskedFor` with an undetected pulse. -/
theorem witness_PulseMakesARound :
    (let s := roundless .running
     let off : State := { s with sealUnit := { s.sealUnit with mode := .off } }
     off.active = true ∧ off.sealUnit.detect = .lowUndetected 0 ∧ off.sealUnit.mode = .off) ∧
    (∀ s ∈ [duringRound .running, roundless .running, gatherable .running],
      s.active = true ∧ s.sealUnit.detect = .lowUndetected 0 ∧ s.sealUnit.mode ≠ .off) := by decide +kernel

/-- Four requests wait: one of a stream that owns an OPEN container, the oldest ready one, and two more of its stream of which
the second does not fit. -/
def waiting : State :=
  let r : AppendRequest := { tag := 9, stream := 1, slot := 4, fingerprint := fp, length := 3 }
  { base with containers := {
      table := [(7, { filled with owner := some 2, area := some 0 })], freeSlots := 1023, cursor := 7
      openWait := [{ r with stream := 2 }, r, { r with slot := 5, length := 4194301 }, { r with slot := 6 }] } }

theorem witness_OpenWaitIsServed :
    let r : AppendRequest := { tag := 9, stream := 1, slot := 4, fingerprint := fp, length := 3 }
    waiting.containers.openWait =
      [{ r with stream := 2 }] ++ r :: [{ r with slot := 5, length := 4194301 }, { r with slot := 6 }] ∧
    (∀ q ∈ [{ r with stream := 2 }], waiting.ownerOfOpen q.stream) ∧ ¬ waiting.ownerOfOpen 1 ∧ waiting.nextSlot 8 ∧
    waiting.nextArea 1 := by
  unfold State.ownerOfOpen State.nextSlot State.nextArea State.areaHeld; decide +kernel

/-- The third request fills the container to its last byte, so that the fourth asks for its FULL seal and stays. -/
theorem test_open_wait_opens_and_seals :
    waiting.serveOpenWait.containers.openWait.map (fun q => (q.stream, q.slot)) = [(2, 4), (1, 6)] ∧
    (waiting.serveOpenWait.container 8).fill = 4194304 ∧
    (waiting.serveOpenWait.container 8).sealRequested = some .full := by decide +kernel

theorem witness_SettleFollowsTheContainer :
    let q : PendingSlot := { chunk .resolved with
      disposition := some .localDup, location := some { station := 3, incarnation := 0, slot := 7, ordinal := 0 } }
    let r : PendingSlot := { q with disposition := some .remote, holderSealed := some false }
    let s : State := { flushing 0 [] with
      sealUnit := { SealUnit.initial with inProgress := some 3 }
      containers := { table := [(7, { Container.initial with state := .seals, round := some 3 })], freeSlots := 1023
                      cursor := 8, openWait := [] } }
    q.location = some { station := 3, incarnation := 0, slot := 7, ordinal := 0 } ∧ q.disposition = some .localDup ∧
    r.disposition = some .remote ∧ r.holderSealed = some false ∧
    (s.container 7).state = .seals ∧ s.sealUnit.inProgress = some 3 ∧ (s.container 7).round = some 3 ∧
    ((flushing 0 []).container 7).state = .seals ∧ (flushing 0 []).sealUnit.inProgress = none ∧
    ((serving base (lookup .normal false) .sealed).container 7).state = .sealed ∧
    ((serving base (lookup .normal false) .lost).container 7).state = .lost := by decide +kernel

/-- A resolved chunk at the head, its record in flight, the last of a CLOSING stream or not; a MARK and an END in flight; and a
port with nothing outstanding. -/
theorem witness_CompletionRecordsTheChunk :
    let q : PendingSlot := { chunk .resolved with
      disposition := some .localDup, location := some { station := 3, incarnation := 0, slot := 7, ordinal := 0 } }
    let s : State := { base.setStream 1 { stream1 with pending := [q] } with
      store := { StorePort.initial with port := .recipe 1 .chunk 0 } }
    let x : Stream := { stream1 with state := .closing, queue := [], pending := [q], current := some 7 }
    let closes : State := { (owning .closing []).setStream 1 x with
      store := { StorePort.initial with port := .recipe 1 .chunk 0 } }
    let mark : State := { (owning .closing []) with store := { StorePort.initial with port := .recipe 1 .mark 0 } }
    let ends : State := { base.setStream 1 { stream1 with state := .closing, queue := [], endProgress := .issued } with
      store := { StorePort.initial with port := .recipe 1 .last 0 } }
    base.store.port = .idle ∧ s.store.port = .recipe 1 .chunk 0 ∧ (s.stream 1).state = .opened ∧
    (s.stream 1).pending = [q] ∧ q.phase = .resolved ∧ q.disposition = some .localDup ∧
    (closes.stream 1).state = .closing ∧ (closes.stream 1).queue = [] ∧ (closes.stream 1).pending = [q] ∧
    (closes.stream 1).kind = .normal ∧ (closes.stream 1).endProgress = .none ∧ closes.management.fresh = [] ∧
    mark.store.port = .recipe 1 .mark 0 ∧ (mark.stream 1).state = .closing ∧ (mark.stream 1).queue = [] ∧
    (mark.stream 1).pending = [] ∧ (mark.stream 1).kind = .normal ∧ (mark.stream 1).endProgress = .none ∧
    ends.store.port = .recipe 1 .last 0 ∧ (ends.stream 1).state = .closing ∧ ends.management.held = [] ∧
    ends.management.reports.length < 32 ∧ ends.store.flushQueue = [] ∧ ends.containers.openWait = [] := by decide +kernel

theorem witness_StoreErrorFaultsTheStream :
    let s : State := { storing with store := { StorePort.initial with port := .recipe 1 .mark 0 } }
    (1#8 : Byte) ≠ 0#8 ∧ s.store.port = .recipe 1 .mark 0 ∧ (s.stream 1).state = .opened ∧
    s.management.fresh = [] := by decide +kernel

/-- A burst with more to follow, with and without a recipe write; the last burst of a member that is not the last, of the last
member and of no member; and a next container whose flush begins and one whose range check fails. -/
theorem witness_BurstsFollowAndFlushesEnd :
    let w : RecipeWrite := { stream := 1, kind := .mark, number := 0, address := 0, bytes := [] }
    (flushing 65536 []).store.port = .burst ∧ (flushing 65536 []).containers.openWait = [] ∧
    (∀ i, ((flushing 65536 []).stream i).dueRecord = none) ∧ (flushing 65536 []).store.recipeQueue = [] ∧
    65536 < 70000 ∧ (flushing 65536 [w]).store.recipeQueue = w :: [] ∧
    (∀ j ∈ (flushing 70000 []).store.flushQueue, j.slot ≠ 7) ∧
    ((flushing 70000 []).container 7).state = .seals ∧ (flushing 70000 []).store.flushQueue = [] ∧
    (flushing 70000 []).sealUnit.inProgress = none ∧
    (let s := flushing 70000 []
     let member : State := { s with
       sealUnit := { SealUnit.initial with inProgress := some 3, members := [7, 9] }
       containers := { s.containers with table := [(7, { s.container 7 with round := some 3, sealedFor := some .round })] } }
     let last : State := { member with sealUnit := { member.sealUnit with members := [7] } }
     (member.sealUnit.inProgress = some 3 ∧ (member.container 7).round = some 3 ∧ member.sealUnit.members.erase 7 ≠ [] ∧
       (member.container 7).sealedFor = some .round) ∧
     (last.sealUnit.members.erase 7 = [] ∧ last.sealUnit.roundAgain = false ∧ last.management.fresh = [] ∧
       last.containers.openWait = [])) ∧
    (let s := flushing 70000 []
     let next : State := { s with
       store := { s.store with flushQueue := [{ slot := 9, length := 113, header := [] }] }
       containers := { s.containers with table := s.containers.table ++
         [(9, { Container.initial with state := .seals, area := some 1, sealedFor := some .close })] } }
     let tight : State := { next with settings := { next.settings with storeUnits := 582 } }
     next.store.flushQueue = { slot := 9, length := 113, header := [] } :: [] ∧ next.store.recipeQueue = [] ∧
     next.containers.openWait = [] ∧ (∀ i, (next.stream i).dueRecord = none) ∧ next.sealUnit.inProgress = none ∧
     9 * 4243520 + 113 ≤ next.settings.storeUnits * 65536 ∧ tight.settings.storeUnits * 65536 < 9 * 4243520 + 113 ∧
     (tight.container 9).sealedFor = some .close) := by decide +kernel

/-- The last member of a round to be followed by another, with no container to take in and with one. -/
def again (table : Sparse Container) : State :=
  let s := flushing 70000 []
  { s with
    sealUnit := { SealUnit.initial with inProgress := some 3, members := [7], roundAgain := true, counter := 3 }
    containers := { s.containers with table := (7, { s.container 7 with round := some 3 }) :: table } }

theorem witness_BurstsFollowAndFlushesEnd_again :
    (let s := again []
     s.store.port = .burst ∧ s.store.flushQueue = [] ∧ s.sealUnit.inProgress = some 3 ∧
     (s.container 7).round = some 3 ∧ (s.container 7).state = .seals ∧ s.sealUnit.members.erase 7 = [] ∧
     s.sealUnit.roundAgain = true ∧ s.canonical ∧ (∀ k, ¬ (k ≠ 7 ∧ s.takesIn k)) ∧ s.management.fresh = [] ∧
     s.containers.openWait = []) ∧
    (let s := again [(9, { Container.initial with state := .opened, area := some 1, owner := some 1, count := 1 })]
     s.canonical ∧ (9 ≠ 7 ∧ s.takesIn 9) ∧ s.flushesPass (fun k => k ≠ 7 ∧ s.takesIn k)) := by
  refine ⟨⟨rfl, rfl, rfl, by decide +kernel, by decide +kernel, by decide, rfl, by unfold State.canonical; decide +kernel,
    ?_, rfl, rfl⟩, by unfold State.canonical; decide +kernel, ⟨by decide, by unfold State.takesIn; decide +kernel⟩,
    fun j h => by simp [again, flushing, StorePort.initial] at h, ?_⟩
  · rintro k ⟨hk, h⟩
    simp only [State.takesIn, State.container, again, Sparse.find, if_neg (Ne.symm hk)] at h
    simp [Container.initial] at h
  · rintro k ⟨hk, h⟩
    by_cases h9 : k = 9
    · subst h9; unfold FlushJob.inRegion; decide +kernel
    · simp only [State.takesIn, State.container, again, Sparse.find, if_neg (Ne.symm hk), if_neg (Ne.symm h9)] at h
      simp [Container.initial] at h

theorem witness_ReadsAreAnswered :
    (inState .reset).station = .reset ∧ (inState .loading).station = .loading ∧ base.station ≠ .reset ∧
    ((0#8).toNat = 0 ∨ 7 ≤ (0#8).toNat) ∧ ((7#8).toNat = 0 ∨ 7 ≤ (7#8).toNat) ∧ base.active = true ∧
    16 ≤ (16#8).toNat := by decide

theorem witness_ReportsReadAndFlagsCleared :
    let s : State := { base with management := { Management.initial with reports := [.purged 7 1] } }
    base.active = true ∧ base.management.reports = [] ∧ s.management.reports = .purged 7 1 :: [] ∧
    s.management.held = [] := by decide

/-- A CLOSED report held; the last PURGED report of a walk, with no slot RETIRED and with one; and one before the last. -/
theorem witness_ReportsReadAndFlagsCleared_held :
    let holding := fun (h : Report) (list : List Nat) (table : Sparse Container) => ({ base with
      management := { Management.initial with reports := List.replicate 32 (.purged 7 1), held := [h] }
      walker := { Walker.initial with state := .reporting, reportList := list }
      containers := { base.containers with table := table } } : State)
    let closed : Report := stream1.closedReport 1
    closed.endsStream 1 ∧ ¬ closed.endsStream 2 ∧ (∀ k walks, closed ≠ .purged k walks) ∧
    (holding closed [] []).management.held = closed :: [] ∧
    (holding (.purged 9 1) [9, 10] []).walker.reportList.erase 9 ≠ [] ∧
    (let s := holding (.purged 9 1) [9] []
     s.walker.state = .reporting ∧ s.walker.reportList.erase 9 = [] ∧ s.canonical ∧ ∀ k, (s.container k).state ≠ .retired) ∧
    (let s := holding (.purged 9 1) [9] [(7, { Container.initial with state := .retired })]
     s.canonical ∧ (s.container 7).state = .retired) := by
  refine ⟨rfl, by unfold Report.endsStream Stream.closedReport; decide, fun _ _ => nofun, rfl, by decide,
    ⟨rfl, by decide, by unfold State.canonical; decide +kernel, fun k => ?_⟩, by unfold State.canonical; decide +kernel,
    by decide +kernel⟩
  simp [State.container, Container.initial, Sparse.find]

/-- A full ring that owes a MARK: with one record taken the MARK is due, on a port at work and on an idle one; with none
taken nothing is. -/
theorem witness_RecipeTakenIsClamped :
    let s := base.setStream 1 { stream1 with written := 16, owedMark := some { round := 3, status := .clean } }
    let busy : State := { s with store := { StorePort.initial with port := .burst } }
    let taken := fun n => ({ s.stream 1 with taken := ((after (.recipeTaken 1 n) s).stream 1).taken } : Stream)
    base.active = true ∧ 16 ≤ (16#8).toNat ∧ s.active = true ∧ s.containers.openWait = [] ∧ s.management.fresh = [] ∧
    (∀ j, j ≠ 1 → ∀ kind, ¬ (s.stream j).recordDue kind) ∧ busy.store.port ≠ .idle ∧
    (s.store.recipeQueue = [] ∧ s.store.flushQueue = [] ∧ s.store.active = none) ∧
    (taken 1).recordDue .mark ∧ (∀ kind, ¬ (taken 0).recordDue kind) ∧
    (s.stream 1).windowBase.toNat + (s.stream 1).written.toNat % (s.stream 1).windowSize.toNat * 64 < 4294967296 := by
  have idle : ∀ j : Fin 16, j ≠ 1 → ¬ ((base.setStream 1 { stream1 with
      written := 16, owedMark := some { round := 3, status := .clean } }).stream j).mayIssueRecord := by
    unfold Stream.mayIssueRecord; decide +kernel
  refine ⟨by decide, by decide, by decide +kernel, by decide +kernel, by decide +kernel, fun j h kind due => idle j h due.1,
    by decide +kernel, by decide +kernel, ⟨?_, by decide +kernel⟩, fun kind due => absurd due.1 ?_, by decide +kernel⟩ <;>
    (unfold Stream.mayIssueRecord; decide +kernel)

theorem witness_PurgeRetiresASlot :
    let s := serving base (lookup .normal false) .sealed
    let c : State := { s with containers := { s.containers with
      table := [(7, { Container.initial with state := .lost, count := 3 })] } }
    (inState .loading).station = .loading ∧ base.station = .running ∧ base.settings.slots ≤ (1024#16).toNat ∧
    (1023#16).toNat < base.settings.slots ∧ (base.container 1023).state = .free ∧
    (s.container 7).state = .sealed ∧ 0 < (s.container 7).references ∧
    (c.container 7).state = .lost ∧ (c.container 7).references = 0 ∧ c.walker.state = .idle ∧
    (walking 0).walker.state ≠ .idle := by decide +kernel

theorem witness_IdleUnitsDoNothing : (inState .clearing).active = false := by decide

/-- Reset meets every invariant that the statements about every step assume. -/
theorem witness_invariants :
    State.reset.canonical ∧ State.reset.sequencesFollow ∧ State.reset.segmentQueuesFit ∧
    State.reset.pendingSlotsDistinct ∧ State.reset.enginesApart ∧ State.reset.askTableSound ∧
    State.reset.requestQueueFits ∧ State.reset.busQueuesFit ∧ State.reset.reportsPlaced ∧ State.reset.outputsAgree ∧
    State.reset.openWaitSettled ∧ State.reset.nothingWaitsUnlessActive := by
  refine ⟨?_, ?_, ?_, ?_, ?_, ?_, ?_, ?_, ?_, ?_, ⟨fun h => absurd rfl h, ?_⟩, fun _ => ⟨rfl, rfl⟩⟩
  · unfold State.canonical; decide +kernel
  · unfold State.sequencesFollow; decide +kernel
  · unfold State.segmentQueuesFit; decide +kernel
  · unfold State.pendingSlotsDistinct; decide +kernel
  · unfold State.enginesApart; decide +kernel
  · unfold State.askTableSound; decide +kernel
  · unfold State.requestQueueFits; decide +kernel
  · unfold State.busQueuesFit; decide +kernel
  · unfold State.reportsPlaced; decide +kernel
  · unfold State.outputsAgree State.quietDue; dsimp only; decide +kernel
  · rintro ⟨⟨r, h, -⟩, -⟩
    simp [State.reset, ContainerManager.initial] at h

end Sys2Proof.Tests
end

