-- ==== Sys2Proof/Proofs/StreamWalk.lean ====
section
/-! PROOFS. One walk through the blocks that look at what a step hands them (the open-wait queue, the emitter, the arbiter,
the rounds): whatever relation of streams their elementary changes respect, the whole of their work respects. -/

namespace Sys2Proof.Machine

/-- A relation between a stream before and after, respected by the changes of a stream that the blocks make before the
reports of a step are placed: its current container, a record issued, a MARK owed. -/
structure Settling (R : Stream → Stream → Prop) : Prop where
  refl : ∀ x, R x x
  trans : ∀ {x y z}, R x y → R y z → R x z
  current : ∀ (x : Stream) c, R x { x with current := c }
  issued : ∀ (x : Stream) kind, x.dueRecord = some kind → R x (x.issued kind)
  owe : ∀ (x : Stream) r status, R x (x.owe r status)

/-- Every stream of `t` stands in the relation to the same stream of `s`. -/
def State.StreamsBy (R : Stream → Stream → Prop) (s t : State) : Prop := ∀ i, R (s.stream i) (t.stream i)

theorem State.stream_of_streams {s t : State} (e : t.streams = s.streams) {i : Fin 16} : t.stream i = s.stream i := by
  simp only [State.stream, e]

section Walk

variable {R : Stream → Stream → Prop}

theorem Settling.same (h : Settling R) {s t : State} (e : t.streams = s.streams) : s.StreamsBy R t := by
  intro i
  rw [State.stream_of_streams e]
  exact h.refl _

theorem Settling.thenBy (h : Settling R) {s t u : State} (a : s.StreamsBy R t) (b : t.StreamsBy R u) : s.StreamsBy R u :=
  fun i => h.trans (a i) (b i)

/-- A change of the other fields after the walk. -/
theorem Settling.after (h : Settling R) {s t u : State} (a : s.StreamsBy R t) (e : u.streams = t.streams) :
    s.StreamsBy R u := h.thenBy a (h.same e)

/-- A change of the other fields before the walk. -/
theorem Settling.before (h : Settling R) {s t u : State} (a : t.StreamsBy R u) (e : t.streams = s.streams) :
    s.StreamsBy R u := h.thenBy (h.same e) a

theorem Settling.setStream (h : Settling R) {s : State} {i : Fin 16} {x : Stream} (a : R (s.stream i) x) :
    s.StreamsBy R (s.setStream i x) := by
  intro j
  rw [State.stream_setStream]
  split
  next e => exact e ▸ a
  next => exact h.refl _

theorem Settling.fold (h : Settling R) {β : Type} {f : State → β → State} (a : ∀ (s : State) b, s.StreamsBy R (f s b))
    (l : List β) (s : State) : s.StreamsBy R (l.foldl f s) := by
  induction l generalizing s with
  | nil => exact h.same rfl
  | cons b rest ih => exact h.thenBy (a s b) (ih _)

theorem Settling.dropCurrent (h : Settling R) (s : State) (slot : Nat) (o : Option (Fin 16)) :
    s.StreamsBy R (s.dropCurrent slot o) := by
  cases o with
  | none => exact h.same rfl
  | some i =>
    refine h.setStream ?_
    dsimp only
    split
    · exact h.current _ _
    · exact h.refl _

theorem Settling.turnSealing (h : Settling R) (s : State) (slot : Nat) (r : SealReason) :
    s.StreamsBy R (s.turnSealing slot r) := h.after (h.dropCurrent s slot (s.container slot).owner) rfl

theorem Settling.sealRequest (h : Settling R) (s : State) (slot : Nat) (r : SealReason) :
    s.StreamsBy R (s.sealRequest slot r) := by
  simp only [State.sealRequest]
  repeat' split
  · exact h.turnSealing s slot r
  · exact h.after (h.dropCurrent s slot (s.container slot).owner) rfl
  · exact h.same rfl

theorem Settling.sealCurrent (h : Settling R) (s : State) (i : Fin 16) (r : SealReason) :
    s.StreamsBy R (s.sealCurrent i r) := by
  simp only [State.sealCurrent]
  split
  · exact h.thenBy (h.sealRequest s _ r) (h.setStream (h.current _ _))
  · exact h.same rfl

theorem Settling.requestAppend (h : Settling R) (s : State) (r : AppendRequest) : s.StreamsBy R (s.requestAppend r) := by
  simp only [State.requestAppend]
  repeat' split
  · exact h.same rfl
  · exact h.same rfl
  · exact h.after (h.sealRequest s _ _) rfl
  · exact h.same rfl

theorem Settling.openContainer (h : Settling R) (s : State) (slot area : Nat) (i : Fin 16) :
    s.StreamsBy R (s.openContainer slot area i) := by
  simp only [State.openContainer]
  exact h.before (h.setStream (h.current _ _)) rfl

theorem Settling.issueFollowers (h : Settling R) (s : State) (slot : Nat) (i : Fin 16) (l : List AppendRequest) :
    s.StreamsBy R (s.issueFollowers slot i l).1 := by
  induction l generalizing s with
  | nil => exact h.same rfl
  | cons r rest ih =>
    simp only [State.issueFollowers]
    repeat' split
    · exact h.before (ih _) rfl
    · exact h.sealRequest s slot _
    · exact ih s

theorem Settling.serveOpenWaitUpTo (h : Settling R) (s : State) (n : Nat) : s.StreamsBy R (s.serveOpenWaitUpTo n) := by
  induction n generalizing s with
  | zero => exact h.same rfl
  | succ n ih =>
    simp only [State.serveOpenWaitUpTo]
    split
    next r others slot area _ _ _ =>
      have opened := h.openContainer s slot area r.stream
      have issued := h.issueFollowers ((s.openContainer slot area r.stream).issueAppend slot r) slot r.stream others
      exact h.thenBy opened (h.thenBy (h.before issued rfl) (h.before (ih _) rfl))
    next => exact h.same rfl

theorem Settling.serveOpenWait (h : Settling R) (s : State) : s.StreamsBy R s.serveOpenWait := h.serveOpenWaitUpTo s _

theorem Settling.issueRecord (h : Settling R) (s : State) (i : Fin 16) : s.StreamsBy R (s.issueRecord i) := by
  simp only [State.issueRecord]
  split
  next => exact h.same rfl
  next kind due =>
    have same : (s.addressWord (s.stream i).recordAddress).2.streams = s.streams := by
      simp only [State.addressWord]
      split <;> rfl
    refine h.before (h.setStream ?_) same
    change R ((s.addressWord _).2.stream i) (((s.addressWord _).2.stream i).issued kind)
    rw [State.stream_of_streams same]
    exact h.issued _ _ due

theorem State.anyOrder_streams {α : Type} (s : State) (l : List α) : (s.anyOrder l).2.streams = s.streams := by
  simp only [State.anyOrder]
  split <;> rfl

theorem Settling.emitRecords (h : Settling R) (s : State) : s.StreamsBy R s.emitRecords :=
  h.before (h.fold h.issueRecord _ _) (State.anyOrder_streams s _)

theorem Settling.beginRound (h : Settling R) (s : State) : s.StreamsBy R s.beginRound := by
  refine h.before (h.fold (fun s k => h.sealRequest s k .round) _ _) ((State.anyOrder_streams _ _).trans ?_)
  exact foldl_keep State.streams (fun t k => t.enrol (nextRound s.sealUnit.counter) k) (fun _ _ => rfl) s _

theorem Settling.finishRound (h : Settling R) (s : State) : s.StreamsBy R s.finishRound := by
  simp only [State.finishRound]
  split
  · exact h.same rfl
  · intro i
    simp only [State.stream, Fin.getElem_fin, Vector.getElem_map]
    exact h.owe _ _ _

theorem Settling.completeRound (h : Settling R) (s : State) : s.StreamsBy R s.completeRound := by
  have finished := h.finishRound s
  have begun := h.thenBy finished (h.before
    (h.beginRound { s.finishRound with sealUnit := { s.finishRound.sealUnit with roundAgain := false } }) rfl)
  simp only [State.completeRound]
  repeat' split
  · exact h.thenBy begun (h.finishRound _)
  · exact begun
  · exact finished

theorem Settling.startRound (h : Settling R) (s : State) : s.StreamsBy R s.startRound := by
  simp only [State.startRound]
  split
  · exact h.thenBy (h.beginRound s) (h.completeRound _)
  · exact h.beginRound s

theorem Settling.askRound (h : Settling R) (s : State) : s.StreamsBy R s.askRound := by
  simp only [State.askRound]
  split
  · exact h.startRound s
  · exact h.same rfl

theorem Settling.containerNotice (h : Settling R) (s : State) (slot : Nat) (lost : Bool) :
    s.StreamsBy R (s.containerNotice slot lost) := by
  simp only [State.containerNotice]
  repeat' split
  · exact h.before (h.completeRound _) rfl
  all_goals exact h.same rfl

theorem Settling.flushOutcome (h : Settling R) (s : State) (slot : Nat) (e : Bool) :
    s.StreamsBy R (s.flushOutcome slot e) := by
  simp only [State.flushOutcome]
  refine h.before (h.containerNotice _ _ _) ?_
  split <;> rfl

theorem Settling.refuseFlush (h : Settling R) (s : State) (j : FlushJob) (rest : List FlushJob) :
    s.StreamsBy R (s.refuseFlush j rest) :=
  h.before (t := { s with store := { s.store with flushQueue := rest } })
    (h.thenBy (h.flushOutcome _ _ _) (h.thenBy (h.serveOpenWait _) (h.emitRecords _))) rfl

theorem Settling.arbitrate (h : Settling R) (s : State) (n : Nat) : s.StreamsBy R (s.arbitrate n) := by
  induction n generalizing s with
  | zero => exact h.same rfl
  | succ n ih =>
    simp only [State.arbitrate]
    repeat' split
    · exact h.same rfl
    · exact h.same rfl
    · exact h.same rfl
    · exact h.thenBy (h.refuseFlush s _ _) (ih _)
    · exact h.same rfl

theorem Settling.takeHandedOver (h : Settling R) (s : State) (n : Nat) : s.StreamsBy R (s.takeHandedOver n) := by
  induction n generalizing s with
  | zero => exact h.same rfl
  | succ n ih =>
    simp only [State.takeHandedOver]
    repeat' split
    · exact h.same rfl
    · exact h.same rfl
    · exact h.before (h.thenBy (h.refuseFlush { s with choices := s.choices + 1 } _ _) (ih _)) rfl
    · exact h.same rfl
    · exact h.thenBy (h.refuseFlush s _ _) (ih _)
    · exact h.arbitrate s _

theorem Settling.lookAtPort (h : Settling R) (s : State) : s.StreamsBy R s.lookAtPort := by
  simp only [State.lookAtPort]
  split
  · exact h.takeHandedOver s _
  · exact h.same rfl

/-! ### The reports placed -/

/-- A report's entry into the queue may turn a stream IDLE (R12, R16): with that respected too, placing is. -/
theorem Settling.placeReports (h : Settling R) (idle : ∀ x : Stream, R x x.toIdle) (s : State) :
    s.StreamsBy R s.placeReports := by
  have entered : ∀ (s : State) r, s.StreamsBy R (s.reportEntered r) := by
    intro s r
    cases r with
    | closed i => exact h.setStream (idle _)
    | aborted i => exact h.setStream (idle _)
    | faulted => exact h.same rfl
    | lost => exact h.same rfl
    | purged slot => exact h.same (by simp [State.reportEntered])
  have placed : ∀ (s : State) r, s.StreamsBy R (s.placeReport r) := by
    intro s r
    simp only [State.placeReport]
    split
    · exact h.before (entered _ r) rfl
    · exact h.same rfl
  refine h.before (h.fold placed _ _) ?_
  simp only [State.reportOrder]
  repeat' split
  all_goals rfl

theorem Settling.settle (h : Settling R) (idle : ∀ x : Stream, R x x.toIdle) (s : State) : s.StreamsBy R s.settle :=
  h.thenBy (h.serveOpenWait s) (h.thenBy (h.emitRecords _) (h.thenBy (h.lookAtPort _)
    (h.after (h.placeReports idle _) (by simp only [State.settle, State.refresh_streams]))))

theorem Settling.settleCompletion (h : Settling R) (idle : ∀ x : Stream, R x x.toIdle) (s : State) :
    s.StreamsBy R s.settleCompletion :=
  h.thenBy (h.serveOpenWait s) (h.thenBy (h.emitRecords _)
    (h.thenBy (h.arbitrate _ s.serveOpenWait.emitRecords.looks)
      (h.after (h.placeReports idle _) (by simp only [State.settleCompletion, State.refresh_streams]))))

end Walk

end Sys2Proof.Machine
end

