-- ==== Sys2Proof/Proofs/StreamsSound.lean ====
section
/-! PROOFS. What a step may do to a stream without breaking what every step keeps of it (R9, R13, R102): most of the work of
a step only shrinks queues and pending lists and frees engines. -/

namespace Sys2Proof.Machine

/-! ## Shrinking streams -/

/-- What every step keeps of one stream (R9, R13, R102). -/
structure Stream.Sound (x : Stream) : Prop where
  follows : x.expected = x.lastAccepted + 1
  queueFits : x.queue.length ≤ 64
  slotsDistinct : (x.pending.map (·.number)).Nodup

/-- The sequences stand, the queue is no longer and the pending slots in use are some of those before, in their order. -/
structure Stream.Shrinks (x y : Stream) : Prop where
  expected : y.expected = x.expected
  lastAccepted : y.lastAccepted = x.lastAccepted
  queue : y.queue.length ≤ x.queue.length
  numbers : (y.pending.map (·.number)).Sublist (x.pending.map (·.number))

theorem Stream.Shrinks.sound {x y : Stream} (h : x.Shrinks y) (hx : x.Sound) : y.Sound where
  follows := by rw [h.expected, h.lastAccepted, hx.follows]
  queueFits := h.queue.trans hx.queueFits
  slotsDistinct := hx.slotsDistinct.sublist h.numbers

/-- A change of no sequence, queue or pending list. -/
theorem Stream.Shrinks.of_eq {x y : Stream} (he : y.expected = x.expected) (hl : y.lastAccepted = x.lastAccepted)
    (hq : y.queue = x.queue) (hp : y.pending = x.pending) : x.Shrinks y :=
  ⟨he, hl, hq ▸ le_rfl, hp ▸ List.Sublist.refl _⟩

theorem Stream.Shrinks.refl (x : Stream) : x.Shrinks x := .of_eq rfl rfl rfl rfl

theorem Stream.Shrinks.trans {x y z : Stream} (h : x.Shrinks y) (g : y.Shrinks z) : x.Shrinks z where
  expected := g.expected.trans h.expected
  lastAccepted := g.lastAccepted.trans h.lastAccepted
  queue := g.queue.trans h.queue
  numbers := g.numbers.trans h.numbers

theorem Stream.shrinks_toIdle (x : Stream) : x.Shrinks x.toIdle := ⟨rfl, rfl, Nat.zero_le _, List.Sublist.refl _⟩

theorem shrinks_settling : Settling Stream.Shrinks where
  refl := Stream.Shrinks.refl
  trans := Stream.Shrinks.trans
  current _ _ := .of_eq rfl rfl rfl rfl
  issued _ _ _ := .of_eq rfl rfl rfl rfl
  owe x r status := by
    simp only [Stream.owe]
    repeat' split
    all_goals exact .of_eq rfl rfl rfl rfl

/-- A change of pending slots that keeps their numbers. -/
theorem Stream.modSlot_numbers (x : Stream) (p : Fin 32) (f : PendingSlot → PendingSlot)
    (h : ∀ q, (f q).number = q.number) : (x.modSlot p f).pending.map (·.number) = x.pending.map (·.number) := by
  simp only [Stream.modSlot, List.map_map]
  refine List.map_congr_left (fun q _ => ?_)
  simp only [Function.comp]
  split
  · exact h q
  · rfl

theorem Stream.shrinks_modSlot (x : Stream) (p : Fin 32) (f : PendingSlot → PendingSlot)
    (h : ∀ q, (f q).number = q.number) : x.Shrinks (x.modSlot p f) :=
  ⟨rfl, rfl, le_rfl, (x.modSlot_numbers p f h) ▸ List.Sublist.refl _⟩

theorem Stream.shrinks_freeSlot (x : Stream) (p : Fin 32) : x.Shrinks (x.freeSlot p) :=
  ⟨rfl, rfl, le_rfl, List.filter_sublist.map _⟩

theorem Stream.shrinks_popQueue (x : Stream) : x.Shrinks x.popQueue :=
  ⟨rfl, rfl, by simp [Stream.popQueue], List.Sublist.refl _⟩

/-! ## Operations that only shrink streams -/

/-- Every stream shrinks or stands. -/
abbrev State.StreamsShrink (s t : State) : Prop := s.StreamsBy Stream.Shrinks t

theorem State.modStream_shrinks {s : State} {i : Fin 16} {f : Stream → Stream} (h : (s.stream i).Shrinks (f (s.stream i))) :
    s.StreamsShrink (s.modStream i f) := shrinks_settling.setStream h

theorem State.modSlot_shrinks (s : State) (i : Fin 16) (p : Fin 32) (f : PendingSlot → PendingSlot)
    (h : ∀ q, (f q).number = q.number) : s.StreamsShrink (s.modStream i (fun x => x.modSlot p f)) :=
  State.modStream_shrinks (Stream.shrinks_modSlot _ p f h)

theorem State.setPhase_shrinks (s : State) (w : Waiter) (p : Phase) : s.StreamsShrink (s.setPhase w p) :=
  s.modSlot_shrinks w.1 w.2 _ (fun _ => rfl)

theorem State.resolveChunk_shrinks (s : State) (w : Waiter) (d : Disposition) (l : Option Location) (b : Option Bool) :
    s.StreamsShrink (s.resolveChunk w d l b) := s.modSlot_shrinks w.1 w.2 _ (fun _ => rfl)

theorem State.resolveAll_shrinks (s : State) (ws : List Waiter) (d : Disposition) (l : Location) (b : Option Bool) :
    s.StreamsShrink (s.resolveAll ws d l b) :=
  shrinks_settling.fold (fun s w => s.resolveChunk_shrinks w d (some l) b) ws s

theorem State.joinAsk_shrinks (s : State) (e : AskEntry) (w : Waiter) : s.StreamsShrink (s.joinAsk e w) :=
  shrinks_settling.before (State.setPhase_shrinks _ w .waiting) rfl

theorem State.makeAsk_shrinks (s : State) (f : Fingerprint) (w : Waiter) : s.StreamsShrink (s.makeAsk f w) :=
  shrinks_settling.before (State.setPhase_shrinks _ w .waiting) rfl

theorem State.recheck_shrinks (s : State) (f : Fingerprint) (w : Waiter) : s.StreamsShrink (s.recheck f w) := by
  simp only [State.recheck]
  repeat' split
  · exact s.joinAsk_shrinks _ w
  · exact s.makeAsk_shrinks f w
  · exact shrinks_settling.before (State.setPhase_shrinks _ w .waiting) rfl

theorem State.workWaitQueueUpTo_shrinks (s : State) (n : Nat) : s.StreamsShrink (s.workWaitQueueUpTo n) := by
  induction n generalizing s with
  | zero => exact shrinks_settling.same rfl
  | succ n ih =>
    simp only [State.workWaitQueueUpTo]
    repeat' split
    · exact shrinks_settling.same rfl
    · exact shrinks_settling.same rfl
    · exact shrinks_settling.before (shrinks_settling.thenBy (State.joinAsk_shrinks _ _ _) (ih _)) rfl
    · exact shrinks_settling.before (shrinks_settling.thenBy (State.makeAsk_shrinks _ _ _) (ih _)) rfl
    · exact shrinks_settling.same rfl

theorem State.freeAsk_shrinks (s : State) (e : AskEntry) : s.StreamsShrink (s.freeAsk e) :=
  shrinks_settling.before (State.workWaitQueueUpTo_shrinks _ _) rfl

theorem State.storeOrFree_shrinks (s : State) (e : AskEntry) : s.StreamsShrink (s.storeOrFree e) := by
  simp only [State.storeOrFree]
  split
  · exact s.freeAsk_shrinks e
  · exact shrinks_settling.before (shrinks_settling.requestAppend _ _) rfl

theorem State.remoteFound_shrinks (s : State) (f : Fingerprint) (l : Location) (b : Bool) :
    s.StreamsShrink (s.remoteFound f l b) := by
  simp only [State.remoteFound]
  repeat' split
  · exact shrinks_settling.same rfl
  · exact shrinks_settling.same rfl
  · exact shrinks_settling.thenBy (s.resolveAll_shrinks _ _ _ _) (State.freeAsk_shrinks _ _)

theorem State.withdrawFor_shrinks (s : State) (tag : Byte) : s.StreamsShrink (s.withdrawFor tag) := by
  simp only [State.withdrawFor]
  split
  · exact shrinks_settling.same rfl
  · exact shrinks_settling.before (State.storeOrFree_shrinks _ _) rfl

theorem State.dropWaiters_shrinks (s : State) (i : Fin 16) : s.StreamsShrink (s.dropWaiters i) :=
  shrinks_settling.before (shrinks_settling.fold State.withdrawFor_shrinks _ _) (State.anyOrder_streams _ _)

theorem State.discardPending_shrinks (s : State) (i : Fin 16) : s.StreamsShrink (s.discardPending i) :=
  shrinks_settling.before (State.modStream_shrinks ⟨rfl, rfl, le_rfl, List.nil_sublist _⟩)
    (foldl_keep State.streams State.releaseChunk State.releaseChunk_streams s _)

theorem State.tearDown_shrinks (s : State) (i : Fin 16) (fate : DigestFate) : s.StreamsShrink (s.tearDown i fate) := by
  simp only [State.tearDown]
  refine shrinks_settling.thenBy ?_ (shrinks_settling.sealCurrent _ i .abort)
  refine shrinks_settling.thenBy ?_ (State.modStream_shrinks ⟨rfl, rfl, Nat.zero_le _, List.Sublist.refl _⟩)
  refine shrinks_settling.thenBy ?_ (State.discardPending_shrinks _ i)
  exact shrinks_settling.before (State.dropWaiters_shrinks _ i) rfl

theorem State.closeCheck_shrinks (s : State) (i : Fin 16) : s.StreamsShrink (s.closeCheck i) := by
  simp only [State.closeCheck]
  repeat' split
  · exact shrinks_settling.thenBy (shrinks_settling.sealCurrent s i .close)
      (State.modStream_shrinks (.of_eq rfl rfl rfl rfl))
  all_goals exact shrinks_settling.same rfl

theorem State.settle_shrinks (s : State) : s.StreamsShrink s.settle := shrinks_settling.settle Stream.shrinks_toIdle s

theorem State.settleCompletion_shrinks (s : State) : s.StreamsShrink s.settleCompletion :=
  shrinks_settling.settleCompletion Stream.shrinks_toIdle s

theorem State.conclude_shrinks (s : State) : s.StreamsShrink s.conclude :=
  shrinks_settling.after (shrinks_settling.placeReports Stream.shrinks_toIdle s) rfl

/-! ## Steps that only shrink -/

/-- Streams shrink or stand, engines turn FREE or stand. -/
structure State.Shrinks (s t : State) : Prop where
  streams : s.StreamsShrink t
  engines : ∀ e, t.engine e = s.engine e ∨ t.engine e = .free

theorem State.Shrinks.of_engines {s t : State} (h : s.StreamsShrink t) (e : t.engines = s.engines) : s.Shrinks t :=
  ⟨h, fun d => .inl (by simp only [State.engine, e])⟩

theorem State.Shrinks.of_eq {s t : State} (h : t.streams = s.streams) (e : t.engines = s.engines) : s.Shrinks t :=
  .of_engines (shrinks_settling.same h) e

theorem State.Shrinks.trans {s t u : State} (h : s.Shrinks t) (g : t.Shrinks u) : s.Shrinks u where
  streams := shrinks_settling.thenBy h.streams g.streams
  engines e := by
    rcases g.engines e with same | free
    · rw [same]; exact h.engines e
    · exact .inr free

/-- The same with the last part of the work first. -/
theorem State.Shrinks.after {s t u : State} (g : t.Shrinks u) (h : s.Shrinks t) : s.Shrinks u := h.trans g

theorem State.settle_shrinksAll (s : State) : s.Shrinks s.settle := .of_engines s.settle_shrinks (by simp)

theorem State.engine_stopEngines (s : State) (i : Fin 16) (e : Fin 4) :
    (s.stopEngines i).engine e = if (s.engine e).serves i then .free else s.engine e := by
  simp only [State.engine, State.stopEngines, Fin.getElem_fin, Vector.getElem_map]
  rfl

theorem State.tearDown_engines (s : State) (i : Fin 16) (fate : DigestFate) :
    (s.tearDown i fate).engines = (s.stopEngines i).engines := by
  simp [State.tearDown]

theorem State.tearDown_shrinksAll (s : State) (i : Fin 16) (fate : DigestFate) : s.Shrinks (s.tearDown i fate) where
  streams := s.tearDown_shrinks i fate
  engines e := by
    have freed : (s.tearDown i fate).engine e = (s.stopEngines i).engine e := by
      simp only [State.engine, s.tearDown_engines]
    rw [freed, State.engine_stopEngines]
    split
    · exact .inr rfl
    · exact .inl rfl

end Sys2Proof.Machine
end

