-- ==== Sys2Proof/Proofs/StepsShrink.lean ====
section
/-! PROOFS. Command by command: every one but OPEN, DATA, CLOSE, RESET, an assignment and a byte taken only shrinks the
streams and frees engines. -/

namespace Sys2Proof.Machine

section Commands

variable {s t : State}

/-! ### The intake link -/

theorem State.abortNow_shrinks (s : State) (i : Fin 16) : s.Shrinks (s.abortNow i) := by
  simp only [State.abortNow]
  refine State.Shrinks.trans ?_ (State.settle_shrinksAll _)
  refine State.Shrinks.trans (t := ((s.modStream i (fun x => { x with state := .aborting })).withdrawClosed i).tearDown i
    .awaited) ?_ (.of_eq (by simp [State.reply]) (by simp [State.reply]))
  refine State.Shrinks.trans ?_ (State.tearDown_shrinksAll _ i .awaited)
  exact .of_engines (shrinks_settling.after (t := s.modStream i (fun x => { x with state := .aborting }))
    (State.modStream_shrinks (.of_eq rfl rfl rfl rfl)) rfl) rfl

theorem execAbortSegment_shrinks {stream : Byte} (h : execAbortSegment stream s = .next t) : s.Shrinks t := by
  obtain rfl := Host.Outcome.next.inj h
  simp only [State.intakeGate, State.takeAbort]
  repeat' split
  · exact .of_eq rfl rfl
  · exact .of_eq rfl rfl
  · exact .of_eq rfl rfl
  · exact .of_eq rfl rfl
  · exact .of_eq rfl rfl
  · exact .of_eq rfl rfl
  · exact s.abortNow_shrinks _
  · exact s.abortNow_shrinks _
  · exact s.abortNow_shrinks _

theorem execMalformedSegment_shrinks {kind stream : Byte} {q : Half}
    (h : execMalformedSegment kind stream q s = .next t) : s.Shrinks t := by
  obtain rfl := Host.Outcome.next.inj h
  repeat' split
  all_goals exact .of_eq rfl rfl

/-! ### The station states -/

theorem execResetRelease_shrinks (h : execResetRelease s = .next t) : s.Shrinks t := by
  obtain rfl := Host.Outcome.next.inj h
  split <;> exact .of_eq rfl rfl

theorem execSettingsLoaded_shrinks {a : Bool} {image : List Byte} (h : execSettingsLoaded a image s = .next t) :
    s.Shrinks t := by
  obtain rfl := Host.Outcome.next.inj h
  dsimp only
  repeat' split
  all_goals exact .of_eq rfl rfl

theorem State.askRound_shrinksAll (s : State) : s.Shrinks s.askRound := .of_engines (shrinks_settling.askRound s) (by simp)

theorem State.enterHolding_shrinks (s : State) : s.Shrinks s.enterHolding :=
  State.Shrinks.trans (t := { s with station := .holding }) (.of_eq rfl rfl) (State.askRound_shrinksAll _)

theorem execClearWalkStep_shrinks (h : execClearWalkStep s = .next t) : s.Shrinks t := by
  obtain rfl := Host.Outcome.next.inj h
  dsimp only
  repeat' split
  · exact .of_eq rfl rfl
  · exact (State.settle_shrinksAll _).after ((State.enterHolding_shrinks _).after (.of_eq rfl rfl))
  · exact .of_eq rfl rfl
  · exact .of_eq rfl rfl

theorem execHoldAssert_shrinks (h : execHoldAssert s = .next t) : s.Shrinks t := by
  obtain rfl := Host.Outcome.next.inj h
  split
  · exact (State.settle_shrinksAll _).after ((State.enterHolding_shrinks _).after (.of_eq rfl rfl))
  · exact .of_eq rfl rfl

theorem execHoldRelease_shrinks (h : execHoldRelease s = .next t) : s.Shrinks t := by
  obtain rfl := Host.Outcome.next.inj h
  split <;> exact .of_eq rfl rfl

/-! ### Fingerprints and the Chunk Index -/

theorem State.completeDigest_shrinks (s : State) (j : DigestJob) (rest : List DigestJob) :
    s.Shrinks (s.completeDigest j rest) := by
  have written : s.Shrinks (({ s with digestQueue := rest } : State).modStream j.stream (fun x => x.modSlot j.slot
      (fun q => { q with fingerprint := some j.digest.finish, phase := .checking }))) :=
    .of_engines (shrinks_settling.before (State.modSlot_shrinks _ _ _ _ (fun _ => rfl)) rfl) rfl
  simp only [State.completeDigest, State.checkChunk]
  repeat' split
  · refine .of_engines (shrinks_settling.before (State.conclude_shrinks _) ?_) ?_ <;> simp
  · exact written
  · exact written.trans (.of_engines (State.joinAsk_shrinks _ _ _) rfl)
  · exact written.trans (.of_eq rfl rfl)

theorem execFingerprintComplete_shrinks (h : execFingerprintComplete s = .next t) : s.Shrinks t := by
  obtain rfl := Host.Outcome.next.inj h
  repeat' split
  · exact .of_eq rfl rfl
  · exact s.completeDigest_shrinks _ _
  · exact .of_eq rfl rfl

theorem execIndexServiceStart_shrinks (h : execIndexServiceStart s = .next t) : s.Shrinks t := by
  obtain rfl := Host.Outcome.next.inj h
  split <;> exact .of_eq rfl rfl

theorem execScrubStepStart_shrinks (h : execScrubStepStart s = .next t) : s.Shrinks t := by
  obtain rfl := Host.Outcome.next.inj h
  split <;> exact .of_eq rfl rfl

theorem State.resolveSurvey_shrinks (s : State) (w : Waiter) (hit : Bool) : s.Shrinks (s.resolveSurvey w hit) := by
  refine .of_engines (shrinks_settling.thenBy (State.modStream_shrinks ?_) (State.closeCheck_shrinks _ _)) ?_
  · split <;> exact .trans (Stream.shrinks_freeSlot _ _) (.of_eq rfl rfl rfl rfl)
  · simp [State.resolveSurvey]

theorem State.takeLookup_shrinks (s : State) (f : Fingerprint) (w : Waiter) (kind : StreamKind) (hit : Option IndexEntry) :
    s.Shrinks (s.takeLookup f w kind hit) := by
  simp only [State.takeLookup]
  repeat' split
  · exact s.resolveSurvey_shrinks w true
  · exact .of_engines (shrinks_settling.before (State.resolveChunk_shrinks _ _ _ _ _) rfl) rfl
  · exact s.resolveSurvey_shrinks w false
  · exact .of_engines (s.recheck_shrinks f w) (by simp)

theorem execResolutionLookupComplete_shrinks (h : execResolutionLookupComplete s = .next t) : s.Shrinks t := by
  obtain rfl := Host.Outcome.next.inj h
  dsimp only
  repeat' split
  · exact .of_eq rfl rfl
  · exact (State.settle_shrinksAll _).after ((State.takeLookup_shrinks _ _ _ _ _).after (.of_eq rfl rfl))
  · exact .of_eq rfl rfl

theorem State.makeAnswer_shrinks (s : State) : s.Shrinks s.makeAnswer := by
  simp only [State.makeAnswer]
  repeat' split
  all_goals exact .of_eq rfl rfl

theorem execAnswerLookupComplete_shrinks (h : execAnswerLookupComplete s = .next t) : s.Shrinks t := by
  obtain rfl := Host.Outcome.next.inj h
  split
  · exact (State.makeAnswer_shrinks _).after (.of_eq rfl rfl)
  · exact .of_eq rfl rfl

theorem State.resolveStored_shrinks (s : State) (ws : List Waiter) (l : Location) : s.StreamsShrink (s.resolveStored ws l) := by
  cases ws with
  | nil => exact shrinks_settling.same rfl
  | cons w rest =>
    exact shrinks_settling.before (shrinks_settling.thenBy (State.resolveChunk_shrinks _ _ _ _ _)
      (State.resolveAll_shrinks _ _ _ _ _)) rfl

theorem State.resolveStored_engines (s : State) (ws : List Waiter) (l : Location) : (s.resolveStored ws l).engines = s.engines := by
  cases ws <;> simp [State.resolveStored]

theorem State.takeInsert_shrinks (s : State) (slot ordinal : Nat) (tag : Byte) : s.Shrinks (s.takeInsert slot ordinal tag) := by
  simp only [State.takeInsert]
  repeat' split
  · exact .of_eq rfl rfl
  · refine .of_engines (shrinks_settling.thenBy (State.resolveStored_shrinks _ _ _)
      (shrinks_settling.before (State.freeAsk_shrinks _ _) rfl)) ?_
    simp [State.resolveStored_engines]
  · exact .of_engines (shrinks_settling.before (State.storeOrFree_shrinks _ _) rfl) (by simp)

theorem execInsertComplete_shrinks (h : execInsertComplete s = .next t) : s.Shrinks t := by
  obtain rfl := Host.Outcome.next.inj h
  dsimp only
  split
  · refine (State.settle_shrinksAll _).after ((State.takeInsert_shrinks _ _ _ _).after ?_)
    split <;> exact .of_eq rfl rfl
  · exact .of_eq rfl rfl

theorem State.endWalk_keeps {β : Type} (g : State → β) (freed : ∀ (s : State) k c, g (s.setContainer k c) = g s)
    (made : ∀ (s : State) r, g (s.makeReport r) = g s)
    (turned : ∀ (s : State) c w, g { s with containers := c, walker := w } = g s) (s : State) : g s.endWalk = g s := by
  simp only [State.endWalk]
  rw [foldl_keep g _ (fun _ _ => made _ _), turned, foldl_keep g _ (fun _ _ => freed _ _ _)]

theorem State.endWalk_shrinks (s : State) : s.Shrinks s.endWalk :=
  .of_eq (State.endWalk_keeps State.streams (fun _ _ _ => rfl) (fun _ _ => rfl) (fun _ _ _ => rfl) s)
    (State.endWalk_keeps State.engines (fun _ _ _ => rfl) (fun _ _ => rfl) (fun _ _ _ => rfl) s)

theorem execScrubStepComplete_shrinks (h : execScrubStepComplete s = .next t) : s.Shrinks t := by
  obtain rfl := Host.Outcome.next.inj h
  dsimp only
  repeat' split
  · exact .of_eq rfl rfl
  · exact (State.settle_shrinksAll _).after ((State.endWalk_shrinks _).after (.of_eq rfl rfl))
  · exact .of_eq rfl rfl

/-! ### The ask timers and appends -/

theorem execCompareAExpiry_shrinks {tag : Byte} (h : execCompareAExpiry tag s = .next t) : s.Shrinks t := by
  obtain rfl := Host.Outcome.next.inj h
  simp only [State.compareA]
  repeat' split
  all_goals exact .of_eq rfl rfl

theorem execCompareBExpiry_shrinks {tag : Byte} (h : execCompareBExpiry tag s = .next t) : s.Shrinks t := by
  obtain rfl := Host.Outcome.next.inj h
  simp only [State.compareB]
  repeat' split
  · refine (State.settle_shrinksAll _).after (.of_engines (shrinks_settling.before (State.storeOrFree_shrinks _ _) rfl) ?_)
    simp
  all_goals exact .of_eq rfl rfl

theorem State.copyAppend_same (s : State) (c : Container) (a : Append) :
    s.copyAppend c a = { s with staging := (s.copyAppend c a).staging } := by
  simp only [State.copyAppend]
  split <;> rfl

theorem State.appendDone_same (s : State) (slot ordinal : Nat) (a : Append) :
    s.appendDone slot ordinal a = { s with
      resolution := (s.appendDone slot ordinal a).resolution, index := (s.appendDone slot ordinal a).index
      bus := (s.appendDone slot ordinal a).bus } := by
  simp only [State.appendDone]
  split <;> rfl

theorem State.sealAfterAppend_shrinks (s : State) (slot : Nat) : s.Shrinks (s.sealAfterAppend slot) := by
  simp only [State.sealAfterAppend]
  repeat' split
  · exact .of_eq rfl rfl
  · exact .of_engines (shrinks_settling.turnSealing s slot _) (by simp)
  · exact .of_engines (shrinks_settling.sealRequest s slot _) (by simp)
  · exact .of_eq rfl rfl

theorem State.finishAppend_shrinks (s : State) (slot : Nat) (a : Append) : s.Shrinks (s.finishAppend slot a) := by
  simp only [State.finishAppend]
  refine (State.settle_shrinksAll _).after (State.Shrinks.after (State.Shrinks.of_eq (State.abortRelease_streams _ _)
    (State.abortRelease_engines _ _)) ((State.sealAfterAppend_shrinks _ slot).after ?_))
  rw [State.appendDone_same, State.copyAppend_same]
  exact .of_eq rfl rfl

theorem execAppendComplete_shrinks {slot offset : Nat} (h : execAppendComplete slot offset s = .next t) : s.Shrinks t := by
  obtain rfl := Host.Outcome.next.inj h
  split
  · exact s.finishAppend_shrinks slot _
  · exact .of_eq rfl rfl

/-! ### The peer bus -/

theorem execAttemptStart_shrinks (h : execAttemptStart s = .next t) : s.Shrinks t := by
  obtain rfl := Host.Outcome.next.inj h
  repeat' split
  all_goals exact .of_eq rfl rfl

theorem State.headLeaves_shrinks (s : State) (f : TxFrame) : s.Shrinks (s.headLeaves f) := by
  simp only [State.headLeaves]
  split <;> exact .of_eq (by simp) (by simp)

theorem execFrameComplete_shrinks (h : execFrameComplete s = .next t) : s.Shrinks t := by
  obtain rfl := Host.Outcome.next.inj h
  split
  · exact (State.headLeaves_shrinks _ _).after (.of_eq rfl rfl)
  · exact .of_eq rfl rfl

theorem execCollision_shrinks {bit : Nat} (h : execCollision bit s = .next t) : s.Shrinks t := by
  obtain rfl := Host.Outcome.next.inj h
  repeat' split
  all_goals exact .of_eq rfl rfl

theorem execJamEnd_shrinks (h : execJamEnd s = .next t) : s.Shrinks t := by
  have abandoned : ∀ u : State, u.Shrinks (u.latch .busAbandon).refresh := fun _ => .of_eq rfl rfl
  obtain rfl := Host.Outcome.next.inj h
  dsimp only
  repeat' split
  · exact .of_eq rfl rfl
  · exact (abandoned _).after ((State.headLeaves_shrinks _ _).after (.of_eq rfl rfl))
  · exact .of_eq rfl rfl

theorem execFrameBegins_shrinks (h : execFrameBegins s = .next t) : s.Shrinks t := by
  obtain rfl := Host.Outcome.next.inj h
  split <;> exact .of_eq rfl rfl

theorem State.endReception_shrinks (s : State) (bits : Nat) : s.Shrinks (s.endReception bits) := by
  simp only [State.endReception]
  split <;> exact .of_eq rfl rfl

theorem State.dispatchAsk_shrinks (s : State) (sender tag : Byte) (f : Fingerprint) : s.Shrinks (s.dispatchAsk sender tag f) := by
  have yielded : s.Shrinks (s.yieldTo sender f) := .of_eq (by simp) (by simp)
  simp only [State.dispatchAsk]
  split
  · exact (State.makeAnswer_shrinks _).after (yielded.trans (.of_eq rfl rfl))
  · exact yielded

theorem State.dispatchLocation_shrinks (s : State) (sender : Byte) (f : Fingerprint) (inc slot ordinal : Half) (b : Bool) :
    s.Shrinks (s.dispatchLocation sender f inc slot ordinal b) :=
  .trans (.of_engines (s.remoteFound_shrinks _ _ _) (by simp)) (State.settle_shrinksAll _)

theorem State.receive_shrinks (s : State) (r : Received) : s.Shrinks (s.receive r) := by
  simp only [State.receive, State.dispatch]
  repeat' split
  · exact .of_eq rfl rfl
  · exact .of_eq rfl rfl
  · exact s.dispatchAsk_shrinks _ _ _
  · exact s.dispatchLocation_shrinks _ _ _ _ _ _
  · exact s.dispatchLocation_shrinks _ _ _ _ _ _

theorem State.frameEnds_shrinks (s : State) (r : Received) (bits : Nat) : s.Shrinks (s.frameEnds r bits) := by
  simp only [State.frameEnds]
  split
  · exact (s.endReception_shrinks bits).trans (State.receive_shrinks _ r)
  · exact s.endReception_shrinks bits

theorem execCandidateFrame_shrinks {bits : List Bool} (h : execCandidateFrame bits s = .next t) : s.Shrinks t := by
  obtain rfl := Host.Outcome.next.inj h
  split
  · exact s.frameEnds_shrinks _ _
  · exact s.endReception_shrinks _

/-! ### The seal line -/

theorem execSealTimerExpiry_shrinks (h : execSealTimerExpiry s = .next t) : s.Shrinks t := by
  obtain rfl := Host.Outcome.next.inj h
  split <;> exact .of_eq rfl rfl

theorem execDriveEnd_shrinks (h : execDriveEnd s = .next t) : s.Shrinks t := by
  obtain rfl := Host.Outcome.next.inj h
  split <;> exact .of_eq rfl rfl

theorem execPulseDetected_shrinks (h : execPulseDetected s = .next t) : s.Shrinks t := by
  obtain rfl := Host.Outcome.next.inj h
  dsimp only
  split
  · by_cases off : s.sealUnit.mode = .off
    · rw [if_pos off]
      exact .of_eq rfl rfl
    · rw [if_neg off]
      exact (State.settle_shrinksAll _).after ((State.askRound_shrinksAll _).after (.of_eq rfl rfl))
  · exact .of_eq rfl rfl

theorem execSealLineHigh_shrinks (h : execSealLineHigh s = .next t) : s.Shrinks t := by
  obtain rfl := Host.Outcome.next.inj h
  split <;> exact .of_eq rfl rfl

/-! ### The store port -/

theorem State.faultStream_shrinks (s : State) (i : Fin 16) : s.Shrinks (s.faultStream i) := by
  have reported : ∀ (u : State) r, u.Shrinks (u.makeReport r) := fun _ _ => .of_eq rfl rfl
  simp only [State.faultStream]
  refine (reported _ _).after ((State.tearDown_shrinksAll _ i .dropped).after ?_)
  exact .of_engines (State.modStream_shrinks (.of_eq rfl rfl rfl rfl)) rfl

theorem Stream.shrinks_recorded {x : Stream} {q : PendingSlot} {rest : List PendingSlot} (d : Disposition)
    (hp : x.pending = q :: rest) : x.Shrinks { x.countRecorded d with pending := rest } := by
  have tail : (rest.map (·.number)).Sublist (x.pending.map (·.number)) := by simp [hp]
  cases d <;> exact ⟨rfl, rfl, le_rfl, tail⟩

theorem State.recordChunk_shrinks (s : State) (i : Fin 16) : s.Shrinks (s.recordChunk i) := by
  simp only [State.recordChunk]
  split
  · exact .of_eq rfl rfl
  next q rest hp =>
    have released : s.Shrinks (s.releaseChunk q) := .of_eq (s.releaseChunk_streams q) (s.releaseChunk_engines q)
    rw [← State.stream_of_streams (s.releaseChunk_streams q)] at hp
    exact released.trans (.of_engines (State.modStream_shrinks (Stream.shrinks_recorded _ hp)) rfl)

theorem State.recordWritten_shrinks (s : State) (i : Fin 16) (kind : RecordKind) : s.Shrinks (s.recordWritten i kind) := by
  have counted : ∀ u : State, u.Shrinks (u.modStream i (fun x => { x with written := x.written + 1, writeInFlight := none })) :=
    fun u => .of_engines (State.modStream_shrinks (.of_eq rfl rfl rfl rfl)) rfl
  have closed : ∀ u : State, u.Shrinks (u.closeCheck i) := fun u => .of_engines (u.closeCheck_shrinks i) (by simp)
  have reported : ∀ (u : State) r, u.Shrinks (u.makeReport r) := fun _ _ => .of_eq rfl rfl
  simp only [State.recordWritten]
  cases kind with
  | chunk => exact (closed _).after ((counted _).after (s.recordChunk_shrinks i))
  | mark => exact (closed _).after (counted s)
  | last => exact (reported _ _).after (counted s)

theorem State.recipeCompleted_shrinks (s : State) (i : Fin 16) (kind : RecordKind) (error : Bool) :
    s.Shrinks (s.recipeCompleted i kind error) := by
  have done : s.Shrinks (if error then s.faultStream i else s.recordWritten i kind) := by
    split
    · exact s.faultStream_shrinks i
    · exact s.recordWritten_shrinks i kind
  simp only [State.recipeCompleted]
  split
  · exact done
  · exact done
  · exact State.Shrinks.after (.of_eq (State.abortRelease_streams _ _) (State.abortRelease_engines _ _))
      (.of_engines (State.modStream_shrinks (.of_eq rfl rfl rfl rfl)) rfl)
  · exact .of_eq rfl rfl
  · exact .of_eq rfl rfl

theorem State.burstCompleted_shrinks (s : State) (f : ActiveFlush) (error : Bool) : s.Shrinks (s.burstCompleted f error) := by
  simp only [State.burstCompleted]
  split
  · exact .of_eq rfl rfl
  · exact .of_engines (shrinks_settling.before (shrinks_settling.flushOutcome _ _ _) rfl) (by simp)

theorem execCompletion_shrinks {status : Byte} (h : execCompletion status s = .next t) : s.Shrinks t := by
  have settled : ∀ u : State, u.Shrinks u.settleCompletion := fun u => .of_engines u.settleCompletion_shrinks (by simp)
  obtain rfl := Host.Outcome.next.inj h
  dsimp only
  repeat' split
  · exact .of_eq rfl rfl
  · exact (settled _).after ((State.recipeCompleted_shrinks _ _ _ _).after (.of_eq rfl rfl))
  · exact (settled _).after ((State.recipeCompleted_shrinks _ _ _ _).after (.of_eq rfl rfl))
  · exact (settled _).after (.of_eq rfl rfl)
  · exact (settled _).after ((State.burstCompleted_shrinks _ _ _).after (.of_eq rfl rfl))

/-! ### The management port -/

theorem State.commandGate_shrinks {own : State} (h : s.Shrinks own) : s.Shrinks (s.commandGate own) := by
  simp only [State.commandGate]
  repeat' split
  · exact .of_eq rfl rfl
  · exact .of_eq rfl rfl
  · exact h

theorem execReadStatus_shrinks (h : execReadStatus s = .next t) : s.Shrinks t := by
  obtain rfl := Host.Outcome.next.inj h
  split <;> exact .of_eq rfl rfl

theorem State.enterReport_shrinks (s : State) (r : Report) : s.Shrinks (s.enterReport r) := by
  have idled : ∀ i, s.Shrinks ((({ s with management := { s.management with
      reports := s.management.reports ++ [r] } } : State)).modStream i Stream.toIdle) := fun i =>
    .of_engines (shrinks_settling.before (State.modStream_shrinks (Stream.shrinks_toIdle _)) rfl) rfl
  cases r with
  | closed i => exact idled i
  | aborted i => exact idled i
  | faulted => exact .of_eq rfl rfl
  | lost => exact .of_eq rfl rfl
  | purged slot => exact .of_eq (by simp [State.enterReport, State.reportEntered]) (by simp)

theorem State.popReport_shrinks (s : State) : s.Shrinks s.popReport := by
  have answered : ∀ (u : State) c data, u.Shrinks (u.answer c data).refresh := fun _ _ _ => .of_eq rfl rfl
  simp only [State.popReport, State.admitHeld]
  repeat' split
  · exact .of_eq rfl rfl
  · exact .of_eq rfl rfl
  · exact (answered _ _ _).after ((State.enterReport_shrinks _ _).after (.of_eq rfl rfl))

theorem State.takeRecipe_shrinks (s : State) (i : Fin 16) (count : Word) : s.Shrinks (s.takeRecipe i count) := by
  have answered : ∀ (u : State) c data, u.Shrinks (u.answer c data) := fun _ _ _ => .of_eq rfl rfl
  simp only [State.takeRecipe]
  refine (State.settle_shrinksAll _).after ((answered _ _ _).after ?_)
  exact .of_engines (State.modStream_shrinks (.of_eq rfl rfl rfl rfl)) rfl

theorem execRecipeTaken_shrinks {stream : Byte} {count : Word} (h : execRecipeTaken stream count s = .next t) :
    s.Shrinks t := by
  obtain rfl := Host.Outcome.next.inj h
  refine State.commandGate_shrinks ?_
  split
  · exact .of_eq rfl rfl
  · exact s.takeRecipe_shrinks _ count

theorem execPurge_shrinks {slot : Half} (h : execPurge slot s = .next t) : s.Shrinks t := by
  obtain rfl := Host.Outcome.next.inj h
  refine State.commandGate_shrinks ?_
  simp only [State.purgeSlot, State.retire]
  repeat' split
  all_goals exact .of_eq rfl rfl

theorem execReadStream_shrinks {stream : Byte} (h : execReadStream stream s = .next t) : s.Shrinks t := by
  obtain rfl := Host.Outcome.next.inj h
  refine State.commandGate_shrinks ?_
  split <;> exact .of_eq rfl rfl

theorem execUnknownCommand_shrinks {code : Byte} (h : execUnknownCommand code s = .next t) : s.Shrinks t := by
  obtain rfl := Host.Outcome.next.inj h
  split <;> exact .of_eq rfl rfl

end Commands

end Sys2Proof.Machine
end

