-- ==== Sys2Proof/Proofs/StreamsStaySound.lean ====
section
/-! PROOFS. The commands that do more than shrink a stream, and the invariant of all of them (R9, R13, R18, R102). -/

namespace Sys2Proof.Machine

/-! ## Sound stations -/

/-- What every step keeps of the streams and the engines (R9, R13, R18, R102). -/
structure State.Sound (s : State) : Prop where
  streams : ∀ i, (s.stream i).Sound
  engines : s.enginesApart

theorem State.sound_iff (s : State) :
    s.Sound ↔ s.sequencesFollow ∧ s.segmentQueuesFit ∧ s.pendingSlotsDistinct ∧ s.enginesApart :=
  ⟨fun h => ⟨fun i => (h.streams i).follows, fun i => (h.streams i).queueFits, fun i => (h.streams i).slotsDistinct,
    h.engines⟩, fun ⟨hf, hq, hp, he⟩ => ⟨fun i => ⟨hf i, hq i, hp i⟩, he⟩⟩

theorem State.Shrinks.sound {s t : State} (h : s.Shrinks t) (hs : s.Sound) : t.Sound where
  streams i := (h.streams i).sound (hs.streams i)
  engines := by
    have before : ∀ e i, (t.engine e).serves i = true → (s.engine e).serves i = true := by
      intro e i he
      rcases h.engines e with same | free
      · exact same ▸ he
      · rw [free] at he
        exact absurd he Bool.false_ne_true
    exact fun d e i hd he => hs.engines d e i (before d i hd) (before e i he)

theorem State.Sound.of_eq {s t : State} (hs : s.Sound) (h : t.streams = s.streams) (e : t.engines = s.engines) : t.Sound :=
  (State.Shrinks.of_eq h e).sound hs

theorem State.Sound.setStream {s : State} (hs : s.Sound) (i : Fin 16) {x : Stream} (hx : x.Sound) :
    (s.setStream i x).Sound where
  streams j := by
    rw [State.stream_setStream]
    split
    · exact hx
    · exact hs.streams j
  engines := hs.engines

/-- An engine takes up a stream that no other engine holds. -/
theorem State.enginesApart_set {s t : State} {e : Fin 4} {x : Engine} (hs : s.enginesApart)
    (ht : ∀ d, t.engine d = if d = e then x else s.engine d)
    (hx : ∀ j, x.serves j = true → ∀ d, d ≠ e → (s.engine d).serves j = false) : t.enginesApart := by
  intro d d' j hd hd'
  rw [ht] at hd hd'
  split at hd <;> split at hd'
  next h h' => rw [h, h']
  next h h' => exact absurd hd' (by simp [hx j hd d' h'])
  next h h' => exact absurd hd (by simp [hx j hd' d h])
  next => exact hs d d' j hd hd'

/-! ### Segments -/

theorem Stream.sound_openedWith (branch base size : Word) : (Stream.openedWith branch base size).Sound :=
  ⟨rfl, Nat.zero_le _, List.nodup_nil⟩

theorem Stream.Sound.accept {x : Stream} (hx : x.Sound) (room : x.queue.length < 64) (q : Half) (kind : EntryKind) :
    (x.accept q kind).Sound := ⟨rfl, by simpa [Stream.accept] using room, hx.slotsDistinct⟩

theorem Stream.length_lt_of_freeQueueSlots {x : Stream} (h : x.freeQueueSlots ≠ 0) : x.queue.length < 64 := by
  simp only [Stream.freeQueueSlots] at h
  omega

theorem State.addBytes_same (s : State) (x : Stream) (n : Nat) :
    (s.addBytes x n).2 = { s with choices := (s.addBytes x n).2.choices } := by
  simp only [State.addBytes]
  split <;> rfl

section Segments

variable {s : State} (hs : s.Sound)
include hs

theorem State.Sound.reply (b : Byte) (k : SegmentKind) (q : Half) (r : ReplyStatus) (n : Nat) :
    (s.reply b k q r n).Sound := hs.of_eq rfl rfl

theorem State.Sound.replyFor (i : Fin 16) (k : SegmentKind) (q : Half) (r : ReplyStatus) : (s.replyFor i k q r).Sound :=
  hs.of_eq rfl rfl

theorem State.Sound.intakeGate {b : Byte} {k : SegmentKind} {q : Half} {own : Fin 16 → State} (h : ∀ i, (own i).Sound) :
    (s.intakeGate b k q own).Sound := by
  simp only [State.intakeGate]
  repeat' split
  · exact hs
  · exact hs.reply _ _ _ _ _
  · exact hs.reply _ _ _ _ _
  · exact hs.replyFor _ _ _ _
  · exact h _

theorem State.Sound.takeOpen (i : Fin 16) (q : Half) (branch base size : Word) : (s.takeOpen i q branch base size).Sound := by
  simp only [State.takeOpen]
  repeat' split
  · exact hs.replyFor _ _ _ _
  · exact hs.replyFor _ _ _ _
  · exact hs.replyFor _ _ _ _
  · exact (hs.setStream i (Stream.sound_openedWith branch base size)).replyFor _ _ _ _

theorem State.Sound.acceptData {i : Fin 16} (room : (s.stream i).queue.length < 64) (q : Half) (payload : List Byte) :
    (s.acceptData i q payload).Sound := by
  simp only [State.acceptData]
  refine State.Sound.setStream ?_ i ?_
  · rw [State.addBytes_same]
    exact hs.of_eq rfl rfl
  · obtain ⟨hf, hq, hp⟩ := (hs.streams i).accept room q (.data payload.length)
    exact ⟨hf, hq, hp⟩

theorem State.Sound.takeData (i : Fin 16) (q : Half) (payload : List Byte) : (s.takeData i q payload).Sound := by
  simp only [State.takeData]
  repeat' split
  · exact hs.replyFor _ _ _ _
  · exact hs.replyFor _ _ _ _
  · exact hs.replyFor _ _ _ _
  · exact hs.replyFor _ _ _ _
  · exact hs.replyFor _ _ _ _
  next room => exact (hs.acceptData (Stream.length_lt_of_freeQueueSlots room) q payload).replyFor _ _ _ _

theorem State.Sound.takeClose (i : Fin 16) (q : Half) : (s.takeClose i q).Sound := by
  simp only [State.takeClose]
  repeat' split
  · exact hs.replyFor _ _ _ _
  · exact hs.replyFor _ _ _ _
  · exact hs.replyFor _ _ _ _
  next room =>
    obtain ⟨hf, hq, hp⟩ := (hs.streams i).accept (Stream.length_lt_of_freeQueueSlots room) q .close
    refine State.Sound.replyFor (hs.setStream i ?_) _ _ _ _
    exact ⟨hf, hq, hp⟩

end Segments

/-! ### Engines -/

theorem State.held_eq_false_iff (s : State) (i : Fin 16) : s.held i = false ↔ ∀ e, (s.engine e).serves i = false := by
  simp only [State.held, State.engine, List.any_eq_false, Bool.not_eq_true, Fin.getElem_fin]
  constructor
  · intro h e
    exact h _ (by simp)
  · intro h x hx
    obtain ⟨k, hk, rfl⟩ := List.getElem_of_mem hx
    exact h ⟨k, by simpa using hk⟩

theorem State.Sound.of_setEngine {s : State} (hs : s.Sound) {e : Fin 4} {x : Engine}
    (hx : ∀ j, x.serves j = true → ∀ d, d ≠ e → (s.engine d).serves j = false) : (s.setEngine e x).Sound where
  streams := hs.streams
  engines := State.enginesApart_set hs.engines (fun d => s.engine_setEngine e d x) hx

theorem State.endChunk_shrinks (s : State) (i : Fin 16) (p : Fin 32) (d : Digest) : s.Shrinks (s.endChunk i p d) := by
  obtain ⟨he, hl, hq, hp⟩ := Stream.shrinks_modSlot (s.stream i) p (fun q => { q with phase := .hashing }) (fun _ => rfl)
  exact .of_engines (shrinks_settling.after (State.modStream_shrinks (f := fun x =>
    { x.modSlot p (fun q => { q with phase := .hashing }) with chunks := x.chunks + 1 }) ⟨he, hl, hq, hp⟩) rfl) rfl

theorem State.writeBack_shrinks (s : State) (i : Fin 16) (c : ChunkerContext) : s.Shrinks (s.writeBack i c) :=
  .of_engines (State.modStream_shrinks (.of_eq rfl rfl rfl rfl)) rfl

theorem State.popQueue_shrinks (s : State) (i : Fin 16) : s.Shrinks (s.modStream i Stream.popQueue) :=
  .of_engines (State.modStream_shrinks (Stream.shrinks_popQueue _)) rfl

theorem State.closeHead_shrinks (s : State) (i : Fin 16) : s.Shrinks (s.closeHead i) := by
  simp only [State.closeHead]
  refine (State.settle_shrinksAll _).after (State.Shrinks.after (.of_engines (State.closeCheck_shrinks _ i) (by simp)) ?_)
  refine (State.popQueue_shrinks _ i).after ((State.writeBack_shrinks _ i _).after ?_)
  repeat' split
  · exact s.endChunk_shrinks i _ _
  · exact .of_eq rfl rfl
  · exact .of_eq rfl rfl

theorem State.eligible_notHeld {s : State} {i : Fin 16} (h : s.eligible i = true) : ∀ e, (s.engine e).serves i = false := by
  simp only [State.eligible, Bool.and_eq_true, Bool.not_eq_true'] at h
  obtain ⟨⟨-, notHeld⟩, -⟩ := h
  exact (s.held_eq_false_iff i).1 notHeld

theorem State.Sound.assign {s : State} (hs : s.Sound) (e : Fin 4) {i : Fin 16}
    (free : ∀ d, (s.engine d).serves i = false) : (s.assign e i).Sound := by
  have turned : ({ s with lastAssigned := i } : State).Sound := hs.of_eq rfl rfl
  simp only [State.assign]
  split
  · refine turned.of_setEngine (fun j hj d _ => ?_)
    obtain rfl : i = j := by simpa [Engine.serves] using hj
    exact free d
  · exact (State.closeHead_shrinks _ i).sound turned
  · exact hs

theorem State.Sound.engineAssign {s t : State} (hs : s.Sound) (h : execEngineAssign s = .next t) : t.Sound := by
  obtain rfl := Host.Outcome.next.inj h
  split
  next e i _ next =>
    exact hs.assign e (State.eligible_notHeld (List.find?_some next))
  next => exact hs

/-! ### Bytes -/

theorem Stream.lowestFreeSlot_free {x : Stream} {p : Fin 32} (h : x.lowestFreeSlot = some p) :
    ∀ q ∈ x.pending, q.number ≠ p := by
  have free := List.find?_some h
  simpa using free

theorem State.sequenceAfter_same (s : State) (q : Word) :
    (s.sequenceAfter q).2 = { s with choices := (s.sequenceAfter q).2.choices } := by
  simp only [State.sequenceAfter]
  split <;> rfl

theorem State.Sound.allocate {s : State} (hs : s.Sound) {i : Fin 16} {p : Fin 32}
    (free : (s.stream i).lowestFreeSlot = some p) (c : ChunkerContext) : (s.allocate i p c).1.Sound := by
  simp only [State.allocate]
  refine State.Sound.setStream ?_ i ⟨(hs.streams i).follows, (hs.streams i).queueFits, ?_⟩
  · rw [State.sequenceAfter_same]
    exact hs.of_eq rfl rfl
  · have apart := Stream.lowestFreeSlot_free free
    simpa [List.nodup_append, (hs.streams i).slotsDistinct] using apart

theorem State.allocate_engines (s : State) (i : Fin 16) (p : Fin 32) (c : ChunkerContext) :
    (s.allocate i p c).1.engines = s.engines := by
  simp only [State.allocate]
  rw [State.sequenceAfter_same]
  rfl

theorem State.creditNotice_same (s : State) (i : Fin 16) :
    s.creditNotice i = { s with sent := (s.creditNotice i).sent } := by
  simp only [State.creditNotice]
  split <;> rfl

theorem State.Sound.setOwnEngine {s : State} (hs : s.Sound) {e : Fin 4} {i : Fin 16} (own : (s.engine e).serves i = true)
    {x : Engine} (hx : ∀ j, x.serves j = true → j = i) : (s.setEngine e x).Sound := by
  refine hs.of_setEngine (fun j hj d hd => ?_)
  rw [hx j hj]
  by_contra other
  exact hd (hs.engines d e i (by simpa using other) own)

theorem Engine.serves_serving {i j : Fin 16} {c : ChunkerContext} {n : Nat} (h : (Engine.serving i c n).serves j = true) :
    j = i := by
  simp only [Engine.serves, decide_eq_true_eq] at h
  exact h.symm

theorem Engine.serves_free {i j : Fin 16} (h : Engine.free.serves j = true) : j = i := absurd h Bool.false_ne_true

theorem State.Sound.consumeEntry {s : State} (hs : s.Sound) {e : Fin 4} {i : Fin 16} (own : (s.engine e).serves i = true)
    (c : ChunkerContext) : (s.consumeEntry e i c).Sound := by
  simp only [State.consumeEntry]
  rw [State.creditNotice_same]
  have popped := ((State.popQueue_shrinks _ i).after (s.writeBack_shrinks i { c with resume := none })).sound hs
  exact (popped.setOwnEngine (i := i) own (fun _ => Engine.serves_free)).of_eq rfl rfl

theorem State.Sound.takeByte {s : State} (hs : s.Sound) {e : Fin 4} {i : Fin 16} (own : (s.engine e).serves i = true)
    (c : ChunkerContext) (p : Fin 32) (y : Byte) (position length : Nat) : (s.takeByte e i c p y position length).Sound := by
  simp only [State.takeByte]
  set u : State := { s.modStream i (fun x => x.modSlot p (fun q => { q with length := q.length + 1 })) with
    staging := writeByte (s.modStream i (fun x => x.modSlot p (fun q => { q with length := q.length + 1 }))).staging
      (stagingExtent i p + (c.length + 1 - 1)) y } with hu
  have lengthened : s.Shrinks u :=
    .of_engines (shrinks_settling.after (s.modSlot_shrinks i p (fun q => { q with length := q.length + 1 })
      (fun _ => rfl)) rfl) rfl
  have ended : ∀ d b, s.Shrinks (if b = true then u.endChunk i p d else u) := by
    intro d b
    split
    · exact (u.endChunk_shrinks i p d).after lengthened
    · exact lengthened
  have owned : ∀ d b, ((if b = true then u.endChunk i p d else u).engine e).serves i = true := by
    intro d b
    split <;> exact own
  split
  · exact ((ended _ _).sound hs).consumeEntry (owned _ _) _
  · exact ((ended _ _).sound hs).setOwnEngine (owned _ _) (fun _ => Engine.serves_serving)

theorem State.Sound.engineStep {s : State} (hs : s.Sound) (e : Fin 4) : (s.engineStep e).Sound := by
  simp only [State.engineStep]
  split
  · exact hs
  next i c position serving =>
    have own : (s.engine e).serves i = true := by simp [serving, Engine.serves]
    repeat' split
    · exact hs
    · exact hs
    · exact hs.takeByte own _ _ _ _ _
    · exact ((s.writeBack_shrinks i _).sound hs).setOwnEngine (i := i) own (fun _ => Engine.serves_free)
    next p free =>
      refine (hs.allocate free c).takeByte ?_ _ _ _ _ _
      rw [show (s.allocate i p c).1.engine e = s.engine e by simp only [State.engine, State.allocate_engines]]
      exact own
    · exact hs

/-! ### Every command -/

theorem State.sound_of_initial {s : State} (streams : s.streams = Vector.replicate 16 Stream.initial)
    (engines : s.engines = Vector.replicate 4 Engine.free) : s.Sound where
  streams i := by
    rw [show s.stream i = Stream.initial by simp [State.stream, streams]]
    exact ⟨rfl, Nat.zero_le _, List.nodup_nil⟩
  engines d e i hd := by
    rw [show s.engine d = .free by simp [State.engine, engines]] at hd
    exact absurd hd Bool.false_ne_true

theorem State.Sound.exec {c : Instr} {s t : State} (hs : s.Sound) (h : exec c s = .next t) : t.Sound := by
  cases c with
  | openSegment stream q branch base size =>
    obtain rfl := Host.Outcome.next.inj h
    exact hs.intakeGate (fun i => hs.takeOpen i q branch base size)
  | dataSegment stream q payload =>
    obtain rfl := Host.Outcome.next.inj h
    exact hs.intakeGate (fun i => hs.takeData i q payload)
  | closeSegment stream q =>
    obtain rfl := Host.Outcome.next.inj h
    exact hs.intakeGate (fun i => hs.takeClose i q)
  | resetAssert =>
    obtain rfl := Host.Outcome.next.inj h
    exact State.sound_of_initial rfl rfl
  | engineAssign => exact hs.engineAssign h
  | engineTakeByte e =>
    obtain rfl := Host.Outcome.next.inj h
    split
    · exact hs.engineStep e
    · exact hs
  | abortSegment => exact (execAbortSegment_shrinks h).sound hs
  | malformedSegment => exact (execMalformedSegment_shrinks h).sound hs
  | resetRelease => exact (execResetRelease_shrinks h).sound hs
  | settingsLoaded => exact (execSettingsLoaded_shrinks h).sound hs
  | clearWalkStep => exact (execClearWalkStep_shrinks h).sound hs
  | holdAssert => exact (execHoldAssert_shrinks h).sound hs
  | holdRelease => exact (execHoldRelease_shrinks h).sound hs
  | fingerprintComplete => exact (execFingerprintComplete_shrinks h).sound hs
  | indexServiceStart => exact (execIndexServiceStart_shrinks h).sound hs
  | scrubStepStart => exact (execScrubStepStart_shrinks h).sound hs
  | resolutionLookupComplete => exact (execResolutionLookupComplete_shrinks h).sound hs
  | answerLookupComplete => exact (execAnswerLookupComplete_shrinks h).sound hs
  | insertComplete => exact (execInsertComplete_shrinks h).sound hs
  | scrubStepComplete => exact (execScrubStepComplete_shrinks h).sound hs
  | compareAExpiry => exact (execCompareAExpiry_shrinks h).sound hs
  | compareBExpiry => exact (execCompareBExpiry_shrinks h).sound hs
  | appendComplete => exact (execAppendComplete_shrinks h).sound hs
  | attemptStart => exact (execAttemptStart_shrinks h).sound hs
  | frameComplete => exact (execFrameComplete_shrinks h).sound hs
  | collision => exact (execCollision_shrinks h).sound hs
  | jamEnd => exact (execJamEnd_shrinks h).sound hs
  | askReceived => exact Host.Outcome.next.inj h ▸ (s.frameEnds_shrinks _ _).sound hs
  | haveReceived => exact Host.Outcome.next.inj h ▸ (s.frameEnds_shrinks _ _).sound hs
  | claimReceived => exact Host.Outcome.next.inj h ▸ (s.frameEnds_shrinks _ _).sound hs
  | candidateFrame => exact (execCandidateFrame_shrinks h).sound hs
  | sealTimerExpiry => exact (execSealTimerExpiry_shrinks h).sound hs
  | driveEnd => exact (execDriveEnd_shrinks h).sound hs
  | pulseDetected => exact (execPulseDetected_shrinks h).sound hs
  | sealLineHigh => exact (execSealLineHigh_shrinks h).sound hs
  | completion => exact (execCompletion_shrinks h).sound hs
  | readStatus => exact (execReadStatus_shrinks h).sound hs
  | readReport => exact Host.Outcome.next.inj h ▸ (State.commandGate_shrinks s.popReport_shrinks).sound hs
  | ackEvents mask =>
    have acknowledged : s.Shrinks (s.acknowledge mask) := .of_eq rfl rfl
    exact Host.Outcome.next.inj h ▸ (State.commandGate_shrinks acknowledged).sound hs
  | recipeTaken => exact (execRecipeTaken_shrinks h).sound hs
  | purge => exact (execPurge_shrinks h).sound hs
  | readStream => exact (execReadStream_shrinks h).sound hs
  | unknownCommand => exact (execUnknownCommand_shrinks h).sound hs
  | transactionDiscarded => exact Host.Outcome.next.inj h ▸ hs
  | sealLineLow =>
    obtain rfl := Host.Outcome.next.inj h
    exact hs.of_eq rfl rfl
  | frameBegins => exact (execFrameBegins_shrinks h).sound hs

/-- Settles O55: what a step does to the streams and the engines only shrinks them, or is one of the commands looked at
above; with an empty queue of commands only the clock moves. -/
theorem streamsStaySound : Obligations.StreamsStaySound := by
  intro s t inv stepped
  rw [← State.sound_iff] at inv
  refine (State.sound_iff t).1 ?_
  simp only [step] at stepped
  split at stepped
  · obtain rfl := Host.Outcome.next.inj stepped
    exact inv.of_eq rfl rfl
  next c rest _ => exact State.Sound.exec (s := { s with pending := rest }) (inv.of_eq rfl rfl) stepped

end Sys2Proof.Machine
end

