-- ==== Sys2Proof/Proofs/Intake.lean ====
section
/-! PROOFS. The intake link (chapter 1): who gets past the gate, the refusals and the acceptances of OPEN, DATA and CLOSE,
and the values after reset. -/

namespace Sys2Proof.Machine

/-! ## The gate -/

@[simp] theorem streamOf_streamByte (i : Fin 16) : streamOf (streamByte i) = some i := by
  have hi : (streamByte i).toNat = i.val := by simp only [streamByte, BitVec.toNat_ofNat]; omega
  simp [streamOf, hi]

theorem streamOf_none {b : Byte} (h : 15 < b.toNat) : streamOf b = none := by
  rw [streamOf, dif_neg (by omega)]

section Gate

variable {s : State} {b : Byte} {i : Fin 16} {k : SegmentKind} {q : Half} {own : Fin 16 → State}

/-- In LOADING and CLEARING every segment is answered NOT_READY (R2). -/
theorem State.intakeGate_starting (h : s.station = .loading ∨ s.station = .clearing) :
    s.intakeGate b k q own = s.reply b k q .notReady 64 := by
  rcases h with h | h <;> simp [State.intakeGate, State.starting, h]

/-- A stream above 15 is answered NOT_OPEN (R3). -/
theorem State.intakeGate_above (h : s.station = .running ∨ s.station = .holding) (above : 15 < b.toNat) :
    s.intakeGate b k q own = s.reply b k q .notOpen 0 := by
  rcases h with h | h <;> simp [State.intakeGate, State.starting, h, streamOf_none above]

/-- In HOLDING an OPEN or a DATA is answered HOLDING (R2). -/
theorem State.intakeGate_holding (h : s.station = .holding) (hk : k = .opens ∨ k = .data) :
    s.intakeGate (streamByte i) k q own = s.replyFor i k q .holding := by
  simp [State.intakeGate, State.starting, h, hk]

/-- In RESET nothing is received (R1). -/
theorem State.intakeGate_reset (h : s.station = .reset) : s.intakeGate b k q own = s := by
  simp [State.intakeGate, h]

/-- In RUNNING a segment of a stream from 0 to 15 is its kind's own matter (R2). -/
theorem State.intakeGate_running (h : s.station = .running) : s.intakeGate (streamByte i) k q own = own i := by
  simp [State.intakeGate, State.starting, h]

/-- And so is a CLOSE or an ABORT in HOLDING (R2). -/
theorem State.intakeGate_own (h : s.station = .running ∨ s.station = .holding) (hk : k = .close ∨ k = .abort) :
    s.intakeGate (streamByte i) k q own = own i := by
  rcases h with h | h <;> rcases hk with rfl | rfl <;> simp [State.intakeGate, State.starting, h]

end Gate

/-- A reply about a stream carries the count of its free queue slots (R1). -/
theorem State.replyFor_eq (s : State) (i : Fin 16) (k : SegmentKind) (q : Half) (r : ReplyStatus) :
    s.replyFor i k q r =
      s.send (.intake (replyBytes (streamByte i) k.code q r (64 - (s.stream i).queue.length))) := rfl

/-- Settles O9, by the gate for the known kinds and by the malformed segment's own case split. -/
theorem malformedSegmentsAnswered : Obligations.MalformedSegmentsAnswered := by
  intro s kind stream q branch base size payload malformed
  have unknown : ¬ (isSegmentKind kind = true ∧ stream.toNat ≤ 15) := by
    simp only [isSegmentKind, Bool.and_eq_true, decide_eq_true_eq]
    omega
  refine ⟨fun above active => ?_, fun active => ?_, fun starting => ?_⟩
  · refine ⟨?_, ?_, ?_, ?_⟩
    all_goals exact congrArg Host.Outcome.next (State.intakeGate_above active above)
  · have notStarting : ¬ (s.station = .reset ∨ s.starting = true) := by
      rcases active with h | h <;> simp [State.starting, h]
    rw [not_or] at notStarting
    simp only [exec, execMalformedSegment]
    rw [if_neg (not_or.2 ⟨notStarting.1, unknown⟩), if_neg notStarting.2]
    rfl
  · have notReset : s.station ≠ .reset := by rcases starting with h | h <;> simp [h]
    simp only [exec, execMalformedSegment]
    rw [if_neg (not_or.2 ⟨notReset, unknown⟩), if_pos (by rcases starting with h | h <;> simp [State.starting, h])]
    rfl

/-- Settles O10, by what the gate does in each station state. -/
theorem stationStateGatesSegments : Obligations.StationStateGatesSegments := by
  intro s stream i q branch base size payload
  refine ⟨fun starting => ?_, fun holding => ?_, fun reset => ?_⟩
  · refine ⟨?_, ?_, ?_, ?_⟩
    all_goals exact congrArg Host.Outcome.next (State.intakeGate_starting starting)
  · exact ⟨congrArg Host.Outcome.next (State.intakeGate_holding holding (.inl rfl)),
      congrArg Host.Outcome.next (State.intakeGate_holding holding (.inr rfl))⟩
  · refine ⟨?_, ?_, ?_, ?_⟩
    all_goals exact congrArg Host.Outcome.next (State.intakeGate_reset reset)

/-! ## OPEN -/

theorem windowPasses_iff (t : Settings) (base size : Word) :
    windowPasses t base size = true ↔ windowAcceptable t base size := by
  simp [windowPasses, windowAcceptable, and_assoc]

theorem exec_openSegment_running {s : State} (h : s.station = .running) (i : Fin 16) (q : Half) (branch base size : Word) :
    exec (.openSegment (streamByte i) q branch base size) s = .next (s.takeOpen i q branch base size) :=
  congrArg Host.Outcome.next (State.intakeGate_running h)

/-- Settles O11. -/
theorem openSetsUpTheStream : Obligations.OpenSetsUpTheStream := by
  intro s i branch base size running idle window
  rw [exec_openSegment_running running, State.takeOpen, if_neg (by simp [idle]), if_neg (by simp),
    if_neg (by simp [windowPasses_iff, window]), State.replyFor_eq, State.stream_setStream_same]
  rfl

/-- Settles O12, by the checks of R5 in their order. -/
theorem openRefusedInOrder : Obligations.OpenRefusedInOrder := by
  intro s i q branch base size running
  simp only [exec_openSegment_running running, State.takeOpen]
  refine ⟨fun busy => ?_, fun idle nonzero => ?_, fun idle zero window => ?_⟩
  · rw [if_pos busy]; rfl
  · rw [if_neg (by simp [idle]), if_pos (show q ≠ 0#16 from nonzero)]; rfl
  · rw [if_neg (by simp [idle]), if_neg (by simp [zero]), if_pos (by simp [← windowPasses_iff] at window; simp [window])]
    rfl

/-! ## DATA and CLOSE -/

theorem StreamState.refusal_notOpen {x : StreamState} (h : x = .idle ∨ x = .closing ∨ x = .aborting) :
    x.refusal = some .notOpen := by rcases h with rfl | rfl | rfl <;> rfl

theorem exec_dataSegment_running {s : State} (h : s.station = .running) (i : Fin 16) (q : Half) (payload : List Byte) :
    exec (.dataSegment (streamByte i) q payload) s = .next (s.takeData i q payload) :=
  congrArg Host.Outcome.next (State.intakeGate_running h)

theorem exec_closeSegment_own {s : State} (h : s.station = .running ∨ s.station = .holding) (i : Fin 16) (q : Half) :
    exec (.closeSegment (streamByte i) q) s = .next (s.takeClose i q) :=
  congrArg Host.Outcome.next (State.intakeGate_own h (.inl rfl))

/-- DATA for an OPEN stream: the checks of R8 after the first. -/
theorem State.takeData_opened {s : State} {i : Fin 16} (h : (s.stream i).state = .opened) (q : Half) (payload : List Byte) :
    s.takeData i q payload =
      if payload.length = 0 ∨ 8192 < payload.length then s.replyFor i .data q .length
      else if q = (s.stream i).lastAccepted then s.replyFor i .data q .duplicate
      else if q ≠ (s.stream i).expected then s.replyFor i .data q .sequence
      else if (s.stream i).freeQueueSlots = 0 then s.replyFor i .data q .full
      else (s.acceptData i q payload).replyFor i .data q .accepted := by
  simp only [State.takeData, h, StreamState.refusal]

theorem Stream.freeQueueSlots_eq_zero_iff (x : Stream) : x.freeQueueSlots = 0 ↔ 64 ≤ x.queue.length := by
  simp only [Stream.freeQueueSlots]
  omega

/-- Settles O14, by the checks of R8 in their order. -/
theorem dataRefusedInOrder : Obligations.DataRefusedInOrder := by
  intro s i q payload running
  simp only [exec_dataSegment_running running]
  refine ⟨fun notOpen => ?_, fun faulted => ?_, fun opened badLength => ?_, fun opened low high same => ?_,
    fun opened low high other wrong => ?_, fun opened low high other right full => ?_⟩
  · simp only [State.takeData, StreamState.refusal_notOpen notOpen]; rfl
  · simp only [State.takeData, faulted, StreamState.refusal]; rfl
  · rw [State.takeData_opened opened, if_pos badLength]; rfl
  · rw [State.takeData_opened opened, if_neg (by omega), if_pos same]; rfl
  · rw [State.takeData_opened opened, if_neg (by omega), if_neg other, if_pos wrong]; rfl
  · rw [State.takeData_opened opened, if_neg (by omega), if_neg other, if_neg (by simp [right]),
      if_pos ((Stream.freeQueueSlots_eq_zero_iff _).2 full)]
    rfl

/-- Settles O15, by the checks of R11 in their order. -/
theorem closeEntersTheQueue : Obligations.CloseEntersTheQueue := by
  intro s i q active
  simp only [exec_closeSegment_own active, State.takeClose]
  refine ⟨fun notOpen => ?_, fun faulted => ?_, fun opened wrong => ?_, fun opened right full => ?_,
    fun opened right room => ?_⟩
  · simp only [StreamState.refusal_notOpen notOpen]; rfl
  · simp only [faulted, StreamState.refusal]; rfl
  · simp only [opened, StreamState.refusal, if_pos wrong]; rfl
  · simp only [opened, StreamState.refusal]
    rw [if_neg (by simp [right]), if_pos ((Stream.freeQueueSlots_eq_zero_iff _).2 full)]
    rfl
  · simp only [opened, StreamState.refusal]
    rw [if_neg (by simp [right]), if_neg (by rw [Stream.freeQueueSlots_eq_zero_iff]; omega), State.replyFor_eq,
      State.stream_setStream_same]
    simp [State.send, State.setStream, Stream.accept, SegmentKind.code]

/-- An accepted DATA of a stream whose bytes accepted stay below 2^64 (R10). -/
theorem State.acceptData_eq {s : State} {i : Fin 16} {payload : List Byte} (q : Half)
    (h : (s.stream i).bytesAccepted.toNat + payload.length < 2 ^ 64) :
    s.acceptData i q payload =
      ({ s with staging := writeBytes s.staging (segmentPlace i (s.stream i).nextQueueSlot) payload } : State).setStream i
        { (s.stream i).accept q (.data payload.length) with
          bytesAccepted := (s.stream i).bytesAccepted + BitVec.ofNat 64 payload.length } := by
  simp only [State.acceptData, State.addBytes, if_pos (show _ < 18446744073709551616 from h)]

/-- Settles O13: past the checks of R8 the acceptance is R10's, and staging memory obeys the law of written bytes. -/
theorem dataEntersTheQueue : Obligations.DataEntersTheQueue := by
  intro s i payload
  dsimp only
  intro running opened low high fresh room small
  rw [exec_dataSegment_running running, State.takeData_opened opened, if_neg (by omega), if_neg fresh, if_neg (by simp),
    if_neg (by rw [Stream.freeQueueSlots_eq_zero_iff]; omega), State.acceptData_eq _ small, State.replyFor_eq,
    State.stream_setStream_same]
  refine ⟨_, rfl, ?_, fun a => readByte_writeBytes s.staging _ a payload⟩
  simp [State.send, State.setStream, Stream.accept, SegmentKind.code]

/-! ## Reset -/

theorem State.reset_stream (i : Fin 16) : State.reset.stream i = Stream.initial := by simp [State.stream, State.reset]

theorem State.reset_engine (e : Fin 4) : State.reset.engine e = .free := by simp [State.engine, State.reset]

theorem State.reset_container (slot : Nat) : State.reset.container slot = Container.initial := rfl

/-- Settles O3: each value is the one written in the blocks' initial records. -/
theorem resetValues : Obligations.ResetValues := by
  refine ⟨rfl, rfl, State.reset_stream, State.reset_engine, rfl, rfl, rfl, rfl, rfl, rfl, rfl, rfl, rfl, rfl, rfl, rfl, rfl,
    rfl, rfl, State.reset_container, rfl, rfl, rfl, rfl, rfl, rfl, rfl, rfl, rfl, rfl, rfl, rfl, rfl, rfl, rfl, rfl, rfl,
    rfl, rfl, rfl, rfl, rfl, rfl, rfl, rfl, rfl, rfl, rfl⟩

theorem State.reset_outputsAgree : State.reset.outputsAgree := by
  simp [State.outputsAgree, State.quietDue, State.reset, Management.initial, Settings.zero]

/-- Settles O60. -/
theorem resetMeetsTheInvariants : Obligations.ResetMeetsTheInvariants := by
  obtain ⟨follows, fit, distinct, apart⟩ := (State.sound_iff _).1 (State.sound_of_initial (s := State.reset) rfl rfl)
  refine ⟨⟨rfl, rfl, rfl⟩, follows, fit, distinct, apart, ⟨fun h => ?_, fun h => ?_⟩, ?_, Nat.zero_le _, ?_, ?_,
    State.reset_outputsAgree, ⟨fun h => absurd rfl h, ?_⟩, fun _ => ⟨rfl, rfl⟩⟩
  · exact absurd h (by decide)
  · exact absurd h (by decide)
  · exact ⟨Nat.zero_le _, List.nodup_nil, List.nodup_nil⟩
  · exact ⟨Nat.zero_le _, Nat.zero_le _⟩
  · exact ⟨Nat.zero_le _, fun h => absurd rfl h, rfl⟩
  · rintro ⟨⟨r, waits, -⟩, -⟩
    exact absurd waits List.not_mem_nil

end Sys2Proof.Machine
end

