-- ==== Sys2Proof/Proofs/EngineTakesByte.lean ====
section
/-! PROOFS. A byte taken into a begun chunk (R29, R33): the boundary decision of R27, and what each part of the step changes. -/

namespace Sys2Proof.Machine

/-- The boundary decision is that of R27. -/
theorem isBoundary_eq (t : Settings) (n v : Nat) : isBoundary t n v = decide (chunkEnds t n v) := by
  rw [Bool.eq_iff_iff, decide_eq_true_iff]
  simp only [isBoundary, chunkEnds]
  split
  next h => simp only [Bool.false_eq_true, false_iff]; omega
  next hmin =>
    split
    next hnT => simp only [decide_eq_true_eq]; omega
    next hnT =>
      split
      next hmax => simp only [decide_eq_true_eq]; omega
      next hmax => simp only [true_iff]; omega

/-- The engine takes a byte of a chunk begun (R29). -/
theorem exec_engineTakeByte_begun {s : State} {e : Fin 4} {i : Fin 16} {c : ChunkerContext} {p : Fin 32} {position n : Nat}
    {entry : QueueEntry} {rest : List QueueEntry} (active : s.active = true) (serving : s.engine e = .serving i c position)
    (begun : c.slot = some p) (queue : (s.stream i).queue = entry :: rest) (kind : entry.kind = .data n) (low : position < n) :
    exec (.engineTakeByte e) s =
      .next (s.takeByte e i c p (readByte s.staging (segmentPlace i entry.slot + position)) position n) := by
  simp only [exec, execEngineTakeByte, active, if_true, State.engineStep, serving, queue, List.head?_cons, kind, begun,
    if_pos low]

/-- Two changes of one pending slot, the first of which keeps its number. -/
theorem Stream.modSlot_modSlot (x : Stream) (p : Fin 32) {f : PendingSlot → PendingSlot} (g : PendingSlot → PendingSlot)
    (h : ∀ q, (f q).number = q.number) : (x.modSlot p f).modSlot p g = x.modSlot p (fun q => g (f q)) := by
  simp only [Stream.modSlot, List.map_map]
  congr 1
  refine List.map_congr_left (fun q _ => ?_)
  simp only [Function.comp]
  by_cases hq : q.number = p
  · simp [hq, h]
  · simp [hq]

/-- Two changes of one stream. -/
theorem State.setStream_setStream (s : State) (i : Fin 16) (x y : Stream) :
    (s.setStream i x).setStream i y = s.setStream i y := by
  simp [State.setStream, Vector.set_set]

theorem State.modStream_modStream (s : State) (i : Fin 16) (f g : Stream → Stream) :
    (s.modStream i f).modStream i g = s.modStream i (fun x => g (f x)) := by
  simp only [State.modStream, State.stream_setStream_same, State.setStream_setStream]

/-- The pending slot of a byte's chunk: one byte longer, and HASHING if the chunk ends there (R29, R34). -/
def PendingSlot.withByte (ends : Bool) (q : PendingSlot) : PendingSlot :=
  { q with length := q.length + 1, phase := if ends then .hashing else q.phase }

/-- The stream of a byte's chunk, its queue and chunker context aside (R29, R34). -/
def Stream.withByte (x : Stream) (p : Fin 32) (ends : Bool) : Stream :=
  { x.modSlot p (PendingSlot.withByte ends) with chunks := if ends then x.chunks + 1 else x.chunks }

/-- The station once a byte stands in its chunk and the chunk has ended or not, the engine and the entry aside. -/
def State.withByte (s : State) (i : Fin 16) (p : Fin 32) (address : Nat) (y : Byte) (d : Digest) (ends : Bool) : State :=
  { s.setStream i ((s.stream i).withByte p ends) with
    staging := writeByte s.staging address y
    digestQueue := if ends then s.digestQueue ++ [{ stream := i, slot := p, digest := d, fate := .kept }]
      else s.digestQueue }

theorem State.withByte_cut (s : State) (i : Fin 16) (p : Fin 32) (address : Nat) (y : Byte) (d : Digest) :
    ({ s.modStream i (fun x => x.modSlot p (fun q => { q with length := q.length + 1 })) with
      staging := writeByte s.staging address y } : State).endChunk i p d = s.withByte i p address y d true := by
  have slot : ((s.stream i).modSlot p (fun q => { q with length := q.length + 1 })).modSlot p
      (fun q => { q with phase := .hashing }) = (s.stream i).modSlot p (PendingSlot.withByte true) :=
    Stream.modSlot_modSlot _ _ _ (fun _ => rfl)
  simp only [State.stream, Fin.getElem_fin] at slot
  simp only [State.endChunk, State.withByte, State.modStream, State.setStream, State.stream, Stream.withByte,
    Fin.getElem_fin, Vector.getElem_set_self, Vector.set_set, if_true, ← slot]
  rfl

theorem State.withByte_uncut (s : State) (i : Fin 16) (p : Fin 32) (address : Nat) (y : Byte) (d : Digest) :
    ({ s.modStream i (fun x => x.modSlot p (fun q => { q with length := q.length + 1 })) with
      staging := writeByte s.staging address y } : State) = s.withByte i p address y d false := rfl

/-- The context of an engine once a byte has gone through it (R24, R29). -/
def ChunkerContext.withByte (c : ChunkerContext) (y : Byte) : ChunkerContext :=
  { c.roll y with length := c.length + 1, digest := c.digest.feed y }

theorem State.takeByte_eq (s : State) (e : Fin 4) (i : Fin 16) (c : ChunkerContext) (p : Fin 32) (y : Byte)
    (position n : Nat) (ends : Bool)
    (he : isBoundary s.settings (c.length + 1) (testValue (c.withByte y).sumA (c.withByte y).sumB) = ends) :
    s.takeByte e i c p y position n =
      let u := s.withByte i p (stagingExtent i p + c.length) y (c.withByte y).digest ends
      let d := if ends then (c.withByte y).cut else c.withByte y
      if position + 1 = n then u.consumeEntry e i d else u.setEngine e (.serving i d (position + 1)) := by
  simp only [ChunkerContext.withByte] at he
  cases ends with
  | true =>
    rw [← State.withByte_cut]
    simp only [State.takeByte, he, if_true, Nat.add_sub_cancel]
    rfl
  | false =>
    rw [← State.withByte_uncut]
    simp only [State.takeByte, he, Bool.false_eq_true, if_false, Nat.add_sub_cancel]
    rfl

/-- The notice of R14 goes out at the credit threshold. -/
theorem State.creditNotice_eq (s : State) (i : Fin 16) :
    s.creditNotice i = { s with
      sent := if (s.stream i).state = .opened ∧ s.settings.credit.count = some (64 - (s.stream i).queue.length) then
          s.sent ++ [.intake (creditBytes i (64 - (s.stream i).queue.length))]
        else s.sent } := by
  simp only [State.creditNotice, show (s.stream i).freeQueueSlots = 64 - (s.stream i).queue.length from rfl]
  split <;> rfl

/-- The last byte of an entry frees its queue slot and the engine (R33). -/
theorem State.consumeEntry_eq {s : State} {e : Fin 4} {i : Fin 16} {c : ChunkerContext} {x : Stream} {entry : QueueEntry}
    {rest : List QueueEntry} (stands : s.stream i = x) (queue : x.queue = entry :: rest) :
    s.consumeEntry e i c = { s with
      streams := s.streams.set i { x with chunker := { c with resume := none }, queue := rest }
      engines := s.engines.set e .free
      sent := if x.state = .opened ∧ s.settings.credit.count = some (64 - rest.length) then
          s.sent ++ [.intake (creditBytes i (64 - rest.length))]
        else s.sent } := by
  have popped : (s.writeBack i { c with resume := none }).modStream i Stream.popQueue =
      s.setStream i { x with chunker := { c with resume := none }, queue := rest } := by
    rw [State.writeBack, State.modStream_modStream]
    simp only [State.modStream, stands, Stream.popQueue, queue, List.tail_cons]
  have read : ((s.setStream i { x with chunker := { c with resume := none }, queue := rest }).setEngine e .free).stream i =
      { x with chunker := { c with resume := none }, queue := rest } := State.stream_setStream_same s i _
  rw [State.consumeEntry, popped, State.creditNotice_eq, read]
  rfl

theorem State.stream_withByte (s : State) (i : Fin 16) (p : Fin 32) (address : Nat) (y : Byte) (d : Digest) (ends : Bool) :
    (s.withByte i p address y d ends).stream i = (s.stream i).withByte p ends := State.stream_setStream_same s i _

/-- Settles O19: the byte, the cut and the end of the entry one after another, each by its own equation. -/
theorem engineTakesByte : Obligations.EngineTakesByte := by
  intro s e i c p position n entry rest active serving begun queue kind low
  dsimp only
  rw [exec_engineTakeByte_begun active serving begun queue kind low,
    State.takeByte_eq s e i c p _ position n _ (isBoundary_eq _ _ _)]
  dsimp only
  by_cases last : position + 1 = n
  · rw [if_pos last, State.consumeEntry_eq (State.stream_withByte s i p _ _ _ _) (entry := entry) (rest := rest) queue]
    refine ⟨_, rfl, fun a => readByte_writeByte s.staging _ a _, ?_⟩
    simp only [last, true_and, State.withByte, State.setStream, Vector.set_set]
    rfl
  · rw [if_neg last]
    refine ⟨_, rfl, fun a => readByte_writeByte s.staging _ a _, ?_⟩
    simp only [last, false_and]
    rfl

end Sys2Proof.Machine
end

