-- ==== Sys2Proof/Proofs/ReportsPlaced.lean ====
section
/-! PROOFS. How the reports of a step are placed (R169), and when an ABORTING stream has its ABORTED report made (R16). -/

namespace Sys2Proof.Machine

/-! ## Listed entries of a sparse table -/

theorem Sparse.find_eq_of_mem {α : Type} [DecidableEq α] {d : α} {t : Sparse α} (wf : Sparse.wf d t = true) {k : Nat} {x : α}
    (h : (k, x) ∈ t) : Sparse.find d k t = x := by
  induction t with
  | nil => exact absurd h List.not_mem_nil
  | cons e rest ih =>
    obtain ⟨k', x'⟩ := e
    simp only [Sparse.find]
    rcases List.mem_cons.1 h with here | later
    · obtain ⟨rfl, rfl⟩ := Prod.mk.inj here
      rw [if_pos rfl]
    · have lt := Sparse.lt_of_wf wf _ later
      simp only [Sparse.wf, Bool.and_eq_true] at wf
      rw [if_neg (by dsimp only at lt; omega), ih wf.2 later]

theorem Sparse.mem_of_find_ne {α : Type} {d : α} {t : Sparse α} {k : Nat} (h : Sparse.find d k t ≠ d) :
    (k, Sparse.find d k t) ∈ t := by
  induction t with
  | nil => exact absurd rfl h
  | cons e rest ih =>
    obtain ⟨k', x'⟩ := e
    simp only [Sparse.find] at h ⊢
    split
    next here => subst here; exact List.mem_cons_self
    next other =>
      rw [if_neg other] at h
      exact List.mem_cons_of_mem _ (ih h)

/-- Some listed container has a property that a FREE one has not, exactly when some slot's container has it. -/
theorem State.any_container_iff {s : State} (wf : Sparse.wf Container.initial s.containers.table = true)
    {p : Container → Bool} (free : p Container.initial = false) :
    s.containers.table.any (fun e => p e.2) = true ↔ ∃ k, p (s.container k) = true := by
  rw [List.any_eq_true]
  constructor
  · rintro ⟨⟨k, c⟩, listed, hp⟩
    exact ⟨k, by rw [State.container, Sparse.find_eq_of_mem wf listed]; exact hp⟩
  · rintro ⟨k, hp⟩
    refine ⟨_, Sparse.mem_of_find_ne (d := Container.initial) (k := k) (fun initial => ?_), hp⟩
    rw [State.container, initial, free] at hp
    exact absurd hp Bool.false_ne_true

/-! ## Reports placed -/

theorem State.placeReport_queues (s : State) (r : Report) :
    (s.placeReport r).management.reports ++ (s.placeReport r).management.held =
      s.management.reports ++ s.management.held ++ [r] := by
  simp only [State.placeReport]
  split
  next room => simp [State.enterReport, room.1]
  next => simp

theorem State.foldl_placeReport_queues (l : List Report) (s : State) :
    (l.foldl State.placeReport s).management.reports ++ (l.foldl State.placeReport s).management.held =
      s.management.reports ++ s.management.held ++ l := by
  induction l generalizing s with
  | nil => simp
  | cons r rest ih => rw [List.foldl_cons, ih, State.placeReport_queues]; simp

theorem mem_interleave (key : Nat → Nat) (r : Report) (others base : List Report) :
    r ∈ interleave key others base ↔ r ∈ others ∨ r ∈ base := by
  induction others generalizing base with
  | nil => simp [interleave]
  | cons x rest ih =>
    have split := List.take_append_drop (key rest.length % (base.length + 1)) base
    simp only [interleave, List.mem_append, List.mem_cons, ih]
    rw [← congrArg (r ∈ ·) split]
    simp only [List.mem_append]
    tauto

/-- Every report of the step is placed, and nothing else. -/
theorem State.mem_reportOrder (s : State) (r : Report) : r ∈ s.reportOrder.1 ↔ r ∈ s.management.fresh := by
  simp only [State.reportOrder]
  split
  next noLost =>
    have others : s.management.fresh.filter (fun r => !r.isLost) = s.management.fresh := by
      rw [List.filter_eq_self]
      intro a ha
      simpa using List.filter_eq_nil_iff.1 noLost a ha
    simp [others]
  next =>
    split
    next noOther =>
      have lost : s.management.fresh.filter Report.isLost = s.management.fresh := by
        rw [List.filter_eq_self]
        intro a ha
        simpa using List.filter_eq_nil_iff.1 noOther a ha
      simp [lost]
    next =>
      simp only [mem_interleave, List.mem_filter]
      cases r.isLost <;> simp

theorem State.reportOrder_state (s : State) : s.reportOrder.2 = { s with
    management := { s.management with fresh := [] }, choices := s.reportOrder.2.choices } := by
  simp only [State.reportOrder]
  repeat' split
  all_goals rfl

/-- A report made in the step stands in the report queue or is held once the step has placed its reports (R169). -/
theorem State.mem_placeReports {s : State} {r : Report} (h : r ∈ s.management.fresh) :
    r ∈ s.placeReports.management.reports ++ s.placeReports.management.held := by
  rw [State.placeReports, State.foldl_placeReport_queues]
  exact List.mem_append_right _ ((s.mem_reportOrder r).2 h)

/-- A LOST report ends no stream. -/
theorem State.placeReport_streams_of_lost {s : State} {r : Report} (h : r.isLost = true) :
    (s.placeReport r).streams = s.streams := by
  cases r with
  | lost =>
    simp only [State.placeReport]
    split <;> rfl
  | closed => exact absurd h Bool.false_ne_true
  | aborted => exact absurd h Bool.false_ne_true
  | faulted => exact absurd h Bool.false_ne_true
  | purged => exact absurd h Bool.false_ne_true

/-- A step whose only reports are LOST reports turns no stream IDLE. -/
theorem State.placeReports_streams_of_lost {s : State} (h : ∀ r ∈ s.management.fresh, r.isLost = true) :
    s.placeReports.streams = s.streams := by
  have fold : ∀ (l : List Report) (u : State), (∀ r ∈ l, r.isLost = true) →
      (l.foldl State.placeReport u).streams = u.streams := by
    intro l
    induction l with
    | nil => exact fun u _ => rfl
    | cons r rest ih =>
      intro u all
      rw [List.foldl_cons, ih _ (fun q hq => all q (List.mem_cons_of_mem _ hq)),
        State.placeReport_streams_of_lost (all r List.mem_cons_self)]
  rw [State.placeReports, fold _ _ (fun r hr => h r ((s.mem_reportOrder r).1 hr)), State.reportOrder_state]

/-- A step that makes no report places none. -/
theorem State.placeReports_of_none {s : State} (h : s.management.fresh = []) : s.placeReports = s := by
  simp only [State.placeReports, State.reportOrder, h, List.filter_nil, if_true, List.foldl_nil]
  rw [← h]

/-- A step that makes one report places it. -/
theorem State.placeReports_of_one {s : State} {r : Report} (h : s.management.fresh = [r]) :
    s.placeReports = ({ s with management := { s.management with fresh := [] } } : State).placeReport r := by
  simp only [State.placeReports, State.reportOrder, h]
  cases r <;> rfl

/-- With room in the queue and none held a report enters (R169). -/
theorem State.placeReport_of_room {s : State} {r : Report} (none : s.management.held = [])
    (room : s.management.reports.length < 32) : s.placeReport r = s.enterReport r := if_pos ⟨none, room⟩

/-- Without room, or behind others held, a report is held (R169). -/
theorem State.placeReport_of_full {s : State} {r : Report}
    (full : s.management.held ≠ [] ∨ 32 ≤ s.management.reports.length) :
    s.placeReport r = { s with management := { s.management with held := s.management.held ++ [r] } } :=
  if_neg (fun room => full.elim (fun some => some room.1) (fun long => absurd room.2 (Nat.not_lt.2 long)))

/-! ## ABORTING streams -/

theorem State.digestAwaited_iff (s : State) (i : Fin 16) :
    s.digestAwaited i = false ↔ ∀ j ∈ s.digestQueue, j.stream = i → j.fate = .dropped := by
  simp [State.digestAwaited]

theorem State.appendInFlight_iff {s : State} (wf : Sparse.wf Container.initial s.containers.table = true) (i : Fin 16) :
    s.appendInFlight i = false ↔ ∀ k, ∀ a ∈ (s.container k).inFlight, a.stream ≠ i := by
  rw [← Bool.not_eq_true, State.appendInFlight,
    State.any_container_iff (p := fun c => c.inFlight.any (fun a => a.stream = i)) wf rfl]
  simp

/-- Everything an ABORTING stream waits for has let go but for a write in flight (R16, R37). -/
theorem State.workGone_iff {s : State} (wf : Sparse.wf Container.initial s.containers.table = true) (i : Fin 16) :
    s.workGone i (fun _ _ => False) ↔ s.held i = false ∧ s.digestAwaited i = false ∧ s.appendInFlight i = false := by
  rw [State.held_eq_false_iff, State.digestAwaited_iff, State.appendInFlight_iff wf]
  rfl

/-- The ABORTED report of a stream (R16). -/
def State.abortedReport (s : State) (i : Fin 16) : Report :=
  .aborted i (s.stream i).branch (s.stream i).bytesAccepted (s.stream i).chunks

section Release

variable {s : State} {i : Fin 16} (wf : Sparse.wf Container.initial s.containers.table = true)
  (aborting : (s.stream i).state = .aborting) (fresh : s.management.fresh = [])
  (unmade : ∀ branch bytes chunks, .aborted i branch bytes chunks ∉ s.management.held)
include wf aborting fresh unmade

/-- With its work gone the ABORTED report of an ABORTING stream is made, and with work left it is not (R16). -/
theorem State.abortRelease_eq [Decidable (s.workGone i (fun _ _ => False) ∧ (s.stream i).writeInFlight = none)] :
    s.abortRelease i =
      if s.workGone i (fun _ _ => False) ∧ (s.stream i).writeInFlight = none then s.makeReport (s.abortedReport i) else s := by
  have notAwaited : s.awaitsReport (Report.aborts i) = false := by
    simp only [State.awaitsReport, fresh, List.any_nil, Bool.or_false, List.any_eq_false]
    intro r hr
    cases r with
    | aborted j b n c =>
      simp only [Report.aborts, decide_eq_true_eq]
      rintro rfl
      exact unmade b n c hr
    | closed => exact Bool.false_ne_true
    | faulted => exact Bool.false_ne_true
    | lost => exact Bool.false_ne_true
    | purged => exact Bool.false_ne_true
  simp only [State.abortRelease, aborting, notAwaited, true_and, Bool.not_eq_true', Bool.not_false, and_true,
    State.abortedReport]
  refine if_congr ?_ rfl rfl
  rw [State.workGone_iff wf]
  simp only [and_assoc]

end Release

/-- Of a stream that is not ABORTING no ABORTED report is made. -/
theorem State.abortRelease_of_not {s : State} {i : Fin 16} (h : (s.stream i).state ≠ .aborting) : s.abortRelease i = s := by
  simp only [State.abortRelease]
  rw [if_neg (fun c => h c.1)]

/-- What an ABORTING stream's step comes to, from the state `u` in which the reports of the step are placed: beside the LOST
reports of the step, the ABORTED report is made exactly when the stream's work is gone (R16, R169). -/
theorem State.abortFollowed_of_placed {s t u : State} {i : Fin 16} {gone alone : Prop} {lost : List Report}
    (reports : u.management.reports = s.management.reports) (held : u.management.held = s.management.held)
    (stays : (u.stream i).state = (s.stream i).state) (allLost : ∀ r ∈ lost, r.isLost = true) (quiet : alone → lost = [])
    (made : (s.stream i).state = .aborting → s.management.fresh = [] → s.canonical →
      (∀ branch bytes chunks, .aborted i branch bytes chunks ∉ s.management.held) →
      (gone → u.management.fresh = s.abortedReport i :: lost) ∧ (¬ gone → u.management.fresh = lost))
    (placedStreams : t.streams = u.placeReports.streams)
    (placedReports : t.management.reports = u.placeReports.management.reports)
    (placedHeld : t.management.held = u.placeReports.management.held) : s.abortFollowed t i gone alone := by
  intro aborting fresh canonical unmade
  obtain ⟨whenGone, whenNot⟩ := made aborting fresh canonical unmade
  rw [aborting] at stays
  rw [State.stream_of_streams placedStreams, placedReports, placedHeld]
  refine ⟨fun isGone => ⟨State.mem_placeReports ?_, fun isAlone none room => ?_, fun isAlone full => ?_⟩, fun notGone => ?_⟩
  · rw [whenGone isGone]
    exact List.mem_cons_self
  · have one : u.management.fresh = [s.abortedReport i] := by rw [whenGone isGone, quiet isAlone]
    rw [← reports] at room
    rw [State.placeReports_of_one one, State.placeReport_of_room (by exact held.trans none) (by exact room)]
    refine ⟨?_, ?_, ?_⟩
    · exact congrArg Stream.state (State.stream_modStream_same _ i Stream.toIdle)
    · exact congrArg (· ++ [_]) reports
    · exact held.trans none
  · have one : u.management.fresh = [s.abortedReport i] := by rw [whenGone isGone, quiet isAlone]
    rw [← reports, ← held] at full
    rw [State.placeReports_of_one one, State.placeReport_of_full (by exact full)]
    exact ⟨stays, reports, congrArg (· ++ [_]) held⟩
  · rw [State.stream_of_streams (State.placeReports_streams_of_lost (by rwa [whenNot notGone]))]
    refine ⟨stays, fun isAlone => ?_⟩
    rw [State.placeReports_of_none (by rw [whenNot notGone, quiet isAlone])]
    exact ⟨reports, held⟩

end Sys2Proof.Machine
end

