-- ==== Sys2Proof/Proofs/Fingerprints.lean ====
section
/-! PROOFS. The oldest digest completed (R35, R57): its chunk takes the fingerprint and goes on, or its result is dropped. -/

namespace Sys2Proof.Machine

/-- A changed pending slot is found under its number. -/
theorem Stream.slot?_modSlot {x : Stream} {p : Fin 32} {q : PendingSlot} {f : PendingSlot → PendingSlot}
    (h : ∀ q, (f q).number = q.number) (found : x.slot? p = some q) : (x.modSlot p f).slot? p = some (f q) := by
  have number : q.number = p := by simpa using List.find?_some found
  have same : ((fun r : PendingSlot => decide (r.number = p)) ∘ fun r => if r.number = p then f r else r) =
      fun r => decide (r.number = p) := by
    funext r
    simp only [Function.comp]
    by_cases hr : r.number = p
    · simp [hr, h]
    · simp [hr]
  simp only [Stream.slot?, Stream.modSlot, List.find?_map, same] at found ⊢
  rw [found, Option.map_some, if_pos number]

/-- In a table with distinct tags, replacing the entry that carries a tag is changing it in its place. -/
theorem State.setAsk_eq_map {s : State} {a : AskEntry} (tags : (s.resolution.entries.map (·.tag)).Nodup)
    (ha : a ∈ s.resolution.entries) {f : AskEntry → AskEntry} (keeps : (f a).tag = a.tag) :
    s.setAsk (f a) = { s with resolution := { s.resolution with
      entries := s.resolution.entries.map (fun x => if x.tag = a.tag then f x else x) } } := by
  simp only [State.setAsk, keeps]
  congr 2
  refine List.map_congr_left (fun x hx => ?_)
  split
  next same => rw [List.inj_on_of_nodup_map tags hx ha same]
  next => rfl

/-- In a sound table the entry for a fingerprint may be named by it as well as by its tag (R63, R64). -/
theorem State.askTableSound.map_tag_eq {s : State} (sound : s.askTableSound) {a : AskEntry} (ha : a ∈ s.resolution.entries)
    (f : AskEntry → AskEntry) :
    s.resolution.entries.map (fun x => if x.tag = a.tag then f x else x) =
      s.resolution.entries.map (fun x => if x.fingerprint = a.fingerprint then f x else x) := by
  obtain ⟨-, fingerprints, tags⟩ := sound
  refine List.map_congr_left (fun x hx => if_congr ⟨fun same => ?_, fun same => ?_⟩ rfl rfl)
  · rw [List.inj_on_of_nodup_map tags hx ha same]
  · rw [List.inj_on_of_nodup_map fingerprints hx ha same]

section Kept

variable {s : State} {j : DigestJob} {rest : List DigestJob} {q : PendingSlot}

/-- The station once the chunk of the oldest digest carries its fingerprint (R35). -/
def State.fingerprinted (s : State) (j : DigestJob) (rest : List DigestJob) : State :=
  ({ s with digestQueue := rest } : State).modStream j.stream (fun x => x.modSlot j.slot (fun q =>
    { q with fingerprint := some j.digest.finish, phase := .checking }))

theorem State.completeDigest_kept (kept : j.fate = .kept) (found : (s.stream j.stream).slot? j.slot = some q) :
    s.completeDigest j rest =
      (s.fingerprinted j rest).checkChunk (j.stream, j.slot) j.digest.finish q.sequence := by
  have chunk : (s.fingerprinted j rest).chunkOf (j.stream, j.slot) =
      some { q with fingerprint := some j.digest.finish, phase := .checking } := by
    rw [State.chunkOf, State.fingerprinted, State.stream_modStream_same]
    exact Stream.slot?_modSlot (f := fun q => { q with fingerprint := some j.digest.finish, phase := .checking })
      (fun _ => rfl) found
  simp only [State.fingerprinted] at chunk
  simp only [State.completeDigest, kept, ne_eq, not_true_eq_false, if_false, chunk]
  rfl

/-- With no ask entry for its fingerprint, or of a SURVEY stream, the chunk makes a lookup (R57). -/
theorem State.checkChunk_lookup {w : Waiter} {f : Fingerprint} {n : Word}
    (h : (s.stream w.1).kind = .survey ∨ ∀ a ∈ s.resolution.entries, a.fingerprint ≠ f) :
    s.checkChunk w f n = { s with index := s.index.withRequest .resolution (.lookup f w.1 w.2 n (s.stream w.1).kind false) } := by
  rw [← Index.make_eq_withRequest]
  rcases h with survey | none
  · simp only [State.checkChunk, survey, State.makeRequest]
  · simp only [State.checkChunk, State.askFor_none none]
    cases (s.stream w.1).kind <;> rfl

/-- With an ask entry for its fingerprint a chunk of a NORMAL stream joins it (R57). -/
theorem State.checkChunk_join {w : Waiter} {f : Fingerprint} {n : Word} {a : AskEntry}
    (normal : (s.stream w.1).kind = .normal) (entry : s.askFor f = some a) : s.checkChunk w f n = s.joinAsk a w := by
  simp only [State.checkChunk, normal, entry]

end Kept

theorem State.stream_fingerprinted (s : State) (j : DigestJob) (rest : List DigestJob) :
    (s.fingerprinted j rest).stream j.stream = (s.stream j.stream).modSlot j.slot (fun q =>
      { q with fingerprint := some j.digest.finish, phase := .checking }) := State.stream_modStream_same _ _ _

theorem State.fingerprinted_resolution (s : State) (j : DigestJob) (rest : List DigestJob) :
    (s.fingerprinted j rest).resolution = s.resolution := rfl

/-- A chunk's phase and the resolution table do not meet. -/
theorem State.setPhase_withResolution (s : State) (r : Resolution) (w : Waiter) (p : Phase) :
    ({ s with resolution := r } : State).setPhase w p = { s.setPhase w p with resolution := r } := rfl

/-- A fingerprinted chunk that joins an entry is WAITING (R57, R59). -/
theorem State.fingerprinted_waiting (s : State) (j : DigestJob) (rest : List DigestJob) :
    (s.fingerprinted j rest).setPhase (j.stream, j.slot) .waiting = { s with
      digestQueue := rest
      streams := s.streams.set j.stream ((s.stream j.stream).modSlot j.slot (fun q =>
        { q with fingerprint := some j.digest.finish, phase := .waiting })) } := by
  have slot := Stream.modSlot_modSlot (s.stream j.stream) j.slot
    (f := fun q => { q with fingerprint := some j.digest.finish, phase := .checking })
    (fun q => { q with phase := .waiting }) (fun _ => rfl)
  rw [State.setPhase, State.fingerprinted, State.modStream_modStream]
  exact congrArg (({ s with digestQueue := rest } : State).setStream j.stream) slot

/-- Making an ABORTED report leaves the streams and the reports already placed. -/
theorem State.abortRelease_keeps (s : State) (i : Fin 16) : (s.abortRelease i).streams = s.streams ∧
    (s.abortRelease i).management.reports = s.management.reports ∧
    (s.abortRelease i).management.held = s.management.held := by
  simp only [State.abortRelease]
  split <;> exact ⟨rfl, rfl, rfl⟩

/-- Settles O23: a kept result by the two ways a fingerprinted chunk goes on, a dropped one by the ABORTED report. -/
theorem fingerprintHandsChunkOn : Obligations.FingerprintHandsChunkOn := by
  intro s j rest
  refine ⟨fun empty => ?_, fun active queue => ?_⟩
  · simp [exec, execFingerprintComplete, empty]
  have ran : exec .fingerprintComplete s = .next (s.completeDigest j rest) := by
    simp only [exec, execFingerprintComplete, active, if_true, queue]
  have kind : ((s.fingerprinted j rest).stream j.stream).kind = (s.stream j.stream).kind := by
    rw [State.stream_fingerprinted]; rfl
  refine ⟨fun kept q found => ⟨fun alone => ?_, fun normal sound waits => ?_⟩, fun notKept => ?_⟩
  · rw [ran, State.completeDigest_kept kept found, State.checkChunk_lookup (by rw [kind]; exact alone), kind]
    rfl
  · obtain ⟨a, ha, same⟩ := waits
    have entry : (s.fingerprinted j rest).askFor j.digest.finish = some a := same ▸ State.askFor_of_mem sound.2.1 ha
    rw [ran, State.completeDigest_kept kept found, State.checkChunk_join (kind.trans normal) entry, State.joinAsk]
    have table := sound.map_tag_eq ha (fun a => { a with waiters := a.waiters ++ [(j.stream, j.slot)] })
    rw [same] at table
    rw [State.setAsk_eq_map (s := s.fingerprinted j rest) (f := fun a => { a with
      waiters := a.waiters ++ [(j.stream, j.slot)] }) sound.2.2 ha rfl, State.fingerprinted_resolution, table]
    refine congrArg Host.Outcome.next ((State.setPhase_withResolution (s.fingerprinted j rest) _ _ _).trans ?_)
    rw [State.fingerprinted_waiting]
    rfl
  · have dropped : s.completeDigest j rest =
        (({ s with digestQueue := rest } : State).abortRelease j.stream).conclude := by
      simp only [State.completeDigest, ne_eq, notKept, not_false_eq_true, if_true]
    obtain ⟨streams, reports, held⟩ := State.abortRelease_keeps { s with digestQueue := rest } j.stream
    refine ⟨_, ran.trans (congrArg _ dropped), ?_, ?_, fun notAborting fresh => ?_, fun i => ?_, ?_⟩
    · simp
    · classical
      refine State.abortFollowed_of_placed (u := ({ s with digestQueue := rest } : State).abortRelease j.stream)
        (lost := []) reports held (congrArg Stream.state (State.stream_of_streams streams))
        (fun _ h => absurd h List.not_mem_nil) (fun _ => rfl) (fun aborting fresh canonical unmade => ?_) rfl rfl rfl
      rw [State.abortRelease_eq (s := { s with digestQueue := rest }) canonical.2.2 aborting fresh unmade]
      refine ⟨fun gone => ?_, fun left => ?_⟩
      · rw [if_pos (by exact gone)]
        exact congrArg (· ++ [_]) fresh
      · rw [if_neg (by exact left)]
        exact fresh
    · rw [State.abortRelease_of_not (s := { s with digestQueue := rest }) (by exact notAborting), State.conclude,
        State.placeReports_of_none (s := { s with digestQueue := rest }) (by exact fresh)]
      exact ⟨rfl, rfl, rfl⟩
    · have kept := (State.StreamsKept.before (s := s) streams (State.conclude_kept _)) i
      exact ⟨kept.sameWork, kept.pending⟩
    · simp

end Sys2Proof.Machine
end

