-- ==== Sys2Proof/Proofs/ReportsRead.lean ====
section
/-! PROOFS. READ_REPORT and ACK_EVENTS: the reply's bytes, the flags after a step, and what the entry of the report that was
held completes (R157, R158, R168, R169, R177). -/

namespace Sys2Proof.Machine

/-! ## The reply -/

/-- In RUNNING and HOLDING a management command is served (R166). -/
theorem State.commandGate_active {s : State} (active : s.active = true) (own : State) : s.commandGate own = own := by
  simp only [State.active, Bool.or_eq_true, decide_eq_true_eq] at active
  rcases active with h | h <;> simp [State.commandGate, State.starting, h]

theorem leBytes_one (x : Nat) : leBytes 1 x = [BitVec.ofNat 8 x] := rfl

theorem SealReason.code_eq_idxOf (r : SealReason) :
    r.code = BitVec.ofNat 8 (([.full, .close, .round, .hold, .abort] : List SealReason).idxOf r + 1) := by
  cases r <;> decide

/-- A report's bytes are its kind and its fields (R177). -/
theorem Report.bytes_eq_fieldBytes (r : Report) : r.bytes = fieldBytes ((1, r.kindNumber) :: r.fields) := by
  cases r with
  | lost slot reason round count payload =>
    simp [Report.bytes, Report.fields, Report.kindNumber, fieldBytes, leBytes_one, SealReason.code_eq_idxOf]
  | _ => simp [Report.bytes, Report.fields, Report.kindNumber, fieldBytes, leBytes_one]

theorem Report.reply_eq_fieldBytes (r : Report) :
    managementReply .ok r.bytes = fieldBytes ((1, 0) :: (1, r.kindNumber) :: r.fields) :=
  congrArg (0#8 :: ·) r.bytes_eq_fieldBytes

/-! ## The flags -/

/-- In RUNNING and HOLDING the two slot conditions are evaluated (R122). -/
theorem State.levelFlags_active {s : State} (active : s.active = true) :
    s.levelFlags = ((if s.containers.freeSlots ≤ s.settings.slotsLow then 0x20#8 else 0) |||
      (if s.containers.freeSlots = 0 then 0x40#8 else 0)) ||| (if s.management.reports ≠ [] then 0x80#8 else 0) := by
  simp only [State.active, Bool.or_eq_true, decide_eq_true_eq] at active
  rcases active with h | h <;> simp [State.levelFlags, h, EventFlag.mask]

/-- A refresh keeps the latched flags (R168). -/
theorem State.refresh_latched (s : State) : s.refresh.management.flags &&& 0x1F#8 = s.management.flags &&& 0x1F#8 := by
  have level : s.levelFlags &&& 0x1F#8 = 0#8 := by
    simp only [State.levelFlags, EventFlag.mask]
    split <;> split <;> split <;> rfl
  rw [State.refresh_flags, BitVec.and_or_distrib_right, level, BitVec.and_assoc, BitVec.and_self, BitVec.or_zero]

/-- Outside the latched flags a refresh leaves the level flags alone (R168). -/
theorem State.refresh_levels (s : State) {m : Byte} (outside : 0x1F#8 &&& m = 0#8) :
    s.refresh.management.flags &&& m = s.levelFlags &&& m := by
  rw [State.refresh_flags, BitVec.and_or_distrib_right, BitVec.and_assoc, outside, BitVec.and_zero, BitVec.zero_or]

section Levels

variable {s : State} (active : s.active = true)
include active

theorem State.slotsLow_refresh :
    s.refresh.management.flags &&& 0x20#8 = 0x20#8 ↔ s.containers.freeSlots ≤ s.settings.slotsLow := by
  rw [State.refresh_levels s rfl, State.levelFlags_active active]
  by_cases h : s.containers.freeSlots ≤ s.settings.slotsLow
  · simp only [h, if_true, iff_true]
    split <;> split <;> rfl
  · simp only [h, if_false, iff_false]
    split <;> split <;> decide

theorem State.slotsOut_refresh : s.refresh.management.flags &&& 0x40#8 = 0x40#8 ↔ s.containers.freeSlots = 0 := by
  rw [State.refresh_levels s rfl, State.levelFlags_active active]
  by_cases h : s.containers.freeSlots = 0
  · simp only [h, if_true, iff_true]
    split <;> split <;> rfl
  · simp only [h, if_false, iff_false]
    split <;> split <;> decide

theorem State.reportReady_refresh : s.refresh.management.flags &&& 0x80#8 = 0x80#8 ↔ s.management.reports ≠ [] := by
  rw [State.refresh_levels s rfl, State.levelFlags_active active]
  by_cases h : s.management.reports = []
  · simp only [h, ne_eq, not_true_eq_false, if_false, iff_false]
    split <;> split <;> decide
  · simp only [h, ne_eq, not_false_eq_true, if_true, iff_true]
    split <;> split <;> rfl

end Levels

/-! ## The report that was held enters -/

/-- The listed RETIRED slots are the RETIRED slots (R157). -/
theorem State.mem_retiredSlots {s : State} (wf : Sparse.wf Container.initial s.containers.table = true) (k : Nat) :
    k ∈ s.retiredSlots ↔ (s.container k).state = .retired := by
  simp only [State.retiredSlots, List.mem_map, List.mem_filter, decide_eq_true_eq, Prod.exists, exists_and_right,
    exists_eq_right]
  constructor
  · rintro ⟨c, listed, retired⟩
    rwa [State.container, Sparse.find_eq_of_mem wf listed]
  · intro retired
    refine ⟨_, Sparse.mem_of_find_ne (d := Container.initial) (fun initial => ?_), retired⟩
    rw [State.container, initial] at retired
    exact absurd retired (by decide)

theorem State.retiredSlots_eq_nil_iff {s : State} (wf : Sparse.wf Container.initial s.containers.table = true) :
    s.retiredSlots = [] ↔ ∀ k, (s.container k).state ≠ .retired := by
  simp only [List.eq_nil_iff_forall_not_mem, State.mem_retiredSlots wf, ne_eq]

/-- The stream whose CLOSED or ABORTED report enters turns IDLE (R12, R16). -/
theorem State.enterReport_stream_of_ends {s : State} {r : Report} {i : Fin 16} (h : r.endsStream i) :
    (s.enterReport r).stream i = (s.stream i).toIdle := by
  cases r with
  | closed => obtain rfl := h; exact State.stream_modStream_same _ _ _
  | aborted => obtain rfl := h; exact State.stream_modStream_same _ _ _
  | faulted => exact h.elim
  | lost => exact h.elim
  | purged => exact h.elim

/-- Every other stream is as it was. -/
theorem State.enterReport_stream_of_not {s : State} {r : Report} {i : Fin 16} (h : ¬ r.endsStream i) :
    (s.enterReport r).stream i = s.stream i := by
  cases r with
  | closed => exact (State.stream_modStream _ _ _ _).trans (if_neg (fun e => h e.symm))
  | aborted => exact (State.stream_modStream _ _ _ _).trans (if_neg (fun e => h e.symm))
  | faulted => rfl
  | lost => rfl
  | purged slot walks =>
    simp only [State.enterReport, State.reportEntered]
    exact State.stream_of_streams (State.leaveReporting_streams _)

/-- Only a PURGED report concerns the Scrub Walker. -/
theorem State.enterReport_walker_of_not {s : State} {r : Report} (h : ∀ k walks, r ≠ .purged k walks) :
    (s.enterReport r).walker = s.walker := by
  cases r with
  | purged k walks => exact absurd rfl (h k walks)
  | _ => rfl

section Purged

variable {s : State} {k : Nat} {walks : Half}

/-- A PURGED report leaves the walker's list; unless it was the last one in REPORTING, nothing else follows (R158). -/
theorem State.enterReport_purged_stays (h : s.walker.state ≠ .reporting ∨ s.walker.reportList.erase k ≠ []) :
    (s.enterReport (.purged k walks)).walker = { s.walker with reportList := s.walker.reportList.erase k } := by
  simp only [State.enterReport, State.reportEntered, State.leaveReporting]
  rw [if_neg (by exact fun c => h.elim (absurd c.1) (absurd c.2))]

/-- The last PURGED report ends REPORTING (R158). -/
theorem State.enterReport_purged_leaves (reporting : s.walker.state = .reporting) (last : s.walker.reportList.erase k = []) :
    (s.enterReport (.purged k walks)).walker =
      if s.retiredSlots = [] then { s.walker with reportList := [], state := .idle }
      else { s.walker with reportList := [], state := .walking, position := 0, snapshot := s.retiredSlots } := by
  simp only [State.enterReport, State.reportEntered, State.leaveReporting]
  rw [if_pos (by exact ⟨reporting, last⟩), last]
  split
  next none => exact (if_pos (by exact none)).symm
  next some => exact (if_neg (by exact some)).symm

end Purged

/-! ## READ_REPORT and ACK_EVENTS -/

/-- The station once the oldest report is gone and the one that was held longest, if any, stands at the end (R169). -/
def State.reportGone (s : State) (rest : List Report) : State :=
  ({ s with management := { s.management with reports := rest } } : State).admitHeld

theorem State.reportGone_nil {s : State} (rest : List Report) (held : s.management.held = []) :
    s.reportGone rest = { s with management := { s.management with reports := rest } } := by
  simp only [State.reportGone, State.admitHeld, held]

theorem State.reportGone_cons {s : State} (rest : List Report) {h : Report} {more : List Report}
    (held : s.management.held = h :: more) : s.reportGone rest =
      ({ s with management := { s.management with reports := rest, held := more } } : State).enterReport h := by
  simp only [State.reportGone, State.admitHeld, held]

/-- Nothing but streams, walker and the report queue is reached (R169). -/
theorem State.reportGone_changes (s : State) (rest : List Report) : s.reportGone rest = { s with
    streams := (s.reportGone rest).streams, walker := (s.reportGone rest).walker
    management := (s.reportGone rest).management } := by
  rcases held : s.management.held with _ | ⟨h, more⟩
  · rw [State.reportGone_nil rest held]
  · rw [State.reportGone_cons rest held, State.enterReport_changes]

theorem State.reportGone_management (s : State) (rest : List Report) : (s.reportGone rest).management = { s.management with
    reports := rest ++ s.management.held.take 1, held := s.management.held.drop 1 } := by
  rcases held : s.management.held with _ | ⟨h, more⟩
  · rw [State.reportGone_nil rest held, List.take_nil, List.append_nil, List.drop_nil, ← held]
  · rw [State.reportGone_cons rest held]
    simp [State.enterReport]

theorem State.reportGone_walker_of_leaves {s : State} (rest : List Report) {k : Nat} {walks : Half} {more : List Report}
    (held : s.management.held = .purged k walks :: more) (reporting : s.walker.state = .reporting)
    (last : s.walker.reportList.erase k = []) : (s.reportGone rest).walker =
      if s.retiredSlots = [] then { s.walker with reportList := [], state := .idle }
      else { s.walker with reportList := [], state := .walking, position := 0, snapshot := s.retiredSlots } := by
  rw [State.reportGone_cons rest held]
  exact State.enterReport_purged_leaves (s := { s with
    management := { s.management with reports := rest, held := more } }) reporting last

theorem State.reportGone_kept (s : State) (rest : List Report) : s.StreamsKept (s.reportGone rest) := by
  rcases held : s.management.held with _ | ⟨h, more⟩
  · rw [State.reportGone_nil rest held]
    exact State.StreamsKept.of_eq rfl
  · rw [State.reportGone_cons rest held]
    exact State.StreamsKept.before rfl (State.enterReport_kept _ h)

theorem readReport_of_none {s : State} (active : s.active = true) (none : s.management.reports = []) :
    exec .readReport s = .next { s with sent := s.sent ++ [.management [1#8]] } := by
  simp only [exec, execReadReport, State.commandGate_active active, State.popReport, none]
  rfl

theorem readReport_of_some {s : State} {r : Report} {rest : List Report} (active : s.active = true)
    (some : s.management.reports = r :: rest) :
    exec .readReport s = .next ((s.reportGone rest).answer .ok r.bytes).refresh := by
  simp only [exec, execReadReport, State.commandGate_active active, State.popReport, some]
  rfl

/-- The station once the flags of the mask are cleared and the command is answered (R168). -/
def State.acknowledged (s : State) (mask : Byte) : State :=
  ({ s with management := { s.management with flags := s.management.flags &&& ~~~ mask } } : State).answer .ok []

theorem ackEvents_eq {s : State} (active : s.active = true) (mask : Byte) :
    exec (.ackEvents mask) s = .next (s.acknowledged mask).refresh := by
  simp only [exec, execAckEvents, State.commandGate_active active, State.acknowledge, State.acknowledged]

/-- Settles O50: READ_REPORT by the two cases of the held list, the flags by what a refresh does to them. -/
theorem reportsReadAndFlagsCleared : Obligations.ReportsReadAndFlagsCleared := by
  intro s mask active
  refine ⟨readReport_of_none active, fun r rest some => ?_, ?_⟩
  · have changes := s.reportGone_changes rest
    have management := s.reportGone_management rest
    have still : ((s.reportGone rest).answer .ok r.bytes).active = true := by
      rw [changes]; exact active
    have kept := s.reportGone_kept rest
    refine ⟨_, readReport_of_some active some, ?_, ?_, ?_, ?_, State.reportReady_refresh still, fun none => ?_,
      fun h more held => ⟨fun i ends => ?_, fun i stays => ?_, fun notPurged => ?_, fun k walks purged => ?_⟩,
      fun j => ⟨(kept j).sameWork, (kept j).pending⟩, ?_⟩
    · rw [← r.reply_eq_fieldBytes, changes]
      rfl
    · exact congrArg Management.reports management
    · exact congrArg Management.held management
    · refine (State.refresh_latched _).trans ?_
      change (s.reportGone rest).management.flags &&& 0x1F#8 = _
      rw [management]
    · rw [State.reportGone_nil rest none]
      rfl
    · have idle : (s.reportGone rest).stream i = (s.stream i).toIdle := by
        rw [State.reportGone_cons rest held]
        exact State.enterReport_stream_of_ends ends
      exact ⟨congrArg Stream.state idle, congrArg Stream.current idle, congrArg Stream.owedMark idle,
        congrArg Stream.queue idle⟩
    · change (s.reportGone rest).stream i = s.stream i
      rw [State.reportGone_cons rest held]
      exact State.enterReport_stream_of_not stays
    · change (s.reportGone rest).walker = s.walker
      rw [State.reportGone_cons rest held]
      exact State.enterReport_walker_of_not notPurged
    · subst purged
      have leaves := State.reportGone_walker_of_leaves rest held
      refine ⟨fun stays => ?_, fun reporting last canonical noneRetired => ?_, fun reporting last canonical someRetired => ?_⟩
      · change (s.reportGone rest).walker = _
        rw [State.reportGone_cons rest held]
        exact State.enterReport_purged_stays (s := { s with
          management := { s.management with reports := rest, held := more } }) stays
      · exact (leaves reporting last).trans (if_pos ((State.retiredSlots_eq_nil_iff canonical.2.2).2 noneRetired))
      · have some : s.retiredSlots ≠ [] := fun none =>
          someRetired.elim (fun k retired => (State.retiredSlots_eq_nil_iff canonical.2.2).1 none k retired)
        have walker := (leaves reporting last).trans (if_neg some)
        refine ⟨?_, fun k => ?_⟩
        · change (s.reportGone rest).walker = { s.walker with
            reportList := [], state := .walking, position := 0, snapshot := (s.reportGone rest).walker.snapshot }
          rw [walker]
        · change k ∈ (s.reportGone rest).walker.snapshot ↔ _
          rw [walker]
          exact State.mem_retiredSlots canonical.2.2 k
    · rw [changes]
      exact ⟨rfl, rfl, rfl, rfl⟩
  · refine ⟨_, ackEvents_eq active mask, rfl, ?_, State.slotsLow_refresh (s := s.acknowledged mask) active,
      State.slotsOut_refresh (s := s.acknowledged mask) active, State.reportReady_refresh (s := s.acknowledged mask) active, ?_⟩
    · exact State.refresh_latched _
    · rw [State.refresh_attn, decide_eq_true_eq]
      rfl

end Sys2Proof.Machine
end

