-- ==== Sys2Proof/Proofs/AwaitsFlush.lean ====
section
/-! PROOFS. A container that has turned SEALING, through the last part of the step (R129, R131, R148): it waits in the flush
queue until its flush begins, or it is LOST. -/

namespace Sys2Proof.Machine

/-! ## What the blocks before the arbiter leave of the Store Port -/

/-- The port is as it was, and whatever waits for its flush still waits. -/
def State.FlushesJoin (s t : State) : Prop :=
  t.store.port = s.store.port ∧ ∀ j ∈ s.store.flushQueue, j ∈ t.store.flushQueue

theorem State.FlushesJoin.of_eq {s t : State} (h : t.store = s.store) : s.FlushesJoin t := by
  rw [State.FlushesJoin, h]
  exact ⟨rfl, fun _ => id⟩

theorem State.FlushesJoin.trans {s t u : State} (h : s.FlushesJoin t) (g : t.FlushesJoin u) : s.FlushesJoin u :=
  ⟨g.1.trans h.1, fun j hj => g.2 j (h.2 j hj)⟩

theorem State.FlushesJoin.before {s t u : State} (e : t.store = s.store) (h : t.FlushesJoin u) : s.FlushesJoin u :=
  (State.FlushesJoin.of_eq e).trans h

theorem State.FlushesJoin.fold {β : Type} {f : State → β → State} (h : ∀ (s : State) b, s.FlushesJoin (f s b)) (l : List β)
    (s : State) : s.FlushesJoin (l.foldl f s) := by
  induction l generalizing s with
  | nil => exact .of_eq rfl
  | cons b rest ih => exact (h s b).trans (ih _)

theorem State.turnSealing_store (s : State) (slot : Nat) (r : SealReason) : (s.turnSealing slot r).store = { s.store with
    flushQueue := s.store.flushQueue ++ [{ slot := slot, length := (s.container slot).flushLength
                                           header := containerHeader s.settings slot (s.container slot) r }] } := by
  simp [State.turnSealing]

theorem State.sealRequest_joins (s : State) (slot : Nat) (r : SealReason) : s.FlushesJoin (s.sealRequest slot r) := by
  simp only [State.sealRequest]
  split
  · split
    · rw [State.FlushesJoin, State.turnSealing_store]
      exact ⟨rfl, fun _ => List.mem_append_left _⟩
    · exact .of_eq (State.dropCurrent_store s slot (s.container slot).owner)
  · exact .of_eq rfl

theorem State.issueFollowers_joins (s : State) (slot : Nat) (i : Fin 16) (l : List AppendRequest) :
    s.FlushesJoin (s.issueFollowers slot i l).1 := by
  induction l generalizing s with
  | nil => exact .of_eq rfl
  | cons r rest ih =>
    simp only [State.issueFollowers]
    split
    · split
      · exact .before rfl (ih (s.issueAppend slot r))
      · exact s.sealRequest_joins slot _
    · exact ih s

theorem State.serveOpenWaitUpTo_joins (s : State) (n : Nat) : s.FlushesJoin (s.serveOpenWaitUpTo n) := by
  induction n generalizing s with
  | zero => exact .of_eq rfl
  | succ n ih =>
    simp only [State.serveOpenWaitUpTo]
    split
    next r others slot area _ _ _ =>
      have issued := State.issueFollowers_joins ((s.openContainer slot area r.stream).issueAppend slot r) slot r.stream others
      exact (State.FlushesJoin.before rfl issued).trans (.before rfl (ih _))
    next => exact .of_eq rfl

theorem State.serveOpenWait_joins (s : State) : s.FlushesJoin s.serveOpenWait := s.serveOpenWaitUpTo_joins _

theorem State.anyOrder_store {α : Type} (s : State) (l : List α) : (s.anyOrder l).2.store = s.store := by
  simp only [State.anyOrder]
  split <;> rfl

theorem State.issueRecord_joins (s : State) (i : Fin 16) : s.FlushesJoin (s.issueRecord i) := by
  simp only [State.issueRecord]
  split
  next => exact .of_eq rfl
  next =>
    have same : (s.addressWord (s.stream i).recordAddress).2.store = s.store := by
      simp only [State.addressWord]
      split <;> rfl
    exact .before same ⟨rfl, fun _ => id⟩

theorem State.emitRecords_joins (s : State) : s.FlushesJoin s.emitRecords :=
  .before (s.anyOrder_store _) (State.FlushesJoin.fold State.issueRecord_joins _ _)

theorem State.beginRound_joins (s : State) : s.FlushesJoin s.beginRound := by
  refine .before ((State.anyOrder_store _ _).trans ?_) (State.FlushesJoin.fold (fun s k => s.sealRequest_joins k .round) _ _)
  exact foldl_keep State.store (fun t k => t.enrol (nextRound s.sealUnit.counter) k) (fun _ _ => rfl) s _

theorem State.completeRound_joins (s : State) : s.FlushesJoin s.completeRound := by
  have finished := State.FlushesJoin.of_eq s.finishRound_store
  have begun := finished.trans (.before rfl
    (State.beginRound_joins { s.finishRound with sealUnit := { s.finishRound.sealUnit with roundAgain := false } }))
  simp only [State.completeRound]
  split
  · split
    · exact begun.trans (.of_eq (State.finishRound_store _))
    · exact begun
  · exact finished

theorem State.containerNotice_joins (s : State) (slot : Nat) (lost : Bool) : s.FlushesJoin (s.containerNotice slot lost) := by
  simp only [State.containerNotice]
  split
  · split
    · exact .before rfl (State.completeRound_joins _)
    · exact .of_eq rfl
  · split <;> exact .of_eq rfl

/-! ## What the blocks leave of a container that is neither FREE nor OPEN -/

theorem State.dropCurrent_container (s : State) (slot k : Nat) (o : Option (Fin 16)) :
    (s.dropCurrent slot o).container k = s.container k := by simp [State.container]

theorem State.turnSealing_container (s : State) (slot k : Nat) (r : SealReason) : (s.turnSealing slot r).container k =
    if k = slot then { s.container slot with state := .seals, owner := none, sealRequested := none, sealedFor := some r }
    else s.container k := by
  simp only [State.turnSealing]
  exact (State.container_setContainer _ _ _ _).trans (by rw [State.dropCurrent_container])

/-- A seal request concerns its own container, and that only while it is OPEN (R128). -/
theorem State.sealRequest_container (s : State) {slot k : Nat} (r : SealReason)
    (h : k ≠ slot ∨ (s.container k).state ≠ .opened) : (s.sealRequest slot r).container k = s.container k := by
  simp only [State.sealRequest]
  split
  next asked =>
    have other : k ≠ slot := h.elim id (fun notOpen => fun e => notOpen (e ▸ asked.1))
    split
    · rw [State.turnSealing_container, if_neg other]
    · rw [State.container_setContainer, if_neg other, State.dropCurrent_container]
  next => rfl

theorem State.issueFollowers_container (s : State) {slot k : Nat} (i : Fin 16) (l : List AppendRequest) (h : k ≠ slot) :
    (s.issueFollowers slot i l).1.container k = s.container k := by
  induction l generalizing s with
  | nil => rfl
  | cons r rest ih =>
    simp only [State.issueFollowers]
    split
    · split
      · rw [ih, State.issueAppend, State.container_setContainer, if_neg h]
      · exact s.sealRequest_container _ (.inl h)
    · exact ih s

theorem State.openContainer_container (s : State) {slot k : Nat} (area : Nat) (i : Fin 16) (h : k ≠ slot) :
    (s.openContainer slot area i).container k = s.container k := by
  simp only [State.openContainer, State.container, State.modStream_containers]
  simp [State.setContainer, Sparse.find_put, h]

/-- The open-wait look leaves every container that is not FREE as it is (R121, R124). -/
theorem State.serveOpenWaitUpTo_container {s : State} {k : Nat} (n : Nat) (h : (s.container k).state ≠ .free) :
    (s.serveOpenWaitUpTo n).container k = s.container k := by
  induction n generalizing s with
  | zero => rfl
  | succ n ih =>
    simp only [State.serveOpenWaitUpTo]
    split
    next r others slot area _ found _ =>
      have other : k ≠ slot := fun e => h (e ▸ State.firstFreeSlot_free found)
      have issued : (((s.openContainer slot area r.stream).issueAppend slot r).issueFollowers slot r.stream others).1.container k
          = s.container k := by
        rw [State.issueFollowers_container _ _ _ other, State.issueAppend, State.container_setContainer, if_neg other,
          State.openContainer_container s area r.stream other]
      exact (ih (by rw [← issued] at h; exact h)).trans issued
    next => rfl

theorem State.serveOpenWait_container {s : State} {k : Nat} (h : (s.container k).state ≠ .free) :
    s.serveOpenWait.container k = s.container k := State.serveOpenWaitUpTo_container _ h

theorem State.emitRecords_container (s : State) (k : Nat) : s.emitRecords.container k = s.container k := by
  simp only [State.container, State.emitRecords_containers]

/-- Of a container that is neither FREE nor OPEN at most the membership in a round has changed. -/
def State.Stands (k : Nat) (s t : State) : Prop :=
  (s.container k).state ≠ .free → (s.container k).state ≠ .opened →
    t.container k = { s.container k with round := (t.container k).round }

theorem State.Stands.of_eq {k : Nat} {s t : State} (h : t.container k = s.container k) : s.Stands k t := by
  intro _ _
  rw [h]

theorem State.Stands.trans {k : Nat} {s t u : State} (h : s.Stands k t) (g : t.Stands k u) : s.Stands k u := by
  intro notFree notOpen
  have first := h notFree notOpen
  have second := g (by rw [first]; exact notFree) (by rw [first]; exact notOpen)
  rw [second, first]

theorem State.Stands.before {k : Nat} {s t u : State} (e : t.container k = s.container k) (h : t.Stands k u) : s.Stands k u :=
  (State.Stands.of_eq e).trans h

theorem State.Stands.fold {k : Nat} {β : Type} {f : State → β → State} (h : ∀ (s : State) b, s.Stands k (f s b)) (l : List β)
    (s : State) : s.Stands k (l.foldl f s) := by
  induction l generalizing s with
  | nil => exact .of_eq rfl
  | cons b rest ih => exact (h s b).trans (ih _)

section Rounds

variable (k : Nat)

theorem State.sealRequest_stands (s : State) (slot : Nat) (r : SealReason) : s.Stands k (s.sealRequest slot r) :=
  fun notFree notOpen => State.Stands.of_eq (s.sealRequest_container r (.inr notOpen)) notFree notOpen

theorem State.enrol_stands (s : State) (r : Half) (slot : Nat) : s.Stands k (s.enrol r slot) := by
  intro _ _
  rw [State.enrol, State.container_setContainer]
  split
  next e => rw [e]
  next => rfl

theorem State.beginRound_stands (s : State) : s.Stands k s.beginRound := by
  have enrolled := State.Stands.fold (fun t j => State.enrol_stands k t (nextRound s.sealUnit.counter) j) s.roundMembers s
  have same : ∀ (u : State) (l : List Nat), (u.anyOrder l).2.container k = u.container k := by
    intro u l
    simp only [State.anyOrder]
    split <;> rfl
  refine enrolled.trans (State.Stands.before ?_ (State.Stands.fold (fun s j => State.sealRequest_stands k s j .round) _ _))
  exact same _ _

theorem State.finishRound_stands (s : State) : s.Stands k s.finishRound :=
  .of_eq (by simp only [State.container, State.finishRound_table])

theorem State.completeRound_stands (s : State) : s.Stands k s.completeRound := by
  have finished := State.finishRound_stands k s
  have begun := finished.trans (.before rfl
    (State.beginRound_stands k { s.finishRound with sealUnit := { s.finishRound.sealUnit with roundAgain := false } }))
  simp only [State.completeRound]
  split
  · split
    · exact begun.trans (State.finishRound_stands k _)
    · exact begun
  · exact finished

theorem State.containerNotice_stands (s : State) (slot : Nat) (lost : Bool) : s.Stands k (s.containerNotice slot lost) := by
  simp only [State.containerNotice]
  split
  · split
    · refine State.Stands.before ?_ (State.completeRound_stands k _)
      rfl
    · exact .of_eq rfl
  · split <;> exact .of_eq rfl

end Rounds

theorem State.serveOpenWait_stands (k : Nat) (s : State) : s.Stands k s.serveOpenWait :=
  fun notFree notOpen => State.Stands.of_eq (State.serveOpenWait_container notFree) notFree notOpen

/-! ## The container that awaits its flush -/

/-- Container `k`, standing as `c`, has turned SEALING for a reason: it waits in the flush queue, or the range check has failed
and it is LOST with its area free (R129, R148). -/
structure State.AwaitsFlush (t : State) (k : Nat) (c : Container) (reason : SealReason) : Prop where
  owner : (t.container k).owner = none
  request : (t.container k).sealRequested = none
  sealedFor : (t.container k).sealedFor = some reason
  count : (t.container k).count = c.count
  payload : (t.container k).payload = c.payload
  place : ((t.container k).state = .seals ∧ (t.container k).area = c.area ∧
      c.flushJob t.settings k reason ∈ t.store.flushQueue) ∨ ((t.container k).state = .lost ∧ (t.container k).area = none)

section AwaitsFlush

variable {s t : State} {k : Nat} {c : Container} {reason : SealReason}

theorem State.AwaitsFlush.turnedSealing (h : t.AwaitsFlush k c reason) : t.turnedSealing k c reason :=
  ⟨h.owner, h.request, h.sealedFor, h.count, h.payload,
    h.place.imp_left (fun ⟨state, area, queued⟩ => ⟨state, area, .inl queued⟩)⟩

/-- It still awaits its flush when nothing has left the flush queue. -/
theorem State.AwaitsFlush.of_joins (h : s.AwaitsFlush k c reason) (settings : t.settings = s.settings)
    (joins : s.FlushesJoin t) (stands : s.Stands k t) : t.AwaitsFlush k c reason := by
  have same : t.container k = { s.container k with round := (t.container k).round } := by
    refine stands ?_ ?_ <;> rcases h.place with ⟨state, -⟩ | ⟨state, -⟩ <;> rw [state] <;> decide
  constructor <;> rw [same]
  · exact h.owner
  · exact h.request
  · exact h.sealedFor
  · exact h.count
  · exact h.payload
  · rw [settings]
    exact h.place.imp_left (fun ⟨state, area, queued⟩ => ⟨state, area, joins.2 _ queued⟩)

theorem State.AwaitsFlush.serveOpenWait (h : s.AwaitsFlush k c reason) : s.serveOpenWait.AwaitsFlush k c reason :=
  h.of_joins (by simp) s.serveOpenWait_joins (s.serveOpenWait_stands k)

theorem State.AwaitsFlush.emitRecords (h : s.AwaitsFlush k c reason) : s.emitRecords.AwaitsFlush k c reason :=
  h.of_joins (by simp) s.emitRecords_joins (.of_eq (s.emitRecords_container k))

/-- A flush outcome of a loss: the container is LOST and its area is free (R131). -/
theorem State.AwaitsFlush.flushOutcome_same (h : s.AwaitsFlush k c reason) (u : State)
    (container : u.container k = s.container k) : (u.flushOutcome k true).AwaitsFlush k c reason := by
  simp only [State.flushOutcome, if_true]
  refine State.AwaitsFlush.of_joins (s := ((u.setContainer k { u.container k with state := .lost, area := none }).latch
    .storeFault).makeReport ((u.container k).lostReport k)) ?_ (by simp) (State.containerNotice_joins _ _ _)
    (State.containerNotice_stands k _ _ _)
  have lost : (((u.setContainer k { u.container k with state := .lost, area := none }).latch .storeFault).makeReport
      ((u.container k).lostReport k)).container k = { s.container k with state := .lost, area := none } :=
    (u.container_setContainer k k _).trans (by rw [if_pos rfl, container])
  constructor <;> rw [lost]
  · exact h.owner
  · exact h.request
  · exact h.sealedFor
  · exact h.count
  · exact h.payload
  · exact .inr ⟨rfl, rfl⟩

/-- The loss of another container leaves it waiting (R131). -/
theorem State.AwaitsFlush.flushOutcome_other {slot : Nat} (h : s.AwaitsFlush k c reason) (other : k ≠ slot) :
    (s.flushOutcome slot true).AwaitsFlush k c reason := by
  simp only [State.flushOutcome, if_true]
  refine h.of_joins (by simp) (State.FlushesJoin.before ?_ (State.containerNotice_joins _ _ _))
    (State.Stands.before ?_ (State.containerNotice_stands k _ _ _))
  · rfl
  · exact (s.container_setContainer slot k _).trans (if_neg other)

section Looks

variable {j : FlushJob} {rest : List FlushJob} (queue : s.store.flushQueue = j :: rest)
include queue

/-- With another container gone from the flush queue it waits there still. -/
theorem State.AwaitsFlush.of_tail (h : s.AwaitsFlush k c reason) (other : k ≠ j.slot) :
    ({ s with store := { s.store with flushQueue := rest } } : State).AwaitsFlush k c reason := by
  refine { h with place := h.place.imp_left (fun ⟨state, area, queued⟩ => ⟨state, area, ?_⟩) }
  rw [queue, List.mem_cons] at queued
  exact queued.resolve_left (fun e => other (congrArg FlushJob.slot e))

/-- A failed range check takes one container out of the flush queue: this one is then LOST, another leaves it waiting (R148). -/
theorem State.AwaitsFlush.refuseFlush (h : s.AwaitsFlush k c reason) : (s.refuseFlush j rest).AwaitsFlush k c reason := by
  refine State.AwaitsFlush.emitRecords (State.AwaitsFlush.serveOpenWait ?_)
  by_cases same : k = j.slot
  · subst same
    exact h.flushOutcome_same _ rfl
  · exact (h.of_tail queue same).flushOutcome_other same

/-- A flush that begins is this container's, or leaves it waiting (R148). -/
theorem State.AwaitsFlush.startFlush (h : s.AwaitsFlush k c reason) : (s.startFlush j rest).turnedSealing k c reason := by
  by_cases this : j = c.flushJob s.settings k reason
  · refine ⟨h.owner, h.request, h.sealedFor, h.count, h.payload,
      h.place.imp_left (fun ⟨state, area, _⟩ => ⟨state, area, .inr ?_⟩)⟩
    simp only [State.startFlush, State.issueBurst, FlushJob.start, ActiveFlush.burstLength, this, Nat.sub_zero, Nat.zero_add]
    rfl
  · refine ⟨h.owner, h.request, h.sealedFor, h.count, h.payload,
      h.place.imp_left (fun ⟨state, area, queued⟩ => ⟨state, area, .inl ?_⟩)⟩
    rw [queue, List.mem_cons] at queued
    exact queued.resolve_left (fun e => this e.symm)

end Looks

/-- What the arbiter issues otherwise leaves it waiting. -/
theorem State.AwaitsFlush.turnedSealing_of_same (h : s.AwaitsFlush k c reason) (containers : t.containers = s.containers)
    (settings : t.settings = s.settings) (queue : t.store.flushQueue = s.store.flushQueue) : t.turnedSealing k c reason := by
  have same : t.container k = s.container k := by simp only [State.container, containers]
  simp only [State.turnedSealing, same, settings, queue]
  exact ⟨h.owner, h.request, h.sealedFor, h.count, h.payload,
    h.place.imp_left (fun ⟨state, area, queued⟩ => ⟨state, area, .inl queued⟩)⟩

theorem State.AwaitsFlush.arbitrate (h : s.AwaitsFlush k c reason) (n : Nat) : (s.arbitrate n).turnedSealing k c reason := by
  induction n generalizing s with
  | zero => exact h.turnedSealing
  | succ n ih =>
    simp only [State.arbitrate]
    split
    · exact h.turnedSealing_of_same rfl rfl rfl
    · split
      · exact h.turnedSealing_of_same rfl rfl rfl
      · split
        next queue =>
          split
          · exact h.startFlush queue
          · exact ih (h.refuseFlush queue)
        next => exact h.turnedSealing

theorem State.AwaitsFlush.takeHandedOver (h : s.AwaitsFlush k c reason) (n : Nat) :
    (s.takeHandedOver n).turnedSealing k c reason := by
  induction n generalizing s with
  | zero => exact h.turnedSealing
  | succ n ih =>
    have chosen : ({ s with choices := s.choices + 1 } : State).AwaitsFlush k c reason := { h with }
    simp only [State.takeHandedOver]
    split
    next queue _ =>
      split
      · exact h.turnedSealing_of_same rfl rfl rfl
      · split
        · exact chosen.startFlush queue
        · exact ih (chosen.refuseFlush queue)
    next queue _ =>
      split
      · exact h.startFlush queue
      · exact ih (h.refuseFlush queue)
    next => exact h.arbitrate _

theorem State.AwaitsFlush.lookAtPort (h : s.AwaitsFlush k c reason) : s.lookAtPort.turnedSealing k c reason := by
  simp only [State.lookAtPort]
  split
  · exact h.takeHandedOver _
  · exact h.turnedSealing

/-- At the end of the step the container has turned SEALING. -/
theorem State.AwaitsFlush.settle (h : s.AwaitsFlush k c reason) : s.settle.turnedSealing k c reason := by
  have looked := h.serveOpenWait.emitRecords.lookAtPort
  simpa [State.turnedSealing, State.container, State.settle] using looked

end AwaitsFlush

theorem sealReasonNumber_code (r : SealReason) : r.code = BitVec.ofNat 8 (sealReasonNumber r) := by
  cases r <;> rfl

/-- The header formed when a container turns SEALING (R129, R175). -/
theorem containerHeader_eq_fieldBytes (t : Settings) (k : Nat) (c : Container) (r : SealReason) :
    containerHeader t k c r = (c.flushJob t k r).header := by
  have zeros : leBytes 50 0 = unused 50 := rfl
  simp [containerHeader, Container.flushJob, fieldBytes, leBytes_one, sealReasonNumber_code, zeros]

/-- A container that turns SEALING awaits its flush (R129). -/
theorem State.turnSealing_awaitsFlush (s : State) (k : Nat) (r : SealReason) :
    (s.turnSealing k r).AwaitsFlush k (s.container k) r := by
  have now := (s.turnSealing_container k k r).trans (if_pos rfl)
  constructor <;> rw [now]
  refine .inl ⟨rfl, rfl, ?_⟩
  rw [State.turnSealing_store, State.turnSealing_settings, containerHeader_eq_fieldBytes]
  exact List.mem_append_right _ List.mem_cons_self

end Sys2Proof.Machine
end

