-- ==== Sys2Proof/Proofs/AppendPlaced.lean ====
section
/-! PROOFS. An append completed (R74, R127): its bytes, its ordinal, what follows for the container and for an ABORTING
stream. -/

namespace Sys2Proof.Machine

/-! ## The LOST reports of the arbiter's looks -/

/-- The only reports made are LOST reports, behind those made before; none is placed. -/
def State.AddsLost (s t : State) : Prop :=
  t.management.reports = s.management.reports ∧ t.management.held = s.management.held ∧
    ∃ lost, t.management.fresh = s.management.fresh ++ lost ∧ ∀ r ∈ lost, r.isLost = true

theorem State.AddsLost.of_eq {s t : State} (h : t.management = s.management) : s.AddsLost t := by
  rw [State.AddsLost, h]
  exact ⟨rfl, rfl, [], by simp, by simp⟩

theorem State.AddsLost.trans {s t u : State} (h : s.AddsLost t) (g : t.AddsLost u) : s.AddsLost u := by
  obtain ⟨reports, held, lost, fresh, all⟩ := h
  obtain ⟨reports', held', lost', fresh', all'⟩ := g
  refine ⟨reports'.trans reports, held'.trans held, lost ++ lost', by rw [fresh', fresh, List.append_assoc], ?_⟩
  exact fun r hr => (List.mem_append.1 hr).elim (all r) (all' r)

theorem State.AddsLost.before {s t u : State} (e : t.management = s.management) (h : t.AddsLost u) : s.AddsLost u :=
  (State.AddsLost.of_eq e).trans h

theorem State.flushOutcome_addsLost (s : State) (slot : Nat) (error : Bool) : s.AddsLost (s.flushOutcome slot error) := by
  simp only [State.flushOutcome]
  refine State.AddsLost.trans ?_ (.of_eq (State.containerNotice_management _ _ _))
  split
  · exact ⟨rfl, rfl, [_], rfl, by simp [Container.lostReport, Report.isLost]⟩
  · exact .of_eq rfl

theorem State.refuseFlush_addsLost (s : State) (j : FlushJob) (rest : List FlushJob) : s.AddsLost (s.refuseFlush j rest) := by
  refine (State.AddsLost.before (t := { s with store := { s.store with flushQueue := rest } }) rfl
    (State.flushOutcome_addsLost _ j.slot true)).trans (.of_eq ?_)
  exact (State.emitRecords_management _).trans (State.serveOpenWait_management _)

theorem State.arbitrate_addsLost (s : State) (n : Nat) : s.AddsLost (s.arbitrate n) := by
  induction n generalizing s with
  | zero => exact .of_eq rfl
  | succ n ih =>
    simp only [State.arbitrate]
    split
    · exact .of_eq rfl
    · split
      · exact .of_eq rfl
      · split
        · split
          · exact .of_eq rfl
          · exact (s.refuseFlush_addsLost _ _).trans (ih _)
        · exact .of_eq rfl

theorem State.takeHandedOver_addsLost (s : State) (n : Nat) : s.AddsLost (s.takeHandedOver n) := by
  induction n generalizing s with
  | zero => exact .of_eq rfl
  | succ n ih =>
    simp only [State.takeHandedOver]
    split
    · split
      · exact .of_eq rfl
      · split
        · exact .of_eq rfl
        · exact .before rfl ((State.refuseFlush_addsLost { s with choices := s.choices + 1 } _ _).trans (ih _))
    · split
      · exact .of_eq rfl
      · exact (s.refuseFlush_addsLost _ _).trans (ih _)
    · exact s.arbitrate_addsLost _

theorem State.lookAtPort_addsLost (s : State) : s.AddsLost s.lookAtPort := by
  simp only [State.lookAtPort]
  split
  · exact s.takeHandedOver_addsLost _
  · exact .of_eq rfl

/-- The state in which the reports of a settling step are placed. -/
def State.looked (s : State) : State := s.serveOpenWait.emitRecords.lookAtPort

theorem State.looked_addsLost (s : State) : s.AddsLost s.looked :=
  (State.AddsLost.of_eq (by rw [State.emitRecords_management, State.serveOpenWait_management])).trans
    (State.lookAtPort_addsLost _)

/-- A port that is not IDLE takes nothing (R151). -/
theorem State.looked_of_busy {s : State} (busy : s.store.port ≠ .idle) : s.looked = s.serveOpenWait.emitRecords := by
  rw [State.looked, State.lookAtPort, if_neg]
  rw [(s.serveOpenWait.emitRecords_joins).1, s.serveOpenWait_joins.1]
  exact busy

/-- No look of the step changes the state of a stream: only a placed report does (R12, R16). -/
theorem sameState_settling : Settling (fun x y => y.state = x.state) where
  refl _ := rfl
  trans h g := g.trans h
  current _ _ := rfl
  issued _ _ _ := rfl
  owe x r status := by
    simp only [Stream.owe]
    split
    · split <;> rfl
    · rfl

theorem State.looked_streams (s : State) (i : Fin 16) : (s.looked.stream i).state = (s.stream i).state :=
  sameState_settling.thenBy (sameState_settling.serveOpenWait s)
    (sameState_settling.thenBy (sameState_settling.emitRecords _) (sameState_settling.lookAtPort _)) i

theorem State.settle_eq_looked (s : State) : s.settle = s.looked.placeReports.refresh := rfl

/-- An ABORTING stream in a settling step, from the state `w` in which its release is looked at: `gone` says what it means
there that its work is gone (R16). -/
theorem State.abortFollowed_settle {s w : State} {i : Fin 16} {gone : Prop} (management : w.management = s.management)
    (port : w.store.port = s.store.port) (kept : (s.stream i).Kept (w.stream i))
    (state : (w.stream i).state = (s.stream i).state)
    (wf : s.canonical → Sparse.wf Container.initial w.containers.table = true)
    (whenGone : w.workGone i (fun _ _ => False) ∧ (w.stream i).writeInFlight = none ↔ gone) :
    s.abortFollowed (w.abortRelease i).settle i gone (s.store.port ≠ .idle) := by
  classical
  obtain ⟨reports, held, lost, fresh, allLost⟩ := (w.abortRelease i).looked_addsLost
  obtain ⟨streams, sameReports, sameHeld⟩ := w.abortRelease_keeps i
  refine State.abortFollowed_of_placed (u := (w.abortRelease i).looked) (lost := lost) ?_ ?_ ?_ allLost (fun busy => ?_)
    (fun aborting none canonical unmade => ?_) ?_ ?_ ?_
  · rw [reports, sameReports, management]
  · rw [held, sameHeld, management]
  · rw [State.looked_streams, State.stream_of_streams streams, state]
  · have stillBusy : (w.abortRelease i).store.port ≠ .idle := by
      rwa [State.abortRelease_store, port]
    rw [State.looked_of_busy stillBusy, State.emitRecords_management, State.serveOpenWait_management] at fresh
    exact List.append_right_eq_self.1 fresh.symm
  · have release := State.abortRelease_eq (wf canonical) (state.trans aborting)
      ((congrArg Management.fresh management).trans none) (by rwa [management])
    have report : w.abortedReport i = s.abortedReport i := by
      rw [State.abortedReport, State.abortedReport, kept]
    rw [fresh]
    refine ⟨fun isGone => ?_, fun notGone => ?_⟩
    · rw [release, if_pos (whenGone.2 isGone), report, State.makeReport, management, none]
      rfl
    · rw [release, if_neg (fun c => notGone (whenGone.1 c)), management, none]
      rfl
  · rw [State.settle_eq_looked, State.refresh_streams]
  · rw [State.settle_eq_looked, State.refresh_reports]
  · rw [State.settle_eq_looked, State.refresh_held]

/-! ## The bytes -/

theorem leBytes_length (width x : Nat) : (leBytes width x).length = width := by
  induction width generalizing x with
  | zero => rfl
  | succ n ih => exact congrArg (· + 1) (ih _)

theorem directoryEntry_length (f : Fingerprint) (offset length : Nat) : (directoryEntry f offset length).length = 48 := by
  simp [directoryEntry, fingerprintBytes, leBytes_length, unused]

/-- Staging memory once an append's bytes stand in an area (R126, R127). -/
def appendedStaging (m : Sparse Byte) (area ordinal : Nat) (a : Append) : Sparse Byte :=
  writeBytes (writeBytes m (areaPayload area + a.offset) (readBytes m (stagingExtent a.stream a.slot) a.length))
    (areaDirectory area + ordinal * 48) (directoryEntry a.fingerprint a.offset a.length)

section Staging

variable (m : Sparse Byte) (area ordinal : Nat) (a : Append)

/-- The payload stands at its offset, below the directory part (R126). -/
theorem appendedStaging_payload (fits : a.offset + a.length ≤ 4194304) {k : Nat} (hk : k < a.length) :
    readByte (appendedStaging m area ordinal a) (areaPayload area + a.offset + k) =
      readByte m (stagingExtent a.stream a.slot + k) := by
  rw [appendedStaging, readByte_writeBytes, if_neg (by simp only [areaDirectory]; omega), readByte_writeBytes,
    if_pos (by rw [readBytes_length]; omega), Nat.add_sub_cancel_left, readBytes_getD _ _ _ _ hk]

/-- The directory entry stands at its ordinal (R127). -/
theorem appendedStaging_entry : readBytes (appendedStaging m area ordinal a) (areaDirectory area + ordinal * 48) 48 =
    directoryEntry a.fingerprint a.offset a.length := by
  rw [appendedStaging, ← directoryEntry_length a.fingerprint a.offset a.length]
  exact readBytes_writeBytes_same _ _ _

/-- No other byte has changed. -/
theorem appendedStaging_elsewhere {k : Nat}
    (notPayload : ¬ (areaPayload area + a.offset ≤ k ∧ k < areaPayload area + a.offset + a.length))
    (notEntry : ¬ (areaDirectory area + ordinal * 48 ≤ k ∧ k < areaDirectory area + ordinal * 48 + 48)) :
    readByte (appendedStaging m area ordinal a) k = readByte m k := by
  rw [appendedStaging, readByte_writeBytes, directoryEntry_length, if_neg notEntry, readByte_writeBytes, readBytes_length,
    if_neg notPayload]

end Staging

/-! ## The append completed -/

/-- What APPEND_COMPLETE tells the other blocks: the entry's location is found, the insert requested, a CLAIM handed over
(R74). -/
theorem State.appendDone_eq {s : State} (tags : (s.resolution.entries.map (·.tag)).Nodup) (slot ordinal : Nat) (a : Append) :
    s.appendDone slot ordinal a = { s with
      resolution := { s.resolution with entries := s.resolution.entries.map (fun e =>
        if e.tag = a.tag then
          { e with found := some { station := s.settings.station, incarnation := s.settings.incarnation
                                   slot := slot, ordinal := ordinal } }
        else e) }
      index := s.index.withRequest .resolution (.insert a.fingerprint slot ordinal a.length a.tag)
      bus := s.bus.withHaveOrClaim (.claim a.fingerprint s.settings.incarnation slot ordinal) } := by
  rw [← Index.make_eq_withRequest, ← PeerBus.handOrDrop_eq_withHaveOrClaim]
  by_cases asked : ∃ e ∈ s.resolution.entries, e.tag = a.tag
  · obtain ⟨e, he, same⟩ := asked
    have found : s.askTagged a.tag = some e := same ▸ State.askTagged_of_mem tags he
    simp only [State.appendDone, found]
    rw [State.setAsk_eq_map (f := fun e => { e with
      found := some { station := s.settings.station, incarnation := s.settings.incarnation
                      slot := slot, ordinal := ordinal } }) tags he rfl, same]
    rfl
  · have unchanged : s.resolution.entries.map (fun e => if e.tag = a.tag then { e with
        found := some { station := s.settings.station, incarnation := s.settings.incarnation
                        slot := slot, ordinal := ordinal } } else e) = s.resolution.entries :=
      (List.map_congr_left (fun e he => if_neg (fun same => asked ⟨e, he, same⟩))).trans (List.map_id _)
    have notFound : s.askTagged a.tag = none := by
      simpa [State.askTagged] using fun e he same => asked ⟨e, he, same⟩
    simp only [State.appendDone, notFound, unchanged]
    rfl

/-- The station once an append stands in its container and the other blocks are told (R74, R127). -/
def State.appended (s : State) (slot area : Nat) (a : Append) : State :=
  (({ s with staging := appendedStaging s.staging area (s.container slot).count a } : State).setContainer slot
    ((s.container slot).completed a)).appendDone slot (s.container slot).count a

/-- What follows an append for its container and for its stream (R16, R127, R130). -/
def State.followed (s : State) (slot area : Nat) (a : Append) : State :=
  ((s.appended slot area a).sealAfterAppend slot).abortRelease a.stream

theorem appendComplete_eq {s : State} {slot area : Nat} {a : Append} (active : s.active = true)
    (placed : (s.container slot).area = some area) (ha : a ∈ (s.container slot).inFlight)
    (only : ∀ d ∈ (s.container slot).inFlight, d.offset = a.offset → d = a) :
    exec (.appendComplete slot a.offset) s =
      .next (s.followed slot area a).settle := by
  obtain ⟨d, found⟩ := Option.isSome_iff_exists.1
    (List.find?_isSome (p := fun d : Append => decide (d.offset = a.offset)) |>.2 ⟨a, ha, decide_eq_true rfl⟩)
  obtain rfl := only d (List.mem_of_find?_eq_some found) (by simpa using List.find?_some found)
  have copied : s.copyAppend (s.container slot) d =
      { s with staging := appendedStaging s.staging area (s.container slot).count d } := by
    simp only [State.copyAppend, placed]
    rfl
  simp only [exec, execAppendComplete, active, found, State.finishAppend, copied]
  rfl

section Sealed

variable (s : State) (slot : Nat)

/-- Behind an append its container may turn SEALING, and nothing else happens (R127, R130). -/
theorem State.sealAfterAppend_cases :
    s.sealAfterAppend slot = s ∨ ∃ r, s.sealAfterAppend slot = s.turnSealing slot r := by
  simp only [State.sealAfterAppend]
  split
  · exact .inl rfl
  next empty =>
    split
    · exact .inr ⟨_, rfl⟩
    · split
      · simp only [State.sealRequest, of_not_not empty, if_true]
        split
        · exact .inr ⟨_, rfl⟩
        · exact .inl rfl
      · exact .inl rfl

/-- With appends still in flight nothing follows; with none a seal requested container turns SEALING, and in HOLDING any other
OPEN one (R127, R130). -/
theorem State.sealAfterAppend_of_more (more : (s.container slot).inFlight ≠ []) : s.sealAfterAppend slot = s := if_pos more

theorem State.sealAfterAppend_of_requested {r : SealReason} (empty : (s.container slot).inFlight = [])
    (requested : (s.container slot).sealRequested = some r) : s.sealAfterAppend slot = s.turnSealing slot r := by
  simp only [State.sealAfterAppend, empty, ne_eq, not_true_eq_false, if_false, requested]

theorem State.sealAfterAppend_of_holding (empty : (s.container slot).inFlight = [])
    (notRequested : (s.container slot).sealRequested = none) (opened : (s.container slot).state = .opened)
    (holding : s.station = .holding) : s.sealAfterAppend slot = s.turnSealing slot .hold := by
  simp only [State.sealAfterAppend, empty, ne_eq, not_true_eq_false, if_false, notRequested, holding, if_true,
    State.sealRequest, opened, and_self]

theorem State.sealAfterAppend_of_running (notRequested : (s.container slot).sealRequested = none)
    (notHolding : s.station ≠ .holding) : s.sealAfterAppend slot = s := by
  simp only [State.sealAfterAppend, notRequested, notHolding, if_false]
  split <;> rfl

theorem State.sealAfterAppend_changes : s.sealAfterAppend slot = { s with
    streams := (s.sealAfterAppend slot).streams, containers := (s.sealAfterAppend slot).containers
    store := (s.sealAfterAppend slot).store } := by
  rcases s.sealAfterAppend_cases slot with e | ⟨r, e⟩ <;> rw [e]
  exact State.turnSealing_changes _ _ _

theorem State.sealAfterAppend_kept : s.StreamsKept (s.sealAfterAppend slot) := by
  rcases s.sealAfterAppend_cases slot with e | ⟨r, e⟩ <;> rw [e]
  · exact .refl s
  · exact s.turnSealing_kept slot r

theorem State.sealAfterAppend_containers : s.ContainersKept (s.sealAfterAppend slot) := by
  rcases s.sealAfterAppend_cases slot with e | ⟨r, e⟩ <;> rw [e]
  · exact .refl s
  · exact s.turnSealing_containers slot r

theorem State.sealAfterAppend_inFlight (k : Nat) : ((s.sealAfterAppend slot).container k).inFlight = (s.container k).inFlight := by
  rcases s.sealAfterAppend_cases slot with e | ⟨r, e⟩ <;> rw [e]
  rw [State.turnSealing_container]
  split
  next same => rw [same]
  next => rfl

theorem State.sealAfterAppend_port : (s.sealAfterAppend slot).store.port = s.store.port := by
  rcases s.sealAfterAppend_cases slot with e | ⟨r, e⟩ <;> rw [e]
  rw [State.turnSealing_store]

theorem State.sealAfterAppend_wf (wf : Sparse.wf Container.initial s.containers.table = true) :
    Sparse.wf Container.initial (s.sealAfterAppend slot).containers.table = true := by
  rcases s.sealAfterAppend_cases slot with e | ⟨r, e⟩ <;> rw [e]
  · exact wf
  · simp only [State.turnSealing, State.setContainer, State.dropCurrent_containers]
    exact Sparse.wf_put _ _ _ _ wf

/-- Of a stream at most the current container is dropped (R128). -/
theorem State.sealAfterAppend_stream (i : Fin 16) :
    ((s.sealAfterAppend slot).stream i).state = (s.stream i).state ∧
      ((s.sealAfterAppend slot).stream i).writeInFlight = (s.stream i).writeInFlight := by
  rcases s.sealAfterAppend_cases slot with e | ⟨r, e⟩ <;> rw [e]
  · exact ⟨rfl, rfl⟩
  · change ((s.dropCurrent slot (s.container slot).owner).stream i).state = _ ∧
      ((s.dropCurrent slot (s.container slot).owner).stream i).writeInFlight = _
    cases (s.container slot).owner with
    | none => exact ⟨rfl, rfl⟩
    | some o =>
      simp only [State.dropCurrent, State.stream_modStream]
      split
      next same =>
        subst same
        split <;> exact ⟨rfl, rfl⟩
      next => exact ⟨rfl, rfl⟩

end Sealed

/-! ## What the append comes to -/

section Appended

variable {s : State} {slot area : Nat} {a : Append}

theorem State.appended_eq (tags : (s.resolution.entries.map (·.tag)).Nodup) : s.appended slot area a = { s with
    staging := appendedStaging s.staging area (s.container slot).count a
    containers := (s.setContainer slot ((s.container slot).completed a)).containers
    resolution := { s.resolution with entries := s.resolution.entries.map (fun e =>
      if e.tag = a.tag then
        { e with found := some { station := s.settings.station, incarnation := s.settings.incarnation
                                 slot := slot, ordinal := (s.container slot).count } }
      else e) }
    index := s.index.withRequest .resolution (.insert a.fingerprint slot (s.container slot).count a.length a.tag)
    bus := s.bus.withHaveOrClaim (.claim a.fingerprint s.settings.incarnation slot (s.container slot).count) } := by
  rw [State.appended, State.appendDone_eq (by exact tags)]
  rfl

theorem State.appended_container_same :
    (s.appended slot area a).container slot = (s.container slot).completed a := by
  rw [State.appended, State.appendDone_same]
  exact (State.container_setContainer _ _ _ _).trans (if_pos rfl)

theorem State.appended_container_other {k : Nat} (h : k ≠ slot) : (s.appended slot area a).container k = s.container k := by
  rw [State.appended, State.appendDone_same]
  exact (State.container_setContainer _ _ _ _).trans (if_neg h)

theorem State.appended_inFlight (k : Nat) (d : Append) :
    d ∈ ((s.appended slot area a).container k).inFlight ↔
      d ∈ (s.container k).inFlight ∧ ¬ (k = slot ∧ d.offset = a.offset) := by
  by_cases same : k = slot
  · subst same
    simp [State.appended_container_same, Container.completed]
  · simp [State.appended_container_other same, same]

/-- Once the append is done nothing of a stream is in flight exactly if nothing but the append was (R16). -/
theorem State.appended_workGone (i : Fin 16) :
    ((s.appended slot area a).sealAfterAppend slot).workGone i (fun _ _ => False) ↔
      s.workGone i (fun k d => k = slot ∧ d.offset = a.offset) := by
  have engines : ((s.appended slot area a).sealAfterAppend slot).engines = s.engines := by
    rw [State.sealAfterAppend_changes, State.appended, State.appendDone_same]
    rfl
  have digests : ((s.appended slot area a).sealAfterAppend slot).digestQueue = s.digestQueue := by
    rw [State.sealAfterAppend_changes, State.appended, State.appendDone_same]
    rfl
  simp only [State.workGone, State.engine, engines, digests, State.sealAfterAppend_inFlight, State.appended_inFlight]
  refine and_congr_right (fun _ => and_congr_right (fun _ => forall_congr' (fun k => forall_congr' (fun d => ?_))))
  tauto

theorem State.appended_wf (wf : Sparse.wf Container.initial s.containers.table = true) :
    Sparse.wf Container.initial (s.appended slot area a).containers.table = true := by
  rw [State.appended, State.appendDone_same]
  exact Sparse.wf_put _ _ _ _ wf

theorem State.appended_management : (s.appended slot area a).management = s.management := by
  rw [State.appended, State.appendDone_same]
  rfl

theorem State.appended_streams : (s.appended slot area a).streams = s.streams := by
  rw [State.appended, State.appendDone_same]
  rfl

theorem State.appended_store : (s.appended slot area a).store = s.store := by
  rw [State.appended, State.appendDone_same]
  rfl

theorem State.appended_station : (s.appended slot area a).station = s.station := by
  rw [State.appended, State.appendDone_same]
  rfl

end Appended

section Followed

variable {s : State} {slot area : Nat} {a : Append}

theorem State.followed_kept : s.StreamsKept (s.followed slot area a).settle := by
  have done := State.StreamsKept.before State.appended_streams ((s.appended slot area a).sealAfterAppend_kept slot)
  exact done.trans (.before (State.abortRelease_streams _ _) (State.settle_kept (s.followed slot area a)))

/-- The container's counts at the end of the step (R52, R127). -/
theorem State.followed_counts (opened : (s.container slot).state = .opened) :
    let d := (s.followed slot area a).settle.container slot
    d.count = (s.container slot).count + 1 ∧ d.payload = (s.container slot).payload + a.length ∧
      d.references = (s.container slot).references + 1 ∧
      d.inFlight = (s.container slot).inFlight.filter (fun x => x.offset ≠ a.offset) := by
  have kept := ((State.sealAfterAppend_containers (s.appended slot area a) slot).trans
    (.before (t := s.followed slot area a) (by rw [State.followed, State.abortRelease_containers])
      (State.settle_containers _))) slot
  rw [State.appended_container_same] at kept
  obtain ⟨-, count, payload, -, inFlight, references⟩ := kept (by
    rw [Container.completed, opened]
    decide)
  exact ⟨count, payload, references, inFlight⟩

/-- A container that turns SEALING behind its append has turned SEALING at the end of the step (R127, R130). -/
theorem State.followed_turnedSealing {r : SealReason}
    (turns : (s.appended slot area a).sealAfterAppend slot = (s.appended slot area a).turnSealing slot r) :
    (s.followed slot area a).settle.turnedSealing slot ((s.container slot).completed a) r := by
  have awaits := (s.appended slot area a).turnSealing_awaitsFlush slot r
  rw [State.appended_container_same, ← turns] at awaits
  refine State.AwaitsFlush.settle (awaits.of_joins ?_ (.of_eq ?_) (.of_eq ?_))
  · exact State.abortRelease_settings _ _
  · exact State.abortRelease_store _ _
  · simp only [State.followed, State.container, State.abortRelease_containers]

/-- With nothing to seal and a busy port the container stands as the append leaves it. -/
theorem State.followed_stays (opened : (s.container slot).state = .opened) (busy : s.store.port ≠ .idle)
    (stays : (s.appended slot area a).sealAfterAppend slot = s.appended slot area a) :
    (s.followed slot area a).settle.container slot = (s.container slot).completed a := by
  have same : (s.followed slot area a).container slot = (s.container slot).completed a := by
    rw [State.followed, stays, State.container, State.abortRelease_containers]
    exact State.appended_container_same
  have port : (s.followed slot area a).store.port ≠ .idle := by
    rwa [State.followed, stays, State.abortRelease_store, State.appended_store]
  have looked : (s.followed slot area a).looked.container slot = (s.followed slot area a).container slot := by
    rw [State.looked_of_busy port, State.emitRecords_container, State.serveOpenWait_container]
    rw [same, Container.completed, opened]
    decide
  rw [State.settle_eq_looked, ← same, ← looked]
  simp only [State.container, State.refresh_containers, State.placeReports_containers]

/-- An ABORTING stream that waited for the append alone has its ABORTED report made (R16). -/
theorem State.followed_aborted : s.abortFollowed (s.followed slot area a).settle a.stream
    (s.workGone a.stream (fun k d => k = slot ∧ d.offset = a.offset) ∧ (s.stream a.stream).writeInFlight = none)
    (s.store.port ≠ .idle) := by
  obtain ⟨state, writing⟩ := (s.appended slot area a).sealAfterAppend_stream slot a.stream
  rw [State.stream_of_streams State.appended_streams] at state writing
  refine State.abortFollowed_settle ?_ ?_ ?_ state (fun canonical => ?_) (and_congr (State.appended_workGone _) (by rw [writing]))
  · exact (congrArg State.management (State.sealAfterAppend_changes _ slot)).trans State.appended_management
  · rw [State.sealAfterAppend_port, State.appended_store]
  · exact State.StreamsKept.before State.appended_streams ((s.appended slot area a).sealAfterAppend_kept slot) a.stream
  · exact State.sealAfterAppend_wf _ _ (State.appended_wf canonical.2.2)

/-- The rest of the station is as the append leaves it. -/
theorem State.followed_same : let t := (s.followed slot area a).settle
    let u := s.appended slot area a
    t.staging = u.staging ∧ t.resolution = u.resolution ∧ t.index = u.index ∧ t.bus = u.bus ∧ t.engines = u.engines ∧
      t.digestQueue = u.digestQueue ∧ t.settings = u.settings ∧ t.station = u.station ∧ t.now = u.now := by
  simp only [State.followed, State.settle_staging, State.settle_resolution, State.settle_index, State.settle_bus,
    State.settle_engines, State.settle_digestQueue, State.settle_settings, State.settle_station, State.settle_now,
    State.abortRelease_staging, State.abortRelease_resolution, State.abortRelease_index, State.abortRelease_bus,
    State.abortRelease_engines, State.abortRelease_digestQueue, State.abortRelease_settings, State.abortRelease_station,
    State.abortRelease_now]
  rw [State.sealAfterAppend_changes]
  exact ⟨rfl, rfl, rfl, rfl, rfl, rfl, rfl, rfl, rfl⟩

end Followed

section Seals

variable {s : State} {slot area : Nat} {a : Append}

/-- No append is in flight behind the last one. -/
theorem Container.completed_inFlight_eq_nil_iff (c : Container) (a : Append) :
    (c.completed a).inFlight = [] ↔ ∀ d ∈ c.inFlight, d.offset = a.offset := by
  simp [Container.completed, List.filter_eq_nil_iff]

/-- The last append of a seal requested container turns it SEALING, and in HOLDING of any other (R127, R130). -/
theorem State.appended_turns_requested {r : SealReason} (requested : (s.container slot).sealRequested = some r)
    (last : ∀ d ∈ (s.container slot).inFlight, d.offset = a.offset) :
    (s.appended slot area a).sealAfterAppend slot = (s.appended slot area a).turnSealing slot r := by
  refine State.sealAfterAppend_of_requested _ _ ?_ ?_ <;> rw [State.appended_container_same]
  · exact (Container.completed_inFlight_eq_nil_iff _ _).2 last
  · exact requested

theorem State.appended_turns_holding (opened : (s.container slot).state = .opened)
    (notRequested : (s.container slot).sealRequested = none) (last : ∀ d ∈ (s.container slot).inFlight, d.offset = a.offset)
    (holding : s.station = .holding) :
    (s.appended slot area a).sealAfterAppend slot = (s.appended slot area a).turnSealing slot .hold := by
  refine State.sealAfterAppend_of_holding _ _ ?_ ?_ ?_ (State.appended_station.trans holding) <;>
    rw [State.appended_container_same]
  · exact (Container.completed_inFlight_eq_nil_iff _ _).2 last
  · exact notRequested
  · exact opened

/-- Otherwise nothing is sealed. -/
theorem State.appended_stays (h : ¬ (∀ d ∈ (s.container slot).inFlight, d.offset = a.offset) ∨
    ((s.container slot).sealRequested = none ∧ s.station ≠ .holding)) :
    (s.appended slot area a).sealAfterAppend slot = s.appended slot area a := by
  rcases h with more | ⟨notRequested, notHolding⟩
  · refine State.sealAfterAppend_of_more _ _ ?_
    rwa [State.appended_container_same, ne_eq, Container.completed_inFlight_eq_nil_iff]
  · refine State.sealAfterAppend_of_running _ _ ?_ (by rwa [State.appended_station])
    rw [State.appended_container_same]
    exact notRequested

end Seals

/-- Settles O34: the append's bytes and numbers by `State.appended`, what follows for the container by the walk of
`State.AwaitsFlush`, for an ABORTING stream by `State.followed_aborted`. -/
theorem appendPlacesTheChunk : Obligations.AppendPlacesTheChunk := by
  intro s slot area a c active sound opened placed ha only fits _
  obtain ⟨staging, resolution, index, bus, engines, digests, settings, station, now⟩ :=
    State.followed_same (s := s) (slot := slot) (area := area) (a := a)
  obtain ⟨count, payload, references, inFlight⟩ := State.followed_counts (area := area) (a := a) opened
  rw [State.appended_eq sound.2.2] at staging resolution index bus engines digests settings station now
  refine ⟨_, appendComplete_eq active placed ha only, fun k hk => ?_, ?_, fun k notPayload notEntry => ?_, count, payload,
    references, inFlight, ⟨fun r requested last => ?_, fun notRequested last holding => ?_, fun stays busy => ?_⟩,
    resolution, index, bus, State.followed_aborted, fun j => ?_, engines, digests, settings, station, now⟩
  · rw [staging, appendedStaging_payload _ _ _ _ fits hk]
  · rw [staging, appendedStaging_entry]
    rfl
  · rw [staging, appendedStaging_elsewhere _ _ _ _ notPayload notEntry]
  · exact State.followed_turnedSealing (State.appended_turns_requested requested last)
  · exact State.followed_turnedSealing (State.appended_turns_holding opened notRequested last holding)
  · have same := State.followed_stays opened busy (State.appended_stays (area := area) stays)
    exact ⟨(congrArg Container.state same).trans opened, (congrArg Container.sealRequested same).trans rfl⟩
  · have kept := State.followed_kept (s := s) (slot := slot) (area := area) (a := a) j
    exact ⟨kept.sameWork, kept.pending⟩

end Sys2Proof.Machine
end

