-- ==== Sys2Proof/Proofs/FlushedWhileOpen.lean ====
section
/-! PROOFS. Three statements fail on one kind of state: the flush queue already names the container that the stream is about
to have sealed, while that container is still OPEN with an append in flight. The seal request is then only noted, but in the
same step the port finds the queued flush, its range check fails (R148) and the container is LOST, where the statements say
it stays OPEN and seal requested. No run reaches such a state; the statements speak of every state, and none of their
hypotheses excludes it. -/

namespace Sys2Proof.Machine

/-! ## The counterexample -/

/-- An OPEN container of stream 0 with one append in flight. -/
def openWithAppend : Container :=
  { Container.initial with
    state := .opened, area := some 0, owner := some 0, fill := 8
    inFlight := [{ offset := 0, length := 8, fingerprint := 0, stream := 1, slot := 0, tag := 0 }] }

/-- A RUNNING station, its store region empty, in which stream 0 stands as `x`, container 5 is OPEN with an append in flight
and at the same time waits in the flush queue, and the port is in state `port`. -/
def flushedWhileOpen (x : Stream) (port : PortState) : State :=
  { State.reset with
    station := .running
    streams := State.reset.streams.set 0 x
    containers := { ContainerManager.initial with table := [(5, openWithAppend)] }
    store := { StorePort.initial with port := port, flushQueue := [{ slot := 5, length := 64, header := [] }] } }

/-- Stream 0, OPEN, with container 5 as its current one. -/
def openStream : Stream := { Stream.initial with state := .opened, current := some 5 }

/-- Stream 0, CLOSING, with container 5 as its current one and its last chunk RESOLVED. -/
def closingStream : Stream :=
  { Stream.initial with
    state := .closing, current := some 5
    pending := [{ number := 0, sequence := 0, length := 256, fingerprint := none, phase := .resolved
                  disposition := some .remote, location := none, holderSealed := none }] }

/-- What the seal request is said to leave is not what the lost container is. -/
theorem State.not_sealTaken_of_lost {x : Stream} {port : PortState} {t : State} {reason : SealReason}
    (lost : (t.container 5).state = .lost) : ¬ (flushedWhileOpen x port).sealTaken t 5 reason := by
  intro taken
  obtain ⟨stays, -⟩ := (taken rfl rfl).2 (List.cons_ne_nil _ _)
  rw [lost] at stays
  exact absurd stays (by decide)

/-- No other stream has container 5 as its current one. -/
theorem flushedWhileOpen_current (x : Stream) (port : PortState) :
    ∀ j, j ≠ 0 → ((flushedWhileOpen x port).stream j).current ≠ some 5 := by
  intro j hj
  have other : (flushedWhileOpen x port).stream j = Stream.initial :=
    (State.stream_setStream State.reset 0 j x).trans (by rw [if_neg hj, State.reset_stream])
  rw [other]
  exact Option.some_ne_none _ ∘ Eq.symm

/-! ## The three steps, run -/

/-- Stopping the engines of a stream changes nothing when no engine serves anything. -/
theorem State.stopEngines_of_free {s : State} (h : s.engines = Vector.replicate 4 .free) (i : Fin 16) :
    s.stopEngines i = s := by
  have same : s.engines.map (fun e => if e.serves i then .free else e) = s.engines := by
    rw [h, Vector.map_replicate]
    rfl
  simp only [State.stopEngines, same]

/-- Placing the reports of a step leaves the containers. -/
theorem State.container_settle (s : State) (k : Nat) :
    s.settle.container k = s.serveOpenWait.emitRecords.lookAtPort.container k := by
  simp [State.settle, State.container]

theorem State.container_settleCompletion (s : State) (k : Nat) :
    s.settleCompletion.container k =
      (s.serveOpenWait.emitRecords.arbitrate s.serveOpenWait.emitRecords.looks).container k := by
  simp [State.settleCompletion, State.container]

theorem State.takeAbort_opened {s : State} {i : Fin 16} (h : (s.stream i).state = .opened) :
    s.takeAbort i = s.abortNow i := by
  simp only [State.takeAbort, h]

theorem abort_loses_container {t : State}
    (h : exec (.abortSegment (streamByte 0)) (flushedWhileOpen openStream .idle) = .next t) :
    (t.container 5).state = .lost := by
  obtain rfl := Host.Outcome.next.inj h
  rw [State.intakeGate_own (.inl rfl) (.inr rfl), State.takeAbort_opened rfl, State.abortNow, State.container_settle,
    State.tearDown, State.stopEngines_of_free rfl]
  decide +kernel

/-- An ERROR for a recipe write of an OPEN stream faults it (R115, R143). -/
theorem exec_completion_error {s : State} {i : Fin 16} {kind : RecordKind} {number : Word}
    (port : s.store.port = .recipe i kind number) (opened : (s.stream i).state = .opened) :
    exec (.completion 1#8) s = .next
      (((({ s with store := { s.store with port := .idle } } : State).latch .storeFault).faultStream i).settleCompletion) := by
  have opened' : ((({ s with store := { s.store with port := .idle } } : State).latch .storeFault).stream i).state =
    .opened := opened
  simp [exec, execCompletion, port, completionError, State.recipeCompleted, opened']

theorem error_loses_container {t : State}
    (h : exec (.completion 1#8) (flushedWhileOpen openStream (.recipe 0 .mark 0)) = .next t) :
    (t.container 5).state = .lost := by
  rw [exec_completion_error rfl rfl, State.faultStream, State.tearDown, State.stopEngines_of_free rfl] at h
  obtain rfl := Host.Outcome.next.inj h
  rw [State.container_settleCompletion]
  decide +kernel

theorem lastChunk_loses_container {t : State}
    (h : exec (.completion 0#8) (flushedWhileOpen closingStream (.recipe 0 .chunk 0)) = .next t) :
    (t.container 5).state = .lost := by
  obtain rfl := Host.Outcome.next.inj h
  decide +kernel

/-! ## The refutations -/

theorem State.not_tornDown_of_lost {port : PortState} {t : State} {fate : DigestFate}
    (lost : (t.container 5).state = .lost) : ¬ (flushedWhileOpen openStream port).tornDown t 0 fate := by
  intro torn
  obtain ⟨-, -, -, -, -, -, -, -, -, -, -, -, -, sealed⟩ := torn
  exact State.not_sealTaken_of_lost lost (sealed 5 rfl (flushedWhileOpen_current openStream port))

/-- Refutes O16: the aborted stream's container, with an append in flight, is LOST in the same step when the flush queue
names it already and the range check fails; the statement has it OPEN and seal requested. -/
theorem not_abortTearsDownTheStream : ¬ Obligations.AbortTearsDownTheStream := by
  intro h
  obtain ⟨-, -, abort⟩ := h (flushedWhileOpen openStream .idle) 0 (.inl rfl)
  obtain ⟨t, more, ran, torn, -⟩ := abort rfl (.inl rfl)
  exact State.not_tornDown_of_lost (abort_loses_container ran) torn

/-- Refutes O47: the faulted stream's container is LOST in the same step in the same way. -/
theorem not_storeErrorFaultsTheStream : ¬ Obligations.StoreErrorFaultsTheStream := by
  intro h
  obtain ⟨t, ran, -, torn, -⟩ :=
    h (flushedWhileOpen openStream (.recipe 0 .mark 0)) 1#8 0 .mark 0 (by decide) rfl (.inl rfl) rfl
  exact State.not_tornDown_of_lost (error_loses_container ran) torn

/-- Refutes O46: the container sealed for CLOSE at the last chunk's record is LOST in the same step in the same way. -/
theorem not_completionRecordsTheChunk : ¬ Obligations.CompletionRecordsTheChunk := by
  intro h
  obtain ⟨q, hq⟩ : ∃ q, closingStream.pending = [q] := ⟨_, rfl⟩
  obtain ⟨-, chunk, -⟩ := h (flushedWhileOpen closingStream (.recipe 0 .chunk 0)) 0#8 0 0 _ [] .remote
  obtain ⟨t, ran, -, -, -, -, -, -, -, -, -, closes, -⟩ := chunk rfl (.inr rfl) rfl rfl rfl
  obtain ⟨sealed, -⟩ := closes rfl rfl rfl rfl rfl rfl
  exact State.not_sealTaken_of_lost (lastChunk_loses_container ran) (sealed 5 rfl)

end Sys2Proof.Machine
end

