-- ==== Sys2Proof/Proofs/EngineAssigned.lean ====
section
/-! PROOFS. The arbiter's one assignment (R19 to R21): the lowest-numbered FREE engine and the next eligible stream in turn. -/

namespace Sys2Proof.Machine

/-! ## The first number of a kind -/

theorem find?_finRange_of_least {n : Nat} {p : Fin n → Bool} {k : Fin n} (holds : p k = true)
    (least : ∀ j, p j = true → k ≤ j) : (List.finRange n).find? p = some k := by
  rw [List.find?_eq_some_iff_getElem]
  refine ⟨holds, k, by simp, by simp, fun j hj => ?_⟩
  rw [Bool.not_eq_true', Bool.eq_false_iff]
  intro earlier
  have := least _ earlier
  simp [Fin.le_def] at this
  omega

/-- The lowest-numbered free pending slot (R26). -/
theorem Stream.lowestFreeSlot_eq_some {x : Stream} {p : Fin 32} (free : x.hasFreeSlot p)
    (least : ∀ q, x.hasFreeSlot q → p ≤ q) : x.lowestFreeSlot = some p :=
  find?_finRange_of_least (by simpa [Stream.hasFreeSlot] using free)
    (fun q hq => least q (by simpa [Stream.hasFreeSlot] using hq))

theorem Stream.lowestFreeSlot_eq_none_iff (x : Stream) : x.lowestFreeSlot = none ↔ ∀ p, ¬ x.hasFreeSlot p := by
  simp [Stream.lowestFreeSlot, Stream.hasFreeSlot]

/-! ## The arbiter's choice -/

section Arbiter

variable {s : State}

/-- The model's eligibility is that of R19. -/
theorem State.eligible_iff (i : Fin 16) : s.eligible i = true ↔ s.mayBeAssigned i := by
  have slot : (s.stream i).lowestFreeSlot ≠ none ↔ ∃ p, (s.stream i).hasFreeSlot p := by
    rw [ne_eq, Stream.lowestFreeSlot_eq_none_iff, not_forall_not]
  simp only [State.eligible, State.mayBeAssigned, Bool.and_eq_true, Bool.or_eq_true, decide_eq_true_eq, Bool.not_eq_true',
    State.held_eq_false_iff, slot, and_assoc]

/-- The lowest-numbered FREE engine (R20). -/
theorem State.freeEngine_eq_some {e : Fin 4} (free : s.engine e = .free) (least : ∀ d, s.engine d = .free → e ≤ d) :
    s.freeEngine = some e :=
  find?_finRange_of_least (decide_eq_true free) (fun d hd => least d (of_decide_eq_true hd))

theorem State.freeEngine_eq_none (busy : ∀ e, s.engine e ≠ .free) : s.freeEngine = none := by
  simpa [State.freeEngine] using busy

/-- The next eligible stream in turn (R20). -/
theorem State.nextStream_eq_some {i : Fin 16} (first : s.firstInTurn i) : s.nextStream = some i := by
  obtain ⟨may, least⟩ := first
  have turn : ∀ j, s.lastAssigned + 1 + (j - (s.lastAssigned + 1)) = j := fun j => add_sub_cancel _ j
  rw [State.nextStream, List.find?_map, find?_finRange_of_least (k := i - (s.lastAssigned + 1)), Option.map_some, turn]
  · simpa only [Function.comp_apply, turn, State.eligible_iff] using may
  · intro d hd
    have later := least _ ((State.eligible_iff _).1 hd)
    rwa [add_sub_cancel_left] at later

theorem State.nextStream_eq_none (nobody : ∀ i, ¬ s.mayBeAssigned i) : s.nextStream = none := by
  simp only [State.nextStream, List.find?_eq_none, State.eligible_iff]
  exact fun i _ => nobody i

theorem exec_engineAssign_of_none (h : s.nextStream = none ∨ s.freeEngine = none) : exec .engineAssign s = .next s := by
  simp only [exec, execEngineAssign]
  split
  next free next => rcases h with h | h <;> simp [free, next] at h
  next => rfl

theorem exec_engineAssign_of_some {e : Fin 4} {i : Fin 16} (free : s.freeEngine = some e) (next : s.nextStream = some i) :
    exec .engineAssign s = .next (s.assign e i) := by
  simp only [exec, execEngineAssign, free, next]

end Arbiter

/-- Settles O17: the model's two searches find the engine and the stream that the rules name. -/
theorem engineTakesNextStream : Obligations.EngineTakesNextStream := by
  intro s
  refine ⟨fun nothing => ?_, fun i e entry rest n first free least queue kind => ?_⟩
  · exact exec_engineAssign_of_none (nothing.imp State.nextStream_eq_none State.freeEngine_eq_none)
  · rw [exec_engineAssign_of_some (State.freeEngine_eq_some free least) (State.nextStream_eq_some first)]
    simp only [State.assign, queue, List.head?_cons, Option.map_some, kind]
    rfl

end Sys2Proof.Machine
end

