-- ==== Sys2Proof/Proofs/ChunkBegun.lean ====
section
/-! PROOFS. A byte with no chunk begun (R22, R26): a pending slot is taken first, or the engine suspends. -/

namespace Sys2Proof.Machine

section Begun

variable {s : State} {e : Fin 4} {i : Fin 16} {c : ChunkerContext} {position n : Nat} {entry : QueueEntry}
  {rest : List QueueEntry}

theorem exec_engineTakeByte_free (free : s.engine e = .free) : exec (.engineTakeByte e) s = .next s := by
  simp only [exec, execEngineTakeByte, State.engineStep, free, ite_self]

/-- What a byte leaves of the engine that takes it does not depend on how the engine stood. -/
theorem State.takeByte_setEngine (s : State) (e : Fin 4) (x : Engine) (i : Fin 16) (c : ChunkerContext) (p : Fin 32) (y : Byte)
    (position n : Nat) : (s.setEngine e x).takeByte e i c p y position n = s.takeByte e i c p y position n := by
  have last : ∀ (u : State) d, (u.setEngine e x).consumeEntry e i d = u.consumeEntry e i d := by
    intro u d
    change State.creditNotice { (u.writeBack i { d with resume := none }).modStream i Stream.popQueue with
      engines := (u.engines.set e x).set e .free } i = _
    rw [Vector.set_set]
    rfl
  have next : ∀ (u : State) z, (u.setEngine e x).setEngine e z = u.setEngine e z := by
    intro u z
    simp [State.setEngine, Vector.set_set]
  rw [State.takeByte_eq _ e i c p y position n _ rfl, State.takeByte_eq s e i c p y position n _ rfl]
  dsimp only
  split
  · exact last (s.withByte ..) _
  · exact next (s.withByte ..) _

variable (active : s.active = true) (serving : s.engine e = .serving i c position) (begun : c.slot = none)
  (queue : (s.stream i).queue = entry :: rest) (kind : entry.kind = .data n) (low : position < n)
include active serving begun queue kind low

/-- With a pending slot free it is taken, and the byte goes into it (R26). -/
theorem exec_engineTakeByte_allocates {p : Fin 32} (free : (s.stream i).lowestFreeSlot = some p) :
    exec (.engineTakeByte e) s = .next ((s.allocate i p c).1.takeByte e i (s.allocate i p c).2 p
      (readByte s.staging (segmentPlace i entry.slot + position)) position n) := by
  simp only [exec, execEngineTakeByte, active, if_true, State.engineStep, serving, queue, List.head?_cons, kind, begun,
    if_pos low, free]

/-- With none free the engine suspends (R26). -/
theorem exec_engineTakeByte_suspends (full : (s.stream i).lowestFreeSlot = none) :
    exec (.engineTakeByte e) s = .next (s.suspend e i c position) := by
  simp only [exec, execEngineTakeByte, active, if_true, State.engineStep, serving, queue, List.head?_cons, kind, begun,
    if_pos low, full]

end Begun

/-- The station and the engine once a pending slot is taken: the new chunk stands last in the pending list, with the next
chunk sequence (R26). -/
theorem State.allocate_eq (s : State) (e : Fin 4) (i : Fin 16) (p : Fin 32) (c : ChunkerContext) (position : Nat) :
    (s.allocate i p c).1.setEngine e (.serving i (s.allocate i p c).2 position) = { s with
      choices := (s.sequenceAfter (s.stream i).nextChunk).2.choices
      streams := s.streams.set i { s.stream i with
        nextChunk := (s.sequenceAfter (s.stream i).nextChunk).1
        pending := (s.stream i).pending ++
          [{ number := p, sequence := (s.stream i).nextChunk, length := 0, fingerprint := none, phase := .chunking
             disposition := none, location := none, holderSealed := none }] }
      engines := s.engines.set e (.serving i { c with slot := some p, length := 0, digest := Digest.initial } position) } := by
  simp only [State.allocate]
  rw [State.sequenceAfter_same]
  rfl

/-- Below its last value the next chunk sequence rises by 1 and no free value is used (R26). -/
theorem State.sequenceAfter_of_ne (s : State) {q : Word} (h : q ≠ 0xFFFFFFFF#32) : s.sequenceAfter q = (q + 1, s) := if_neg h

/-- The byte goes into the new chunk as it would go into that chunk begun before (R26, R29). -/
theorem exec_engineTakeByte_allocated {s : State} {e : Fin 4} {i : Fin 16} {c : ChunkerContext} {p : Fin 32} {position n : Nat}
    {entry : QueueEntry} {rest : List QueueEntry} (active : s.active = true) (queue : (s.stream i).queue = entry :: rest)
    (kind : entry.kind = .data n) (low : position < n) :
    exec (.engineTakeByte e) ((s.allocate i p c).1.setEngine e (.serving i (s.allocate i p c).2 position)) =
      .next ((s.allocate i p c).1.takeByte e i (s.allocate i p c).2 p
        (readByte s.staging (segmentPlace i entry.slot + position)) position n) := by
  have stands := s.allocate_eq e i p c position
  rw [exec_engineTakeByte_begun (entry := entry) (rest := rest) (c := (s.allocate i p c).2) (p := p) ?_ ?_ rfl ?_ kind low,
    State.takeByte_setEngine, stands]
  · rw [stands]
    exact active
  · rw [State.engine_setEngine, if_pos rfl]
  · rw [stands]
    exact (congrArg Stream.queue (State.stream_setStream_same s i _)).trans queue

/-- Settles O20: taking a slot and suspending are the two branches of the byte's step with no chunk begun. -/
theorem chunkBeginsOrEngineSuspends : Obligations.ChunkBeginsOrEngineSuspends := by
  intro s e i c position n entry rest
  refine ⟨exec_engineTakeByte_free, fun active serving begun queue kind low => ⟨fun p free least => ?_, fun full => ?_⟩⟩
  · refine ⟨(s.sequenceAfter (s.stream i).nextChunk).1, (s.sequenceAfter (s.stream i).nextChunk).2.choices,
      fun notLast => ?_, ?_⟩
    · rw [State.sequenceAfter_of_ne s notLast]
      exact ⟨rfl, rfl⟩
    · rw [exec_engineTakeByte_allocates active serving begun queue kind low (Stream.lowestFreeSlot_eq_some free least),
        ← exec_engineTakeByte_allocated active queue kind low, State.allocate_eq]
      rfl
  · rw [exec_engineTakeByte_suspends active serving begun queue kind low ((Stream.lowestFreeSlot_eq_none_iff _).2 full)]
    rfl

end Sys2Proof.Machine
end

