-- ==== Sys2Proof/Proofs/RollingSums.lean ====
section
/-! PROOFS. One byte through the rolling window (R24): the sums read from the oldest byte on, before and after. -/

namespace Sys2Proof.Machine

section Roll

variable (c : ChunkerContext) (y : Byte)

/-- The window byte that is `j` places younger than the oldest (R24). -/
def ChunkerContext.byteAt (j : Fin 32) : Nat := (c.window[c.position + j]).toNat

theorem ChunkerContext.plainSum_eq : c.plainSum = ∑ j, c.byteAt j := (Fin.sum_univ_def _).symm

theorem ChunkerContext.weightedSum_eq : c.weightedSum = ∑ j : Fin 32, (32 - j.val) * c.byteAt j := (Fin.sum_univ_def _).symm

/-- Every byte left in the window is one place older (R24). -/
theorem ChunkerContext.byteAt_roll_castSucc (j : Fin 31) : (c.roll y).byteAt j.castSucc = c.byteAt j.succ := by
  have place : c.position + 1 + j.castSucc = c.position + j.succ := by
    rw [add_assoc, add_comm 1, ← Fin.coeSucc_eq_succ]
  have other : (c.position : Nat) ≠ (c.position + j.succ : Fin 32) := by
    intro same
    exact absurd (left_eq_add.1 (Fin.ext same)) (Fin.succ_ne_zero j)
  simp only [ChunkerContext.byteAt, ChunkerContext.roll, place]
  exact congrArg BitVec.toNat (Vector.getElem_set_ne _ _ other)

/-- The byte that enters takes the place of the oldest and is the newest (R24). -/
theorem ChunkerContext.byteAt_roll_last : (c.roll y).byteAt (Fin.last 31) = y.toNat := by
  have place : c.position + 1 + Fin.last 31 = c.position := by
    rw [add_assoc, show (1 : Fin 32) + Fin.last 31 = 0 from rfl, add_zero]
  simp only [ChunkerContext.byteAt, ChunkerContext.roll, place]
  exact congrArg BitVec.toNat (Vector.getElem_set_self _)

theorem ChunkerContext.byteAt_le (j : Fin 32) : c.byteAt j ≤ 255 := Nat.le_of_lt_succ (BitVec.isLt _)

/-- The window before the byte: the oldest, and the 31 that stay (R24). -/
theorem ChunkerContext.plainSum_eq_oldest_add : c.plainSum = c.byteAt 0 + ∑ j : Fin 31, c.byteAt j.succ := by
  rw [plainSum_eq, Fin.sum_univ_succ]

theorem ChunkerContext.weightedSum_eq_oldest_add :
    c.weightedSum = 32 * c.byteAt 0 + ∑ j : Fin 31, (31 - j.val) * c.byteAt j.succ := by
  have younger (j : Fin 31) : 32 - (j.val + 1) = 31 - j.val := by omega
  rw [weightedSum_eq, Fin.sum_univ_succ]
  simp only [Fin.val_zero, Fin.val_succ, Nat.sub_zero, younger]

/-- The window after the byte: the 31 that stay, each one place older, and the newest (R24). -/
theorem ChunkerContext.plainSum_roll : (c.roll y).plainSum = (∑ j : Fin 31, c.byteAt j.succ) + y.toNat := by
  simp only [plainSum_eq, Fin.sum_univ_castSucc, byteAt_roll_last, byteAt_roll_castSucc]

theorem ChunkerContext.weightedSum_roll :
    (c.roll y).weightedSum = (∑ j : Fin 31, (31 - j.val) * c.byteAt j.succ) + (c.roll y).plainSum := by
  have older (j : Fin 31) : (32 - j.val) * c.byteAt j.succ = (31 - j.val) * c.byteAt j.succ + c.byteAt j.succ := by
    rw [← Nat.succ_mul, ← Nat.succ_sub (by omega)]
  rw [plainSum_roll, ← add_assoc, ← Finset.sum_add_distrib, weightedSum_eq, Fin.sum_univ_castSucc]
  simp only [byteAt_roll_last, byteAt_roll_castSucc, Fin.val_castSucc, Fin.val_last, older, Nat.reduceSub, one_mul]

theorem ChunkerContext.plainSum_le : c.plainSum ≤ 8160 := by
  rw [plainSum_eq]
  exact Finset.sum_le_card_nsmul Finset.univ _ 255 (fun j _ => c.byteAt_le j)

theorem ChunkerContext.weightedSum_le : c.weightedSum ≤ 134640 := by
  rw [weightedSum_eq]
  calc ∑ j : Fin 32, (32 - j.val) * c.byteAt j
      ≤ ∑ j : Fin 32, (32 - j.val) * 255 := Finset.sum_le_sum (fun j _ => Nat.mul_le_mul_left _ (c.byteAt_le j))
    _ = 134640 := by decide

end Roll

/-- Settles O21: the sums before and after differ by the oldest byte and the newest alone. -/
theorem rollKeepsSums : Obligations.RollKeepsSums := by
  intro c y sumA sumB
  have oldest : (c.window[c.position]).toNat = c.byteAt 0 := by simp only [ChunkerContext.byteAt, add_zero]
  have plain := c.plainSum_eq_oldest_add
  have plainAfter := c.plainSum_roll y
  have weighted := c.weightedSum_eq_oldest_add
  have weightedAfter := c.weightedSum_roll y
  have rolledA : (c.roll y).sumA = (c.roll y).plainSum := by
    change c.sumA + y.toNat - (c.window[c.position]).toNat = _
    omega
  have rolledB : (c.roll y).sumB = (c.roll y).weightedSum := by
    change c.sumB + (c.roll y).sumA - 32 * (c.window[c.position]).toNat = _
    omega
  dsimp only
  rw [oldest, rolledA, rolledB, sumA, sumB]
  exact ⟨rfl, rfl, by omega, by omega, rfl, rfl, (c.roll y).plainSum_le, (c.roll y).weightedSum_le⟩

end Sys2Proof.Machine
end

