-- ==== Sys2Proof/Proofs/DigestBlocks.lean ====
section
/-! PROOFS. The running digest (R31, R35): what it holds after a number of bytes, and that its end is the hash of the padded
message. -/

namespace Sys2Proof.Machine

/-! ## Blocks of a message that grows by a byte -/

/-- The bytes behind the last whole block (R31). -/
def partialBlock (bytes : List Byte) : List Byte := bytes.drop (bytes.length / 64 * 64)

theorem partialBlock_length (bytes : List Byte) : (partialBlock bytes).length = bytes.length % 64 := by
  rw [partialBlock, List.length_drop]
  omega

section Grows

variable {bytes : List Byte} {y : Byte}

/-- The whole blocks of a message stay so when a byte is added. -/
theorem blocksOf_snoc_take : (List.range (bytes.length / 64)).map (fun k => ((bytes ++ [y]).drop (64 * k)).take 64) =
    blocksOf bytes := by
  refine List.map_congr_left (fun k hk => ?_)
  have inside : 64 * k + 64 ≤ bytes.length := by
    have := List.mem_range.1 hk
    omega
  rw [List.drop_append_of_le_length (by omega), List.take_append_of_le_length (by rw [List.length_drop]; omega)]

theorem partialBlock_snoc_of_ne (h : (partialBlock bytes ++ [y]).length ≠ 64) :
    blocksOf (bytes ++ [y]) = blocksOf bytes ∧ partialBlock (bytes ++ [y]) = partialBlock bytes ++ [y] := by
  simp only [List.length_append, partialBlock_length, List.length_singleton] at h
  have blocks : (bytes ++ [y]).length / 64 = bytes.length / 64 := by
    simp only [List.length_append, List.length_singleton]
    omega
  refine ⟨?_, ?_⟩
  · rw [blocksOf, blocks, blocksOf_snoc_take]
  · rw [partialBlock, blocks, List.drop_append_of_le_length (by omega), partialBlock]

theorem partialBlock_snoc_of_eq (h : (partialBlock bytes ++ [y]).length = 64) :
    blocksOf (bytes ++ [y]) = blocksOf bytes ++ [partialBlock bytes ++ [y]] ∧ partialBlock (bytes ++ [y]) = [] := by
  simp only [List.length_append, partialBlock_length, List.length_singleton] at h
  have blocks : (bytes ++ [y]).length / 64 = bytes.length / 64 + 1 := by
    simp only [List.length_append, List.length_singleton]
    omega
  refine ⟨?_, ?_⟩
  · rw [blocksOf, blocks, List.range_succ, List.map_append, blocksOf_snoc_take, List.map_singleton,
      List.drop_append_of_le_length (by omega), partialBlock, mul_comm 64, List.take_of_length_le]
    simp only [List.length_append, List.length_drop, List.length_singleton]
    omega
  · rw [partialBlock, blocks]
    refine List.drop_eq_nil_of_le ?_
    simp only [List.length_append, List.length_singleton]
    omega

end Grows

/-! ## The running digest -/

theorem Digest.feedAll_append (d : Digest) (xs ys : List Byte) : d.feedAll (xs ++ ys) = (d.feedAll xs).feedAll ys :=
  List.foldl_append

/-- After a number of bytes: the whole blocks compressed, the bytes behind them, and how many it took (R31). -/
theorem Digest.feedAll_initial (bytes : List Byte) : Digest.initial.feedAll bytes =
    { chain := (blocksOf bytes).foldl Chain.compress Chain.initial, block := partialBlock bytes, taken := bytes.length } := by
  induction bytes using List.reverseRecOn with
  | nil => rfl
  | append_singleton bytes y ih =>
    rw [Digest.feedAll_append, ih]
    change Digest.feed _ y = _
    simp only [Digest.feed, List.length_append (bs := [y]), List.length_singleton]
    split
    next full =>
      obtain ⟨blocks, rest⟩ := partialBlock_snoc_of_eq (y := y) (by simpa using full)
      rw [blocks, rest, List.foldl_append]
      rfl
    next more =>
      obtain ⟨blocks, rest⟩ := partialBlock_snoc_of_ne (y := y) (by simpa using more)
      rw [blocks, rest]

/-- The model's padding completes the padded message (R35). -/
theorem paddedMessage_eq (bytes : List Byte) : paddedMessage bytes = bytes ++ shaPadding (bytes.length % 64) bytes.length := by
  simp [paddedMessage, shaPadding]

theorem paddedMessage_length_mod (bytes : List Byte) : (paddedMessage bytes).length % 64 = 0 := by
  simp only [paddedMessage, List.length_append, List.length_singleton, List.length_replicate, List.length_map,
    List.length_range]
  omega

/-- Settles O22: what the digest holds, by induction on the bytes fed; its end is the same digest fed the padding too. -/
theorem digestHashesTheChunk : Obligations.DigestHashesTheChunk := by
  intro bytes
  have held := Digest.feedAll_initial bytes
  refine ⟨?_, paddedMessage_length_mod bytes, ?_, ?_, ?_⟩
  · have padding : shaPadding (Digest.initial.feedAll bytes).block.length (Digest.initial.feedAll bytes).taken =
        shaPadding (bytes.length % 64) bytes.length := by rw [held, partialBlock_length]
    rw [Digest.finish, padding, ← Digest.feedAll_append, ← paddedMessage_eq, Digest.feedAll_initial]
  · rw [held]
  · rw [held, partialBlock]
  · rw [held]

end Sys2Proof.Machine
end

