-- ==== Sys2Proof/Proofs/SettingsTaken.lean ====
section
/-! PROOFS. The settings taken from an image (R163, R176): fields and clamps. -/

namespace Sys2Proof.Machine

/-! ## Fields and clamps -/

theorem leNat_lt (bytes : List Byte) : leNat bytes < 256 ^ bytes.length := by
  induction bytes with
  | nil => exact Nat.one_pos
  | cons b rest ih =>
    have := b.isLt
    simp only [leNat, List.length_cons, Nat.pow_succ]
    omega

/-- A field is below what its width holds. -/
theorem imageField_lt (image : List Byte) (offset width : Nat) : imageField image offset width < 256 ^ width :=
  (leNat_lt _).trans_le (Nat.pow_le_pow_right (by decide) (List.length_take_le _ _))

/-- A field of one byte is that byte. -/
theorem imageField_one {image : List Byte} {offset : Nat} (inside : offset < image.length) :
    imageField image offset 1 = (image.getD offset 0).toNat := by
  have alone : (image.drop offset).take 1 = [image[offset]] := by
    rw [List.drop_eq_getElem_cons inside, List.take_succ_cons, List.take_zero]
  rw [imageField, alone, List.getD_eq_getElem _ _ inside]
  exact Nat.add_zero _

theorem clampedTo_clampTo {low high : Nat} (range : low ≤ high) (v : Nat) : clampedTo low high v (clampTo low high v) := by
  simp only [clampedTo, clampTo]
  omega

theorem clampTo_mem {low high : Nat} (range : low ≤ high) (v : Nat) : low ≤ clampTo low high v ∧ clampTo low high v ≤ high := by
  simp only [clampTo]
  omega

/-- A field that its width keeps below the upper end of a range is only raised to the lower one. -/
theorem clampedTo_max {low high v : Nat} (below : v ≤ high) : clampedTo low high v (max low v) := by
  simp only [clampedTo]
  omega

theorem clampedTo_min (high v : Nat) : clampedTo 0 high v (min high v) := by
  simp only [clampedTo]
  omega

theorem imageValid_iff (acknowledged : Bool) (image : List Byte) :
    imageValid acknowledged image = true ↔ acknowledged = true ∧ image.length = 64 ∧ imageField image 0 2 = 0x5D2A := by
  simp [imageValid, and_assoc]

theorem sealModeOf_eq (n : Nat) : sealModeOf n = if n = 0 then .off else if n = 2 then .drive else .follow := by
  unfold sealModeOf
  split <;> simp_all

theorem creditOf_eq (n : Nat) :
    creditOf n = if n = 1 then .four else if n = 2 then .sixteen else if n = 3 then .thirtyTwo else .off := by
  unfold creditOf
  split <;> simp_all

/-! ## The settings taken -/

/-- Every setting is within its range (R28, R40, R68, R118, R122, R135, R163). -/
def Settings.InRange (t : Settings) : Prop :=
  t.station.toNat ≤ 15 ∧ 10 ≤ t.sealP ∧ t.sealP ≤ 255 ∧ 1 ≤ t.sealC ∧ t.sealC ≤ 65535 ∧
  20 ≤ t.compareA ∧ t.compareA ≤ 5000 ∧ t.compareA + 20 ≤ t.compareB ∧ t.compareB ≤ 20000 ∧
  256 ≤ t.lMin ∧ t.lMin ≤ 16384 ∧ t.lMin ≤ t.lMax ∧ t.lMax ≤ 65536 ∧ t.lMin ≤ t.nT ∧ t.nT ≤ t.lMax ∧
  8 ≤ t.exponent ∧ t.exponent ≤ 15 ∧ 12 ≤ t.indexExponent ∧ t.indexExponent ≤ 20 ∧
  64 ≤ t.slots ∧ t.slots ≤ 4096 ∧ t.slotsLow ≤ t.slots ∧
  t.recipeBase % 64 = 0 ∧ t.recipeSize % 64 = 0 ∧ t.recipeBase < 4294967296 ∧ t.recipeSize < 4294967296

theorem Settings.inRange_defaults : Settings.defaults.InRange := by
  simp only [Settings.InRange, Settings.defaults]
  decide

section OfImage

variable (image : List Byte)

theorem Settings.ofImage_station : (Settings.ofImage image).station.toNat = min 15 (imageField image 2 1) := by
  simp only [Settings.ofImage, BitVec.toNat_ofNat]
  omega

theorem Settings.ofImage_incarnation : (Settings.ofImage image).incarnation.toNat = imageField image 4 2 :=
  Nat.mod_eq_of_lt (imageField_lt image 4 2)

theorem Settings.inRange_ofImage : (Settings.ofImage image).InRange := by
  have sealP := imageField_lt image 6 1
  have sealC := imageField_lt image 8 2
  have base := imageField_lt image 32 4
  have size := imageField_lt image 36 4
  obtain ⟨lowA, highA⟩ := clampTo_mem (low := 20) (high := 5000) (by decide) (imageField image 10 2)
  obtain ⟨lowMin, highMin⟩ := clampTo_mem (low := 256) (high := 16384) (by decide) (imageField image 16 4)
  obtain ⟨lowMax, highMax⟩ := clampTo_mem (highMin.trans (by decide : 16384 ≤ 65536)) (imageField image 24 4)
  have compareB := clampTo_mem (show clampTo 20 5000 (imageField image 10 2) + 20 ≤ 20000 by omega) (imageField image 12 2)
  have nT := clampTo_mem lowMax (imageField image 20 4)
  have exponent := clampTo_mem (low := 8) (high := 15) (by decide) (imageField image 7 1)
  have indexExponent := clampTo_mem (low := 12) (high := 20) (by decide) (imageField image 14 1)
  have slots := clampTo_mem (low := 64) (high := 4096) (by decide) (imageField image 28 2)
  rw [Settings.InRange, Settings.ofImage_station]
  refine ⟨min_le_left _ _, le_max_left _ _, max_le (by decide) (Nat.le_of_lt_succ sealP), le_max_left _ _,
    max_le (by decide) (Nat.le_of_lt_succ sealC), lowA, highA, compareB.1, compareB.2, lowMin, highMin, lowMax, highMax,
    nT.1, nT.2, exponent.1, exponent.2, indexExponent.1, indexExponent.2, slots.1, slots.2, min_le_left _ _,
    Nat.mul_mod_left _ _, Nat.mul_mod_left _ _, ?_, ?_⟩
  · exact (Nat.div_mul_le_self _ _).trans_lt base
  · exact (Nat.div_mul_le_self _ _).trans_lt size

end OfImage

theorem Settings.load_of_valid {acknowledged : Bool} {image : List Byte}
    (valid : acknowledged = true ∧ image.length = 64 ∧ imageField image 0 2 = 0x5D2A) :
    Settings.load acknowledged image = Settings.ofImage image := if_pos ((imageValid_iff _ _).2 valid)

theorem Settings.load_of_invalid {acknowledged : Bool} {image : List Byte}
    (invalid : ¬ (acknowledged = true ∧ image.length = 64 ∧ imageField image 0 2 = 0x5D2A)) :
    Settings.load acknowledged image = Settings.defaults := if_neg (fun h => invalid ((imageValid_iff _ _).1 h))

theorem Settings.inRange_load (acknowledged : Bool) (image : List Byte) : (Settings.load acknowledged image).InRange := by
  by_cases valid : acknowledged = true ∧ image.length = 64 ∧ imageField image 0 2 = 0x5D2A
  · rw [Settings.load_of_valid valid]
    exact Settings.inRange_ofImage image
  · rw [Settings.load_of_invalid valid]
    exact Settings.inRange_defaults

/-- Settles O5: field by field, each clamp a clamp to the statement's range. -/
theorem settingsInRange : Obligations.SettingsInRange := by
  intro acknowledged image
  refine ⟨Settings.inRange_load acknowledged image, fun valid => ?_, fun invalid => Settings.load_of_invalid invalid⟩
  rw [Settings.load_of_valid valid, Settings.ofImage_station, Settings.ofImage_incarnation]
  obtain ⟨-, -, -, -, -, -, highA, -, -, -, highMin, lowMax, -⟩ := Settings.inRange_ofImage image
  refine ⟨clampedTo_min 15 _, rfl, sealModeOf_eq _, clampedTo_max (Nat.le_of_lt_succ (imageField_lt image 6 1)),
    clampedTo_max (Nat.le_of_lt_succ (imageField_lt image 8 2)), clampedTo_clampTo (by decide) _,
    clampedTo_clampTo (by omega) _, clampedTo_clampTo (by decide) _, clampedTo_clampTo (by omega) _,
    clampedTo_clampTo lowMax _, clampedTo_clampTo (by decide) _, clampedTo_clampTo (by decide) _,
    clampedTo_clampTo (by decide) _, clampedTo_min _ _, creditOf_eq _, rfl, rfl, rfl, ?_⟩
  exact (imageField_one (by rw [valid.2.1]; decide)).symm

end Sys2Proof.Machine
end

