-- ==== Sys2Proof/Proofs/UnitsIdle.lean ====
section
/-! PROOFS. Outside RUNNING and HOLDING no unit's event occurs (R23, R42, R162; log entry 2). -/

namespace Sys2Proof.Machine

/-- Outside RUNNING no stream is eligible (R19). -/
theorem State.not_mayBeAssigned_of_idle {s : State} (idle : s.active = false) (i : Fin 16) : ¬ s.mayBeAssigned i := by
  rintro ⟨running, -⟩
  simp [State.active, running] at idle

/-- Settles O53: the arbiter finds no eligible stream, and every other unit's event asks first whether the station is at
work. -/
theorem idleUnitsDoNothing : Obligations.IdleUnitsDoNothing := by
  intro s e tag slot offset bit idle
  have arbiter : exec .engineAssign s = .next s :=
    exec_engineAssign_of_none (.inl (State.nextStream_eq_none (State.not_mayBeAssigned_of_idle idle)))
  rw [List.forall_mem_cons]
  refine ⟨arbiter, ?_⟩
  simp only [List.forall_mem_cons, List.not_mem_nil, false_imp_iff, implies_true, and_true]
  and_intros
  all_goals simp [exec, execEngineTakeByte, execFingerprintComplete, execIndexServiceStart, execScrubStepStart,
    execResolutionLookupComplete, execAnswerLookupComplete, execInsertComplete, execScrubStepComplete, execCompareAExpiry,
    execCompareBExpiry, execAppendComplete, execAttemptStart, execFrameComplete, execCollision, execJamEnd,
    execSealTimerExpiry, execDriveEnd, execPulseDetected, idle]

end Sys2Proof.Machine
end

