-- ==== Sys2Proof/Proofs/CloseWhileFlushed.lean ====
section
/-! PROOFS. The end of a stream at its CLOSE fails as a statement about every state, on the same kind of state as in
FlushedWhileOpen: the flush queue already names the stream's container while it is still OPEN with an append in flight.
CLOSE completion only notes the seal request, but in the same step the IDLE port finds the queued flush, its range check
fails (R148) and the container is LOST, where the statement says it stays OPEN and seal requested. No run reaches such a
state, and no hypothesis of the statement excludes it. -/

namespace Sys2Proof.Machine

/-- The CLOSE of a stream that sent nothing else. -/
def closeEntry : QueueEntry := { slot := 0, sequence := 1, kind := .close }

/-- Stream 0, CLOSING, with container 5 as its current one, no chunk left and its CLOSE at the head of its queue. -/
def closeQueued : Stream := { Stream.initial with state := .closing, current := some 5, queue := [closeEntry] }

/-- Stream 0 is the first in turn, since the stream assigned last is stream 15. -/
theorem flushedWhileOpen_firstInTurn : (flushedWhileOpen closeQueued .idle).firstInTurn 0 := by
  refine ⟨⟨rfl, .inr rfl, List.cons_ne_nil _ _, by decide, .inr ⟨0, fun _ => ?_⟩⟩, fun j _ => ?_⟩
  · exact fun h => absurd h List.not_mem_nil
  · exact Fin.zero_le _

theorem closeAtHead_loses_container {t : State} (h : exec .engineAssign (flushedWhileOpen closeQueued .idle) = .next t) :
    (t.container 5).state = .lost := by
  obtain rfl := Host.Outcome.next.inj h
  decide +kernel

/-- Refutes O18: the CLOSING stream's container, with an append in flight, is LOST in the step of its CLOSE completion when
the flush queue names it already and the range check fails; the statement has it OPEN and seal requested. -/
theorem not_engineEndsStreamAtClose : ¬ Obligations.EngineEndsStreamAtClose := by
  intro h
  obtain ⟨t, ran, -, -, -, -, -, -, complete, -⟩ := h (flushedWhileOpen closeQueued .idle) 0 closeEntry
    flushedWhileOpen_firstInTurn ⟨0, rfl⟩ rfl rfl (fun p begun => absurd begun (Option.some_ne_none p).symm)
  obtain ⟨normal, -⟩ := complete rfl rfl rfl rfl
  obtain ⟨sealed, -⟩ := normal rfl rfl rfl
  exact State.not_sealTaken_of_lost (closeAtHead_loses_container ran) (sealed 5 rfl)

end Sys2Proof.Machine
end

