-- ==== Sys2Proof/Proofs/BoundsKept.lean ====
section
/-! PROOFS. What a part of a step may do to index memory and to the bounded queues without breaking what every step keeps of
them (R41, R42, R50, R54, R85, R96, R169). -/

namespace Sys2Proof.Machine

/-! ## Buckets -/

theorem bucketSound_nil : bucketSound [] := ⟨Nat.zero_le _, List.nodup_nil⟩

theorem bucketSound.sublist {l k : List IndexEntry} (h : bucketSound k) (sub : l.Sublist k) : bucketSound l :=
  ⟨sub.length_le.trans h.1, h.2.sublist (sub.map _)⟩

theorem bucketSound.append {l : List IndexEntry} {e : IndexEntry} (h : bucketSound l) (room : l.length < 8)
    (new : ∀ x ∈ l, x.fingerprint ≠ e.fingerprint) : bucketSound (l ++ [e]) := by
  refine ⟨by simpa using room, ?_⟩
  rw [List.map_append, List.map_singleton, ← List.concat_eq_append]
  refine h.2.concat ?_
  simpa using new

/-- An insert leaves at most 8 entries, no two with one fingerprint (R50). -/
theorem bucketSound.insertInto {l : List IndexEntry} (h : bucketSound l) (e : IndexEntry) :
    bucketSound (insertInto l e).1 := by
  have others : bucketSound (l.filter (fun x => x.fingerprint ≠ e.fingerprint)) := h.sublist List.filter_sublist
  have new : ∀ x ∈ l.filter (fun x => x.fingerprint ≠ e.fingerprint), x.fingerprint ≠ e.fingerprint := by simp
  have most := others.1
  simp only [Machine.insertInto]
  split
  next full =>
    refine (others.sublist (List.tail_sublist _)).append ?_ (fun x hx => new x (List.mem_of_mem_tail hx))
    rw [List.length_tail]
    omega
  next room => exact others.append (Nat.lt_of_not_le room) new

/-! ## The queues of the peer bus -/

/-- What every step keeps of the transmit and answer queues (R85, R96). -/
def PeerBus.Fits (b : PeerBus) : Prop := b.txQueue.length ≤ 32 ∧ b.answerQueue.length ≤ 32

theorem PeerBus.Fits.enqueue {b : PeerBus} (h : b.Fits) (room : b.txQueue.length < 32) (f : Frame) : (b.enqueue f).Fits :=
  ⟨by simpa [PeerBus.enqueue] using room, h.2⟩

theorem PeerBus.length_lt_of_room {b : PeerBus} (h : b.room = true) : b.txQueue.length < 32 := by
  simp only [PeerBus.room, Bool.and_eq_true, decide_eq_true_eq] at h
  exact h.1

theorem PeerBus.Fits.handAsk {b : PeerBus} (h : b.Fits) (tag : Byte) (f : Fingerprint) : (b.handAsk tag f).Fits := by
  simp only [PeerBus.handAsk]
  split
  next room => exact h.enqueue (PeerBus.length_lt_of_room room) _
  next => exact h

theorem PeerBus.Fits.handOrDrop {b : PeerBus} (h : b.Fits) (f : Frame) : (b.handOrDrop f).Fits := by
  simp only [PeerBus.handOrDrop]
  split
  next room => exact h.enqueue (PeerBus.length_lt_of_room room) _
  next => exact h

/-- The places freed are taken, and no more (R86). -/
theorem PeerBus.Fits.refill {b : PeerBus} (h : b.Fits) : b.refill.Fits := by
  refine ⟨?_, h.2⟩
  have most := h.1
  simp only [PeerBus.refill, List.length_append, List.length_map, List.length_take]
  omega

theorem PeerBus.Fits.removeAsk {b : PeerBus} (h : b.Fits) (tag : Byte) (f : Fingerprint) : (b.removeAsk tag f).Fits :=
  PeerBus.Fits.refill (b := { b with
    txQueue := b.txQueue.filter (fun t => !t.removable tag f)
    askHolding := b.askHolding.filter (fun p => p ≠ (tag, f)) }) ⟨(List.length_filter_le _ _).trans h.1, h.2⟩

theorem PeerBus.Fits.dropHead {b : PeerBus} (h : b.Fits) : b.dropHead.Fits := by
  have tail : ({ b with txQueue := b.txQueue.tail } : PeerBus).Fits :=
    ⟨by rw [List.length_tail]; exact (Nat.sub_le _ _).trans h.1, h.2⟩
  exact tail.refill

theorem PeerBus.Fits.countAttempt {b : PeerBus} (h : b.Fits) : b.countAttempt.Fits := by
  refine ⟨?_, h.2⟩
  have most := h.1
  simp only [PeerBus.countAttempt]
  split
  · exact Nat.zero_le _
  next queue => simpa [queue] using most

/-! ## Parts of a step -/

/-- The report queue holds at most 32 reports, and reports are held only while it is full (R169). -/
def State.reportsFit (s : State) : Prop :=
  s.management.reports.length ≤ 32 ∧ (s.management.held ≠ [] → s.management.reports.length = 32)

/-- A part of a step that keeps the buckets sound and the queues within their bounds. -/
structure State.Keeps (s t : State) : Prop where
  buckets : s.bucketsSound → t.bucketsSound
  requests : s.requestQueueFits → t.requestQueueFits
  bus : s.bus.Fits → t.bus.Fits
  reports : s.reportsFit → t.reportsFit

/-- What the bounds are read from. -/
def State.boundFields (s : State) :=
  ((s.index.buckets, s.station, s.settings, s.clearPosition), s.index.queue, (s.bus.txQueue, s.bus.answerQueue),
    (s.management.reports, s.management.held, s.management.fresh))

/-- Index memory stands, and so do the buckets in use (R54). -/
theorem State.bucketsSound.of_eq {s t : State} (h : s.bucketsSound) (buckets : t.index.buckets = s.index.buckets)
    (settings : t.settings = s.settings) (position : t.clearPosition = s.clearPosition)
    (active : t.active = true → s.active = true) (clearing : t.station = .clearing → s.station = .clearing) :
    t.bucketsSound := by
  have same : ∀ b, t.bucket b = s.bucket b := fun b => by simp only [State.bucket, buckets]
  refine ⟨fun now b => ?_, fun now b => ?_⟩
  · rw [same, settings]
    exact h.1 (active now) b
  · rw [same, position]
    exact h.2 (clearing now) b

/-- In RESET and LOADING no bucket is in use (R54, R162). -/
theorem State.bucketsSound_of_unused {s : State} (h : s.station = .reset ∨ s.station = .loading) : s.bucketsSound := by
  refine ⟨fun active => ?_, fun clearing => ?_⟩
  · rcases h with h | h <;> simp [State.active, h] at active
  · rcases h with h | h <;> simp [h] at clearing

/-- One bucket is rewritten and stays sound. -/
theorem State.bucketsSound.setBucket {s : State} (h : s.bucketsSound) {b : Nat} {entries : List IndexEntry}
    (sound : bucketSound (s.bucket b) → bucketSound entries) : (s.setBucket b entries).bucketsSound := by
  have each : ∀ k, bucketSound (s.bucket k) → bucketSound ((s.setBucket b entries).bucket k) := by
    intro k hk
    rw [State.bucket_setBucket]
    split
    next e => exact sound (e ▸ hk)
    next => exact hk
  exact ⟨fun active k lt => each k (h.1 active k lt), fun clearing k lt => each k (h.2 clearing k lt)⟩

theorem State.Keeps.of_eq {s t : State} (h : t.boundFields = s.boundFields) : s.Keeps t := by
  simp only [State.boundFields, Prod.mk.injEq] at h
  obtain ⟨⟨buckets, station, settings, position⟩, requests, ⟨frames, answers⟩, reports, held, -⟩ := h
  constructor
  · exact fun sound => sound.of_eq buckets settings position (by simp only [State.active, station, imp_self])
      (by rw [station]; exact id)
  · simp only [State.requestQueueFits, requests, imp_self]
  · simp only [PeerBus.Fits, frames, answers, imp_self]
  · simp only [State.reportsFit, reports, held, imp_self]

theorem State.Keeps.trans {s t u : State} (h : s.Keeps t) (g : t.Keeps u) : s.Keeps u :=
  ⟨g.buckets ∘ h.buckets, g.requests ∘ h.requests, g.bus ∘ h.bus, g.reports ∘ h.reports⟩

/-- The same with the last part of the work first. -/
theorem State.Keeps.after {s t u : State} (g : t.Keeps u) (h : s.Keeps t) : s.Keeps u := h.trans g

theorem State.Keeps.fold {β : Type} {f : State → β → State} (h : ∀ (s : State) b, s.Keeps (f s b)) (l : List β) (s : State) :
    s.Keeps (l.foldl f s) := by
  induction l generalizing s with
  | nil => exact .of_eq rfl
  | cons b rest ih => exact (h s b).trans (ih _)

/-- Only the peer bus has changed, of what the bounds are read from. -/
theorem State.Keeps.of_bus {s t : State} (h : ({ t with bus := s.bus } : State).boundFields = s.boundFields)
    (fits : s.bus.Fits → t.bus.Fits) : s.Keeps t :=
  { State.Keeps.of_eq h with bus := fits }

/-- Only the request queue has changed, of what the bounds are read from. -/
theorem State.Keeps.of_requests {s t : State}
    (h : ({ t with index := { t.index with queue := s.index.queue } } : State).boundFields = s.boundFields)
    (fits : s.requestQueueFits → t.requestQueueFits) : s.Keeps t :=
  { State.Keeps.of_eq h with requests := fits }

/-- Only the report queues have changed, of what the bounds are read from. -/
theorem State.Keeps.of_reports {s t : State} (h : ({ t with management := s.management } : State).boundFields = s.boundFields)
    (fits : s.reportsFit → t.reportsFit) : s.Keeps t :=
  { State.Keeps.of_eq h with reports := fits }

theorem State.makeReport_keeps (s : State) (r : Report) : s.Keeps (s.makeReport r) := .of_reports rfl id

/-! ### Index memory and requests -/

theorem State.setBucket_keeps {s : State} {b : Nat} {entries : List IndexEntry}
    (sound : bucketSound (s.bucket b) → bucketSound entries) : s.Keeps (s.setBucket b entries) :=
  ⟨fun h => h.setBucket sound, id, id, id⟩

/-- Lazy removal only shortens a bucket (R45). -/
theorem State.removeDead_keeps (s : State) (b : Nat) : s.Keeps (s.removeDead b) :=
  State.setBucket_keeps (fun h => h.sublist List.filter_sublist)

/-- A request enters only a queue with room (R43). -/
theorem Index.make_length (x : Index) (p : Producer) (r : IndexRequest) (h : x.queue.length ≤ 64) :
    (x.make p r).queue.length ≤ 64 := by
  simp only [Index.make]
  split
  next room => simpa [Index.enter] using room.2
  next => cases p <;> exact h

theorem Index.make_buckets (x : Index) (p : Producer) (r : IndexRequest) : (x.make p r).buckets = x.buckets := by
  simp only [Index.make]
  split
  · rfl
  · cases p <;> rfl

theorem State.makeRequest_keeps (s : State) (p : Producer) (r : IndexRequest) : s.Keeps (s.makeRequest p r) :=
  .of_requests (by simp [State.boundFields, State.makeRequest, Index.make_buckets]) (s.index.make_length p r)

/-- At most one held request takes the slot freed (R43). -/
theorem Index.refill_length (x : Index) : x.refill.queue.length ≤ x.queue.length + 1 := by
  simp only [Index.refill]
  split
  · exact Nat.le_succ _
  · simp [Index.enter]
  · simp [Index.enter]
  · split <;> simp [Index.enter]

theorem Index.refill_buckets (x : Index) : x.refill.buckets = x.buckets := by
  simp only [Index.refill]
  split
  · rfl
  · rfl
  · rfl
  · split <;> rfl

/-! ### The Resolution Unit -/

theorem State.handAsk_keeps {s t : State} {tag : Byte} {f : Fingerprint} (bus : t.bus = s.bus.handAsk tag f)
    (h : ({ t with bus := s.bus } : State).boundFields = s.boundFields) : s.Keeps t :=
  .of_bus h (fun fits => bus ▸ fits.handAsk tag f)

theorem State.removeAsk_keeps {s t : State} {tag : Byte} {f : Fingerprint} (bus : t.bus = s.bus.removeAsk tag f)
    (h : ({ t with bus := s.bus } : State).boundFields = s.boundFields) : s.Keeps t :=
  .of_bus h (fun fits => bus ▸ fits.removeAsk tag f)

theorem State.joinAsk_keeps (s : State) (e : AskEntry) (w : Waiter) : s.Keeps (s.joinAsk e w) := .of_eq rfl

theorem State.makeAsk_keeps (s : State) (f : Fingerprint) (w : Waiter) : s.Keeps (s.makeAsk f w) :=
  State.handAsk_keeps rfl rfl

theorem State.recheck_keeps (s : State) (f : Fingerprint) (w : Waiter) : s.Keeps (s.recheck f w) := by
  simp only [State.recheck]
  split
  · exact s.joinAsk_keeps _ w
  · split
    · exact s.makeAsk_keeps f w
    · exact .of_eq rfl

theorem State.workWaitQueueUpTo_keeps (s : State) (n : Nat) : s.Keeps (s.workWaitQueueUpTo n) := by
  induction n generalizing s with
  | zero => exact .of_eq rfl
  | succ n ih =>
    have left : ∀ rest, s.Keeps { s with resolution := { s.resolution with waitQueue := rest } } := fun _ => .of_eq rfl
    simp only [State.workWaitQueueUpTo]
    split
    · exact .of_eq rfl
    · split
      · exact .of_eq rfl
      · split
        · exact (ih _).after ((State.joinAsk_keeps _ _ _).after (left _))
        · split
          · exact (ih _).after ((State.makeAsk_keeps _ _ _).after (left _))
          · exact .of_eq rfl

theorem State.freeAsk_keeps (s : State) (e : AskEntry) : s.Keeps (s.freeAsk e) :=
  (State.workWaitQueueUpTo_keeps _ _).after (State.removeAsk_keeps rfl rfl)

theorem State.requestAppend_keeps (s : State) (r : AppendRequest) : s.Keeps (s.requestAppend r) :=
  .of_eq (by simp [State.boundFields])

theorem State.storeOrFree_keeps (s : State) (e : AskEntry) : s.Keeps (s.storeOrFree e) := by
  simp only [State.storeOrFree]
  split
  · exact s.freeAsk_keeps e
  · exact (State.requestAppend_keeps _ _).after (.of_eq rfl)

theorem State.resolveAll_keeps (s : State) (ws : List Waiter) (d : Disposition) (l : Location) (b : Option Bool) :
    s.Keeps (s.resolveAll ws d l b) := .of_eq (by simp [State.boundFields])

theorem State.remoteFound_keeps (s : State) (f : Fingerprint) (l : Location) (b : Bool) : s.Keeps (s.remoteFound f l b) := by
  simp only [State.remoteFound]
  split
  · exact .of_eq rfl
  · split
    · exact .of_eq rfl
    · exact (State.freeAsk_keeps _ _).after (s.resolveAll_keeps _ _ _ _)

theorem State.yieldTo_keeps (s : State) (sender : Byte) (f : Fingerprint) : s.Keeps (s.yieldTo sender f) := by
  simp only [State.yieldTo]
  split
  · exact .of_eq rfl
  · split
    · exact State.removeAsk_keeps rfl rfl
    · exact .of_eq rfl

theorem State.withdrawFor_keeps (s : State) (tag : Byte) : s.Keeps (s.withdrawFor tag) := by
  simp only [State.withdrawFor]
  split
  · exact .of_eq rfl
  · exact (State.storeOrFree_keeps _ _).after (.of_eq rfl)

theorem State.anyOrder_boundFields {α : Type} (s : State) (l : List α) : (s.anyOrder l).2.boundFields = s.boundFields := by
  simp only [State.anyOrder]
  split <;> rfl

theorem State.dropWaiters_keeps (s : State) (i : Fin 16) : s.Keeps (s.dropWaiters i) :=
  (State.Keeps.fold State.withdrawFor_keeps _ _).after (.of_eq ((s.removeWaiters i).anyOrder_boundFields _))

/-! ### Streams -/

theorem State.modStream_keeps (s : State) (i : Fin 16) (f : Stream → Stream) : s.Keeps (s.modStream i f) := .of_eq rfl

theorem State.voidLookups_keeps (s : State) (i : Fin 16) : s.Keeps { s with index := s.index.voidLookups i } :=
  .of_requests rfl (fun fits => by simpa [State.requestQueueFits, Index.voidLookups] using fits)

theorem State.tearDown_keeps (s : State) (i : Fin 16) (fate : DigestFate) : s.Keeps (s.tearDown i fate) := by
  have sealed : ∀ u : State, u.Keeps (u.sealCurrent i .abort) := fun u => .of_eq (by simp [State.boundFields])
  have discarded : ∀ u : State, u.Keeps (u.discardPending i) := fun u => .of_eq (by simp [State.boundFields])
  have stopped : s.Keeps { s.stopEngines i with digestQueue := dropDigests i fate s.digestQueue } := .of_eq rfl
  simp only [State.tearDown]
  exact (sealed _).after ((State.modStream_keeps _ _ _).after ((discarded _).after ((State.dropWaiters_keeps _ i).after
    ((State.voidLookups_keeps _ i).after stopped))))

theorem State.abortRelease_keepsBounds (s : State) (i : Fin 16) : s.Keeps (s.abortRelease i) := by
  simp only [State.abortRelease]
  split
  · exact s.makeReport_keeps _
  · exact .of_eq rfl

theorem State.closeCheck_keeps (s : State) (i : Fin 16) : s.Keeps (s.closeCheck i) := by
  have sealed : s.Keeps (s.sealCurrent i .close) := .of_eq (by simp [State.boundFields])
  simp only [State.closeCheck]
  split
  · split
    · split
      · exact sealed.trans (.of_eq rfl)
      · exact .of_eq rfl
    · split
      · exact .of_eq rfl
      · exact s.makeReport_keeps _
  · exact .of_eq rfl

/-! ### The last part of a step -/

/-- Reports are made in the looks of a step, and none is placed. -/
theorem State.AddsLost.keeps {s t : State} (h : s.AddsLost t)
    (same : ({ t with management := s.management } : State).boundFields = s.boundFields) : s.Keeps t := by
  obtain ⟨reports, held, -⟩ := h
  exact .of_reports same (by simp only [State.reportsFit, reports, held, imp_self])

theorem State.looked_keeps (s : State) : s.Keeps s.looked :=
  s.looked_addsLost.keeps (by simp [State.boundFields, State.looked])

theorem State.flushOutcome_keeps (s : State) (slot : Nat) (error : Bool) : s.Keeps (s.flushOutcome slot error) :=
  (s.flushOutcome_addsLost slot error).keeps (by simp [State.boundFields])

/-- A report enters only a queue with room and none held (R169). -/
theorem State.placeReport_keeps (s : State) (r : Report) : s.Keeps (s.placeReport r) := by
  refine .of_reports (by simp [State.boundFields]) (fun fits => ?_)
  by_cases room : s.management.held = [] ∧ s.management.reports.length < 32
  · rw [State.placeReport_of_room room.1 room.2]
    refine ⟨by simpa [State.enterReport] using room.2, fun held => absurd ?_ held⟩
    simpa [State.enterReport] using room.1
  · have full : s.management.held ≠ [] ∨ 32 ≤ s.management.reports.length := by
      by_contra none
      push Not at none
      exact room none
    rw [State.placeReport_of_full full]
    exact ⟨fits.1, fun _ => full.elim fits.2 (fun long => le_antisymm fits.1 long)⟩

theorem State.foldl_placeReport_fresh (l : List Report) (s : State) :
    (l.foldl State.placeReport s).management.fresh = s.management.fresh := by
  refine foldl_keep (fun t => t.management.fresh) State.placeReport (fun s r => ?_) s l
  simp only [State.placeReport]
  split
  · simp [State.enterReport]
  · rfl

theorem State.placeReports_keeps (s : State) : s.Keeps s.placeReports := by
  refine (State.Keeps.fold State.placeReport_keeps _ _).after (.of_reports ?_ ?_) <;> rw [State.reportOrder_state]
  · rfl
  · exact id

/-- None is left unplaced (R169). -/
theorem State.placeReports_fresh (s : State) : s.placeReports.management.fresh = [] := by
  rw [State.placeReports, State.foldl_placeReport_fresh, State.reportOrder_state]

/-- A whole step that keeps the bounds and leaves no report unplaced. -/
structure State.Concludes (s t : State) : Prop where
  keeps : s.Keeps t
  fresh : s.management.fresh = [] → t.management.fresh = []

theorem State.Concludes.of_eq {s t : State} (h : t.boundFields = s.boundFields) : s.Concludes t where
  keeps := .of_eq h
  fresh := by
    simp only [State.boundFields, Prod.mk.injEq] at h
    obtain ⟨-, -, -, -, -, fresh⟩ := h
    rw [fresh]
    exact id

/-- A part that makes no report. -/
theorem State.Concludes.of_keeps {s t : State} (h : s.Keeps t) (e : t.management = s.management) : s.Concludes t :=
  ⟨h, by rw [e]; exact id⟩

theorem State.Concludes.trans {s t u : State} (h : s.Concludes t) (g : t.Concludes u) : s.Concludes u :=
  ⟨h.keeps.trans g.keeps, g.fresh ∘ h.fresh⟩

/-- The same with the last part of the work first. -/
theorem State.Concludes.after {s t u : State} (g : t.Concludes u) (h : s.Concludes t) : s.Concludes u := h.trans g

theorem State.refresh_concludes (s : State) : s.Concludes s.refresh := .of_eq rfl

/-- The reports of a step placed, and the flags after them. -/
theorem State.Keeps.conclude {s t : State} (h : s.Keeps t) : s.Concludes t.conclude where
  keeps := (State.refresh_concludes _).keeps.after ((State.placeReports_keeps _).after h)
  fresh _ := t.placeReports.refresh_fresh.trans t.placeReports_fresh

theorem State.Keeps.settle {s t : State} (h : s.Keeps t) : s.Concludes t.settle :=
  t.settle_eq_looked ▸ (t.looked_keeps.after h).conclude

theorem State.Keeps.settleCompletion {s t : State} (h : s.Keeps t) : s.Concludes t.settleCompletion := by
  have served : t.Keeps t.serveOpenWait.emitRecords := .of_eq (by simp [State.boundFields])
  have looked := (t.serveOpenWait.emitRecords.arbitrate_addsLost t.serveOpenWait.emitRecords.looks).keeps
    (by simp [State.boundFields])
  exact (looked.after (served.after h)).conclude

end Sys2Proof.Machine
end

