-- ==== Sys2Proof/Proofs/BoundsStay.lean ====
section
/-! PROOFS. Command by command: every one keeps the buckets in use sound and the queues within their bounds, and leaves no
report unplaced (R41, R42, R50, R54, R85, R96, R169). -/

namespace Sys2Proof.Machine

section Commands

variable {s t : State}

/-! ### The intake link -/

theorem State.reply_keeps (s : State) (b : Byte) (k : SegmentKind) (q : Half) (r : ReplyStatus) (n : Nat) :
    s.Concludes (s.reply b k q r n) := .of_eq rfl

theorem State.replyFor_keeps (s : State) (i : Fin 16) (k : SegmentKind) (q : Half) (r : ReplyStatus) :
    s.Concludes (s.replyFor i k q r) := .of_eq rfl

theorem State.intakeGate_concludes {b : Byte} {k : SegmentKind} {q : Half} {own : Fin 16 → State}
    (h : ∀ i, s.Concludes (own i)) : s.Concludes (s.intakeGate b k q own) := by
  simp only [State.intakeGate]
  split
  · exact .of_eq rfl
  · split
    · exact s.reply_keeps _ _ _ _ _
    · split
      · exact s.reply_keeps _ _ _ _ _
      · split
        · exact s.replyFor_keeps _ _ _ _
        · exact h _

theorem State.takeOpen_concludes (s : State) (i : Fin 16) (q : Half) (branch base size : Word) :
    s.Concludes (s.takeOpen i q branch base size) := by
  simp only [State.takeOpen]
  split
  · exact s.replyFor_keeps _ _ _ _
  · split
    · exact s.replyFor_keeps _ _ _ _
    · split
      · exact s.replyFor_keeps _ _ _ _
      · exact .of_eq rfl

theorem State.acceptData_concludes (s : State) (i : Fin 16) (q : Half) (payload : List Byte) :
    s.Concludes (s.acceptData i q payload) := by
  simp only [State.acceptData]
  rw [State.addBytes_same]
  exact .of_eq rfl

theorem State.takeData_concludes (s : State) (i : Fin 16) (q : Half) (payload : List Byte) :
    s.Concludes (s.takeData i q payload) := by
  simp only [State.takeData]
  split
  · exact s.replyFor_keeps _ _ _ _
  · repeat' split
    · exact s.replyFor_keeps _ _ _ _
    · exact s.replyFor_keeps _ _ _ _
    · exact s.replyFor_keeps _ _ _ _
    · exact s.replyFor_keeps _ _ _ _
    · exact (s.acceptData_concludes i q payload).trans (State.replyFor_keeps _ _ _ _ _)

theorem State.takeClose_concludes (s : State) (i : Fin 16) (q : Half) : s.Concludes (s.takeClose i q) := by
  simp only [State.takeClose]
  split
  · exact s.replyFor_keeps _ _ _ _
  · repeat' split
    · exact s.replyFor_keeps _ _ _ _
    · exact s.replyFor_keeps _ _ _ _
    · exact .of_eq rfl

/-- Withdrawing a held report leaves the rest held only behind a full queue (R12, R169). -/
theorem State.withdrawClosed_keeps (s : State) (i : Fin 16) : s.Keeps (s.withdrawClosed i) := by
  refine .of_reports rfl (fun fits => ⟨fits.1, fun some => fits.2 (fun none => some ?_)⟩)
  simp only [State.withdrawClosed, none, List.filter_nil]

theorem State.abortNow_concludes (s : State) (i : Fin 16) : s.Concludes (s.abortNow i) := by
  simp only [State.abortNow]
  exact State.Keeps.settle ((State.reply_keeps _ _ _ _ _ _).keeps.after ((State.abortRelease_keepsBounds _ i).after
    ((State.tearDown_keeps _ i .awaited).after ((State.withdrawClosed_keeps _ i).after (s.modStream_keeps i _)))))

theorem State.takeAbort_concludes (s : State) (i : Fin 16) : s.Concludes (s.takeAbort i) := by
  simp only [State.takeAbort]
  split
  · exact s.reply_keeps _ _ _ _ _
  · exact s.reply_keeps _ _ _ _ _
  · exact s.abortNow_concludes i
  · exact s.abortNow_concludes i
  · exact s.abortNow_concludes i

/-! ### The station states -/

theorem State.askRound_keeps (s : State) : s.Keeps s.askRound := .of_eq (by simp [State.boundFields])

/-- After RESET nothing is in use and every queue is empty (R55, R100, R162). -/
theorem execResetAssert_concludes (h : execResetAssert s = .next t) : s.Concludes t := by
  obtain rfl := Host.Outcome.next.inj h
  exact ⟨⟨fun _ => State.bucketsSound_of_unused (.inl rfl), fun _ => Nat.zero_le _,
    fun _ => ⟨Nat.zero_le _, Nat.zero_le _⟩, fun _ => ⟨Nat.zero_le _, fun held => absurd rfl held⟩⟩, fun _ => rfl⟩

theorem execResetRelease_concludes (h : execResetRelease s = .next t) : s.Concludes t := by
  obtain rfl := Host.Outcome.next.inj h
  split
  · exact ⟨⟨fun _ => State.bucketsSound_of_unused (.inr rfl), id, id, id⟩, id⟩
  · exact .of_eq rfl

/-- The clear walk begins with no bucket passed (R54). -/
theorem execSettingsLoaded_concludes {a : Bool} {image : List Byte} (h : execSettingsLoaded a image s = .next t) :
    s.Concludes t := by
  obtain rfl := Host.Outcome.next.inj h
  split
  · have loaded : ∀ settings, s.Concludes (s.loadSettings settings) := fun settings =>
      ⟨⟨fun _ => ⟨fun active => absurd active (by decide : ¬ (false = true)), fun _ b lt => absurd lt (Nat.not_lt_zero b)⟩,
        id, id, id⟩, id⟩
    refine State.Concludes.after ?_ (loaded (Settings.load a image))
    split <;> exact .of_eq rfl
  · exact .of_eq rfl

/-- The bucket of the clear walk is emptied, and those passed before stay sound (R54). -/
theorem State.bucketsSound.cleared (h : s.bucketsSound) (clearing : s.station = .clearing) {b : Nat}
    (lt : b < s.clearPosition + 1) : bucketSound ((s.setBucket s.clearPosition []).bucket b) := by
  rw [State.bucket_setBucket]
  split
  · exact bucketSound_nil
  next other => exact h.2 clearing b (by omega)

theorem State.clearWalk_keeps (clearing : s.station = .clearing) :
    s.Keeps { s.setBucket s.clearPosition [] with clearPosition := s.clearPosition + 1 } := by
  refine ⟨fun sound => ⟨fun active => ?_, fun _ b lt => sound.cleared clearing lt⟩, id, id, id⟩
  simp only [State.active, State.setBucket_station, clearing] at active
  exact absurd active (by decide)

/-- After the last bucket every bucket in use has been emptied (R54, R162). -/
theorem State.enterRunning_keeps (clearing : s.station = .clearing) (all : 2 ^ s.settings.indexExponent ≤ s.clearPosition) :
    s.Keeps s.enterRunning :=
  ⟨fun sound => ⟨fun _ b lt => sound.2 clearing b (lt.trans_le all), fun c => StationState.noConfusion c⟩, id, id, id⟩

/-- Between RUNNING and HOLDING the buckets in use are the same. -/
theorem State.Concludes.of_active (active : s.active = true) (now : t.station = .running ∨ t.station = .holding)
    (h : ({ t with station := s.station } : State).boundFields = s.boundFields) : s.Concludes t := by
  obtain ⟨⟨buckets, requests, bus, reports⟩, fresh⟩ := State.Concludes.of_eq h
  refine ⟨⟨fun sound => ⟨fun _ => (buckets sound).1 active, fun clearing => ?_⟩, requests, bus, reports⟩, fresh⟩
  rw [clearing] at now
  exact absurd now (by decide)

theorem State.enterHolding_keeps (running : s.station = .running) : s.Keeps s.enterHolding := by
  have holding : s.Concludes { s with station := .holding } :=
    .of_active (by simp [State.active, running]) (.inr rfl) rfl
  exact (State.askRound_keeps _).after holding.keeps

theorem execClearWalkStep_concludes (h : execClearWalkStep s = .next t) : s.Concludes t := by
  obtain rfl := Host.Outcome.next.inj h
  dsimp only
  split
  next clearing =>
    have cleared := State.clearWalk_keeps clearing
    split
    · exact .of_keeps cleared rfl
    next last =>
      have running := (State.enterRunning_keeps (s := { s.setBucket s.clearPosition [] with
        clearPosition := s.clearPosition + 1 }) clearing (Nat.le_of_not_lt last)).after cleared
      split
      · exact ((State.enterHolding_keeps rfl).after running).settle
      · exact (State.refresh_concludes _).after (.of_keeps running rfl)
  · exact .of_eq rfl

theorem execHoldAssert_concludes (h : execHoldAssert s = .next t) : s.Concludes t := by
  obtain rfl := Host.Outcome.next.inj h
  split
  next running =>
    exact State.Keeps.settle ((State.enterHolding_keeps (s := { s with hold := true }) running).after (.of_eq rfl))
  · exact .of_eq rfl

theorem execHoldRelease_concludes (h : execHoldRelease s = .next t) : s.Concludes t := by
  obtain rfl := Host.Outcome.next.inj h
  split
  next holding => exact .of_active (by simp [State.active, holding]) (.inl rfl) rfl
  · exact .of_eq rfl

/-! ### Chunking and fingerprints -/

theorem State.endChunk_keeps (s : State) (i : Fin 16) (p : Fin 32) (d : Digest) : s.Concludes (s.endChunk i p d) :=
  .of_eq rfl

theorem State.closeHead_concludes (s : State) (i : Fin 16) : s.Concludes (s.closeHead i) := by
  simp only [State.closeHead]
  refine State.Keeps.settle ((State.closeCheck_keeps _ i).after ((State.modStream_keeps _ i _).after
    ((State.modStream_keeps _ i _).after ?_)))
  split
  · split
    · exact (s.endChunk_keeps i _ _).keeps
    · exact .of_eq rfl
  · exact .of_eq rfl

theorem execEngineAssign_concludes (h : execEngineAssign s = .next t) : s.Concludes t := by
  have turned : ∀ i, s.Concludes { s with lastAssigned := i } := fun _ => .of_eq rfl
  obtain rfl := Host.Outcome.next.inj h
  split
  · simp only [State.assign]
    split
    · exact .of_eq rfl
    · exact (turned _).trans (State.closeHead_concludes _ _)
    · exact .of_eq rfl
  · exact .of_eq rfl

theorem State.consumeEntry_concludes (s : State) (e : Fin 4) (i : Fin 16) (c : ChunkerContext) :
    s.Concludes (s.consumeEntry e i c) := by
  simp only [State.consumeEntry]
  rw [State.creditNotice_same]
  exact .of_eq rfl

theorem State.takeByte_concludes (s : State) (e : Fin 4) (i : Fin 16) (c : ChunkerContext) (p : Fin 32) (y : Byte)
    (position length : Nat) : s.Concludes (s.takeByte e i c p y position length) := by
  have ended : ∀ (u : State) d b, u.Concludes (if b = true then u.endChunk i p d else u) := by
    intro u d b
    split
    · exact u.endChunk_keeps i p d
    · exact .of_eq rfl
  have taken : ∀ staging, s.Concludes { s.modStream i (fun x => x.modSlot p (fun q => { q with length := q.length + 1 })) with
      staging := staging } := fun _ => .of_eq rfl
  have set : ∀ (u : State) x, u.Concludes (u.setEngine e x) := fun _ _ => .of_eq rfl
  simp only [State.takeByte]
  split
  · exact (State.consumeEntry_concludes _ _ _ _).after ((ended _ _ _).after (taken _))
  · exact (set _ _).after ((ended _ _ _).after (taken _))

theorem State.allocate_concludes (s : State) (i : Fin 16) (p : Fin 32) (c : ChunkerContext) :
    s.Concludes (s.allocate i p c).1 := by
  simp only [State.allocate]
  rw [State.sequenceAfter_same]
  exact .of_eq rfl

theorem State.engineStep_concludes (s : State) (e : Fin 4) : s.Concludes (s.engineStep e) := by
  simp only [State.engineStep]
  repeat' split
  · exact .of_eq rfl
  · exact .of_eq rfl
  · exact .of_eq rfl
  · exact s.takeByte_concludes _ _ _ _ _ _ _
  · exact .of_eq rfl
  · exact (s.allocate_concludes _ _ _).trans (State.takeByte_concludes _ _ _ _ _ _ _ _)
  · exact .of_eq rfl

theorem State.checkChunk_concludes (s : State) (w : Waiter) (f : Fingerprint) (q : Word) :
    s.Concludes (s.checkChunk w f q) := by
  simp only [State.checkChunk]
  split
  · exact .of_keeps (s.joinAsk_keeps _ _) rfl
  · exact .of_keeps (s.makeRequest_keeps _ _) rfl

theorem State.completeDigest_concludes (s : State) (j : DigestJob) (rest : List DigestJob) :
    s.Concludes (s.completeDigest j rest) := by
  simp only [State.completeDigest]
  split
  · exact State.Keeps.conclude ((State.abortRelease_keepsBounds _ _).after (.of_eq rfl))
  · split
    · exact .of_eq rfl
    · exact (State.checkChunk_concludes _ _ _ _).after (.of_eq rfl)

theorem execFingerprintComplete_concludes (h : execFingerprintComplete s = .next t) : s.Concludes t := by
  obtain rfl := Host.Outcome.next.inj h
  split
  · split
    · exact .of_eq rfl
    · exact s.completeDigest_concludes _ _
  · exact .of_eq rfl

/-! ### The Chunk Index -/

theorem execIndexServiceStart_concludes (h : execIndexServiceStart s = .next t) : s.Concludes t := by
  obtain rfl := Host.Outcome.next.inj h
  split
  next r rest _ _ queue =>
    refine .of_keeps (.of_requests (by simp [State.boundFields, Index.refill_buckets]) (fun fits => ?_)) rfl
    refine (Index.refill_length _).trans ?_
    simpa [State.requestQueueFits, queue] using fits
  · exact .of_eq rfl

theorem execScrubStepStart_concludes (h : execScrubStepStart s = .next t) : s.Concludes t := by
  obtain rfl := Host.Outcome.next.inj h
  split <;> exact .of_eq rfl

/-- A request or a scrub step is over and its bucket is tidied (R45). -/
theorem State.tidy_keeps (s : State) (b : Nat) : s.Keeps (s.removeDead b).endService :=
  (s.removeDead_keeps b).trans (.of_eq rfl)

theorem State.resolveSurvey_keeps (s : State) (w : Waiter) (hit : Bool) : s.Keeps (s.resolveSurvey w hit) :=
  (State.closeCheck_keeps _ _).after (s.modStream_keeps _ _)

theorem State.takeLookup_keeps (s : State) (f : Fingerprint) (w : Waiter) (kind : StreamKind) (hit : Option IndexEntry) :
    s.Keeps (s.takeLookup f w kind hit) := by
  simp only [State.takeLookup]
  split
  · split
    · exact s.resolveSurvey_keeps w true
    · exact .of_eq rfl
  · split
    · exact s.resolveSurvey_keeps w false
    · exact s.recheck_keeps f w

theorem execResolutionLookupComplete_concludes (h : execResolutionLookupComplete s = .next t) : s.Concludes t := by
  obtain rfl := Host.Outcome.next.inj h
  dsimp only
  split
  · split
    · exact .of_keeps (s.tidy_keeps _) rfl
    · exact ((State.takeLookup_keeps _ _ _ _ _).after (s.tidy_keeps _)).settle
  · exact .of_eq rfl

theorem State.makeAnswer_concludes (s : State) : s.Concludes s.makeAnswer := by
  have outstanding : s.Concludes { s with bus := { s.bus with answerOutstanding := true } } := .of_eq rfl
  simp only [State.makeAnswer]
  split
  · exact .of_eq rfl
  · split
    · exact .of_eq rfl
    · exact outstanding.trans (.of_keeps (State.makeRequest_keeps _ _ _) rfl)

theorem execAnswerLookupComplete_concludes (h : execAnswerLookupComplete s = .next t) : s.Concludes t := by
  obtain rfl := Host.Outcome.next.inj h
  split
  next f asker tag _ _ =>
    refine (State.makeAnswer_concludes _).after (.of_keeps (State.Keeps.after (.of_bus rfl (fun fits => ?_))
      (s.tidy_keeps (s.bucketNumber f))) rfl)
    have answered : ∀ hit : Option IndexEntry, (match hit with
        | some e => s.bus.handOrDrop (s.haveFor f asker tag e)
        | none => s.bus).Fits := by
      intro hit
      cases hit with
      | some e => exact PeerBus.Fits.handOrDrop fits _
      | none => exact fits
    exact ⟨(answered _).1, by rw [List.length_tail]; exact (Nat.sub_le _ _).trans (answered _).2⟩
  · exact .of_eq rfl

theorem State.resolveStored_keeps (s : State) (ws : List Waiter) (l : Location) : s.Keeps (s.resolveStored ws l) := by
  cases ws with
  | nil => exact .of_eq rfl
  | cons w rest => exact (State.resolveAll_keeps _ _ _ _ _).after (.of_eq rfl)

theorem State.takeInsert_keeps (s : State) (slot ordinal : Nat) (tag : Byte) : s.Keeps (s.takeInsert slot ordinal tag) := by
  have lowered : ∀ u : State, u.Keeps (u.lowerReferences slot) := fun _ => .of_eq rfl
  simp only [State.takeInsert]
  split
  · exact lowered s
  · split
    · exact (State.freeAsk_keeps _ _).after ((lowered _).after (s.resolveStored_keeps _ _))
    · exact (State.storeOrFree_keeps _ _).after (lowered s)

theorem execInsertComplete_concludes (h : execInsertComplete s = .next t) : s.Concludes t := by
  obtain rfl := Host.Outcome.next.inj h
  dsimp only
  split
  · have placed : ∀ b e, s.Keeps ((s.setBucket b (insertInto (s.liveEntries b) e).1).endService) := fun b e =>
      (State.setBucket_keeps (fun sound => (sound.sublist List.filter_sublist).insertInto e)).trans (.of_eq rfl)
    refine State.Keeps.settle ((State.takeInsert_keeps _ _ _ _).after ?_)
    split
    · exact (placed _ _).trans (.of_eq rfl)
    · exact placed _ _
  · exact .of_eq rfl

/-- Every fold over the walk's slots keeps what the bounds are read from, but the reports made. -/
theorem State.endWalk_keepsBounds (s : State) : s.Keeps s.endWalk := by
  simp only [State.endWalk]
  have freed : ∀ (u : State) k, u.Keeps (u.setContainer k Container.initial) := fun _ _ => .of_eq rfl
  have turned : ∀ (u : State) c w, u.Keeps { u with containers := c, walker := w } := fun _ _ _ => .of_eq rfl
  exact (State.Keeps.fold (fun s k => s.makeReport_keeps _) _ _).after
    ((turned _ _ _).after (State.Keeps.fold freed _ s))

theorem execScrubStepComplete_concludes (h : execScrubStepComplete s = .next t) : s.Concludes t := by
  obtain rfl := Host.Outcome.next.inj h
  dsimp only
  split
  · have moved : ∀ b, s.Keeps { (s.removeDead b).endService with walker :=
        { (s.removeDead b).endService.walker with position := (s.removeDead b).endService.walker.position + 1 } } :=
      fun b => (s.tidy_keeps b).trans (.of_eq rfl)
    split
    · exact .of_keeps (moved _) rfl
    · exact ((State.endWalk_keepsBounds _).after (moved _)).settle
  · exact .of_eq rfl

/-! ### The ask timers and appends -/

theorem execCompareAExpiry_concludes {tag : Byte} (h : execCompareAExpiry tag s = .next t) : s.Concludes t := by
  obtain rfl := Host.Outcome.next.inj h
  split
  · split
    · simp only [State.compareA]
      split
      next room => exact .of_keeps (.of_bus rfl (fun fits => PeerBus.Fits.enqueue fits room _)) rfl
      next => exact .of_eq rfl
    · exact .of_eq rfl
  · exact .of_eq rfl

theorem execCompareBExpiry_concludes {tag : Byte} (h : execCompareBExpiry tag s = .next t) : s.Concludes t := by
  obtain rfl := Host.Outcome.next.inj h
  split
  · split
    · split
      · exact State.Keeps.settle ((State.storeOrFree_keeps _ _).after (State.removeAsk_keeps rfl rfl))
      · exact .of_eq rfl
    · exact .of_eq rfl
  · exact .of_eq rfl

theorem State.copyAppend_keeps (s : State) (c : Container) (a : Append) : s.Keeps (s.copyAppend c a) := by
  rw [State.copyAppend_same]
  exact .of_eq rfl

theorem State.appendDone_keeps (s : State) (slot ordinal : Nat) (a : Append) : s.Keeps (s.appendDone slot ordinal a) := by
  have claimed : ∀ (u : State) f, u.Keeps { u with bus := u.bus.handOrDrop f } :=
    fun u f => .of_bus rfl (fun fits => fits.handOrDrop f)
  simp only [State.appendDone]
  refine (claimed _ _).after ((State.makeRequest_keeps _ _ _).after ?_)
  split <;> exact .of_eq rfl

theorem State.sealAfterAppend_keeps (s : State) (slot : Nat) : s.Keeps (s.sealAfterAppend slot) := by
  simp only [State.sealAfterAppend]
  split
  · exact .of_eq rfl
  · split
    · exact .of_eq (by simp [State.boundFields])
    · split
      · exact .of_eq (by simp [State.boundFields])
      · exact .of_eq rfl

theorem execAppendComplete_concludes {slot offset : Nat} (h : execAppendComplete slot offset s = .next t) :
    s.Concludes t := by
  have counted : ∀ (u : State) c, u.Keeps (u.setContainer slot c) := fun _ _ => .of_eq rfl
  obtain rfl := Host.Outcome.next.inj h
  split
  · exact State.Keeps.settle ((State.abortRelease_keepsBounds _ _).after ((State.sealAfterAppend_keeps _ slot).after
      ((State.appendDone_keeps _ slot _ _).after ((counted _ _).after (s.copyAppend_keeps _ _)))))
  · exact .of_eq rfl

/-! ### The peer bus -/

theorem execAttemptStart_concludes (h : execAttemptStart s = .next t) : s.Concludes t := by
  obtain rfl := Host.Outcome.next.inj h
  split
  · split
    · exact .of_keeps (.of_bus rfl (fun fits => PeerBus.Fits.countAttempt fits)) rfl
    · exact .of_eq rfl
  · exact .of_eq rfl

theorem State.headLeaves_concludes (s : State) (f : TxFrame) : s.Concludes (s.headLeaves f) := by
  have dropped : s.Concludes { s with bus := s.bus.dropHead } :=
    .of_keeps (.of_bus rfl (fun fits => fits.dropHead)) rfl
  simp only [State.headLeaves]
  split
  · exact dropped.trans (.of_eq (by simp [State.boundFields]))
  · exact dropped
  · exact dropped

theorem execFrameComplete_concludes (h : execFrameComplete s = .next t) : s.Concludes t := by
  obtain rfl := Host.Outcome.next.inj h
  split
  · exact (State.headLeaves_concludes _ _).after (.of_eq rfl)
  · exact .of_eq rfl

theorem execCollision_concludes {bit : Nat} (h : execCollision bit s = .next t) : s.Concludes t := by
  obtain rfl := Host.Outcome.next.inj h
  split
  · split <;> exact .of_eq rfl
  · exact .of_eq rfl

theorem execJamEnd_concludes (h : execJamEnd s = .next t) : s.Concludes t := by
  have abandoned : ∀ u : State, u.Concludes (u.latch .busAbandon).refresh := fun _ => .of_eq rfl
  obtain rfl := Host.Outcome.next.inj h
  dsimp only
  split
  · split
    · exact .of_eq rfl
    · exact (abandoned _).after ((State.headLeaves_concludes _ _).after (.of_eq rfl))
  · exact .of_eq rfl

theorem execFrameBegins_concludes (h : execFrameBegins s = .next t) : s.Concludes t := by
  obtain rfl := Host.Outcome.next.inj h
  split <;> exact .of_eq rfl

theorem State.endReception_concludes (s : State) (bits : Nat) : s.Concludes (s.endReception bits) := by
  simp only [State.endReception]
  split <;> exact .of_eq rfl

/-- An ASK enters the answer queue only while that has room (R96). -/
theorem State.dispatchAsk_concludes (s : State) (sender tag : Byte) (f : Fingerprint) :
    s.Concludes (s.dispatchAsk sender tag f) := by
  have yielded : s.Concludes (s.yieldTo sender f) := .of_keeps (s.yieldTo_keeps sender f) (by simp)
  simp only [State.dispatchAsk]
  split
  next passes =>
    simp only [Bool.and_eq_true, decide_eq_true_eq] at passes
    obtain ⟨-, room⟩ := passes
    have entered : ∀ a, (s.yieldTo sender f).Concludes { s.yieldTo sender f with bus := { (s.yieldTo sender f).bus with
        answerQueue := (s.yieldTo sender f).bus.answerQueue ++ [a] } } := fun a =>
      .of_keeps (.of_bus rfl (fun fits => ⟨fits.1, by simpa using room⟩)) rfl
    exact (yielded.trans (entered _)).trans (State.makeAnswer_concludes _)
  next => exact yielded

theorem State.receive_concludes (s : State) (r : Received) : s.Concludes (s.receive r) := by
  simp only [State.receive]
  split
  · exact .of_eq rfl
  · split
    · exact .of_eq rfl
    · cases r with
      | ask => exact s.dispatchAsk_concludes _ _ _
      | holds => exact State.Keeps.settle (s.remoteFound_keeps _ _ _)
      | claim => exact State.Keeps.settle (s.remoteFound_keeps _ _ _)

theorem State.frameEnds_concludes (s : State) (r : Received) (bits : Nat) : s.Concludes (s.frameEnds r bits) := by
  simp only [State.frameEnds]
  split
  · exact (s.endReception_concludes bits).trans (State.receive_concludes _ r)
  · exact s.endReception_concludes bits

theorem execCandidateFrame_concludes {bits : List Bool} (h : execCandidateFrame bits s = .next t) : s.Concludes t := by
  obtain rfl := Host.Outcome.next.inj h
  split
  · exact s.frameEnds_concludes _ _
  · exact s.endReception_concludes _

/-! ### The seal line -/

theorem execSealTimerExpiry_concludes (h : execSealTimerExpiry s = .next t) : s.Concludes t := by
  obtain rfl := Host.Outcome.next.inj h
  split <;> exact .of_eq rfl

theorem execDriveEnd_concludes (h : execDriveEnd s = .next t) : s.Concludes t := by
  obtain rfl := Host.Outcome.next.inj h
  split <;> exact .of_eq rfl

theorem execPulseDetected_concludes (h : execPulseDetected s = .next t) : s.Concludes t := by
  obtain rfl := Host.Outcome.next.inj h
  dsimp only
  split
  · by_cases off : s.sealUnit.mode = .off
    · rw [if_pos off]
      exact .of_eq rfl
    · rw [if_neg off]
      exact State.Keeps.settle ((State.askRound_keeps _).after (.of_eq rfl))
  · exact .of_eq rfl

theorem execSealLineHigh_concludes (h : execSealLineHigh s = .next t) : s.Concludes t := by
  obtain rfl := Host.Outcome.next.inj h
  split <;> exact .of_eq rfl

/-! ### The store port -/

theorem State.faultStream_keeps (s : State) (i : Fin 16) : s.Keeps (s.faultStream i) :=
  (State.makeReport_keeps _ _).after ((State.tearDown_keeps _ i .dropped).after (s.modStream_keeps i _))

theorem State.recordChunk_keeps (s : State) (i : Fin 16) : s.Keeps (s.recordChunk i) := by
  simp only [State.recordChunk]
  split
  · exact .of_eq rfl
  · exact (State.modStream_keeps _ i _).after (.of_eq (by simp [State.boundFields]))

theorem State.recordWritten_keeps (s : State) (i : Fin 16) (kind : RecordKind) : s.Keeps (s.recordWritten i kind) := by
  simp only [State.recordWritten]
  cases kind with
  | chunk => exact (State.closeCheck_keeps _ i).after ((State.modStream_keeps _ i _).after (s.recordChunk_keeps i))
  | mark => exact (State.closeCheck_keeps _ i).after (s.modStream_keeps i _)
  | last => exact (State.makeReport_keeps _ _).after (s.modStream_keeps i _)

theorem State.recipeCompleted_keeps (s : State) (i : Fin 16) (kind : RecordKind) (error : Bool) :
    s.Keeps (s.recipeCompleted i kind error) := by
  have done : s.Keeps (if error then s.faultStream i else s.recordWritten i kind) := by
    split
    · exact s.faultStream_keeps i
    · exact s.recordWritten_keeps i kind
  simp only [State.recipeCompleted]
  split
  · exact done
  · exact done
  · exact (State.abortRelease_keepsBounds _ i).after (s.modStream_keeps i _)
  · exact .of_eq rfl
  · exact .of_eq rfl

theorem State.burstCompleted_keeps (s : State) (f : ActiveFlush) (error : Bool) : s.Keeps (s.burstCompleted f error) := by
  simp only [State.burstCompleted]
  split
  · exact .of_eq rfl
  · exact (State.flushOutcome_keeps _ _ _).after (.of_eq rfl)

theorem execCompletion_concludes {status : Byte} (h : execCompletion status s = .next t) : s.Concludes t := by
  have freed : s.Keeps { s with store := { s.store with port := .idle } } := .of_eq rfl
  obtain rfl := Host.Outcome.next.inj h
  dsimp only
  split
  · exact .of_eq rfl
  · refine State.Keeps.settleCompletion ((State.recipeCompleted_keeps _ _ _ _).after ?_)
    split
    · exact freed.trans (.of_eq rfl)
    · exact freed
  · split
    · exact freed.settleCompletion
    · exact ((State.burstCompleted_keeps _ _ _).after freed).settleCompletion

/-! ### The management port -/

theorem State.commandGate_concludes {own : State} (h : s.Concludes own) : s.Concludes (s.commandGate own) := by
  simp only [State.commandGate]
  split
  · exact .of_eq rfl
  · split
    · exact .of_eq rfl
    · exact h

/-- A place freed in the report queue is taken by a report that was held (R169). -/
theorem State.popReport_concludes (s : State) : s.Concludes s.popReport := by
  have answered : ∀ (u : State) c data, u.Concludes (u.answer c data).refresh := fun _ _ _ => .of_eq rfl
  simp only [State.popReport]
  split
  · exact .of_eq rfl
  next r rest queue =>
    refine State.Concludes.trans ?_ (answered _ _ _)
    simp only [State.admitHeld]
    split
    next none =>
      refine ⟨.of_reports rfl (fun fits => ⟨?_, fun some => absurd none some⟩), id⟩
      exact (Nat.le_succ _).trans (by simpa [queue] using fits.1)
    next held more some =>
      refine ⟨.of_reports (by simp [State.boundFields]) (fun fits => ?_), fun fresh => by simpa [State.enterReport] using fresh⟩
      have full : s.management.reports.length = 32 := fits.2 (by rw [some]; exact List.cons_ne_nil _ _)
      have again : (rest ++ [held]).length = 32 := by simpa [queue] using full
      refine ⟨?_, fun _ => ?_⟩
      · simpa [State.enterReport] using again.le
      · simpa [State.enterReport] using again

theorem execRecipeTaken_concludes {stream : Byte} {count : Word} (h : execRecipeTaken stream count s = .next t) :
    s.Concludes t := by
  obtain rfl := Host.Outcome.next.inj h
  refine State.commandGate_concludes ?_
  split
  · exact .of_eq rfl
  · exact State.Keeps.settle (.of_eq rfl)

theorem execPurge_concludes {slot : Half} (h : execPurge slot s = .next t) : s.Concludes t := by
  obtain rfl := Host.Outcome.next.inj h
  refine State.commandGate_concludes ?_
  simp only [State.purgeSlot, State.retire]
  repeat' split
  all_goals exact .of_eq rfl

theorem execReadStream_concludes {stream : Byte} (h : execReadStream stream s = .next t) : s.Concludes t := by
  obtain rfl := Host.Outcome.next.inj h
  refine State.commandGate_concludes ?_
  split <;> exact .of_eq rfl

end Commands

/-! ### Every command -/

theorem exec_concludes {c : Instr} {s t : State} (h : exec c s = .next t) : s.Concludes t := by
  cases c with
  | openSegment stream q branch base size =>
    obtain rfl := Host.Outcome.next.inj h
    exact State.intakeGate_concludes (fun i => s.takeOpen_concludes i q branch base size)
  | dataSegment stream q payload =>
    obtain rfl := Host.Outcome.next.inj h
    exact State.intakeGate_concludes (fun i => s.takeData_concludes i q payload)
  | closeSegment stream q =>
    obtain rfl := Host.Outcome.next.inj h
    exact State.intakeGate_concludes (fun i => s.takeClose_concludes i q)
  | abortSegment stream =>
    obtain rfl := Host.Outcome.next.inj h
    exact State.intakeGate_concludes s.takeAbort_concludes
  | malformedSegment =>
    obtain rfl := Host.Outcome.next.inj h
    repeat' split
    all_goals exact .of_eq rfl
  | resetAssert => exact execResetAssert_concludes h
  | resetRelease => exact execResetRelease_concludes h
  | settingsLoaded => exact execSettingsLoaded_concludes h
  | clearWalkStep => exact execClearWalkStep_concludes h
  | holdAssert => exact execHoldAssert_concludes h
  | holdRelease => exact execHoldRelease_concludes h
  | engineAssign => exact execEngineAssign_concludes h
  | engineTakeByte e =>
    obtain rfl := Host.Outcome.next.inj h
    split
    · exact s.engineStep_concludes e
    · exact .of_eq rfl
  | fingerprintComplete => exact execFingerprintComplete_concludes h
  | indexServiceStart => exact execIndexServiceStart_concludes h
  | scrubStepStart => exact execScrubStepStart_concludes h
  | resolutionLookupComplete => exact execResolutionLookupComplete_concludes h
  | answerLookupComplete => exact execAnswerLookupComplete_concludes h
  | insertComplete => exact execInsertComplete_concludes h
  | scrubStepComplete => exact execScrubStepComplete_concludes h
  | compareAExpiry => exact execCompareAExpiry_concludes h
  | compareBExpiry => exact execCompareBExpiry_concludes h
  | appendComplete => exact execAppendComplete_concludes h
  | attemptStart => exact execAttemptStart_concludes h
  | frameComplete => exact execFrameComplete_concludes h
  | collision => exact execCollision_concludes h
  | jamEnd => exact execJamEnd_concludes h
  | askReceived => exact Host.Outcome.next.inj h ▸ s.frameEnds_concludes _ _
  | haveReceived => exact Host.Outcome.next.inj h ▸ s.frameEnds_concludes _ _
  | claimReceived => exact Host.Outcome.next.inj h ▸ s.frameEnds_concludes _ _
  | candidateFrame => exact execCandidateFrame_concludes h
  | sealTimerExpiry => exact execSealTimerExpiry_concludes h
  | driveEnd => exact execDriveEnd_concludes h
  | pulseDetected => exact execPulseDetected_concludes h
  | sealLineHigh => exact execSealLineHigh_concludes h
  | completion => exact execCompletion_concludes h
  | readStatus =>
    obtain rfl := Host.Outcome.next.inj h
    split <;> exact .of_eq rfl
  | readReport => exact Host.Outcome.next.inj h ▸ State.commandGate_concludes s.popReport_concludes
  | ackEvents mask =>
    have acknowledged : s.Concludes (s.acknowledge mask) := .of_eq rfl
    exact Host.Outcome.next.inj h ▸ State.commandGate_concludes acknowledged
  | recipeTaken => exact execRecipeTaken_concludes h
  | purge => exact execPurge_concludes h
  | readStream => exact execReadStream_concludes h
  | unknownCommand =>
    obtain rfl := Host.Outcome.next.inj h
    split <;> exact .of_eq rfl
  | transactionDiscarded => exact Host.Outcome.next.inj h ▸ .of_eq rfl
  | sealLineLow =>
    obtain rfl := Host.Outcome.next.inj h
    exact .of_eq rfl
  | frameBegins => exact execFrameBegins_concludes h

theorem step_concludes {s t : State} (h : step s = .next t) : s.Concludes t := by
  simp only [step] at h
  split at h
  · obtain rfl := Host.Outcome.next.inj h
    exact .of_eq rfl
  next c rest _ => exact State.Concludes.trans (t := { s with pending := rest }) (.of_eq rfl) (exec_concludes h)

/-- Settles O56: every part of every command keeps the buckets in use sound. -/
theorem bucketsStaySound : Obligations.BucketsStaySound := fun _ _ sound stepped => (step_concludes stepped).keeps.buckets sound

/-- Settles O58: every part of every command keeps the queues within their bounds, and each step places its reports. -/
theorem queuesStayBounded : Obligations.QueuesStayBounded := by
  rintro s t ⟨requests, bus, reports, held, fresh⟩ stepped
  have concludes := step_concludes stepped
  obtain ⟨reports', held'⟩ := concludes.keeps.reports ⟨reports, held⟩
  exact ⟨concludes.keeps.requests requests, concludes.keeps.bus bus, reports', held', concludes.fresh fresh⟩

end Sys2Proof.Machine
end

