-- ==== Sys2Proof/Proofs/StationStarts.lean ====
section
/-! PROOFS. RESET and the settings (R54, R55, R100, R133, R135, R162, R163). -/

namespace Sys2Proof.Machine

/-! ## RESET -/

/-- A bucket that nothing was rewriting stands through RESET (R55). -/
theorem State.find_cutBuckets {s : State} {b : Nat} (h : s.bucketInService ≠ some b) :
    Sparse.find [] b s.cutBuckets = s.bucket b := by
  simp only [State.cutBuckets]
  split
  · rfl
  next k served => exact Sparse.find_put_other _ _ _ (fun same => h (same ▸ served))

/-- Of a frame being sent RESET leaves the bits driven (R100). -/
theorem State.bitsCut_sending {s : State} {since : Nat} {head : TxFrame} {rest : List TxFrame}
    (sending : s.bus.transmitter = .sending since) (queue : s.bus.txQueue = head :: rest) :
    s.bitsCut = (bitsOf (head.frame.bytes s.settings.station)).take (s.now - since) :=
  s.bus.drivenBits_sending _ _ since head rest sending queue

/-- Of a jam RESET leaves the bits driven (R82, R100). -/
theorem State.bitsCut_jamming {s : State} {since : Nat} (jamming : s.bus.transmitter = .jamming since) :
    s.bitsCut = ((List.range 32).map (fun k => decide (k % 2 = 0))).take (s.now - since) :=
  s.bus.drivenBits_jamming _ _ since jamming

/-- Settles O4: the reset values by computation, the line and the bits cut by the transmitter's state. -/
theorem resetTakesEveryBlock : Obligations.ResetTakesEveryBlock := by
  refine ⟨fun s reset => ?_, fun s released => ?_, fun s => ⟨_, rfl, rfl, fun b other => State.find_cutBuckets other,
    fun since driven => ?_, fun silent => ?_, fun since head rest sending queue => ?_, fun since jamming => ?_⟩⟩
  · simp [exec, execResetRelease, reset]
  · simp [exec, execResetRelease, released]
  · simp [State.lineAfterReset, driven]
  · have none : s.bitsCut = [] := s.bus.drivenBits_silent _ _ silent
    refine ⟨by simp [none], ?_⟩
    rcases silent with empty | ⟨retry, waiting⟩
    · cases line : s.bus.line <;> simp [State.lineAfterReset, line, empty]
    · cases line : s.bus.line <;> simp [State.lineAfterReset, line, waiting]
  · dsimp only
    rw [← State.bitsCut_sending sending queue]
    exact ⟨rfl, fun idle line => by simp [State.lineAfterReset, line, sending]⟩
  · dsimp only
    rw [← State.bitsCut_jamming jamming]
    exact ⟨rfl, fun idle line => by simp [State.lineAfterReset, line, jamming]⟩

/-! ## The settings -/

/-- Outside HOLDING the station is not QUIET (R165). -/
theorem State.quietHolds_eq_false {s : State} (h : s.station ≠ .holding) : s.quietHolds = false := by
  simp [State.quietHolds, h]

theorem State.attn_refresh_iff (s : State) : s.refresh.management.attn = true ↔
    s.refresh.management.flags &&& s.refresh.settings.enables ≠ 0#8 := by
  rw [State.refresh_attn, decide_eq_true_iff]
  rfl

/-- A refresh outside HOLDING changes the flags, ATTN and QUIET (R165, R168). -/
theorem State.refresh_eq {s : State} (h : s.station ≠ .holding) : s.refresh = { s with
    quiet := false
    management := { s.management with flags := s.refresh.management.flags, attn := s.refresh.management.attn } } := by
  rw [← State.quietHolds_eq_false h]
  rfl

/-- Settles O6. -/
theorem settingsComeIntoForce : Obligations.SettingsComeIntoForce := by
  intro s acknowledged image loading
  set u := s.loadSettings (Settings.load acknowledged image) with loaded
  have ran : exec (.settingsLoaded acknowledged image) s =
      .next (if imageValid acknowledged image then u else u.latch .settingsDefault).refresh := by
    simp only [exec, execSettingsLoaded, loading, if_true, loaded]
  by_cases valid : imageValid acknowledged image = true
  · rw [if_pos valid] at ran
    rw [imageValid_iff] at valid
    refine ⟨_, ran, State.refresh_eq (s := u) (fun h => StationState.noConfusion h), ?_, u.attn_refresh_iff⟩
    rw [State.refresh_latched, if_pos valid, BitVec.or_zero]
    rfl
  · rw [if_neg valid] at ran
    rw [imageValid_iff] at valid
    refine ⟨_, ran, State.refresh_eq (s := u.latch .settingsDefault)
      (fun h => StationState.noConfusion h), ?_, State.attn_refresh_iff _⟩
    rw [State.refresh_latched, if_neg valid, State.latch_flags, BitVec.and_or_distrib_right]
    rfl

end Sys2Proof.Machine
end

