-- ==== Sys2Proof/Proofs/IndexServed.lean ====
section
/-! PROOFS. The Chunk Index at work: the order of service (R42 to R44, R157), lazy removal (R45), and the lookup that answers an
ASK (R47, R96, R97). -/

namespace Sys2Proof.Machine

/-! ## The order of service -/

theorem execIndexServiceStart_eq {s : State} {r : IndexRequest} {rest : List IndexRequest} (active : s.active = true)
    (free : s.index.service = .nothing) (queue : s.index.queue = r :: rest) : exec .indexServiceStart s =
      .next { s with index := ({ s.index with service := .request r, queue := rest } : Index).refill } := by
  simp only [exec, execIndexServiceStart, active, free, queue]

/-- Settles O24: the held requests and the producer that entered last decide what enters. -/
theorem indexServesInOrder : Obligations.IndexServesInOrder := by
  intro s active
  refine ⟨fun r rest free queue => ?_, fun none => ?_, fun walking free empty => ?_, fun none => ?_⟩
  · rw [execIndexServiceStart_eq active free queue]
    refine congrArg (fun x => Host.Outcome.next { s with index := x }) ?_
    simp only [Index.refill]
    cases resolution : s.index.heldResolution with
    | nil =>
      cases answer : s.index.heldAnswer with
      | nil => rfl
      | cons => rfl
    | cons =>
      cases answer : s.index.heldAnswer with
      | nil => rfl
      | cons => cases last : s.index.lastProducer <;> rfl
  · simp only [exec, execIndexServiceStart]
    split
    next free queue => exact (none.elim (absurd free) (fun empty => by rw [empty] at queue; cases queue))
    next => rfl
  · simp [exec, execScrubStepStart, active, walking, free, empty]
  · have not : ¬ (s.active = true ∧ s.walker.state = .walking ∧ s.index.service = .nothing ∧ s.index.queue = []) := by tauto
    simp only [exec, execScrubStepStart, if_neg not]

/-! ## Lazy removal -/

theorem ContainerState.live_iff (c : ContainerState) : c.live = true ↔ c = .opened ∨ c = .seals ∨ c = .sealed := by
  cases c <;> simp [ContainerState.live]

theorem State.isLive_eq_live (s : State) (e : IndexEntry) : s.isLive e = (s.container e.slot).state.live := by
  rw [State.isLive]
  cases (s.container e.slot).state <;> rfl

theorem State.liveEntries_eq (s : State) (b : Nat) : s.liveEntries b = (s.bucket b).filter s.isLive :=
  List.filter_congr (fun e _ => (s.isLive_eq_live e).symm)

/-- Lazy removal, and whatever leaves index memory alone after it, tidies the bucket (R45). -/
theorem State.tidied_of_removeDead {s t : State} {b : Nat} (h : t.index.buckets = (s.removeDead b).index.buckets) :
    s.tidied t b := by
  have same : ∀ a, t.bucket a = if a = b then s.liveEntries b else s.bucket a := by
    intro a
    rw [← State.bucket_setBucket]
    simp only [State.bucket, h]
    rfl
  refine ⟨?_, fun a other => (same a).trans (if_neg other)⟩
  rw [same, if_pos rfl, State.liveEntries_eq]
  rfl

/-- The entry found for a fingerprint is a live one of that fingerprint. -/
theorem State.hitIn_eq_none_iff (s : State) (b : Nat) (f : Fingerprint) :
    hitIn (s.liveEntries b) f = none ↔ ∀ e ∈ s.bucket b, e.fingerprint = f → s.isLive e = false := by
  simp only [hitIn, State.liveEntries_eq, List.find?_eq_none, List.mem_filter, decide_eq_true_eq, and_imp]
  exact forall₂_congr (fun e _ => by cases s.isLive e <;> simp)

/-- In a sound bucket a live entry is the one found for its fingerprint. -/
theorem State.hitIn_eq_some {s : State} {b : Nat} {e : IndexEntry} (sound : bucketSound (s.bucket b))
    (listed : e ∈ s.bucket b) (live : s.isLive e = true) : hitIn (s.liveEntries b) e.fingerprint = some e := by
  rw [State.liveEntries_eq]
  cases found : hitIn ((s.bucket b).filter s.isLive) e.fingerprint with
  | none =>
    rw [← State.liveEntries_eq, State.hitIn_eq_none_iff] at found
    rw [found e listed rfl] at live
    cases live
  | some d =>
    have same : d.fingerprint = e.fingerprint := by simpa using List.find?_some found
    have there : d ∈ s.bucket b := (List.mem_filter.1 (List.mem_of_find?_eq_some found)).1
    rw [List.inj_on_of_nodup_map sound.2 there listed same]

/-! ## The answer lookup -/

/-- What follows a lookup that answered an ASK: the head ASK has left, and a lookup is made for the next (R96). -/
theorem State.makeAnswer_of_free {s : State} (free : s.bus.answerOutstanding = false) : s.makeAnswer =
    match s.bus.answerQueue with
    | [] => s
    | a :: _ => { s with
        bus := { s.bus with answerOutstanding := true }
        index := s.index.withRequest .answer (.answer a.fingerprint a.asker a.tag) } := by
  simp only [State.makeAnswer, free, Bool.false_eq_true, if_false, ← Index.make_eq_withRequest]
  rfl

/-- The bus once an answer lookup has found `hit` (R97). -/
def State.answeredBus (s : State) (f : Fingerprint) (asker tag : Byte) (hit : Option IndexEntry) : PeerBus :=
  match hit with
  | some e => s.bus.handOrDrop (s.haveFor f asker tag e)
  | none => s.bus

theorem PeerBus.withFrame_eq (b : PeerBus) (f : Frame) : b.withFrame f = { b with
    txQueue := b.txQueue ++ [{ frame := f, attempts := 0 }]
    transmitter := if b.transmitter = .empty then .waiting none else b.transmitter } :=
  (b.enqueue_eq_withFrame f).symm

/-- With room the HAVE enters the transmit queue (R86, R97). -/
theorem State.answeredBus_of_room {s : State} {f : Fingerprint} {asker tag : Byte} {e : IndexEntry}
    (room : s.bus.txQueue.length < 32 ∧ s.bus.askHolding = []) : s.answeredBus f asker tag (some e) = { s.bus with
      txQueue := s.bus.txQueue ++ [{ frame := s.haveFor f asker tag e, attempts := 0 }]
      transmitter := if s.bus.transmitter = .empty then .waiting none else s.bus.transmitter } := by
  rw [State.answeredBus, PeerBus.handOrDrop_eq_withHaveOrClaim, PeerBus.withHaveOrClaim, if_pos room, PeerBus.withFrame_eq]

/-- On a miss, and without room, none does (R86, R97). -/
theorem State.answeredBus_of_not {s : State} {f : Fingerprint} {asker tag : Byte} {hit : Option IndexEntry}
    (h : hit = none ∨ ¬ (s.bus.txQueue.length < 32 ∧ s.bus.askHolding = [])) : s.answeredBus f asker tag hit = s.bus := by
  cases hit with
  | none => rfl
  | some e =>
    rw [State.answeredBus, PeerBus.handOrDrop_eq_withHaveOrClaim, PeerBus.withHaveOrClaim,
      if_neg (h.resolve_left (Option.some_ne_none e))]

/-- A HAVE leaves the answer queue alone. -/
theorem State.answeredBus_answerQueue (s : State) (f : Fingerprint) (asker tag : Byte) (hit : Option IndexEntry) :
    (s.answeredBus f asker tag hit).answerQueue = s.bus.answerQueue := by
  by_cases room : s.bus.txQueue.length < 32 ∧ s.bus.askHolding = []
  · cases hit with
    | none => rfl
    | some e => rw [State.answeredBus_of_room room]
  · rw [State.answeredBus_of_not (.inr room)]

/-- The station once an answer lookup is over and its head ASK has left (R45, R96, R97). -/
def State.answered (s : State) (f : Fingerprint) (asker tag : Byte) : State :=
  let bus := s.answeredBus f asker tag (hitIn (s.liveEntries (s.bucketNumber f)) f)
  { (s.removeDead (s.bucketNumber f)).endService with
    bus := { bus with answerQueue := bus.answerQueue.tail, answerOutstanding := false } }

theorem execAnswerLookupComplete_eq {s : State} {f : Fingerprint} {asker tag : Byte} (active : s.active = true)
    (service : s.index.service = .request (.answer f asker tag)) :
    exec .answerLookupComplete s = .next (s.answered f asker tag).makeAnswer := by
  simp only [exec, execAnswerLookupComplete, active, service]
  unfold State.answered State.answeredBus
  cases hitIn (s.liveEntries (s.bucketNumber f)) f <;> rfl

/-- The next lookup touches the requests and the bus alone. -/
theorem State.makeAnswer_changes (s : State) :
    s.makeAnswer = { s with index := s.makeAnswer.index, bus := s.makeAnswer.bus } := by
  simp only [State.makeAnswer]
  split
  · rfl
  · split <;> rfl

theorem State.makeAnswer_bus (s : State) :
    s.makeAnswer.bus = { s.bus with answerOutstanding := s.makeAnswer.bus.answerOutstanding } := by
  simp only [State.makeAnswer]
  split
  · rfl
  · split <;> rfl

theorem State.makeAnswer_buckets (s : State) : s.makeAnswer.index.buckets = s.index.buckets := by
  simp only [State.makeAnswer]
  split
  · rfl
  · split
    · rfl
    · exact Index.make_buckets _ _ _

/-- Settles O28: the HAVE by what the bucket holds, the next lookup by what the answer queue holds. -/
theorem answerLookupSendsHave : Obligations.AnswerLookupSendsHave := by
  intro s f asker tag b room active service sound
  set u := s.answered f asker tag with answered
  have answers : u.bus.answerQueue = s.bus.answerQueue.tail := congrArg List.tail (s.answeredBus_answerQueue _ _ _ _)
  have next := State.makeAnswer_of_free (s := u) rfl
  rw [answers] at next
  refine ⟨_, execAnswerLookupComplete_eq active service, State.tidied_of_removeDead u.makeAnswer_buckets,
    u.makeAnswer_changes, ?_, fun noHave => ?_, fun last => ?_, fun a more queue => ?_⟩
  · rintro e listed rfl live hasRoom
    rw [← answered, State.makeAnswer_bus, answered, State.answered, State.bucketNumber,
      State.hitIn_eq_some sound listed live, State.answeredBus_of_room hasRoom]
    rfl
  · have same : s.answeredBus f asker tag (hitIn (s.liveEntries (s.bucketNumber f)) f) = s.bus :=
      State.answeredBus_of_not (noHave.imp_left (s.hitIn_eq_none_iff b f).2)
    rw [← answered, State.makeAnswer_bus, answered, State.answered, same]
  · rw [last] at next
    rw [← answered, next]
    exact ⟨rfl, rfl⟩
  · rw [queue] at next
    rw [← answered, State.makeAnswer_buckets, next]
    exact ⟨rfl, rfl⟩

end Sys2Proof.Machine
end

