-- ==== Sys2Proof/Proofs/AskReceived.lean ====
section
/-! PROOFS. An ASK received (R71, R95, R96): the reception ends, the yield check, the answer queue. -/

namespace Sys2Proof.Machine

/-! ## The reception -/

/-- The station once another station's frame of `bits` bits, driven since `since`, has ended (R81, R90). -/
def State.received (s : State) (since bits : Nat) : State :=
  { s with
    now := max s.now (since + bits + 1)
    bus := { s.bus with line := .idle (max s.now (since + bits + 1) - 1), receiver := .listening } }

theorem State.endReception_driven {s : State} {since : Nat} (driven : s.bus.line = .driven since) (bits : Nat) :
    s.endReception bits = s.received since bits := by
  simp only [State.endReception, driven]
  rfl

/-- A frame in range of another station is dispatched at the end of its reception (R92, R94). -/
theorem State.frameEnds_dispatch {s : State} {since : Nat} {r : Received} (active : s.active = true)
    (gathering : s.bus.receiver = .gathering) (driven : s.bus.line = .driven since) (inRange : r.inRange = true)
    (other : r.sender ≠ s.settings.station) (bits : Nat) :
    s.frameEnds r bits = (s.received since bits).dispatch r := by
  have other' : r.sender ≠ (s.received since bits).settings.station := other
  simp only [State.frameEnds, active, gathering, decide_true, Bool.and_self, if_true, State.endReception_driven driven,
    State.receive, inRange, Bool.not_true, Bool.false_eq_true, if_false, if_neg other']

theorem execAskReceived_eq {s : State} {sender tag : Byte} {f : Fingerprint} {since : Nat} (active : s.active = true)
    (gathering : s.bus.receiver = .gathering) (driven : s.bus.line = .driven since) (inRange : sender.toNat ≤ 15)
    (other : sender ≠ s.settings.station) :
    exec (.askReceived sender tag f) s = .next ((s.received since 296).dispatchAsk sender tag f) :=
  congrArg Host.Outcome.next (State.frameEnds_dispatch (r := .ask sender tag f) active gathering driven
    (decide_eq_true inRange) other 296)

/-! ## The yield check -/

section Yield

variable {s : State} {f : Fingerprint} {a : AskEntry}

/-- The yield check stops the ASK of a fingerprint that this station is storing (R71). -/
theorem State.askPasses_eq_false (entry : s.askFor f = some a) (storing : a.state = .storing) : s.askPasses f = false := by
  simp [State.askPasses, entry, storing]

theorem State.askPasses_eq_true (h : ∀ a, s.askFor f = some a → a.state ≠ .storing) : s.askPasses f = true := by
  simp only [State.askPasses]
  split
  · rfl
  next a entry => simpa using h a entry

theorem AskEntry.mayYield_iff (a : AskEntry) : a.mayYield = true ↔
    a.yielded = false ∧ (a.state = .sending ∨ a.state = .asked ∨ a.state = .reasked) := by
  simp [AskEntry.mayYield, and_comm, or_assoc]

/-- No entry yields to the sender (R71). -/
theorem State.yieldTo_stays {sender : Byte}
    (h : ∀ a, s.askFor f = some a → ¬ (a.mayYield = true ∧ sender.toNat < s.settings.station.toNat)) :
    s.yieldTo sender f = s := by
  simp only [State.yieldTo]
  split
  · rfl
  next a entry => rw [if_neg (h a entry)]

/-- The entry yields to the sender: its unsent ASK is gone and its timer runs anew with compare B (R68, R71, R88). -/
theorem State.yieldTo_yields {sender : Byte} (entry : s.askFor f = some a) (may : a.mayYield = true)
    (lower : sender.toNat < s.settings.station.toNat) : s.yieldTo sender f =
      ({ s with bus := s.bus.removeAsk a.tag a.fingerprint } : State).setAsk
        { a with state := .yielded, yielded := true, timer := .running s.now false true } := by
  simp only [State.yieldTo, entry, may, true_and, if_pos lower]

theorem State.mem_of_askFor (entry : s.askFor f = some a) : a ∈ s.resolution.entries ∧ a.fingerprint = f :=
  ⟨List.mem_of_find?_eq_some entry, by simpa using List.find?_some entry⟩

end Yield

/-! ## Unsent ASKs -/

/-- An ASK removed is nowhere unsent, and the places refilled hold other ASKs (R86, R88). -/
theorem PeerBus.removeAsk_hasUnsentAsk (b : PeerBus) (tag : Byte) (f : Fingerprint) :
    ¬ (b.removeAsk tag f).hasUnsentAsk tag f := by
  have others : ∀ p ∈ b.askHolding.filter (fun p => p ≠ (tag, f)), p ≠ (tag, f) := by simp
  rintro (held | ⟨t, queued, frame, unsent⟩)
  · exact others _ (List.mem_of_mem_drop held) rfl
  · rcases List.mem_append.1 queued with before | refilled
    · have kept := (List.mem_filter.1 before).2
      simp [TxFrame.removable, frame, unsent] at kept
    · obtain ⟨p, taken, rfl⟩ := List.mem_map.1 refilled
      obtain ⟨rfl, rfl⟩ := Frame.ask.inj frame
      exact others p (List.mem_of_mem_take taken) rfl

/-! ## The answer queue -/

/-- An ASK that passes enters the answer queue while that has room (R95, R96). -/
theorem State.dispatchAsk_enters {s : State} {sender tag : Byte} {f : Fingerprint} (passes : s.askPasses f = true)
    (room : (s.yieldTo sender f).bus.answerQueue.length < 32) : s.dispatchAsk sender tag f =
      ({ s.yieldTo sender f with bus := { (s.yieldTo sender f).bus with
        answerQueue := (s.yieldTo sender f).bus.answerQueue ++
          [{ asker := sender, tag := tag, fingerprint := f }] } } : State).makeAnswer := by
  simp only [State.dispatchAsk, passes, room, decide_true, Bool.and_self, if_true]

theorem State.dispatchAsk_drops {s : State} {sender tag : Byte} {f : Fingerprint}
    (h : s.askPasses f = false ∨ 32 ≤ (s.yieldTo sender f).bus.answerQueue.length) :
    s.dispatchAsk sender tag f = s.yieldTo sender f := by
  simp only [State.dispatchAsk]
  refine if_neg ?_
  simp only [Bool.and_eq_true, decide_eq_true_eq, not_and, Nat.not_lt]
  exact fun passes => h.resolve_left (by rw [passes]; decide)

/-- Whatever the answer queue does, an ASK leaves what only the yield check changes. -/
theorem State.dispatchAsk_changes (s : State) (sender tag : Byte) (f : Fingerprint) :
    s.dispatchAsk sender tag f = { s.yieldTo sender f with
      index := (s.dispatchAsk sender tag f).index, bus := (s.dispatchAsk sender tag f).bus } ∧
    (s.dispatchAsk sender tag f).bus = { (s.yieldTo sender f).bus with
      answerQueue := (s.dispatchAsk sender tag f).bus.answerQueue
      answerOutstanding := (s.dispatchAsk sender tag f).bus.answerOutstanding } := by
  simp only [State.dispatchAsk]
  split
  · constructor
    · rw [State.makeAnswer_changes]
    · rw [State.makeAnswer_bus]
  · exact ⟨rfl, rfl⟩

/-- Settles O36: the ASK is dropped, answered, or yielded to and answered, by the entry for its fingerprint. -/
theorem askIsAnsweredUnlessStoring : Obligations.AskIsAnsweredUnlessStoring := by
  intro s sender tag f since active sound gathering driven inRange other moment bus entered yields
  have ran := execAskReceived_eq (tag := tag) (f := f) active gathering driven inRange other
  set u := s.received since 296 with received
  have entries : ∀ {a}, u.askFor f = some a → a ∈ s.resolution.entries ∧ a.fingerprint = f := State.mem_of_askFor
  have entryOf : ∀ {a}, a ∈ s.resolution.entries → a.fingerprint = f → u.askFor f = some a := fun ha same =>
    same ▸ State.askFor_of_mem (s := u) sound.2.1 ha
  refine ⟨?_, fun none => ?_, fun a ha yielding => ?_⟩
  · rintro ⟨a, ha, same, storing⟩
    have stays : u.yieldTo sender f = u := State.yieldTo_stays (fun d entry may => by
      obtain rfl := Option.some.inj (entry.symm.trans (entryOf ha same))
      rw [AskEntry.mayYield_iff, storing] at may
      exact absurd may.1.2 (by decide))
    rw [ran, State.dispatchAsk_drops (.inl (State.askPasses_eq_false (entryOf ha same) storing)), stays]
    rfl
  · have stays : u.yieldTo sender f = u := State.yieldTo_stays (fun a entry may => by
      obtain ⟨ha, same⟩ := entries entry
      obtain ⟨notYielded, state⟩ := a.mayYield_iff.1 may.1
      exact (none a ha).1 ⟨same, notYielded, state, may.2⟩)
    have passes : u.askPasses f = true := State.askPasses_eq_true (fun a entry storing =>
      (none a (entries entry).1).2 ⟨(entries entry).2, storing⟩)
    have enters := fun room => State.dispatchAsk_enters (s := u) (sender := sender) (tag := tag) passes room
    rw [stays] at enters
    refine ⟨fun full => ?_, fun room outstanding => ?_, fun empty free => ?_⟩
    · rw [ran, State.dispatchAsk_drops (.inr (by rw [stays]; exact full)), stays]
      rfl
    · rw [ran, enters room, State.makeAnswer, if_pos (by exact outstanding)]
      rfl
    · rw [ran, enters (by rw [show u.bus.answerQueue = [] from empty]; decide), State.makeAnswer_of_free (by exact free)]
      have first : u.bus.answerQueue ++ [{ asker := sender, tag := tag, fingerprint := f }] =
          [{ asker := sender, tag := tag, fingerprint := f }] := by rw [show u.bus.answerQueue = [] from empty]; rfl
      rw [first]
      simp only [entered, empty]
      rfl
  · obtain ⟨same, notYielded, state, lower⟩ := yielding
    have entry := entryOf ha same
    have yielded := State.yieldTo_yields entry (a.mayYield_iff.2 ⟨notYielded, state⟩) (show _ < u.settings.station.toNat from lower)
    obtain ⟨changes, busChanges⟩ := u.dispatchAsk_changes sender tag f
    refine ⟨_, ran, ?_, ?_, ?_, ?_, fun room => ?_, ?_⟩
    · rw [changes, yielded]
      rfl
    · rw [busChanges, yielded]
      exact same ▸ u.bus.removeAsk_hasUnsentAsk a.tag a.fingerprint
    · rw [changes, yielded]
      rfl
    · rw [busChanges, yielded]
      rfl
    · have passes : u.askPasses f = true := State.askPasses_eq_true (fun d found storing => by
        obtain rfl := Option.some.inj (found.symm.trans entry)
        rw [storing] at state
        exact absurd state (by decide))
      have answers : (u.yieldTo sender f).bus.answerQueue = s.bus.answerQueue := by rw [yielded]; rfl
      rw [State.dispatchAsk_enters passes (by rw [answers]; exact room), State.makeAnswer_bus, answers]
    · rw [changes, yielded]
      exact ⟨rfl, rfl, rfl, rfl, rfl, rfl, rfl⟩

end Sys2Proof.Machine
end

