-- ==== Sys2Proof/Proofs/Looks.lean ====
section
/-! PROOFS. What the looks of a step's last part leave alone (R106, R121 to R124, R147 to R151): always, and where every
container waiting for its flush passes the range check. -/

namespace Sys2Proof.Machine

/-! ## The open-wait look -/

/-- Requests issued behind one in flight never turn their container SEALING (R124, R128). -/
theorem State.issueFollowers_store {s : State} {slot : Nat} (i : Fin 16) (l : List AppendRequest)
    (busy : (s.container slot).inFlight ≠ []) : (s.issueFollowers slot i l).1.store = s.store := by
  induction l generalizing s with
  | nil => rfl
  | cons r rest ih =>
    simp only [State.issueFollowers]
    split
    · split
      · refine ih (s := s.issueAppend slot r) ?_
        simp [State.issueAppend]
      · simp only [State.sealRequest, if_neg busy]
        split
        · exact State.dropCurrent_store s slot (s.container slot).owner
        · rfl
    · exact ih busy

theorem State.serveOpenWaitUpTo_store (s : State) (n : Nat) : (s.serveOpenWaitUpTo n).store = s.store := by
  induction n generalizing s with
  | zero => rfl
  | succ n ih =>
    simp only [State.serveOpenWaitUpTo]
    split
    next r others slot area _ _ _ =>
      have busy : (((s.openContainer slot area r.stream).issueAppend slot r).container slot).inFlight ≠ [] := by
        simp [State.issueAppend]
      exact (ih _).trans (State.issueFollowers_store r.stream others busy)
    next => rfl

/-- The open-wait look hands nothing to the Store Port (R124). -/
theorem State.serveOpenWait_store (s : State) : s.serveOpenWait.store = s.store := s.serveOpenWaitUpTo_store _

theorem State.serveOpenWait_of_nil {s : State} (h : s.containers.openWait = []) : s.serveOpenWait = s := by
  rw [State.serveOpenWait, h]
  rfl

/-! ## The emitter -/

theorem State.issueRecord_flushQueue (s : State) (i : Fin 16) :
    (s.issueRecord i).store.flushQueue = s.store.flushQueue := by
  simp only [State.issueRecord]
  split
  · rfl
  · simp only [State.addressWord]
    split <;> rfl

theorem State.emitRecords_flushQueue (s : State) : s.emitRecords.store.flushQueue = s.store.flushQueue := by
  have order := s.anyOrder_store ((List.finRange 16).filter (fun i => (s.stream i).dueRecord ≠ none))
  exact (foldl_keep (fun t => t.store.flushQueue) State.issueRecord State.issueRecord_flushQueue _ _).trans
    (congrArg StorePort.flushQueue order)

theorem State.emitRecords_port (s : State) : s.emitRecords.store.port = s.store.port := s.emitRecords_joins.1

/-! ## The arbiter -/

/-- A relation of states that everything respects that the arbiter does at its looks: what it issues, and a container it
refuses. -/
structure Looking (R : State → State → Prop) : Prop where
  trans : ∀ {s t u}, R s t → R t u → R s u
  issued : ∀ (s : State) store sent choices, R s { s with store := store, sent := sent, choices := choices }
  refused : ∀ (s : State) j rest, R s (s.refuseFlush j rest)

section Looking

variable {R : State → State → Prop} (h : Looking R)
include h

theorem Looking.refl (s : State) : R s s := h.issued s s.store s.sent s.choices

theorem Looking.arbitrate (s : State) (n : Nat) : R s (s.arbitrate n) := by
  induction n generalizing s with
  | zero => exact h.refl s
  | succ n ih =>
    simp only [State.arbitrate]
    split
    · exact h.issued s _ _ _
    · split
      · exact h.issued s _ _ _
      · split
        · split
          · exact h.issued s _ _ _
          · exact h.trans (h.refused s _ _) (ih _)
        · exact h.refl s

theorem Looking.takeHandedOver (s : State) (n : Nat) : R s (s.takeHandedOver n) := by
  induction n generalizing s with
  | zero => exact h.refl s
  | succ n ih =>
    simp only [State.takeHandedOver]
    split
    · split
      · exact h.issued s _ _ _
      · split
        · exact h.issued s _ _ _
        · exact h.trans (h.issued s s.store s.sent (s.choices + 1)) (h.trans (h.refused _ _ _) (ih _))
    · split
      · exact h.issued s _ _ _
      · exact h.trans (h.refused s _ _) (ih _)
    · exact h.arbitrate s _

theorem Looking.lookAtPort (s : State) : R s s.lookAtPort := by
  simp only [State.lookAtPort]
  split
  · exact h.takeHandedOver s _
  · exact h.refl s

end Looking

/-- A reading that the looks keep. -/
theorem looking_reading {β : Type} {g : State → β}
    (issued : ∀ (s : State) store sent choices, g { s with store := store, sent := sent, choices := choices } = g s)
    (refused : ∀ (s : State) j rest, g (s.refuseFlush j rest) = g s) : Looking (fun s t => g t = g s) where
  trans h g := g.trans h
  issued := issued
  refused := refused

/-! ## Where no range check fails -/

/-- Only the port, what is sent and the choices have changed. -/
def State.PortOnly (s t : State) : Prop := t = { s with store := t.store, sent := t.sent, choices := t.choices }

/-- Every container waiting for its flush passes the range check, or the port is busy and none is looked at (R148, R151). -/
def State.FlushesClear (s : State) : Prop :=
  s.store.port ≠ .idle ∨ ∀ j ∈ s.store.flushQueue, j.inRegion s.settings

theorem State.inStoreRegion_iff (s : State) (j : FlushJob) : s.inStoreRegion j = true ↔ j.inRegion s.settings :=
  decide_eq_true_iff

section Clear

variable {s : State} (pass : ∀ j ∈ s.store.flushQueue, s.inStoreRegion j = true)
include pass

theorem State.arbitrate_portOnly (n : Nat) : s.PortOnly (s.arbitrate n) := by
  cases n with
  | zero => exact rfl
  | succ n =>
    simp only [State.arbitrate]
    split
    · exact rfl
    · split
      · exact rfl
      · split
        next queue =>
          rw [if_pos (pass _ (by rw [queue]; exact List.mem_cons_self))]
          exact rfl
        next => exact rfl

theorem State.takeHandedOver_portOnly (n : Nat) : s.PortOnly (s.takeHandedOver n) := by
  cases n with
  | zero => exact rfl
  | succ n =>
    simp only [State.takeHandedOver]
    split
    next queue _ =>
      rw [if_pos (pass _ (by rw [queue]; exact List.mem_cons_self))]
      split <;> exact rfl
    next queue _ =>
      rw [if_pos (pass _ (by rw [queue]; exact List.mem_cons_self))]
      exact rfl
    next => exact State.arbitrate_portOnly pass _

end Clear

theorem State.lookAtPort_portOnly {s : State} (clear : s.FlushesClear) : s.PortOnly s.lookAtPort := by
  simp only [State.lookAtPort]
  split
  next idle =>
    exact State.takeHandedOver_portOnly (fun j hj => (s.inStoreRegion_iff j).2 (clear.resolve_left (absurd idle) j hj)) _
  next => exact rfl

/-- Where no range check fails, the looks of a step leave what the open-wait look and the emitter leave, but for the port. -/
theorem State.looked_portOnly {s : State} (clear : s.FlushesClear) : s.serveOpenWait.emitRecords.PortOnly s.looked := by
  refine State.lookAtPort_portOnly ?_
  rw [State.FlushesClear, State.emitRecords_port, State.emitRecords_flushQueue, s.serveOpenWait_store,
    State.emitRecords_settings, State.serveOpenWait_settings]
  exact clear

section Looked

variable {s : State} (clear : s.FlushesClear)
include clear

theorem State.looked_streams_of_clear : s.looked.streams = s.serveOpenWait.emitRecords.streams := by
  rw [State.looked_portOnly clear]

theorem State.looked_management_of_clear : s.looked.management = s.management := by
  rw [State.looked_portOnly clear]
  simp

theorem State.settle_sealUnit_of_clear : s.settle.sealUnit = s.sealUnit := by
  rw [State.settle_eq_looked, State.refresh_sealUnit, State.placeReports_sealUnit, State.looked_portOnly clear]
  simp

theorem State.settle_containers_of_clear : s.settle.containers = s.serveOpenWait.containers := by
  rw [State.settle_eq_looked, State.refresh_containers, State.placeReports_containers, State.looked_portOnly clear]
  simp

end Looked

/-! ## The end of the step, read from the looks -/

theorem State.settle_reports (s : State) : s.settle.management.reports = s.looked.placeReports.management.reports := by
  rw [State.settle_eq_looked, State.refresh_reports]

theorem State.settle_held (s : State) : s.settle.management.held = s.looked.placeReports.management.held := by
  rw [State.settle_eq_looked, State.refresh_held]

theorem State.settle_stream (s : State) (i : Fin 16) : s.settle.stream i = s.looked.placeReports.stream i := by
  rw [State.settle_eq_looked]
  exact State.stream_of_streams (State.refresh_streams _)

theorem State.settle_walker (s : State) : s.settle.walker = s.looked.placeReports.walker := by
  rw [State.settle_eq_looked, State.refresh_walker]

theorem State.flushesClear_of_nil {s : State} (h : s.store.flushQueue = []) : s.FlushesClear :=
  .inr (by rw [h]; exact fun _ hj => absurd hj List.not_mem_nil)

theorem State.enterReport_reports (s : State) (r : Report) :
    (s.enterReport r).management.reports = s.management.reports ++ [r] := by
  rw [State.enterReport, State.reportEntered_management]

/-- A report made in a settling step stands in the report queue or is held at its end (R169). -/
theorem State.mem_settle {s : State} {r : Report} (h : r ∈ s.management.fresh) :
    r ∈ s.settle.management.reports ++ s.settle.management.held := by
  rw [State.settle_reports, State.settle_held]
  obtain ⟨-, -, lost, added, -⟩ := s.looked_addsLost
  exact State.mem_placeReports (by rw [added]; exact List.mem_append_left _ h)

/-- The one report of a settling step, with room for it, enters; the stream that it ends is IDLE (R12, R16, R169). -/
theorem State.settle_ends {s : State} {r : Report} {i : Fin 16} (clear : s.FlushesClear) (fresh : s.management.fresh = [r])
    (held : s.management.held = []) (room : s.management.reports.length < 32) (ends : r.endsStream i) :
    (s.settle.stream i).state = .idle ∧ s.settle.management.reports = s.management.reports ++ [r] := by
  have management := State.looked_management_of_clear clear
  rw [← management] at fresh held room ⊢
  rw [State.settle_stream, State.settle_reports, State.placeReports_of_one fresh]
  rw [State.placeReport_of_room (by exact held) (by exact room), State.enterReport_stream_of_ends ends,
    State.enterReport_reports]
  exact ⟨rfl, rfl⟩

end Sys2Proof.Machine
end

