-- ==== Sys2Proof/Proofs/LookupsTaken.lean ====
section
/-! PROOFS. A resolution lookup completed: a hit of a NORMAL chunk (R46, R58, R62), a voided lookup (R48) and a SURVEY chunk
(R61, R114). -/

namespace Sys2Proof.Machine

/-! ## Chunks resolved -/

theorem Stream.sameWork.trans {x y z : Stream} (h : x.sameWork y) (g : y.sameWork z) : x.sameWork z := by
  simp only [Stream.sameWork] at *
  simp only [g, h, and_self]

/-- Resolving writes the result into the waiter's pending slot and nothing else (R62). -/
theorem State.resolveChunk_stream (s : State) (w : Waiter) (d : Disposition) (l : Location) (holder : Option Bool)
    (j : Fin 16) : (s.resolveChunk w d (some l) holder).stream j = { s.stream j with
      pending := (s.stream j).pending.map (fun q => if (j, q.number) = w then q.resolvedAs d l holder else q) } := by
  obtain ⟨i, p⟩ := w
  rw [State.resolveChunk, State.stream_modStream]
  by_cases same : j = i
  · subst same
    simp [Stream.modSlot, PendingSlot.resolvedAs]
  · simp [same]

/-- A container gains units and changes in nothing else (R132). -/
theorem State.raiseReferences_container (s : State) (slot n k : Nat) : (s.raiseReferences slot n).container k =
    { s.container k with references := (s.container k).references + if k = slot then n else 0 } := by
  rw [State.raiseReferences, State.container_setContainer]
  split
  next same => rw [same]
  next => rfl

/-! ## The lookup's result -/

/-- The station once the lookup of `f` is over and its bucket tidied (R45). -/
def State.lookedUp (s : State) (f : Fingerprint) : State := (s.removeDead (s.bucketNumber f)).endService

theorem State.lookedUp_tidied {s t : State} (f : Fingerprint) (h : t.index = (s.lookedUp f).index) :
    s.tidied t (bucketOf s.settings.indexExponent f) ∧
      t.index = { s.index with buckets := t.index.buckets, service := .nothing } := by
  rw [h]
  exact ⟨State.tidied_of_removeDead (by rw [h]; rfl), rfl⟩

section Lookup

variable {s : State} {f : Fingerprint} {i : Fin 16} {p : Fin 32} {q : Word} {kind : StreamKind}

theorem execResolutionLookupComplete_voided (active : s.active = true)
    (service : s.index.service = .request (.lookup f i p q kind true)) :
    exec .resolutionLookupComplete s = .next (s.lookedUp f) := by
  simp only [exec, execResolutionLookupComplete, active, service, if_true]
  rfl

theorem execResolutionLookupComplete_eq (active : s.active = true)
    (service : s.index.service = .request (.lookup f i p q kind false)) : exec .resolutionLookupComplete s =
      .next ((s.lookedUp f).takeLookup f (i, p) kind (hitIn (s.liveEntries (s.bucketNumber f)) f)).settle := by
  simp only [exec, execResolutionLookupComplete, active, service, Bool.false_eq_true, if_false]
  rfl

end Lookup

/-- The station once the hit `e` of a NORMAL chunk is taken (R58, R62). -/
def State.hitTaken (s : State) (i : Fin 16) (p : Fin 32) (e : IndexEntry) : State :=
  ((s.lookedUp e.fingerprint).raiseReferences e.slot 1).resolveChunk (i, p) .localDup
    (some { station := s.settings.station, incarnation := s.settings.incarnation, slot := e.slot, ordinal := e.ordinal }) none

theorem State.takeLookup_hit (s : State) (i : Fin 16) (p : Fin 32) (e : IndexEntry) :
    (s.lookedUp e.fingerprint).takeLookup e.fingerprint (i, p) .normal (some e) = s.hitTaken i p e := rfl

section Hit

variable (s : State) (i : Fin 16) (p : Fin 32) (e : IndexEntry)

theorem State.hitTaken_stream (j : Fin 16) : (s.hitTaken i p e).stream j = { s.stream j with
    pending := (s.stream j).pending.map (fun q => if (j, q.number) = (i, p) then
      q.resolvedAs .localDup { station := s.settings.station, incarnation := s.settings.incarnation
                               slot := e.slot, ordinal := e.ordinal } none
      else q) } := by
  have same : ((s.lookedUp e.fingerprint).raiseReferences e.slot 1).stream j = s.stream j := rfl
  rw [State.hitTaken, State.resolveChunk_stream, same]

theorem State.hitTaken_container (k : Nat) : (s.hitTaken i p e).container k = { s.container k with
    references := (s.container k).references + if k = e.slot then 1 else 0 } :=
  State.raiseReferences_container (s.lookedUp e.fingerprint) e.slot 1 k

end Hit

/-- Settles O25: the hit raises the container's count and resolves the chunk, and the last part of the step keeps both. -/
theorem lookupHitResolvesLocally : Obligations.LookupHitResolvesLocally := by
  rintro s f i p q e b active service sound listed rfl live
  have ran := execResolutionLookupComplete_eq active service
  rw [State.bucketNumber, State.hitIn_eq_some sound listed live, State.takeLookup_hit] at ran
  obtain ⟨tidied, index⟩ := State.lookedUp_tidied (s := s) e.fingerprint (t := (s.hitTaken i p e).settle)
    (by rw [State.settle_index]; rfl)
  have kept := (s.hitTaken i p e).settle_kept
  refine ⟨_, ran, tidied, index, fun k notFree => ?_, ?_, fun j => ⟨?_, fun other => ?_⟩, ?_⟩
  · obtain ⟨-, -, -, -, -, references⟩ := (s.hitTaken i p e).settle_containers k
      (by rw [State.hitTaken_container]; exact notFree)
    rw [references, State.hitTaken_container]
  · rw [(kept i).pending, State.hitTaken_stream]
    simp only [Prod.mk.injEq, true_and]
  · refine Stream.sameWork.trans ?_ (kept j).sameWork
    rw [State.hitTaken_stream]
    exact ⟨rfl, rfl, rfl, rfl, rfl, rfl, rfl, rfl, rfl, rfl, rfl, rfl, rfl, rfl, rfl⟩
  · rw [(kept j).pending, State.hitTaken_stream]
    exact List.map_id'' (fun r => if_neg (fun same => other (congrArg Prod.fst same))) _
  · simp only [State.settle_resolution, State.settle_bus, State.settle_engines, State.settle_digestQueue,
      State.settle_staging, State.settle_settings, State.settle_station, State.settle_now]
    simp [State.hitTaken, State.lookedUp]

/-! ## SURVEY chunks -/

theorem State.closeCheck_kept (s : State) (i : Fin 16) : s.StreamsKept (s.closeCheck i) := by
  simp only [State.closeCheck]
  split
  · split
    · split
      · exact (State.sealCurrent_kept s i .close).trans (State.StreamsKept.set rfl)
      · exact State.StreamsKept.refl s
    · split <;> exact State.StreamsKept.of_eq rfl
  · exact State.StreamsKept.refl s

theorem State.sealCurrent_containers (s : State) (i : Fin 16) (r : SealReason) : s.ContainersKept (s.sealCurrent i r) := by
  simp only [State.sealCurrent]
  split
  · exact (State.sealRequest_containers s _ r).after rfl
  · exact State.ContainersKept.refl s

theorem State.closeCheck_containers (s : State) (i : Fin 16) : s.ContainersKept (s.closeCheck i) := by
  simp only [State.closeCheck]
  split
  · split
    · split
      · exact (State.sealCurrent_containers s i .close).after rfl
      · exact State.ContainersKept.refl s
    · split <;> exact State.ContainersKept.of_eq rfl
  · exact State.ContainersKept.refl s

/-- The last chunk of a CLOSING SURVEY stream has its CLOSED report made (R114). -/
theorem State.closeCheck_survey {s : State} {i : Fin 16} (closing : (s.stream i).state = .closing)
    (survey : (s.stream i).kind = .survey) (queue : (s.stream i).queue = []) (pending : (s.stream i).pending = [])
    (unmade : s.awaitsReport (Report.closes i) = false) : s.closeCheck i = s.makeReport ((s.stream i).closedReport i) := by
  simp [State.closeCheck, closing, survey, queue, pending, unmade]

/-- No CLOSED report of the stream is held or has just been made (R12). -/
theorem State.awaitsReport_closes {s : State} {i : Fin 16} (fresh : s.management.fresh = [])
    (unmade : ∀ r ∈ s.management.held, ¬ (r.endsStream i ∧ r.kindNumber = 1)) :
    s.awaitsReport (Report.closes i) = false := by
  simp only [State.awaitsReport, fresh, List.any_nil, Bool.or_false, List.any_eq_false]
  intro r hr
  cases r with
  | closed j =>
    simp only [Report.closes, decide_eq_true_eq]
    exact fun same => unmade _ hr ⟨same, rfl⟩
  | aborted => exact Bool.false_ne_true
  | faulted => exact Bool.false_ne_true
  | lost => exact Bool.false_ne_true
  | purged => exact Bool.false_ne_true

/-- A stream whose chunk in slot `p` was looked up for a survey: the slot is free and the result counted (R61, R103). -/
def Stream.surveyed (x : Stream) (p : Fin 32) (hit : Bool) : Stream :=
  { x.freeSlot p with
    surveyDup := if hit then x.surveyDup + 1 else x.surveyDup
    surveyNew := if hit then x.surveyNew else x.surveyNew + 1 }

/-- The station once the survey chunk's slot is free. -/
def State.surveyed (s : State) (f : Fingerprint) (i : Fin 16) (p : Fin 32) (hit : Bool) : State :=
  (s.lookedUp f).setStream i ((s.stream i).surveyed p hit)

theorem State.surveyed_stream (s : State) (f : Fingerprint) (i : Fin 16) (p : Fin 32) (hit : Bool) (j : Fin 16) :
    (s.surveyed f i p hit).stream j = if j = i then (s.stream i).surveyed p hit else s.stream j :=
  State.stream_setStream _ i j _

theorem State.takeLookup_survey (s : State) (f : Fingerprint) (i : Fin 16) (p : Fin 32) (hit : Option IndexEntry) :
    (s.lookedUp f).takeLookup f (i, p) .survey hit = (s.surveyed f i p hit.isSome).closeCheck i := by
  cases hit <;> rfl

section Survey

variable {s : State} {f : Fingerprint} {i : Fin 16} {p : Fin 32} {hit : Bool}

theorem State.surveyed_settled : (s.surveyed f i p hit).StreamsKept ((s.surveyed f i p hit).closeCheck i).settle :=
  (State.closeCheck_kept _ i).trans (State.settle_kept _)

/-- The rest of the station stands. -/
theorem State.surveyed_same : let t := ((s.surveyed f i p hit).closeCheck i).settle
    t.index = (s.lookedUp f).index ∧ t.resolution = s.resolution ∧ t.bus = s.bus ∧ t.engines = s.engines ∧
      t.digestQueue = s.digestQueue ∧ t.staging = s.staging ∧ t.settings = s.settings ∧ t.station = s.station ∧
      t.now = s.now := by
  simp only [State.settle_index, State.settle_resolution, State.settle_bus, State.settle_engines,
    State.settle_digestQueue, State.settle_staging, State.settle_settings, State.settle_station, State.settle_now,
    State.closeCheck_index, State.closeCheck_resolution, State.closeCheck_bus, State.closeCheck_engines,
    State.closeCheck_digestQueue, State.closeCheck_staging, State.closeCheck_settings, State.closeCheck_station,
    State.closeCheck_now]
  exact ⟨rfl, rfl, rfl, rfl, rfl, rfl, rfl, rfl, rfl⟩

/-- The last chunk of the stream makes its CLOSED report, with whose place in the queue the stream is IDLE (R12, R114). -/
theorem State.surveyed_closes (closing : (s.stream i).state = .closing) (survey : (s.stream i).kind = .survey)
    (queue : (s.stream i).queue = []) (last : ∀ r ∈ (s.stream i).pending, r.number = p)
    (fresh : s.management.fresh = [])
    (unmade : ∀ r ∈ s.management.held, ¬ (r.endsStream i ∧ r.kindNumber = 1)) :
    let t := ((s.surveyed f i p hit).closeCheck i).settle
    let report := ((s.stream i).surveyed p hit).closedReport i
    report ∈ t.management.reports ++ t.management.held ∧
      (s.management.held = [] → s.management.reports.length < 32 → s.store.flushQueue = [] →
        (t.stream i).state = .idle ∧ t.management.reports = s.management.reports ++ [report]) := by
  intro t report
  have now : (s.surveyed f i p hit).stream i = (s.stream i).surveyed p hit :=
    (s.surveyed_stream f i p hit i).trans (if_pos rfl)
  have none : ((s.stream i).surveyed p hit).pending = [] := by
    simpa [Stream.surveyed, Stream.freeSlot, List.filter_eq_nil_iff] using last
  have made : (s.surveyed f i p hit).closeCheck i = (s.surveyed f i p hit).makeReport report := by
    rw [State.closeCheck_survey (by rw [now]; exact closing) (by rw [now]; exact survey) (by rw [now]; exact queue)
      (by rw [now]; exact none) (State.awaitsReport_closes (s := s.surveyed f i p hit) fresh unmade), now]
  have one : ((s.surveyed f i p hit).makeReport report).management.fresh = [report] := congrArg (· ++ [report]) fresh
  simp only [t, made]
  refine ⟨State.mem_settle (by rw [one]; exact List.mem_cons_self), fun held room noFlush => ?_⟩
  exact State.settle_ends (State.flushesClear_of_nil noFlush) one held room rfl

end Survey

theorem Stream.surveyed_sameWork (x : Stream) (p : Fin 32) (hit : Bool) : x.sameWork (x.surveyed p hit) :=
  ⟨rfl, rfl, rfl, rfl, rfl, rfl, rfl, rfl, rfl, rfl, rfl, rfl, rfl, rfl, rfl⟩

/-- Settles O27: a voided lookup hands nothing on; a survey chunk's slot is freed and its result counted, and the last one of
a CLOSING stream ends the stream. -/
theorem voidedAndSurveyLookups : Obligations.VoidedAndSurveyLookups := by
  intro s f i p q kind b
  refine ⟨fun active service => ?_, fun active service => ?_⟩
  · exact ⟨_, execResolutionLookupComplete_voided active service, (State.lookedUp_tidied f rfl).1, rfl⟩
  have ran := execResolutionLookupComplete_eq active service
  rw [State.takeLookup_survey] at ran
  set hit := (hitIn (s.liveEntries (s.bucketNumber f)) f).isSome with isHit
  obtain ⟨index, same⟩ := State.surveyed_same (s := s) (f := f) (i := i) (p := p) (hit := hit)
  obtain ⟨tidied, index⟩ := State.lookedUp_tidied f index
  have kept := fun j => State.surveyed_settled (s := s) (f := f) (i := i) (p := p) (hit := hit) j
  have stands := fun j => s.surveyed_stream f i p hit j
  have own := (stands i).trans (if_pos rfl)
  have new := (kept i).surveyNew
  have dup := (kept i).surveyDup
  rw [own] at new dup
  refine ⟨_, ran, tidied, index, ?_, fun found => ?_, fun missed => ?_, ?_, fun j => ⟨?_, fun other => ?_⟩,
    fun k notFree => ?_, same⟩
  · rw [(kept i).pending, own]
    rfl
  · have hits : hit = true := by
      rw [isHit, Option.isSome_iff_ne_none, ne_eq, State.hitIn_eq_none_iff]
      obtain ⟨e, listed, same, live⟩ := found
      exact fun dead => Bool.false_ne_true ((dead e listed same).symm.trans live)
    rw [new, dup, hits]
    exact ⟨rfl, rfl⟩
  · have misses : hit = false := by
      rw [isHit, State.bucketNumber, (s.hitIn_eq_none_iff b f).2 missed]
      rfl
    rw [new, dup, misses]
    exact ⟨rfl, rfl⟩
  · intro x report closing survey queue last fresh unmade
    have same : report = ((s.stream i).surveyed p hit).closedReport i := by
      simp only [report, new, dup]
      rfl
    rw [same]
    exact State.surveyed_closes closing survey queue last fresh unmade
  · refine Stream.sameWork.trans ?_ (kept j).sameWork
    rw [stands]
    split
    next e => exact e ▸ Stream.surveyed_sameWork _ p hit
    next => exact ⟨rfl, rfl, rfl, rfl, rfl, rfl, rfl, rfl, rfl, rfl, rfl, rfl, rfl, rfl, rfl⟩
  · rw [(kept j).pending, stands, if_neg other]
  · have containers := ((s.surveyed f i p hit).closeCheck_containers i).trans (State.settle_containers _) k
    exact (containers notFree).2.2.2.2.2

end Sys2Proof.Machine
end

