-- ==== Sys2Proof/Proofs/ScrubWalk.lean ====
section
/-! PROOFS. A scrub step completed, and the end of a walk (R53, R157, R158, R169). -/

namespace Sys2Proof.Machine

/-! ## The end of a walk -/

theorem State.foldl_setContainer (l : List Nat) (c : Container) (s : State) :
    l.foldl (fun t k => t.setContainer k c) s = { s with containers := { s.containers with
      table := l.foldl (fun table k => table.put Container.initial k c) s.containers.table } } := by
  induction l generalizing s with
  | nil => rfl
  | cons k rest ih => rw [List.foldl_cons, ih]; rfl

theorem State.foldl_makeReport {α : Type} (l : List α) (r : α → Report) (s : State) :
    l.foldl (fun t k => t.makeReport (r k)) s =
      { s with management := { s.management with fresh := s.management.fresh ++ l.map r } } := by
  induction l generalizing s with
  | nil => simp
  | cons k rest ih => rw [List.foldl_cons, ih]; simp [State.makeReport]

/-- The walk's end as one change of the state (R158). -/
theorem State.endWalk_eq (s : State) : s.endWalk = { s with
    containers := { s.containers with
      table := (s.walker.snapshot.foldl (fun table k => table.put Container.initial k Container.initial)
        s.containers.table),
      freeSlots := s.containers.freeSlots + s.walker.snapshot.length },
    walker := { s.walker with
      state := .reporting, snapshot := [], reportList := s.walker.snapshot, completed := s.walker.completed + 1 },
    management := { s.management with
      fresh := (s.management.fresh ++ s.walker.snapshot.map (fun k => .purged k (s.walker.completed + 1))) } } := by
  simp only [State.endWalk, State.foldl_setContainer, State.foldl_makeReport]

/-- The PURGED reports of the walk are all those made (R158). -/
theorem State.endWalk_management {s : State} (fresh : s.management.fresh = []) :
    s.endWalk.management = { s.management with
      fresh := s.walker.snapshot.map (fun k => .purged k (s.walker.completed + 1)) } := by
  rw [State.endWalk_eq, fresh, List.nil_append]

theorem Sparse.find_foldl_clear {α : Type} [DecidableEq α] (d : α) (l : List Nat) (t : Sparse α) (k : Nat) :
    Sparse.find d k (l.foldl (fun table j => table.put d j d) t) = if k ∈ l then d else Sparse.find d k t := by
  induction l generalizing t with
  | nil => simp
  | cons j rest ih =>
    rw [List.foldl_cons, ih, Sparse.find_put]
    by_cases here : k = j
    · simp [here]
    · simp [here]

theorem Sparse.wf_foldl_clear {α : Type} [DecidableEq α] (d : α) (l : List Nat) (t : Sparse α) (h : t.wf d = true) :
    Sparse.wf d (l.foldl (fun table j => table.put d j d) t) = true := by
  induction l generalizing t with
  | nil => exact h
  | cons j rest ih => exact ih _ (Sparse.wf_put d j d t h)

/-- The slots of the snapshot are FREE with every field cleared (R158). -/
theorem State.endWalk_container (s : State) (k : Nat) :
    s.endWalk.container k = if k ∈ s.walker.snapshot then Container.initial else s.container k := by
  rw [State.endWalk_eq]
  exact Sparse.find_foldl_clear _ _ _ _

/-- What was retired meanwhile is RETIRED still (R157). -/
theorem State.endWalk_retired_iff (s : State) (k : Nat) :
    (s.endWalk.container k).state = .retired ↔ (s.container k).state = .retired ∧ k ∉ s.walker.snapshot := by
  rw [State.endWalk_container]
  by_cases listed : k ∈ s.walker.snapshot
  · simp [listed, Container.initial]
  · simp [listed]

/-! ## The PURGED reports placed -/

theorem State.placeReport_completed (s : State) (r : Report) :
    (s.placeReport r).walker.completed = s.walker.completed := by
  have left : ∀ u : State, u.leaveReporting.walker.completed = u.walker.completed := by
    intro u
    simp only [State.leaveReporting]
    split
    · split <;> rfl
    · rfl
  simp only [State.placeReport]
  split
  · cases r with
    | purged => exact left _
    | _ => rfl
  · rfl

theorem State.placeReports_completed (s : State) : s.placeReports.walker.completed = s.walker.completed := by
  rw [State.placeReports, foldl_keep (fun t => t.walker.completed) State.placeReport State.placeReport_completed,
    State.reportOrder_state]

/-- Reports none of which is a LOST report are placed in the order made (R169). -/
theorem State.reportOrder_of_noLost {s : State} (h : ∀ r ∈ s.management.fresh, r.isLost = false) :
    s.reportOrder = (s.management.fresh, { s with management := { s.management with fresh := [] } }) := by
  have none : s.management.fresh.filter Report.isLost = [] := by
    rw [List.filter_eq_nil_iff]
    intro r hr
    rw [h r hr]
    exact Bool.false_ne_true
  have all : s.management.fresh.filter (fun r => !r.isLost) = s.management.fresh := by
    rw [List.filter_eq_self]
    intro r hr
    rw [h r hr]
    rfl
  simp only [State.reportOrder, none, all, if_true]

theorem State.retiredSlots_congr {s t : State} (h : t.containers = s.containers) : t.retiredSlots = s.retiredSlots := by
  rw [State.retiredSlots, h, State.retiredSlots]

/-- With room for every PURGED report the walker leaves REPORTING at the last one (R158). -/
theorem State.foldl_purged_walker (walks : Half) (l : List Nat) (some : l ≠ []) (s : State)
    (reporting : s.walker.state = .reporting) (list : s.walker.reportList = l) (held : s.management.held = [])
    (room : s.management.reports.length + l.length ≤ 32) :
    ((l.map (fun k => Report.purged k walks)).foldl State.placeReport s).walker =
      if s.retiredSlots = [] then { s.walker with reportList := [], state := .idle }
      else { s.walker with reportList := [], state := .walking, position := 0, snapshot := s.retiredSlots } := by
  induction l generalizing s with
  | nil => exact absurd rfl some
  | cons k rest ih =>
    have erased : s.walker.reportList.erase k = rest := by rw [list, List.erase_cons_head]
    have space : s.management.reports.length < 32 := by
      simp only [List.length_cons] at room
      omega
    rw [List.map_cons, List.foldl_cons, State.placeReport_of_room held space]
    cases rest with
    | nil => exact State.enterReport_purged_leaves reporting erased
    | cons next more =>
      have stays : (s.enterReport (.purged k walks)).walker = { s.walker with reportList := next :: more } := by
        rw [State.enterReport_purged_stays (.inr (by rw [erased]; exact List.cons_ne_nil _ _)), erased]
      have slots := State.retiredSlots_congr (State.enterReport_containers s (.purged k walks))
      rw [ih (List.cons_ne_nil _ _) (s.enterReport (.purged k walks)) (by rw [stays]; exact reporting) (by rw [stays]) ?_ ?_,
        slots, stays]
      · rw [State.enterReport, State.reportEntered_management]
        exact held
      · rw [State.enterReport_reports, List.length_append, List.length_singleton]
        simp only [List.length_cons] at room ⊢
        omega

/-- PURGED reports alone placed: the order is that made, and the walker leaves REPORTING (R158, R169). -/
theorem State.placeReports_purged_walker {s : State} {walks : Half} {l : List Nat} (some : l ≠ [])
    (fresh : s.management.fresh = l.map (fun k => .purged k walks)) (reporting : s.walker.state = .reporting)
    (list : s.walker.reportList = l) (held : s.management.held = []) (room : s.management.reports.length + l.length ≤ 32) :
    s.placeReports.walker =
      if s.retiredSlots = [] then { s.walker with reportList := [], state := .idle }
      else { s.walker with reportList := [], state := .walking, position := 0, snapshot := s.retiredSlots } := by
  have order := State.reportOrder_of_noLost (s := s) (fun r hr => by
    obtain ⟨k, -, rfl⟩ := List.mem_map.1 (fresh ▸ hr)
    rfl)
  rw [State.placeReports, order, fresh]
  exact State.foldl_purged_walker walks l some { s with management := { s.management with fresh := [] } } reporting list
    held room

/-! ## A scrub step -/

/-- The station once a scrub step of bucket `b` is over and the position has risen (R157). -/
def State.scrubbed (s : State) (b : Nat) : State :=
  { (s.removeDead b).endService with walker := { s.walker with position := s.walker.position + 1 } }

section Scrub

variable {s : State} {b : Nat} (active : s.active = true) (service : s.index.service = .scrub b)
include active service

theorem execScrubStepComplete_moves (more : s.walker.position + 1 < 2 ^ s.settings.indexExponent) :
    exec .scrubStepComplete s = .next (s.scrubbed b) := by
  simp only [exec, execScrubStepComplete, active, service]
  exact congrArg _ (if_pos (by exact more))

theorem execScrubStepComplete_ends (last : 2 ^ s.settings.indexExponent ≤ s.walker.position + 1) :
    exec .scrubStepComplete s = .next (s.scrubbed b).endWalk.settle := by
  simp only [exec, execScrubStepComplete, active, service]
  exact congrArg _ (if_neg (by exact Nat.not_lt.2 last))

end Scrub

section Ended

variable {s : State} (fresh : s.management.fresh = []) (openWait : s.containers.openWait = [])
  (flushQueue : s.store.flushQueue = [])
include openWait flushQueue

theorem State.endWalk_settle_containers : s.endWalk.settle.containers = s.endWalk.containers := by
  have noFlush : s.endWalk.store.flushQueue = [] := by rw [State.endWalk_eq]; exact flushQueue
  have noWait : s.endWalk.containers.openWait = [] := by rw [State.endWalk_eq]; exact openWait
  rw [State.settle_containers_of_clear (State.flushesClear_of_nil noFlush), State.serveOpenWait_of_nil noWait]

omit openWait in
/-- The state in which the PURGED reports are placed. -/
theorem State.endWalk_looked : s.endWalk.looked.management = s.endWalk.management ∧
    s.endWalk.looked.walker = s.endWalk.walker := by
  have noFlush : s.endWalk.store.flushQueue = [] := by rw [State.endWalk_eq]; exact flushQueue
  exact ⟨State.looked_management_of_clear (State.flushesClear_of_nil noFlush), by simp [State.looked]⟩

omit openWait in
include fresh in
theorem State.endWalk_reportOrder : s.endWalk.looked.reportOrder =
    (s.walker.snapshot.map (fun k => .purged k (s.walker.completed + 1)),
      { s.endWalk.looked with management := { s.management with fresh := [] } }) := by
  have management := (State.endWalk_looked flushQueue).1.trans (State.endWalk_management fresh)
  rw [State.reportOrder_of_noLost, management]
  rw [management]
  intro r hr
  obtain ⟨k, -, rfl⟩ := List.mem_map.1 hr
  rfl

omit openWait in
include fresh in
/-- The PURGED reports stand in rising slot order behind those before (R158, R169). -/
theorem State.endWalk_settle_reports :
    s.endWalk.settle.management.reports ++ s.endWalk.settle.management.held =
      s.management.reports ++ s.management.held ++
        s.walker.snapshot.map (fun k => .purged k (s.walker.completed + 1)) := by
  rw [State.settle_reports, State.settle_held, State.placeReports, State.endWalk_reportOrder fresh flushQueue,
    State.foldl_placeReport_queues]

omit openWait in
theorem State.endWalk_settle_completed : s.endWalk.settle.walker.completed = s.walker.completed + 1 := by
  rw [State.settle_walker, State.placeReports_completed, (State.endWalk_looked flushQueue).2, State.endWalk_eq]

include fresh in
/-- With room for the reports the walker is IDLE, or walks anew for the slots retired meanwhile (R157, R158). -/
theorem State.endWalk_settle_walker (held : s.management.held = [])
    (room : s.management.reports.length + s.walker.snapshot.length ≤ 32) (some : s.walker.snapshot ≠ []) :
    s.endWalk.settle.walker =
      if s.endWalk.retiredSlots = [] then { s.endWalk.walker with reportList := [], state := .idle }
      else { s.endWalk.walker with
        reportList := [], state := .walking, position := 0, snapshot := s.endWalk.retiredSlots } := by
  have walker := (State.endWalk_looked flushQueue).2
  have containers : s.endWalk.looked.containers = s.endWalk.containers := by
    have same := State.endWalk_settle_containers openWait flushQueue
    rwa [State.settle_eq_looked, State.refresh_containers, State.placeReports_containers] at same
  have state : s.endWalk.walker.state = .reporting := by rw [State.endWalk_eq]
  have list : s.endWalk.walker.reportList = s.walker.snapshot := by rw [State.endWalk_eq]
  have management := (State.endWalk_looked flushQueue).1.trans (State.endWalk_management fresh)
  rw [State.settle_walker, State.placeReports_purged_walker some (by rw [management]) (by rw [walker]; exact state)
    (by rw [walker]; exact list) (by rw [management]; exact held) (by rw [management]; exact room),
    State.retiredSlots_congr containers, walker]

end Ended

/-- Settles O31: within the walk the position rises; at its end the slots, the reports and the walker as above. -/
theorem scrubStepMovesTheWalk : Obligations.ScrubStepMovesTheWalk := by
  intro s b active service
  refine ⟨fun more => ?_, fun last canonical fresh openWait flushQueue => ?_⟩
  · exact ⟨_, execScrubStepComplete_moves active service more, State.tidied_of_removeDead rfl, rfl⟩
  set u := s.scrubbed b with scrubbed
  have containers : u.endWalk.settle.containers = u.endWalk.containers := State.endWalk_settle_containers openWait flushQueue
  have each : ∀ k, u.endWalk.settle.container k = u.endWalk.container k := fun k => by rw [State.container, containers, State.container]
  have index : u.endWalk.settle.index = u.index := by rw [State.settle_index, State.endWalk_eq]
  have retired : ∀ k, (u.endWalk.container k).state = .retired ↔ (s.container k).state = .retired ∧ k ∉ s.walker.snapshot :=
    u.endWalk_retired_iff
  have wf : Sparse.wf Container.initial u.endWalk.containers.table = true := by
    rw [State.endWalk_eq]
    exact Sparse.wf_foldl_clear _ _ _ canonical.2.2
  refine ⟨_, execScrubStepComplete_ends active service last, State.tidied_of_removeDead (by rw [index]; rfl),
    by rw [index]; rfl, fun k => (each k).trans (u.endWalk_container k), ?_, ?_, State.endWalk_settle_completed flushQueue,
    State.endWalk_settle_reports fresh flushQueue, fun held room _ some => ?_⟩
  · rw [containers, State.endWalk_eq]
    rfl
  · rw [containers, State.endWalk_eq]
    rfl
  · have walker := State.endWalk_settle_walker (s := u) fresh openWait flushQueue held room some
    refine ⟨fun all => ?_, fun ⟨k, isRetired, meanwhile⟩ => ?_⟩
    · have none : u.endWalk.retiredSlots = [] := (State.retiredSlots_eq_nil_iff wf).2 (fun k hk =>
        ((retired k).1 hk).2 (all k ((retired k).1 hk).1))
      rw [walker, if_pos none]
    · have left : u.endWalk.retiredSlots ≠ [] := fun none =>
        (State.retiredSlots_eq_nil_iff wf).1 none k ((retired k).2 ⟨isRetired, meanwhile⟩)
      rw [walker, if_neg left]
      exact ⟨rfl, rfl, fun k => (State.mem_retiredSlots wf k).trans (retired k)⟩

end Sys2Proof.Machine
end

