-- ==== Sys2Proof/Proofs/InsertRewrites.lean ====
section
/-! PROOFS. An insert completed: its bucket rewritten (R41, R45, R50), the displacement flag (R51), and what the Resolution
Unit leaves alone when it takes the insert. -/

namespace Sys2Proof.Machine

/-! ## What the Resolution Unit does to streams -/

/-- A relation of a stream before and after that holds of all that the Resolution Unit does to streams: a chunk's phase or
result is written, and an append is requested. -/
structure Resolving (R : Stream → Stream → Prop) : Prop extends Settling R where
  slot : ∀ (x : Stream) p f, (∀ q : PendingSlot, (f q).number = q.number ∧ (f q).fingerprint = q.fingerprint) →
    R x (x.modSlot p f)

section Walk

variable {R : Stream → Stream → Prop} (h : Resolving R)
include h

theorem Resolving.modSlot (s : State) (i : Fin 16) (p : Fin 32) (f : PendingSlot → PendingSlot)
    (keeps : ∀ q, (f q).number = q.number ∧ (f q).fingerprint = q.fingerprint) :
    s.StreamsBy R (s.modStream i (fun x => x.modSlot p f)) := h.setStream (h.slot _ p f keeps)

theorem Resolving.setPhase (s : State) (w : Waiter) (p : Phase) : s.StreamsBy R (s.setPhase w p) :=
  h.modSlot s w.1 w.2 _ (fun _ => ⟨rfl, rfl⟩)

theorem Resolving.resolveChunk (s : State) (w : Waiter) (d : Disposition) (l : Option Location) (b : Option Bool) :
    s.StreamsBy R (s.resolveChunk w d l b) := h.modSlot s w.1 w.2 _ (fun _ => ⟨rfl, rfl⟩)

theorem Resolving.resolveAll (s : State) (ws : List Waiter) (d : Disposition) (l : Location) (b : Option Bool) :
    s.StreamsBy R (s.resolveAll ws d l b) := h.fold (fun t w => h.resolveChunk t w d (some l) b) ws s

theorem Resolving.resolveStored (s : State) (ws : List Waiter) (l : Location) : s.StreamsBy R (s.resolveStored ws l) := by
  cases ws with
  | nil => exact h.same rfl
  | cons w rest => exact h.before (h.thenBy (h.resolveChunk _ _ _ _ _) (h.resolveAll _ _ _ _ _)) rfl

theorem Resolving.joinAsk (s : State) (e : AskEntry) (w : Waiter) : s.StreamsBy R (s.joinAsk e w) :=
  h.before (h.setPhase _ w .waiting) rfl

theorem Resolving.makeAsk (s : State) (f : Fingerprint) (w : Waiter) : s.StreamsBy R (s.makeAsk f w) :=
  h.before (h.setPhase _ w .waiting) rfl

theorem Resolving.workWaitQueueUpTo (s : State) (n : Nat) : s.StreamsBy R (s.workWaitQueueUpTo n) := by
  induction n generalizing s with
  | zero => exact h.same rfl
  | succ n ih =>
    simp only [State.workWaitQueueUpTo]
    split
    · exact h.same rfl
    · split
      · exact h.same rfl
      · split
        · exact h.before (h.thenBy (h.joinAsk _ _ _) (ih _)) rfl
        · split
          · exact h.before (h.thenBy (h.makeAsk _ _ _) (ih _)) rfl
          · exact h.same rfl

theorem Resolving.freeAsk (s : State) (e : AskEntry) : s.StreamsBy R (s.freeAsk e) :=
  h.before (h.workWaitQueueUpTo _ _) rfl

theorem Resolving.storeOrFree (s : State) (e : AskEntry) : s.StreamsBy R (s.storeOrFree e) := by
  simp only [State.storeOrFree]
  split
  · exact h.freeAsk s e
  · exact h.before (h.requestAppend _ _) rfl

theorem Resolving.takeInsert (s : State) (slot ordinal : Nat) (tag : Byte) : s.StreamsBy R (s.takeInsert slot ordinal tag) := by
  simp only [State.takeInsert]
  split
  · exact h.same rfl
  · split
    · exact h.thenBy (h.resolveStored s _ _) (h.before (h.freeAsk _ _) rfl)
    · exact h.before (h.storeOrFree _ _) rfl

end Walk

theorem Stream.sameWork.of_pending (x : Stream) (pending : List PendingSlot) : x.sameWork { x with pending := pending } :=
  ⟨rfl, rfl, rfl, rfl, rfl, rfl, rfl, rfl, rfl, rfl, rfl, rfl, rfl, rfl, rfl⟩

theorem sameWork_resolving : Resolving Stream.sameWork where
  refl x := Stream.sameWork.of_pending x x.pending
  trans := Stream.sameWork.trans
  current _ _ := ⟨rfl, rfl, rfl, rfl, rfl, rfl, rfl, rfl, rfl, rfl, rfl, rfl, rfl, rfl, rfl⟩
  issued _ _ _ := ⟨rfl, rfl, rfl, rfl, rfl, rfl, rfl, rfl, rfl, rfl, rfl, rfl, rfl, rfl, rfl⟩
  owe x r status := (Stream.Kept.owe x r status).sameWork
  slot x _ _ _ := Stream.sameWork.of_pending x _

/-! ## What the Resolution Unit leaves alone -/

theorem State.resolveStored_changes (s : State) (ws : List Waiter) (l : Location) : s.resolveStored ws l = { s with
    streams := (s.resolveStored ws l).streams, containers := (s.resolveStored ws l).containers } := by
  cases ws with
  | nil => rfl
  | cons w rest =>
    simp only [State.resolveStored]
    rw [State.resolveAll_changes]
    rfl

theorem State.takeInsert_changes (s : State) (slot ordinal : Nat) (tag : Byte) : s.takeInsert slot ordinal tag = { s with
    streams := (s.takeInsert slot ordinal tag).streams, resolution := (s.takeInsert slot ordinal tag).resolution
    bus := (s.takeInsert slot ordinal tag).bus, containers := (s.takeInsert slot ordinal tag).containers
    store := (s.takeInsert slot ordinal tag).store } := by
  simp only [State.takeInsert]
  split
  · rfl
  · split
    · rw [State.freeAsk_changes, State.resolveStored_changes]
      rfl
    · rw [State.storeOrFree_changes]
      rfl

/-! ## Latched flags through the end of a step -/

/-- A refused flush latches STORE_FAULT, and no other flag (R131). -/
theorem State.refuseFlush_flags (s : State) (j : FlushJob) (rest : List FlushJob) {m : Byte}
    (outside : EventFlag.storeFault.mask &&& m = 0#8) :
    (s.refuseFlush j rest).management.flags &&& m = s.management.flags &&& m := by
  simp only [State.refuseFlush, State.emitRecords_management, State.serveOpenWait_management, State.flushOutcome, if_true,
    State.containerNotice_management, State.makeReport, State.latch, State.setContainer]
  rw [BitVec.and_or_distrib_right, outside, BitVec.or_zero]

theorem State.enterReport_flags (s : State) (r : Report) : (s.enterReport r).management.flags = s.management.flags := by
  rw [State.enterReport, State.reportEntered_management]

theorem State.placeReports_flags (s : State) : s.placeReports.management.flags = s.management.flags := by
  have each : ∀ (u : State) (r : Report), (u.placeReport r).management.flags = u.management.flags := by
    intro u r
    simp only [State.placeReport]
    split
    · exact u.enterReport_flags r
    · rfl
  rw [State.placeReports, foldl_keep (fun t => t.management.flags) State.placeReport each, State.reportOrder_state]

theorem State.looked_flags (s : State) {m : Byte} (outside : EventFlag.storeFault.mask &&& m = 0#8) :
    s.looked.management.flags &&& m = s.management.flags &&& m := by
  have looks := looking_reading (g := fun t : State => t.management.flags &&& m) (fun _ _ _ _ => rfl)
    (fun u j rest => u.refuseFlush_flags j rest outside)
  refine (looks.lookAtPort s.serveOpenWait.emitRecords).trans ?_
  simp only [State.emitRecords_management, State.serveOpenWait_management]

/-- INDEX_DISPLACED stands through the last part of a step (R168). -/
theorem State.settle_indexDisplaced (s : State) :
    s.settle.management.flags &&& 0x10#8 = s.management.flags &&& 0x10#8 := by
  have latched := congrArg (· &&& 0x10#8) s.looked.placeReports.refresh_latched
  simp only [BitVec.and_assoc, State.placeReports_flags] at latched
  rw [State.settle_eq_looked]
  exact latched.trans (s.looked_flags rfl)

/-! ## The bucket rewritten -/

/-- What the insert leaves of its bucket, and whether an entry is displaced (R50, R51). -/
def State.bucketInserted (s : State) (f : Fingerprint) (slot ordinal : Nat) : List IndexEntry × Bool :=
  insertInto (s.liveEntries (s.bucketNumber f)) { fingerprint := f, slot := slot, ordinal := ordinal }

/-- The station once the insert has rewritten its bucket (R50, R51). -/
def State.inserted (s : State) (f : Fingerprint) (slot ordinal : Nat) : State :=
  { s with
    index := { s.index with
      buckets := s.index.buckets.put [] (s.bucketNumber f) (s.bucketInserted f slot ordinal).1
      service := .nothing }
    management := { s.management with
      flags := if (s.bucketInserted f slot ordinal).2 then s.management.flags ||| EventFlag.indexDisplaced.mask
        else s.management.flags } }

section Insert

variable (s : State) (f : Fingerprint) (slot ordinal : Nat)

theorem execInsertComplete_eq {s : State} {f : Fingerprint} {slot ordinal length : Nat} {tag : Byte}
    (active : s.active = true) (service : s.index.service = .request (.insert f slot ordinal length tag)) :
    exec .insertComplete s = .next ((s.inserted f slot ordinal).takeInsert slot ordinal tag).settle := by
  simp only [exec, execInsertComplete, active, service]
  refine congrArg (fun u : State => Host.Outcome.next (u.takeInsert slot ordinal tag).settle) ?_
  rw [State.inserted, State.bucketInserted]
  split <;> rfl

/-- The entries that an insert keeps: the live ones of other fingerprints, oldest first (R45, R50). -/
def State.keptBy (s : State) (f : Fingerprint) : List IndexEntry :=
  (s.bucket (s.bucketNumber f)).filter (fun e => s.isLive e && decide (e.fingerprint ≠ f))

theorem State.filter_liveEntries :
    (s.liveEntries (s.bucketNumber f)).filter (fun e => decide (e.fingerprint ≠ f)) = s.keptBy f := by
  rw [State.liveEntries_eq, List.filter_filter, State.keptBy]
  exact List.filter_congr (fun e _ => Bool.and_comm _ _)

theorem State.bucketInserted_eq : s.bucketInserted f slot ordinal =
    ((if 8 ≤ (s.keptBy f).length then (s.keptBy f).tail else s.keptBy f) ++
      [{ fingerprint := f, slot := slot, ordinal := ordinal }], decide (8 ≤ (s.keptBy f).length)) := by
  simp only [State.bucketInserted, insertInto, State.filter_liveEntries]
  split
  next full => rw [decide_eq_true full]
  next room => rw [decide_eq_false room]

theorem State.inserted_bucket (a : Nat) : (s.inserted f slot ordinal).bucket a =
    if a = s.bucketNumber f then (s.bucketInserted f slot ordinal).1 else s.bucket a := by
  rw [← State.bucket_setBucket]
  rfl

theorem State.inserted_displaced (full : 8 ≤ (s.keptBy f).length) :
    (s.inserted f slot ordinal).management.flags &&& 0x10#8 = 0x10#8 := by
  simp only [State.inserted, State.bucketInserted_eq, decide_eq_true full, if_true]
  rw [BitVec.and_or_distrib_right]
  exact BitVec.eq_of_getLsbD_eq (by simp [EventFlag.mask])

theorem State.inserted_undisplaced (room : (s.keptBy f).length < 8) :
    (s.inserted f slot ordinal).management = s.management := by
  simp only [State.inserted, State.bucketInserted_eq, decide_eq_false (Nat.not_le.2 room), Bool.false_eq_true, if_false]

end Insert

/-- Settles O29: the rewritten bucket and the flag stand through what the Resolution Unit and the step's last part do. -/
theorem insertRewritesBucket : Obligations.InsertRewritesBucket := by
  intro s f slot ordinal length tag b kept active service
  set u := s.inserted f slot ordinal with inserted
  set t := (u.takeInsert slot ordinal tag).settle with taken
  have changes := u.takeInsert_changes slot ordinal tag
  have index : t.index = u.index := by rw [taken, State.settle_index, changes]
  have flags : t.management.flags &&& 0x10#8 = u.management.flags &&& 0x10#8 := by
    rw [taken, State.settle_indexDisplaced, changes]
  have buckets : ∀ a, t.bucket a = if a = b then (s.bucketInserted f slot ordinal).1 else s.bucket a := by
    intro a
    rw [State.bucket, index]
    exact s.inserted_bucket f slot ordinal a
  refine ⟨t, execInsertComplete_eq active service, ?_, fun a other => (buckets a).trans (if_neg other), by rw [index]; rfl,
    fun full => ?_, fun room => ?_, ?_, ?_, ?_, ?_, ?_, ?_, fun j => ?_⟩
  · rw [buckets b, if_pos rfl, State.bucketInserted_eq]
    rfl
  · exact flags.trans (s.inserted_displaced f slot ordinal full)
  · rw [flags, s.inserted_undisplaced f slot ordinal room]
  · rw [taken, State.settle_engines, changes]; rfl
  · rw [taken, State.settle_digestQueue, changes]; rfl
  · rw [taken, State.settle_staging, changes]; rfl
  · rw [taken, State.settle_settings, changes]; rfl
  · rw [taken, State.settle_station, changes]; rfl
  · rw [taken, State.settle_now, changes]; rfl
  · exact (sameWork_resolving.takeInsert u slot ordinal tag j).trans (State.settle_kept _ j).sameWork

end Sys2Proof.Machine
end

