-- ==== Sys2Proof/Proofs/AskFreed.lean ====
section
/-! PROOFS. An ask entry freed (R66) and the ask-wait queue worked (R59, R60, R64, R65). -/

namespace Sys2Proof.Machine

/-! ## Free tags -/

/-- With fewer than 256 entries some byte is the tag of none. -/
theorem Resolution.exists_unused {r : Resolution} (few : r.entries.length < 256) :
    ∃ tag, ∀ e ∈ r.entries, e.tag ≠ tag := by
  by_contra! all
  have distinct : ((List.range 256).map (BitVec.ofNat 8)).Nodup := by
    refine List.Nodup.map_on (fun x hx y hy same => ?_) List.nodup_range
    rw [List.mem_range] at hx hy
    simpa [Nat.mod_eq_of_lt hx, Nat.mod_eq_of_lt hy] using congrArg BitVec.toNat same
  have within : (List.range 256).map (BitVec.ofNat 8) ⊆ r.entries.map (·.tag) := by
    intro tag _
    obtain ⟨e, he, same⟩ := all tag
    exact List.mem_map.2 ⟨e, he, same⟩
  have most := (distinct.subperm within).length_le
  simp only [List.length_map, List.length_range] at most
  omega

/-- The tag found is the tag of no entry, or every tag looked at is in use (R64). -/
theorem Resolution.freeTag_unused_or (r : Resolution) (tag : Byte) (n : Nat) :
    (∀ e ∈ r.entries, e.tag ≠ r.freeTag tag n) ∨ ∀ k < n, ∃ e ∈ r.entries, e.tag = tag + BitVec.ofNat 8 k := by
  induction n generalizing tag with
  | zero => exact .inr (fun k hk => absurd hk (Nat.not_lt_zero k))
  | succ n ih =>
    simp only [Resolution.freeTag]
    split
    next used =>
      refine (ih (tag + 1)).imp id (fun later k hk => ?_)
      cases k with
      | zero => simpa using used
      | succ k =>
        obtain ⟨e, he, same⟩ := later k (by omega)
        refine ⟨e, he, same.trans ?_⟩
        rw [BitVec.ofNat_add, BitVec.add_assoc, BitVec.add_comm 1]
        rfl
    next unused => exact .inl (by simpa using unused)

/-- With fewer than 256 entries the tag found is the tag of none (R64). -/
theorem Resolution.freeTag_unused {r : Resolution} (few : r.entries.length < 256) (tag : Byte) :
    ∀ e ∈ r.entries, e.tag ≠ r.freeTag tag 256 := by
  refine (r.freeTag_unused_or tag 256).resolve_right (fun all => ?_)
  obtain ⟨unused, none⟩ := Resolution.exists_unused few
  obtain ⟨e, he, same⟩ := all (unused - tag).toNat (unused - tag).isLt
  refine none e he (same.trans ?_)
  rw [BitVec.ofNat_toNat, BitVec.setWidth_eq, BitVec.add_comm, BitVec.sub_add_cancel]

/-! ## Unsent ASKs -/

theorem PeerBus.handAsk_hasUnsentAsk (b : PeerBus) (tag : Byte) (f : Fingerprint) :
    (b.handAsk tag f).hasUnsentAsk tag f := by
  simp only [PeerBus.handAsk]
  split
  · exact .inr ⟨{ frame := .ask tag f, attempts := 0 }, by simp [PeerBus.enqueue], rfl, rfl⟩
  · exact .inl (by simp)

/-- An ASK handed over leaves those before it unsent. -/
theorem PeerBus.hasUnsentAsk.handAsk {b : PeerBus} {tag : Byte} {f : Fingerprint} (h : b.hasUnsentAsk tag f) (tag' : Byte)
    (f' : Fingerprint) : (b.handAsk tag' f').hasUnsentAsk tag f := by
  simp only [PeerBus.handAsk]
  split
  · exact h.imp id (fun ⟨t, queued, frame⟩ => ⟨t, by simp [PeerBus.enqueue, queued], frame⟩)
  · exact h.imp (fun held => List.mem_append_left _ held) id

/-! ## Fingerprints of chunks -/

/-- The chunk in each slot keeps its fingerprint. -/
def Stream.SamePrints (x y : Stream) : Prop :=
  ∀ p, (y.slot? p).bind (·.fingerprint) = (x.slot? p).bind (·.fingerprint)

theorem Stream.SamePrints.modSlot (x : Stream) (p : Fin 32) (f : PendingSlot → PendingSlot)
    (keeps : ∀ q, (f q).number = q.number ∧ (f q).fingerprint = q.fingerprint) : x.SamePrints (x.modSlot p f) := by
  intro p'
  have number : ((fun q : PendingSlot => decide (q.number = p')) ∘ fun q => if q.number = p then f q else q) =
      fun q => decide (q.number = p') := by
    funext q
    simp only [Function.comp]
    split
    · rw [(keeps q).1]
    · rfl
  rw [Stream.slot?, Stream.modSlot, List.find?_map, number]
  change Option.bind (Option.map _ (x.slot? p')) _ = _
  cases x.slot? p' with
  | none => rfl
  | some q =>
    simp only [Option.map_some, Option.bind_some]
    split
    · exact (keeps q).2
    · rfl

theorem samePrints_resolving : Resolving Stream.SamePrints where
  refl _ _ := rfl
  trans h g p := (g p).trans (h p)
  current _ _ _ := rfl
  issued _ _ _ _ := rfl
  owe x r status p := by rw [Stream.slot?, Stream.slot?, (Stream.Kept.owe x r status).pending]
  slot := Stream.SamePrints.modSlot

theorem State.fingerprintOf_eq {s t : State} (h : s.StreamsBy Stream.SamePrints t) (w : Waiter) :
    t.fingerprintOf w = s.fingerprintOf w := h w.1 w.2

theorem State.fingerprint_ne_of_askFor {s : State} {f : Fingerprint} (h : s.askFor f = none) :
    ∀ e ∈ s.resolution.entries, e.fingerprint ≠ f := by simpa [State.askFor] using h

/-! ## The ask-wait queue worked -/

/-- An entry with more waiters. -/
def AskEntry.joinedBy (e : AskEntry) (more : List Waiter) : AskEntry := { e with waiters := e.waiters ++ more }

theorem AskEntry.joinedBy_nil (e : AskEntry) : e.joinedBy [] = e := by rw [AskEntry.joinedBy, List.append_nil]

theorem AskEntry.joinedBy_joinedBy (e : AskEntry) (l k : List Waiter) : (e.joinedBy l).joinedBy k = e.joinedBy (l ++ k) := by
  simp only [AskEntry.joinedBy, List.append_assoc]

/-- Heads have left the ask-wait queue, each for the entry of its fingerprint, and new entries have their ASKs handed over
(R59, R60, R65). -/
structure State.QueueWorked (s t : State) : Prop where
  queue : t.resolution.waitQueue.Sublist s.resolution.waitQueue
  kept : ∀ e ∈ s.resolution.entries, ∃ more, e.joinedBy more ∈ t.resolution.entries
  made : ∀ e ∈ t.resolution.entries, (∃ d ∈ s.resolution.entries, ∃ more, e = d.joinedBy more) ∨
    (e.state = .sending ∧ t.bus.hasUnsentAsk e.tag e.fingerprint)
  left : ∀ w ∈ s.resolution.waitQueue, w ∉ t.resolution.waitQueue →
    ∃ e ∈ t.resolution.entries, s.fingerprintOf w = some e.fingerprint ∧ w ∈ e.waiters
  unsent : ∀ tag f, s.bus.hasUnsentAsk tag f → t.bus.hasUnsentAsk tag f
  prints : ∀ w, t.fingerprintOf w = s.fingerprintOf w
  sound : t.askTableSound

theorem State.QueueWorked.refl {s : State} (sound : s.askTableSound) : s.QueueWorked s where
  queue := List.Sublist.refl _
  kept e he := ⟨[], e.joinedBy_nil.symm ▸ he⟩
  made e he := .inl ⟨e, he, [], e.joinedBy_nil.symm⟩
  left _ there gone := absurd there gone
  unsent _ _ := id
  prints _ := rfl
  sound := sound

theorem State.QueueWorked.trans {s t u : State} (h : s.QueueWorked t) (g : t.QueueWorked u) : s.QueueWorked u where
  queue := g.queue.trans h.queue
  kept e he := by
    obtain ⟨l, hl⟩ := h.kept e he
    obtain ⟨k, hk⟩ := g.kept _ hl
    exact ⟨l ++ k, e.joinedBy_joinedBy l k ▸ hk⟩
  made e he := by
    rcases g.made e he with ⟨d, hd, k, rfl⟩ | new
    · rcases h.made d hd with ⟨c, hc, l, rfl⟩ | ⟨sending, ask⟩
      · exact .inl ⟨c, hc, l ++ k, c.joinedBy_joinedBy l k⟩
      · exact .inr ⟨sending, g.unsent _ _ ask⟩
    · exact .inr new
  left w there gone := by
    by_cases still : w ∈ t.resolution.waitQueue
    · obtain ⟨e, he, print, joined⟩ := g.left w still gone
      exact ⟨e, he, (h.prints w).symm.trans print, joined⟩
    · obtain ⟨e, he, print, joined⟩ := h.left w there still
      obtain ⟨k, hk⟩ := g.kept e he
      exact ⟨_, hk, print, List.mem_append_left _ joined⟩
  unsent tag f := g.unsent tag f ∘ h.unsent tag f
  prints w := (g.prints w).trans (h.prints w)
  sound := g.sound

/-- The entry that a chunk makes, with every pair of the ask-wait queue of its fingerprint (R64, R65). -/
def State.newAsk (s : State) (f : Fingerprint) (w : Waiter) : AskEntry :=
  { fingerprint := f, tag := s.resolution.freeTag s.resolution.nextTag 256, state := .sending, yielded := false
    timer := .stopped, found := none
    waiters := w :: s.resolution.waitQueue.filter (fun v => s.fingerprintOf v = some f), storingWaiter := none }

section Made

variable (s : State) (f : Fingerprint) (w : Waiter)

theorem State.makeAsk_entries : (s.makeAsk f w).resolution.entries = s.resolution.entries ++ [s.newAsk f w] := by
  simp only [State.makeAsk, State.setPhase_resolution, State.newAsk]

theorem State.makeAsk_waitQueue :
    (s.makeAsk f w).resolution.waitQueue = s.resolution.waitQueue.filter (fun v => s.fingerprintOf v ≠ some f) := by
  simp only [State.makeAsk, State.setPhase_resolution]

theorem State.makeAsk_bus : (s.makeAsk f w).bus = s.bus.handAsk (s.newAsk f w).tag f := by
  simp only [State.makeAsk, State.setPhase_bus, State.newAsk]

end Made

section Heads

variable {s : State} (sound : s.askTableSound) {w : Waiter} {rest : List Waiter} {f : Fingerprint}
  (queue : s.resolution.waitQueue = w :: rest) (print : s.fingerprintOf w = some f)

/-- The state with the head of the ask-wait queue gone. -/
def State.withoutHead (s : State) (rest : List Waiter) : State :=
  { s with resolution := { s.resolution with waitQueue := rest } }

include sound queue print

/-- The head of the ask-wait queue joins the entry of its fingerprint (R59). -/
theorem State.joinAsk_worked {e : AskEntry} (entry : s.askFor f = some e) :
    s.QueueWorked ((s.withoutHead rest).joinAsk e w) := by
  obtain ⟨listed, same⟩ := State.mem_of_askFor entry
  obtain ⟨few, fingerprints, tags⟩ := sound
  have entries : ((s.withoutHead rest).joinAsk e w).resolution.entries =
      s.resolution.entries.map (fun x => if x.tag = e.tag then x.joinedBy [w] else x) := by
    have set := State.setAsk_eq_map (s := s.withoutHead rest) (a := e) tags listed (f := fun x => x.joinedBy [w]) rfl
    exact congrArg (fun t : State => t.resolution.entries) set
  have each : ∀ x : AskEntry, (if x.tag = e.tag then x.joinedBy [w] else x) = x.joinedBy (if x.tag = e.tag then [w] else []) := by
    intro x
    split
    · rfl
    · exact x.joinedBy_nil.symm
  have joined : e.joinedBy [w] ∈ ((s.withoutHead rest).joinAsk e w).resolution.entries := by
    rw [entries]
    exact List.mem_map.2 ⟨e, listed, if_pos rfl⟩
  have still : ((s.withoutHead rest).joinAsk e w).resolution.waitQueue = rest := rfl
  refine ⟨?_, fun x hx => ?_, fun x hx => ?_, fun v there gone => ?_, fun _ _ => id, fun v => ?_, ?_, ?_, ?_⟩
  · rw [still, queue]
    exact List.sublist_cons_self w rest
  · exact ⟨_, by rw [entries]; exact List.mem_map.2 ⟨x, hx, each x⟩⟩
  · obtain ⟨d, hd, rfl⟩ := List.mem_map.1 (entries ▸ hx)
    exact .inl ⟨d, hd, _, each d⟩
  · rw [queue] at there
    rcases List.mem_cons.1 there with rfl | later
    · exact ⟨_, joined, print.trans (congrArg _ same.symm), List.mem_append_right _ List.mem_cons_self⟩
    · exact absurd later gone
  · exact State.fingerprintOf_eq (samePrints_resolving.joinAsk (s.withoutHead rest) e w) v
  all_goals rw [entries]
  · rwa [List.length_map]
  · simp only [each, List.map_map]
    exact fingerprints
  · simp only [each, List.map_map]
    exact tags

/-- The head of the ask-wait queue makes a new entry, with the pairs of its fingerprint (R59, R64, R65). -/
theorem State.makeAsk_worked (unmatched : s.askFor f = none) (room : s.resolution.entries.length < 64) :
    s.QueueWorked ((s.withoutHead rest).makeAsk f w) := by
  obtain ⟨few, fingerprints, tags⟩ := sound
  set new := (s.withoutHead rest).newAsk f w
  have entries : ((s.withoutHead rest).makeAsk f w).resolution.entries = s.resolution.entries ++ [new] :=
    State.makeAsk_entries _ f w
  have still : ((s.withoutHead rest).makeAsk f w).resolution.waitQueue =
      rest.filter (fun v => s.fingerprintOf v ≠ some f) := State.makeAsk_waitQueue _ f w
  have ask : ((s.withoutHead rest).makeAsk f w).bus = s.bus.handAsk new.tag f := State.makeAsk_bus _ f w
  have listed : new ∈ ((s.withoutHead rest).makeAsk f w).resolution.entries := by
    rw [entries]
    exact List.mem_append_right _ List.mem_cons_self
  refine ⟨?_, fun x hx => ?_, fun x hx => ?_, fun v there gone => ?_, fun t g => ?_, fun v => ?_, ?_, ?_, ?_⟩
  · rw [still, queue]
    exact List.filter_sublist.trans (List.sublist_cons_self w rest)
  · exact ⟨[], by rw [AskEntry.joinedBy_nil, entries]; exact List.mem_append_left _ hx⟩
  · rw [entries] at hx
    rcases List.mem_append.1 hx with before | here
    · exact .inl ⟨x, before, [], x.joinedBy_nil.symm⟩
    · obtain rfl := List.mem_singleton.1 here
      exact .inr ⟨rfl, ask ▸ s.bus.handAsk_hasUnsentAsk new.tag f⟩
  · rw [queue] at there
    rcases List.mem_cons.1 there with rfl | later
    · exact ⟨new, listed, print, List.mem_cons_self⟩
    · have same : s.fingerprintOf v = some f := by
        by_contra other
        exact gone (still ▸ List.mem_filter.2 ⟨later, decide_eq_true other⟩)
      exact ⟨new, listed, same, List.mem_cons_of_mem _ (List.mem_filter.2 ⟨later, decide_eq_true same⟩)⟩
  · exact fun h => ask ▸ h.handAsk new.tag f
  · exact State.fingerprintOf_eq (samePrints_resolving.makeAsk (s.withoutHead rest) f w) v
  all_goals rw [entries]
  · simpa using room
  · rw [List.map_append, List.map_singleton, ← List.concat_eq_append]
    refine fingerprints.concat (fun there => ?_)
    obtain ⟨x, hx, same⟩ := List.mem_map.1 there
    exact State.fingerprint_ne_of_askFor unmatched x hx same
  · rw [List.map_append, List.map_singleton, ← List.concat_eq_append]
    refine tags.concat (fun there => ?_)
    obtain ⟨x, hx, same⟩ := List.mem_map.1 there
    exact Resolution.freeTag_unused (r := (s.withoutHead rest).resolution) (room.trans (by omega)) _ x hx same

end Heads

/-- With turns for the whole ask-wait queue, the working stops at its end or at a head that matches no entry while all 64
are in use (R60). -/
theorem State.workWaitQueueUpTo_worked (n : Nat) {s : State} (sound : s.askTableSound)
    (known : ∀ w ∈ s.resolution.waitQueue, s.fingerprintOf w ≠ none) (turns : s.resolution.waitQueue.length ≤ n) :
    let t := s.workWaitQueueUpTo n
    s.QueueWorked t ∧ ∀ w rest, t.resolution.waitQueue = w :: rest →
      t.resolution.entries.length = 64 ∧ ∀ e ∈ t.resolution.entries, t.fingerprintOf w ≠ some e.fingerprint := by
  induction n generalizing s with
  | zero =>
    refine ⟨.refl sound, fun w rest queue => ?_⟩
    exact absurd (queue.symm.trans (List.length_eq_zero_iff.1 (Nat.le_zero.1 turns))) (List.cons_ne_nil w rest)
  | succ n ih =>
    have worked : ∀ {t : State} {w rest}, s.resolution.waitQueue = w :: rest → s.QueueWorked t →
        t.resolution.waitQueue.length ≤ rest.length →
        let u := t.workWaitQueueUpTo n
        s.QueueWorked u ∧ ∀ w rest, u.resolution.waitQueue = w :: rest →
          u.resolution.entries.length = 64 ∧ ∀ e ∈ u.resolution.entries, u.fingerprintOf w ≠ some e.fingerprint := by
      intro t w rest queue first shorter
      rw [queue, List.length_cons] at turns
      obtain ⟨after, stops⟩ := ih first.sound
        (fun v hv => by rw [first.prints]; exact known v (first.queue.subset hv)) (by omega)
      exact ⟨first.trans after, stops⟩
    simp only [State.workWaitQueueUpTo]
    split
    next queue => exact ⟨.refl sound, fun w rest head => absurd (queue.symm.trans head) (List.cons_ne_nil w rest).symm⟩
    next w rest queue =>
      split
      next unknown => exact absurd unknown (known w (queue ▸ List.mem_cons_self))
      next f print =>
        split
        next e entry => exact worked queue (State.joinAsk_worked sound queue print entry) le_rfl
        next none =>
          split
          next room => exact worked queue (State.makeAsk_worked sound queue print none room) (List.length_filter_le _ _)
          next full =>
            refine ⟨.refl sound, fun v others head => ?_⟩
            obtain ⟨rfl, rfl⟩ := List.cons.inj (queue.symm.trans head)
            have most := sound.1
            refine ⟨by omega, fun e he same => ?_⟩
            exact State.fingerprint_ne_of_askFor none e he (Option.some.inj (print.symm.trans same)).symm

/-! ## An entry freed -/

/-- The station once an entry is free, before the ask-wait queue is worked (R66). -/
def State.askGone (s : State) (e : AskEntry) : State :=
  { s with
    bus := s.bus.removeAsk e.tag e.fingerprint
    resolution := { s.resolution with entries := s.resolution.entries.filter (fun x => x.tag ≠ e.tag) } }

theorem State.freeAsk_eq (s : State) (e : AskEntry) :
    s.freeAsk e = (s.askGone e).workWaitQueueUpTo s.resolution.waitQueue.length := rfl

/-- With nothing in the ask-wait queue freeing an entry touches the table and the bus alone (R66). -/
theorem State.freeAsk_of_nil {s : State} (e : AskEntry) (queue : s.resolution.waitQueue = []) :
    s.freeAsk e = s.askGone e := by
  rw [State.freeAsk_eq, queue]
  rfl

theorem State.askTableSound.askGone {s : State} (sound : s.askTableSound) (e : AskEntry) : (s.askGone e).askTableSound := by
  obtain ⟨few, fingerprints, tags⟩ := sound
  exact ⟨(List.length_filter_le _ _).trans few, fingerprints.sublist (List.filter_sublist.map _),
    tags.sublist (List.filter_sublist.map _)⟩

/-- Freeing an entry works the ask-wait queue (R60, R66). -/
theorem State.freeAsk_waitQueueWorked {s u t : State} {e : AskEntry} (sound : s.askTableSound)
    (known : ∀ w ∈ s.resolution.waitQueue, s.fingerprintOf w ≠ none) (before : u.resolution = s.resolution)
    (prints : ∀ w, u.fingerprintOf w = s.fingerprintOf w) (resolution : t.resolution = (u.freeAsk e).resolution)
    (bus : t.bus = (u.freeAsk e).bus) : s.waitQueueWorked t e.tag := by
  have soundBefore : u.askTableSound := by rw [State.askTableSound, before]; exact sound
  have gonePrints : ∀ w, (u.askGone e).fingerprintOf w = s.fingerprintOf w := prints
  have goneQueue : (u.askGone e).resolution.waitQueue = s.resolution.waitQueue := by rw [← before]; rfl
  have goneEntries : ∀ x, x ∈ (u.askGone e).resolution.entries ↔ x ∈ s.resolution.entries ∧ x.tag ≠ e.tag := by
    intro x
    rw [← before]
    simp [State.askGone]
  obtain ⟨worked, stops⟩ := State.workWaitQueueUpTo_worked u.resolution.waitQueue.length (soundBefore.askGone e)
    (fun w hw => by rw [gonePrints]; exact known w (goneQueue ▸ hw)) le_rfl
  rw [← State.freeAsk_eq] at worked stops
  rw [State.waitQueueWorked, resolution, bus]
  refine ⟨goneQueue ▸ worked.queue, fun x hx other => worked.kept x ((goneEntries x).2 ⟨hx, other⟩), fun x hx => ?_,
    fun w there gone => ?_, fun w rest head => ?_⟩
  · refine (worked.made x hx).imp_left (fun ⟨d, hd, more, same⟩ => ?_)
    obtain ⟨listed, other⟩ := (goneEntries d).1 hd
    exact ⟨d, listed, other, more, same⟩
  · obtain ⟨x, hx, print, joined⟩ := worked.left w (goneQueue ▸ there) gone
    exact ⟨x, hx, (gonePrints w).symm.trans print, joined⟩
  · obtain ⟨full, unmatched⟩ := stops w rest head
    exact ⟨full, fun x hx => by rw [← gonePrints, ← worked.prints]; exact unmatched x hx⟩

end Sys2Proof.Machine
end

