-- ==== Sys2Proof/Proofs/InsertResolves.lean ====
section
/-! PROOFS. An insert taken by the Resolution Unit: its waiters resolved, or the chunk appended again (R52, R60, R66, R73, R75,
R132). -/

namespace Sys2Proof.Machine

/-! ## An append requested or in flight -/

/-- The request is for this ask entry's tag and waiter (R73). -/
def AppendRequest.isFor (r : AppendRequest) (tag : Byte) (w : Waiter) : Prop := r.tag = tag ∧ r.stream = w.1 ∧ r.slot = w.2

/-- A container in use has an append for the tag and waiter in flight (R126). -/
def Container.appends (c : Container) (tag : Byte) (w : Waiter) : Prop :=
  c.state ≠ .free ∧ ∃ a ∈ c.inFlight, a.tag = tag ∧ a.stream = w.1 ∧ a.slot = w.2

/-- The append stands in the open-wait queue or is in flight in a container in use. -/
def State.appendHeld (s : State) (tag : Byte) (w : Waiter) : Prop :=
  (∃ r ∈ s.containers.openWait, r.isFor tag w) ∨ ∃ k, (s.container k).appends tag w

theorem State.appendHeld.underWay {s : State} {tag : Byte} {w : Waiter} (h : s.appendHeld tag w) : s.appendUnderWay tag w :=
  h.imp id (fun ⟨k, _, flight⟩ => ⟨k, flight⟩)

section Held

variable {tag : Byte} {w : Waiter}

theorem Container.Kept.appends {c d : Container} (kept : c.Kept d) (h : c.appends tag w) : d.appends tag w := by
  obtain ⟨used, flight⟩ := h
  obtain ⟨stays, -, -, -, same, -⟩ := kept used
  exact ⟨stays, by rw [same]; exact flight⟩

theorem State.appendHeld.of_kept {s t : State} (h : s.appendHeld tag w) (containers : s.ContainersKept t)
    (openWait : t.containers.openWait = s.containers.openWait) : t.appendHeld tag w :=
  h.imp (fun waits => by rw [openWait]; exact waits) (fun ⟨k, flight⟩ => ⟨k, (containers k).appends flight⟩)

/-! ### Appends issued -/

theorem State.issueAppend_container (s : State) (slot : Nat) (r : AppendRequest) (k : Nat) :
    (s.issueAppend slot r).container k = if k = slot then { s.container slot with
      fill := (s.container slot).fill + r.length
      inFlight := (s.container slot).inFlight ++ [{
        offset := (s.container slot).fill, length := r.length, fingerprint := r.fingerprint, stream := r.stream
        slot := r.slot, tag := r.tag }] } else s.container k := by
  rw [State.issueAppend, State.container_setContainer]

/-- An append issued leaves the others in flight (R126). -/
theorem State.issueAppend_appends {s : State} {k : Nat} (slot : Nat) (r : AppendRequest) (h : (s.container k).appends tag w) :
    ((s.issueAppend slot r).container k).appends tag w := by
  rw [State.issueAppend_container]
  split
  next same =>
    subst same
    obtain ⟨used, a, flight, named⟩ := h
    exact ⟨used, a, List.mem_append_left _ flight, named⟩
  next => exact h

/-- The append issued is in flight in its container (R126). -/
theorem State.issueAppend_issued {s : State} {slot : Nat} {r : AppendRequest} (used : (s.container slot).state ≠ .free)
    (named : r.isFor tag w) : ((s.issueAppend slot r).container slot).appends tag w := by
  rw [State.issueAppend_container, if_pos rfl]
  exact ⟨used, _, List.mem_append_right _ List.mem_cons_self, named⟩

theorem State.issueAppend_state (s : State) (slot : Nat) (r : AppendRequest) :
    ((s.issueAppend slot r).container slot).state = (s.container slot).state := by
  rw [State.issueAppend_container, if_pos rfl]

theorem State.issueFollowers_appends {s : State} {k : Nat} (slot : Nat) (i : Fin 16) (l : List AppendRequest)
    (h : (s.container k).appends tag w) : ((s.issueFollowers slot i l).1.container k).appends tag w := by
  induction l generalizing s with
  | nil => exact h
  | cons r rest ih =>
    simp only [State.issueFollowers]
    split
    · split
      · exact ih (s.issueAppend_appends slot r h)
      · exact (s.sealRequest_containers slot .full k).appends h
    · exact ih h

/-- A request behind the one served is issued into the new container or stays in the queue (R124). -/
theorem State.issueFollowers_takes {s : State} {slot : Nat} {r : AppendRequest} (i : Fin 16) (l : List AppendRequest)
    (used : (s.container slot).state ≠ .free) (listed : r ∈ l) (named : r.isFor tag w) :
    r ∈ (s.issueFollowers slot i l).2 ∨ ((s.issueFollowers slot i l).1.container slot).appends tag w := by
  induction l generalizing s with
  | nil => exact absurd listed List.not_mem_nil
  | cons q rest ih =>
    simp only [State.issueFollowers]
    split
    · split
      · rcases List.mem_cons.1 listed with rfl | later
        · exact .inr (State.issueFollowers_appends slot i rest (State.issueAppend_issued used named))
        · exact ih (by rw [State.issueAppend_state]; exact used) later
      · exact .inl listed
    · rcases List.mem_cons.1 listed with rfl | later
      · exact .inl List.mem_cons_self
      · exact (ih used later).imp_left (List.mem_cons_of_mem q)

/-! ### The open-wait look -/

/-- Serving the first ready request takes it out and leaves the others (R124). -/
theorem State.firstReady_perm {s : State} {l others : List AppendRequest} {r : AppendRequest}
    (h : s.firstReady l = some (r, others)) : l.Perm (r :: others) := by
  induction l generalizing others with
  | nil => exact absurd h (Option.some_ne_none _).symm
  | cons q rest ih =>
    simp only [State.firstReady] at h
    split at h
    · obtain ⟨⟨r', kept⟩, found, same⟩ := Option.map_eq_some_iff.1 h
      obtain ⟨rfl, rfl⟩ := Prod.mk.inj same
      exact ((ih found).cons q).trans (List.Perm.swap r' q kept)
    · obtain ⟨rfl, rfl⟩ := Prod.mk.inj (Option.some.inj h)
      exact List.Perm.refl _

theorem State.openContainer_opened (s : State) (slot area : Nat) (i : Fin 16) :
    ((s.openContainer slot area i).container slot).state = .opened := by
  have opened := State.container_setContainer s slot slot
    { Container.initial with state := .opened, area := some area, owner := some i }
  rw [if_pos rfl] at opened
  exact congrArg Container.state opened

theorem State.appendHeld.serveOpenWaitUpTo {s : State} (n : Nat) (h : s.appendHeld tag w) :
    (s.serveOpenWaitUpTo n).appendHeld tag w := by
  induction n generalizing s with
  | zero => exact h
  | succ n ih =>
    simp only [State.serveOpenWaitUpTo]
    split
    next r others slot area first free _ =>
      refine ih ?_
      have unused := State.firstFreeSlot_free free
      have used : ((s.openContainer slot area r.stream).container slot).state ≠ .free := by
        rw [State.openContainer_opened]
        exact ContainerState.noConfusion
      rcases h with ⟨q, waits, named⟩ | ⟨k, flight⟩
      · rcases List.mem_cons.1 ((State.firstReady_perm first).subset waits) with rfl | later
        · exact .inr ⟨slot, State.issueFollowers_appends slot q.stream others (State.issueAppend_issued used named)⟩
        · rcases State.issueFollowers_takes r.stream others
            ((State.issueAppend_state _ slot r).symm ▸ used) later named with stays | flight
          · exact .inl ⟨q, stays, named⟩
          · exact .inr ⟨slot, flight⟩
      · have other : k ≠ slot := fun same => flight.1 (same ▸ unused)
        have opened := s.openContainer_container area r.stream other
        exact .inr ⟨k, State.issueFollowers_appends slot r.stream others
          (State.issueAppend_appends slot r (by rw [opened]; exact flight))⟩
    next => exact h

theorem State.appendHeld.serveOpenWait {s : State} (h : s.appendHeld tag w) : s.serveOpenWait.appendHeld tag w :=
  h.serveOpenWaitUpTo _

/-! ### The rounds and the arbiter -/

theorem State.turnSealing_openWait (s : State) (slot : Nat) (r : SealReason) :
    (s.turnSealing slot r).containers.openWait = s.containers.openWait := by
  simp [State.turnSealing]

theorem State.sealRequest_openWait (s : State) (slot : Nat) (r : SealReason) :
    (s.sealRequest slot r).containers.openWait = s.containers.openWait := by
  simp only [State.sealRequest]
  split
  · split
    · exact s.turnSealing_openWait slot r
    · simp
  · rfl

theorem State.anyOrder_containers {α : Type} (s : State) (l : List α) : (s.anyOrder l).2.containers = s.containers := by
  simp only [State.anyOrder]
  split <;> rfl

theorem State.beginRound_openWait (s : State) : s.beginRound.containers.openWait = s.containers.openWait := by
  refine (foldl_keep (fun t => t.containers.openWait) (fun t k => t.sealRequest k .round)
    (fun t k => t.sealRequest_openWait k .round) _ _).trans ?_
  refine (congrArg ContainerManager.openWait (State.anyOrder_containers _ _)).trans ?_
  exact foldl_keep (fun t => t.containers.openWait) (fun t k => t.enrol (nextRound s.sealUnit.counter) k)
    (fun _ _ => rfl) s _

theorem State.finishRound_openWait (s : State) : s.finishRound.containers.openWait = s.containers.openWait := by
  simp only [State.finishRound]
  split <;> rfl

theorem State.completeRound_openWait (s : State) : s.completeRound.containers.openWait = s.containers.openWait := by
  have begun := (State.beginRound_openWait { s.finishRound with
    sealUnit := { s.finishRound.sealUnit with roundAgain := false } }).trans s.finishRound_openWait
  simp only [State.completeRound]
  split
  · split
    · exact (State.finishRound_openWait _).trans begun
    · exact begun
  · exact s.finishRound_openWait

theorem State.containerNotice_openWait (s : State) (slot : Nat) (lost : Bool) :
    (s.containerNotice slot lost).containers.openWait = s.containers.openWait := by
  simp only [State.containerNotice]
  split
  · split
    · exact State.completeRound_openWait _
    · rfl
  · split <;> rfl

theorem State.flushOutcome_openWait (s : State) (slot : Nat) (error : Bool) :
    (s.flushOutcome slot error).containers.openWait = s.containers.openWait := by
  simp only [State.flushOutcome]
  refine (State.containerNotice_openWait _ _ _).trans ?_
  split <;> rfl

theorem State.appendHeld.emitRecords {s : State} (h : s.appendHeld tag w) : s.emitRecords.appendHeld tag w :=
  h.of_kept (State.ContainersKept.of_eq (by rw [State.emitRecords_containers])) (by rw [State.emitRecords_containers])

theorem State.appendHeld.refuseFlush {s : State} (h : s.appendHeld tag w) (j : FlushJob) (rest : List FlushJob) :
    (s.refuseFlush j rest).appendHeld tag w := by
  have lost : (({ s with store := { s.store with flushQueue := rest } } : State).flushOutcome j.slot true).appendHeld tag w :=
    h.of_kept (State.flushOutcome_containers { s with store := { s.store with flushQueue := rest } } j.slot true)
      (State.flushOutcome_openWait _ _ _)
  exact lost.serveOpenWait.emitRecords

/-- The last part of a step may issue the append and never loses it (R124, R126). -/
theorem State.appendHeld.settle {s : State} (h : s.appendHeld tag w) : s.settle.appendHeld tag w := by
  have looks : Looking (fun t u : State => t.appendHeld tag w → u.appendHeld tag w) :=
    { trans := fun a b => b ∘ a, issued := fun _ _ _ _ => id, refused := fun _ j rest held => held.refuseFlush j rest }
  have looked : s.looked.appendHeld tag w := looks.lookAtPort _ h.serveOpenWait.emitRecords
  have same : s.settle.containers = s.looked.containers := by
    rw [State.settle_eq_looked, State.refresh_containers, State.placeReports_containers]
  exact looked.of_kept (State.ContainersKept.of_eq (by rw [same])) (by rw [same])

/-- An append requested waits or is in flight, where the stream's current container is OPEN (R123, R124). -/
theorem State.requestAppend_appendHeld {s : State} {r : AppendRequest} (named : r.isFor tag w)
    (current : ∀ c, (s.stream r.stream).current = some c → (s.container c).state = .opened) :
    (s.requestAppend r).appendHeld tag w := by
  have joins : ∀ u : State, (u.joinOpenWait r).appendHeld tag w :=
    fun u => .inl ⟨r, List.mem_append_right _ List.mem_cons_self, named⟩
  simp only [State.requestAppend]
  split
  · exact joins s
  · split
    next slot isCurrent =>
      split
      · refine .inr ⟨slot, State.issueAppend_issued ?_ named⟩
        rw [current slot isCurrent]
        exact ContainerState.noConfusion
      · exact joins _
    next => exact joins s

end Held

/-! ## Waiters resolved -/

/-- Every waiter of the list has its result in its pending slot, and nothing else has changed (R62). -/
theorem State.resolveAll_stream (ws : List Waiter) (d : Disposition) (l : Location) (holder : Option Bool) (s : State)
    (j : Fin 16) : (s.resolveAll ws d l holder).stream j = { s.stream j with
      pending := (s.stream j).pending.map (fun q => if (j, q.number) ∈ ws then q.resolvedAs d l holder else q) } := by
  induction ws generalizing s with
  | nil => simp [State.resolveAll]
  | cons w rest ih =>
    have first : s.resolveAll (w :: rest) d l holder = (s.resolveChunk w d (some l) holder).resolveAll rest d l holder := rfl
    rw [first, ih, State.resolveChunk_stream, List.map_map]
    refine congrArg (fun pending => { s.stream j with pending := pending }) (List.map_congr_left (fun q _ => ?_))
    simp only [Function.comp, List.mem_cons]
    by_cases here : (j, q.number) = w
    · simp only [here, true_or, if_true]
      split <;> rfl
    · simp only [here, false_or, if_false]

section Resolved

variable {s : State} {ws : List Waiter} {l : Location}

/-- The first waiter is LOCAL_NEW and the others LOCAL_DUP (R75). -/
theorem State.resolveStored_pending (distinct : ws.Nodup) (j : Fin 16) : ((s.resolveStored ws l).stream j).pending =
    (s.stream j).pending.map (fun q => if ws.head? = some (j, q.number) then q.resolvedAs .localNew l none
      else if (j, q.number) ∈ ws then q.resolvedAs .localDup l none else q) := by
  cases ws with
  | nil => simp [State.resolveStored]
  | cons w rest =>
    have same : (s.raiseReferences l.slot (w :: rest).length).stream j = s.stream j := rfl
    rw [State.resolveStored, State.resolveAll_stream, State.resolveChunk_stream, same, List.map_map]
    refine List.map_congr_left (fun q _ => ?_)
    simp only [Function.comp, List.head?_cons, Option.some.injEq, List.mem_cons]
    by_cases here : (j, q.number) = w
    · have once : (j, q.number) ∉ rest := here ▸ (List.nodup_cons.1 distinct).1
      simp only [here, if_true]
      exact if_neg once
    · simp only [here, Ne.symm here, if_false, false_or]

/-- The container gains a unit for each waiter (R75, R132). -/
theorem State.resolveStored_container (k : Nat) : (s.resolveStored ws l).container k = { s.container k with
    references := (s.container k).references + if k = l.slot then ws.length else 0 } := by
  cases ws with
  | nil => simp [State.resolveStored]
  | cons w rest =>
    have same : (s.resolveStored (w :: rest) l).container k =
        (s.raiseReferences l.slot (w :: rest).length).container k := by
      simp [State.resolveStored, State.container]
    rw [same, State.raiseReferences_container]

end Resolved

theorem State.lowerReferences_container (s : State) (slot k : Nat) : (s.lowerReferences slot).container k =
    { s.container k with references := (s.container k).references - if k = slot then 1 else 0 } := by
  rw [State.lowerReferences, State.container_setContainer]
  split
  next same => rw [same]
  next => rfl

/-! ## The insert taken -/

section Taken

variable {s : State} {slot ordinal : Nat} {a : AskEntry}

theorem State.takeInsert_live (entry : s.askTagged a.tag = some a) (live : (s.container slot).state.live = true) :
    s.takeInsert slot ordinal a.tag = ((s.resolveStored a.waiters
      { station := s.settings.station, incarnation := s.settings.incarnation, slot := slot
        ordinal := ordinal }).lowerReferences slot).freeAsk a := by
  simp only [State.takeInsert, entry, live, if_true]

theorem State.takeInsert_dead (entry : s.askTagged a.tag = some a) (dead : ¬ (s.container slot).state.live = true) :
    s.takeInsert slot ordinal a.tag = (s.lowerReferences slot).storeOrFree a := by
  simp only [State.takeInsert, entry, dead, Bool.false_eq_true, if_false]

/-- An entry without waiters is freed, and its insert's unit taken away (R52, R75). -/
theorem State.takeInsert_unwaited (entry : s.askTagged a.tag = some a) (none : a.waiters = []) :
    s.takeInsert slot ordinal a.tag = (s.lowerReferences slot).freeAsk a := by
  by_cases live : (s.container slot).state.live = true
  · rw [State.takeInsert_live entry live, none]
    rfl
  · rw [State.takeInsert_dead entry live, State.storeOrFree, none]

end Taken

/-- The first waiter of an entry stores its chunk (R72, R73). -/
theorem State.storeOrFree_of_waiter {s : State} {a : AskEntry} {w : Waiter} {more : List Waiter}
    (waiters : a.waiters = w :: more) :
    let e : AskEntry := { a with state := .storing, timer := .stopped, found := none, storingWaiter := some w }
    s.storeOrFree a = (s.setAsk e).requestAppend (s.appendRequestFor e w) := by
  simp only [State.storeOrFree]
  split
  next none => exact absurd (none.symm.trans waiters) (List.cons_ne_nil w more).symm
  next first rest same =>
    obtain ⟨rfl, -⟩ := List.cons.inj (same.symm.trans waiters)
    rfl

/-! ## The end of the step -/

section Freed

variable {v : State} (a : AskEntry)

/-- With nothing in the ask-wait queue the entry and its unsent ASK are gone, and all else stands (R66). -/
theorem State.freeAsk_settle (queue : v.resolution.waitQueue = []) : let t := (v.freeAsk a).settle
    t.resolution = { v.resolution with entries := v.resolution.entries.filter (fun e => e.tag ≠ a.tag) } ∧
      ¬ t.bus.hasUnsentAsk a.tag a.fingerprint ∧
      (∀ k, (v.container k).state ≠ .free → (t.container k).references = (v.container k).references) ∧
      ∀ j, (t.stream j).pending = (v.stream j).pending := by
  rw [State.freeAsk_of_nil a queue]
  refine ⟨by rw [State.settle_resolution]; rfl, ?_, fun k used => ?_, fun j => (State.settle_kept _ j).pending⟩
  · rw [State.settle_bus]
    exact v.bus.removeAsk_hasUnsentAsk a.tag a.fingerprint
  · obtain ⟨-, -, -, -, -, references⟩ := (v.askGone a).settle_containers k used
    exact references

end Freed

/-- Requesting an append leaves the units of a container in use (R123, R132). -/
theorem State.requestAppend_containers (s : State) (r : AppendRequest) {k : Nat} (used : (s.container k).state ≠ .free) :
    ((s.requestAppend r).container k).state ≠ .free ∧
      ((s.requestAppend r).container k).references = (s.container k).references := by
  simp only [State.requestAppend]
  split
  · exact ⟨used, rfl⟩
  · split
    next slot _ =>
      split
      · rw [State.issueAppend_container]
        split
        next same => exact ⟨same ▸ used, same ▸ rfl⟩
        next => exact ⟨used, rfl⟩
      · obtain ⟨stays, -, -, -, -, references⟩ := s.sealRequest_containers slot .full k used
        exact ⟨stays, references⟩
    next => exact ⟨used, rfl⟩

section Clauses

variable {s : State} {f : Fingerprint} {slot ordinal : Nat} {a : AskEntry}
  (entry : s.askTagged a.tag = some a)
include entry

/-- In a live container the waiters are resolved, each with a unit of it (R52, R75, R132). -/
theorem State.insert_resolves (live : (s.container slot).state.live = true) (distinct : a.waiters.Nodup)
    (queue : s.resolution.waitQueue = []) : let t := (s.takeInsert slot ordinal a.tag).settle
    let l : Location := { station := s.settings.station, incarnation := s.settings.incarnation, slot := slot
                          ordinal := ordinal }
    t.resolution = { s.resolution with entries := s.resolution.entries.filter (fun e => e.tag ≠ a.tag) } ∧
      ¬ t.bus.hasUnsentAsk a.tag a.fingerprint ∧
      (∀ k, (s.container k).state ≠ .free → (t.container k).references =
        if k = slot then (s.container k).references + a.waiters.length - 1 else (s.container k).references) ∧
      ∀ j, (t.stream j).pending = (s.stream j).pending.map (fun q =>
        if a.waiters.head? = some (j, q.number) then q.resolvedAs .localNew l none
        else if (j, q.number) ∈ a.waiters then q.resolvedAs .localDup l none else q) := by
  intro t l
  set v := (s.resolveStored a.waiters l).lowerReferences slot with isV
  have table : v.resolution = s.resolution := by
    rw [isV, State.resolveStored_changes]
    rfl
  have containers : ∀ k, v.container k = { s.container k with
      references := if k = slot then (s.container k).references + a.waiters.length - 1 else (s.container k).references } := by
    intro k
    rw [isV, State.lowerReferences_container, State.resolveStored_container]
    by_cases here : k = slot <;> simp [here, l]
  obtain ⟨resolution, unsent, references, pending⟩ := State.freeAsk_settle a (v := v) (by rw [table]; exact queue)
  rw [table] at resolution
  have taken : t = (v.freeAsk a).settle := congrArg State.settle (State.takeInsert_live entry live)
  rw [taken]
  refine ⟨resolution, unsent, fun k used => ?_, fun j => ?_⟩
  · rw [references k (by rw [containers]; exact used), containers]
  · rw [pending]
    exact State.resolveStored_pending distinct j

/-- Without waiters the insert's unit is taken away and the entry freed (R52, R66, R75). -/
theorem State.insert_frees (unwaited : a.waiters = []) (queue : s.resolution.waitQueue = []) :
    let t := (s.takeInsert slot ordinal a.tag).settle
    t.resolution = { s.resolution with entries := s.resolution.entries.filter (fun e => e.tag ≠ a.tag) } ∧
      ¬ t.bus.hasUnsentAsk a.tag a.fingerprint ∧
      (∀ k, (s.container k).state ≠ .free → (t.container k).references =
        if k = slot then (s.container k).references - 1 else (s.container k).references) ∧
      ∀ j, (t.stream j).pending = (s.stream j).pending := by
  have containers := s.lowerReferences_container slot
  obtain ⟨resolution, unsent, references, pending⟩ := State.freeAsk_settle a (v := s.lowerReferences slot) queue
  rw [State.takeInsert_unwaited entry unwaited]
  refine ⟨resolution, unsent, fun k used => ?_, pending⟩
  rw [references k (by rw [containers]; exact used), containers]
  split <;> rfl

/-- In a container no longer live the chunk is appended again for the first waiter (R52, R73, R75). -/
theorem State.insert_appendsAgain (dead : ¬ (s.container slot).state.live = true) {w : Waiter} {more : List Waiter}
    (waiters : a.waiters = w :: more)
    (current : ∀ c, (s.stream w.1).current = some c → (s.container c).state = .opened) :
    let t := (s.takeInsert slot ordinal a.tag).settle
    t.appendUnderWay a.tag w ∧ t.bus = s.bus ∧
      t.resolution = { s.resolution with entries := s.resolution.entries.map (fun e => if e.tag = a.tag then
        { a with state := .storing, timer := .stopped, found := none, storingWaiter := some w } else e) } ∧
      (∀ k, (s.container k).state ≠ .free → (t.container k).references =
        if k = slot then (s.container k).references - 1 else (s.container k).references) ∧
      ∀ j, (t.stream j).pending = (s.stream j).pending := by
  intro t
  set e : AskEntry := { a with state := .storing, timer := .stopped, found := none, storingWaiter := some w } with isE
  set v := (s.lowerReferences slot).setAsk e with isV
  set r := (s.lowerReferences slot).appendRequestFor e w with isR
  have containers : ∀ k, v.container k = { s.container k with
      references := (s.container k).references - if k = slot then 1 else 0 } := s.lowerReferences_container slot
  have taken : t = (v.requestAppend r).settle := by
    exact congrArg State.settle ((State.takeInsert_dead entry dead).trans (State.storeOrFree_of_waiter waiters))
  have held : (v.requestAppend r).appendHeld a.tag w :=
    State.requestAppend_appendHeld ⟨rfl, rfl, rfl⟩ (fun c here => by rw [containers]; exact current c here)
  rw [taken]
  refine ⟨held.settle.underWay, ?_, ?_, fun k used => ?_, fun j => ?_⟩
  · rw [State.settle_bus, State.requestAppend_bus]
    rfl
  · rw [State.settle_resolution, State.requestAppend_resolution]
    rfl
  · obtain ⟨stays, same⟩ := v.requestAppend_containers r (k := k) (by rw [containers]; exact used)
    obtain ⟨-, -, -, -, -, references⟩ := (v.requestAppend r).settle_containers k stays
    rw [references, same, containers]
    split <;> rfl
  · exact (State.settle_kept _ j).pending.trans (v.requestAppend_kept r j).pending

/-- Where the entry is freed, the ask-wait queue is worked (R60, R66). -/
theorem State.insert_worksQueue (sound : s.askTableSound) (freed : (s.container slot).state.live = true ∨ a.waiters = [])
    (known : ∀ w ∈ s.resolution.waitQueue, s.fingerprintOf w ≠ none) :
    s.waitQueueWorked (s.takeInsert slot ordinal a.tag).settle a.tag := by
  have works : ∀ v : State, s.takeInsert slot ordinal a.tag = v.freeAsk a → v.resolution = s.resolution →
      s.StreamsBy Stream.SamePrints v → s.waitQueueWorked (s.takeInsert slot ordinal a.tag).settle a.tag := by
    intro v taken table prints
    rw [taken]
    exact State.freeAsk_waitQueueWorked sound known table (State.fingerprintOf_eq prints) (State.settle_resolution _)
      (State.settle_bus _)
  rcases freed with live | unwaited
  · refine works _ (State.takeInsert_live entry live) ?_ ?_
    · rw [State.resolveStored_changes]
      rfl
    · exact samePrints_resolving.after (samePrints_resolving.resolveStored s a.waiters _) rfl
  · exact works _ (State.takeInsert_unwaited entry unwaited) rfl (samePrints_resolving.same rfl)

end Clauses

/-- The working is read from the ask table and the fingerprints before it. -/
theorem State.waitQueueWorked.of_same {s u t : State} {tag : Byte} (h : u.waitQueueWorked t tag)
    (table : u.resolution = s.resolution) (prints : ∀ v, u.fingerprintOf v = s.fingerprintOf v) :
    s.waitQueueWorked t tag := by
  simpa only [State.waitQueueWorked, table, prints] using h

/-- Settles O30: the insert touches its bucket and a flag alone, and the clauses are those of the Resolution Unit. -/
theorem insertResolvesWaiters : Obligations.InsertResolvesWaiters := by
  intro s f slot ordinal length a live l active service sound listed
  have ran := execInsertComplete_eq active service
  set u := s.inserted f slot ordinal with isU
  have entry : u.askTagged a.tag = some a := State.askTagged_of_mem (s := u) sound.2.2 listed
  have isLive : live ↔ (u.container slot).state.live = true := (ContainerState.live_iff _).symm
  refine ⟨fun now distinct queue => ?_, fun dead w more waiters current => ?_, fun dead unwaited queue => ?_,
    fun freed known => ?_⟩
  · exact ⟨_, ran, State.insert_resolves entry (isLive.1 now) distinct queue⟩
  · exact ⟨_, ran, State.insert_appendsAgain entry (fun now => dead (isLive.2 now)) waiters current⟩
  · exact ⟨_, ran, State.insert_frees entry unwaited queue⟩
  · have prints : ∀ v, u.fingerprintOf v = s.fingerprintOf v :=
      State.fingerprintOf_eq (samePrints_resolving.same (s := s) (t := u) rfl)
    have worked := State.insert_worksQueue (s := u) (ordinal := ordinal) entry sound (freed.imp_left isLive.1)
      (fun v hv => by rw [prints]; exact known v hv)
    exact ⟨_, ran, worked.of_same rfl prints⟩

end Sys2Proof.Machine
end

