-- ==== Sys2Proof/Proofs/EmitterLooks.lean ====
section
/-! PROOFS. What the emitter does to a stream at its look (R105, R106), in whatever order it looks. -/

namespace Sys2Proof.Machine

/-! ## Free orders -/

theorem shuffle_perm {α : Type} (key : Nat → Nat) (l : List α) : (shuffle key l).Perm l := by
  induction l with
  | nil => exact List.Perm.refl _
  | cons x rest ih =>
    cases rest with
    | nil => exact List.Perm.refl _
    | cons y more =>
      refine (List.perm_insertIdx x _ ?_).trans (ih.cons x)
      rw [ih.length_eq, List.length_cons]
      exact Nat.lt_succ_iff.1 (Nat.mod_lt _ (Nat.succ_pos (more.length + 1)))

/-- A free order has the same members (log entry 12). -/
theorem State.anyOrder_perm {α : Type} (s : State) (l : List α) : (s.anyOrder l).1.Perm l := by
  simp only [State.anyOrder]
  split
  · exact List.Perm.refl l
  · exact shuffle_perm _ l

/-! ## The record due -/

/-- A stream may issue a record, as the rules say it (R106, R110). -/
theorem Stream.mayIssue_iff (x : Stream) : x.mayIssue = true ↔ x.mayIssueRecord := by
  have last : x.written ≠ 0xFFFFFFFF#32 ↔ x.written.toNat < 4294967295 := by
    rw [ne_eq, ← BitVec.toNat_inj]
    have := x.written.isLt
    simp only [BitVec.toNat_ofNat]
    omega
  simp only [Stream.mayIssue, Stream.mayIssueRecord, Bool.and_eq_true, Bool.or_eq_true, decide_eq_true_eq, last, and_assoc]

theorem Stream.headResolved_iff (x : Stream) :
    x.pending.head?.any (fun q => decide (q.phase = .resolved)) = true ↔ x.headResolved := by
  rw [Stream.headResolved]
  cases x.pending with
  | nil => simp
  | cons q rest => simp

/-- The record that the emitter takes is the one the rules name (R106). -/
theorem Stream.dueRecord_eq_some_iff (x : Stream) (kind : RecordKind) : x.dueRecord = some kind ↔ x.recordDue kind := by
  have head := x.headResolved_iff
  have may := x.mayIssue_iff
  simp only [Stream.dueRecord]
  by_cases issues : x.mayIssue = true
  · rw [if_pos issues]
    by_cases owed : x.owedMark = none
    · rw [if_neg (not_not.2 owed)]
      by_cases resolved : x.headResolved
      · rw [if_pos (head.2 resolved)]
        cases kind <;> simp [Stream.recordDue, may.1 issues, owed, resolved]
      · rw [if_neg (mt head.1 resolved)]
        cases kind <;> simp [Stream.recordDue, may.1 issues, owed, resolved]
    · rw [if_pos owed]
      cases kind <;> simp [Stream.recordDue, may.1 issues, owed]
  · rw [if_neg issues]
    exact ⟨fun none => absurd none (Option.some_ne_none kind).symm, fun due => absurd (may.2 due.1) issues⟩

theorem Stream.issued_eq_withIssued (x : Stream) (kind : RecordKind) : x.issued kind = x.withIssued kind := by
  cases kind <;> rfl

/-- The stream once the emitter has looked at it (R106). -/
def Stream.emitted (x : Stream) : Stream :=
  match x.dueRecord with
  | none => x
  | some kind => x.issued kind

theorem Stream.emitted_of_none {x : Stream} (undue : x.dueRecord = none) : x.emitted = x := by
  rw [Stream.emitted, undue]

theorem Stream.emitted_of_some {x : Stream} {kind : RecordKind} (due : x.dueRecord = some kind) :
    x.emitted = x.issued kind := by
  rw [Stream.emitted, due]

theorem Stream.emitted_looked (x : Stream) : emitterLooked x x.emitted := by
  refine ⟨fun kind due => ?_, fun none => ?_⟩
  · rw [Stream.emitted_of_some ((x.dueRecord_eq_some_iff kind).2 due)]
    exact x.issued_eq_withIssued kind
  · exact Stream.emitted_of_none
      (Option.eq_none_iff_forall_ne_some.2 (fun kind due => none kind ((x.dueRecord_eq_some_iff kind).1 due)))

/-! ## The looks -/

theorem State.issueRecord_stream (s : State) (i j : Fin 16) :
    (s.issueRecord i).stream j = if j = i then (s.stream i).emitted else s.stream j := by
  simp only [State.issueRecord]
  split
  next undue =>
    rw [Stream.emitted_of_none undue]
    split
    next same => rw [same]
    next => rfl
  next kind due =>
    have same : (s.addressWord (s.stream i).recordAddress).2.streams = s.streams := by
      simp only [State.addressWord]
      split <;> rfl
    rw [Stream.emitted_of_some due]
    refine (State.stream_modStream _ i j _).trans ?_
    split
    next => exact congrArg (Stream.issued · kind) (State.stream_of_streams same)
    next => exact State.stream_of_streams same

theorem State.foldl_issueRecord_stream (l : List (Fin 16)) (distinct : l.Nodup) (s : State) (j : Fin 16) :
    (l.foldl State.issueRecord s).stream j = if j ∈ l then (s.stream j).emitted else s.stream j := by
  induction l generalizing s with
  | nil => rfl
  | cons i rest ih =>
    obtain ⟨once, distinct⟩ := List.nodup_cons.1 distinct
    rw [List.foldl_cons, ih distinct, State.issueRecord_stream]
    by_cases here : j = i
    · subst here
      simp [once]
    · simp [here]

/-- The emitter looks once at every stream (R106). -/
theorem State.emitRecords_stream (s : State) (j : Fin 16) : s.emitRecords.stream j = (s.stream j).emitted := by
  set due := (List.finRange 16).filter (fun i => (s.stream i).dueRecord ≠ none) with isDue
  have order := s.anyOrder_perm due
  have distinct : (s.anyOrder due).1.Nodup := order.nodup_iff.2 ((List.nodup_finRange 16).filter _)
  have looks : s.emitRecords = (s.anyOrder due).1.foldl State.issueRecord (s.anyOrder due).2 := rfl
  rw [looks, State.foldl_issueRecord_stream _ distinct, State.stream_of_streams (s.anyOrder_streams due)]
  simp only [order.mem_iff]
  split
  next => rfl
  next undue =>
    have none : (s.stream j).dueRecord = Option.none := by
      by_contra some
      exact undue (List.mem_filter.2 ⟨List.mem_finRange j, decide_eq_true some⟩)
    rw [Stream.emitted_of_none none]

end Sys2Proof.Machine
end

