-- ==== Sys2Proof/Proofs/RoundsAsked.lean ====
section
/-! PROOFS. A seal round asked for (R112, R137 to R141): the round-again flag, a round that takes nothing in, and a round under
way. -/

namespace Sys2Proof.Machine

/-! ## Containers taken in -/

theorem Container.joinsRound_iff (c : Container) : c.joinsRound = true ↔
    c.state = .seals ∨ (c.state = .opened ∧ (c.count ≠ 0 ∨ c.inFlight ≠ [])) := by
  simp only [Container.joinsRound, Container.nonEmpty, Bool.or_eq_true, Bool.and_eq_true, decide_eq_true_eq, ne_eq]
  exact or_comm

/-- The members of a round that starts are the containers it takes in (R138). -/
theorem State.mem_roundMembers {s : State} (wf : Sparse.wf Container.initial s.containers.table = true) (k : Nat) :
    k ∈ s.roundMembers ↔ s.takesIn k := by
  rw [State.takesIn, ← Container.joinsRound_iff, State.roundMembers, List.mem_map]
  refine ⟨fun ⟨e, listed, same⟩ => ?_, fun joins => ?_⟩
  · obtain ⟨there, joins⟩ := List.mem_filter.1 listed
    rw [State.container, ← same, Sparse.find_eq_of_mem wf there]
    exact joins
  · have used : s.container k ≠ Container.initial := fun initial => by
      rw [initial] at joins
      exact absurd joins Bool.false_ne_true
    exact ⟨_, List.mem_filter.2 ⟨Sparse.mem_of_find_ne used, joins⟩, rfl⟩

theorem State.takesIn_used {s : State} {k : Nat} (h : s.takesIn k) : (s.container k).state ≠ .free := by
  rcases h with seals | ⟨opened, -⟩
  · rw [seals]
    exact ContainerState.noConfusion
  · rw [opened]
    exact ContainerState.noConfusion

/-! ## Members enrolled -/

theorem State.foldl_enrol_container (r : Half) (l : List Nat) (s : State) (k : Nat) :
    (l.foldl (fun t j => t.enrol r j) s).container k =
      if k ∈ l then { s.container k with round := some r } else s.container k := by
  induction l generalizing s with
  | nil => rfl
  | cons j rest ih =>
    rw [List.foldl_cons, ih, State.enrol, State.container_setContainer]
    by_cases here : k = j
    · subst here
      simp
    · simp [here]

/-- The state in which a round's OPEN members are sealed: all members enrolled and the Seal Unit with the round (R138). -/
def State.roundOpened (s : State) : State :=
  let enrolled := s.roundMembers.foldl (fun t j => t.enrol (nextRound s.sealUnit.counter) j) s
  { enrolled with sealUnit := { enrolled.sealUnit with
    counter := nextRound s.sealUnit.counter, inProgress := some (nextRound s.sealUnit.counter), members := s.roundMembers
    roundLost := enrolled.sealUnit.lostCarry, lostCarry := false } }

/-- The OPEN members of a round that starts. -/
def State.openMembers (s : State) : List Nat := s.roundMembers.filter (fun k => (s.container k).state = .opened)

theorem State.beginRound_eq (s : State) : s.beginRound =
    (s.roundOpened.anyOrder s.openMembers).1.foldl (fun t k => t.sealRequest k .round)
      (s.roundOpened.anyOrder s.openMembers).2 := rfl

theorem State.anyOrder_changes {α : Type} (s : State) (l : List α) :
    (s.anyOrder l).2 = { s with choices := (s.anyOrder l).2.choices } := by
  simp only [State.anyOrder]
  split <;> rfl

section Opened

variable (s : State)

theorem State.roundOpened_container (k : Nat) : s.roundOpened.container k =
    if k ∈ s.roundMembers then { s.container k with round := some (nextRound s.sealUnit.counter) } else s.container k :=
  State.foldl_enrol_container _ s.roundMembers s k

theorem State.roundOpened_sealUnit : s.roundOpened.sealUnit = { s.sealUnit with
    counter := nextRound s.sealUnit.counter, inProgress := some (nextRound s.sealUnit.counter), members := s.roundMembers
    roundLost := s.sealUnit.lostCarry, lostCarry := false } := by
  simp only [State.roundOpened, foldl_keep State.sealUnit (fun t j => t.enrol (nextRound s.sealUnit.counter) j) (fun _ _ => rfl)]

theorem State.roundOpened_store : s.roundOpened.store = s.store :=
  foldl_keep State.store (fun t j => t.enrol (nextRound s.sealUnit.counter) j) (fun _ _ => rfl) s _

theorem State.beginRound_sealUnit : s.beginRound.sealUnit = { s.sealUnit with
    counter := nextRound s.sealUnit.counter, inProgress := some (nextRound s.sealUnit.counter), members := s.roundMembers
    roundLost := s.sealUnit.lostCarry, lostCarry := false } := by
  rw [State.beginRound_eq, foldl_keep State.sealUnit (fun t k => t.sealRequest k .round)
    (fun t k => t.sealRequest_sealUnit k .round), State.anyOrder_changes]
  exact s.roundOpened_sealUnit

end Opened

/-! ## Members sealed -/

section Sealed

variable {s : State} {k : Nat}

/-- A second seal request changes nothing (R128). -/
theorem State.sealRequest_container_of_requested (slot : Nat) (r : SealReason)
    (requested : (s.container k).sealRequested ≠ none) : (s.sealRequest slot r).container k = s.container k := by
  by_cases same : k = slot
  · subst same
    rw [State.sealRequest, if_neg (fun asked => requested asked.2)]
  · exact s.sealRequest_container r (.inl same)

/-- With appends in flight an OPEN container is seal requested, for the first reason asked (R128). -/
theorem State.sealRequest_container_of_busy (r : SealReason) (opened : (s.container k).state = .opened)
    (busy : (s.container k).inFlight ≠ []) : (s.sealRequest k r).container k =
      { s.container k with sealRequested := some ((s.container k).sealRequested.getD r) } := by
  cases asked : (s.container k).sealRequested with
  | none =>
    rw [State.sealRequest, if_pos ⟨opened, asked⟩, if_neg busy, State.container_setContainer, if_pos rfl]
    rfl
  | some first =>
    rw [State.sealRequest_container_of_requested k r (by rw [asked]; exact Option.some_ne_none first), Option.getD_some,
      ← asked]

theorem State.sealRequest_round (slot : Nat) (r : SealReason) :
    ((s.sealRequest slot r).container k).round = (s.container k).round := by
  simp only [State.sealRequest]
  split
  · split
    · rw [State.turnSealing_container]
      split
      next same => rw [same]
      next => rfl
    · rw [State.container_setContainer]
      split
      next same => rw [same]
      next => rw [State.dropCurrent_container]
  · rfl

end Sealed

section Fold

variable {r : SealReason} {k : Nat} (l : List Nat) {s : State}

theorem State.foldl_sealRequest_notOpen (notOpen : (s.container k).state ≠ .opened) :
    (l.foldl (fun t j => t.sealRequest j r) s).container k = s.container k := by
  induction l generalizing s with
  | nil => rfl
  | cons j rest ih =>
    have same := s.sealRequest_container (slot := j) r (.inr notOpen)
    exact (ih (by rw [same]; exact notOpen)).trans same

theorem State.foldl_sealRequest_requested (requested : (s.container k).sealRequested ≠ none) :
    (l.foldl (fun t j => t.sealRequest j r) s).container k = s.container k := by
  induction l generalizing s with
  | nil => rfl
  | cons j rest ih =>
    have same := State.sealRequest_container_of_requested (s := s) j r requested
    exact (ih (by rw [same]; exact requested)).trans same

variable {l}

/-- A listed container with appends in flight is seal requested (R128). -/
theorem State.foldl_sealRequest_busy (listed : k ∈ l) (opened : (s.container k).state = .opened)
    (busy : (s.container k).inFlight ≠ []) : (l.foldl (fun t j => t.sealRequest j r) s).container k =
      { s.container k with sealRequested := some ((s.container k).sealRequested.getD r) } := by
  induction l generalizing s with
  | nil => exact absurd listed List.not_mem_nil
  | cons j rest ih =>
    by_cases here : k = j
    · subst here
      have now := State.sealRequest_container_of_busy r opened busy
      exact (State.foldl_sealRequest_requested rest (by rw [now]; exact Option.some_ne_none _)).trans now
    · have same := s.sealRequest_container (slot := j) r (.inl here)
      have later := ih (s := s.sealRequest j r) ((List.mem_cons.1 listed).resolve_left here) (by rw [same]; exact opened)
        (by rw [same]; exact busy)
      rw [same] at later
      exact later

/-- A listed container with nothing in flight turns SEALING (R128, R129). -/
theorem State.foldl_sealRequest_turns (listed : k ∈ l) (opened : (s.container k).state = .opened)
    (idle : (s.container k).inFlight = []) (unasked : (s.container k).sealRequested = none) :
    (l.foldl (fun t j => t.sealRequest j r) s).AwaitsFlush k (s.container k) r ∧
      ((l.foldl (fun t j => t.sealRequest j r) s).container k).state = .seals := by
  induction l generalizing s with
  | nil => exact absurd listed List.not_mem_nil
  | cons j rest ih =>
    by_cases here : k = j
    · subst here
      have turned : s.sealRequest k r = s.turnSealing k r := by
        rw [State.sealRequest, if_pos ⟨opened, unasked⟩, if_pos idle]
      have state : ((s.turnSealing k r).container k).state = .seals := by rw [State.turnSealing_container, if_pos rfl]
      have later := State.foldl_sealRequest_notOpen (r := r) rest (s := s.turnSealing k r) (k := k)
        (by rw [state]; exact ContainerState.noConfusion)
      rw [List.foldl_cons, turned]
      refine ⟨(s.turnSealing_awaitsFlush k r).of_joins ?_ ?_ (.of_eq later), by rw [later]; exact state⟩
      · exact foldl_keep State.settings (fun t j => t.sealRequest j r) (fun t j => t.sealRequest_settings j r) _ _
      · exact State.FlushesJoin.fold (fun t j => t.sealRequest_joins j r) _ _
    · have same := s.sealRequest_container (slot := j) r (.inl here)
      have later := ih (s := s.sealRequest j r) ((List.mem_cons.1 listed).resolve_left here) (by rw [same]; exact opened)
        (by rw [same]; exact idle) (by rw [same]; exact unasked)
      rw [same] at later
      exact later

theorem State.foldl_sealRequest_round :
    ((l.foldl (fun t j => t.sealRequest j r) s).container k).round = (s.container k).round :=
  foldl_keep (fun t => (t.container k).round) (fun t j => t.sealRequest j r) (fun _ j => State.sealRequest_round j r) s l

end Fold

/-! ### What the members hand to the Store Port -/

theorem FlushJob.inRegion_iff_of_same {j i : FlushJob} {t : Settings} (slot : j.slot = i.slot) (length : j.length = i.length) :
    j.inRegion t ↔ i.inRegion t := by rw [FlushJob.inRegion, FlushJob.inRegion, slot, length]

/-- A seal request hands over at most its own container (R129). -/
theorem State.sealRequest_queue {s : State} {slot : Nat} {r : SealReason} {j : FlushJob}
    (queued : j ∈ (s.sealRequest slot r).store.flushQueue) : j ∈ s.store.flushQueue ∨
      (j.slot = slot ∧ j.length = (s.container slot).flushLength) := by
  simp only [State.sealRequest] at queued
  split at queued
  · split at queued
    · rw [State.turnSealing_store] at queued
      exact (List.mem_append.1 queued).imp_right (fun new => by rw [List.mem_singleton.1 new]; exact ⟨rfl, rfl⟩)
    · rw [State.setContainer_store, State.dropCurrent_store] at queued
      exact .inl queued
  · exact .inl queued

theorem State.foldl_sealRequest_inRegion {r : SealReason} {l : List Nat} {s : State} {t : Settings}
    (pass : ∀ j ∈ s.store.flushQueue, j.inRegion t)
    (members : ∀ k ∈ l, (s.container k).state ≠ .free ∧ ((s.container k).flushJob t k r).inRegion t) :
    ∀ j ∈ (l.foldl (fun u k => u.sealRequest k r) s).store.flushQueue, j.inRegion t := by
  induction l generalizing s with
  | nil => exact pass
  | cons i rest ih =>
    refine ih (s := s.sealRequest i r) (fun j queued => ?_) (fun k listed => ?_)
    · rcases State.sealRequest_queue queued with before | ⟨slot, length⟩
      · exact pass j before
      · exact (FlushJob.inRegion_iff_of_same slot length).2 (members i List.mem_cons_self).2
    · obtain ⟨used, passes⟩ := members k (List.mem_cons_of_mem i listed)
      obtain ⟨stays, count, payload, -, -, -⟩ := s.sealRequest_containers i r k used
      have length : (((s.sealRequest i r).container k).flushJob t k r).length = ((s.container k).flushJob t k r).length := by
        simp only [Container.flushJob, count, payload]
      refine ⟨stays, ?_⟩
      rw [FlushJob.inRegion, length]
      exact passes

/-! ## A round under way -/

theorem State.anyOrder_container {α : Type} (s : State) (l : List α) (k : Nat) :
    (s.anyOrder l).2.container k = s.container k := by
  rw [State.container, State.anyOrder_containers, State.container]

theorem State.beginRound_used {s : State} {k : Nat} (taken : s.takesIn k) : (s.beginRound.container k).state ≠ .free :=
  (s.beginRound_containers k (State.takesIn_used taken)).1

section UnderWay

variable {s : State} (wf : Sparse.wf Container.initial s.containers.table = true)
include wf

/-- What a round that starts seals passes the range check, or the port is busy (R148, R151). -/
theorem State.beginRound_flushesClear
    (clear : s.store.port ≠ .idle ∨ s.flushesPass s.takesIn) : s.beginRound.FlushesClear := by
  rw [State.FlushesClear, (s.beginRound_joins).1, State.beginRound_settings]
  refine clear.imp_right (fun ⟨waiting, members⟩ => ?_)
  rw [State.beginRound_eq]
  refine State.foldl_sealRequest_inRegion (fun j queued => ?_) (fun k listed => ?_)
  · rw [State.anyOrder_store, State.roundOpened_store] at queued
    exact waiting j queued
  · have member := (List.mem_filter.1 ((State.anyOrder_perm _ _).mem_iff.1 listed)).1
    have taken := (State.mem_roundMembers wf k).1 member
    rw [State.anyOrder_container, State.roundOpened_container, if_pos member]
    exact ⟨State.takesIn_used taken, (FlushJob.inRegion_iff_of_same rfl rfl).1 (members k taken)⟩

section Member

variable {k : Nat} (taken : s.takesIn k)
include taken

theorem State.roundOpened_member : (s.roundOpened.anyOrder s.openMembers).2.container k =
    { s.container k with round := some (nextRound s.sealUnit.counter) } := by
  rw [State.anyOrder_container, State.roundOpened_container, if_pos ((State.mem_roundMembers wf k).2 taken)]

theorem State.mem_openOrder (opened : (s.container k).state = .opened) :
    k ∈ (s.roundOpened.anyOrder s.openMembers).1 :=
  (State.anyOrder_perm _ _).mem_iff.2
    (List.mem_filter.2 ⟨(State.mem_roundMembers wf k).2 taken, decide_eq_true opened⟩)

theorem State.beginRound_round : (s.beginRound.container k).round = some (nextRound s.sealUnit.counter) := by
  rw [State.beginRound_eq, State.foldl_sealRequest_round, State.roundOpened_member wf taken]

/-- A SEALING member stays SEALING (R138). -/
theorem State.beginRound_seals (seals : (s.container k).state = .seals) : (s.beginRound.container k).state = .seals := by
  have member := State.roundOpened_member wf taken
  rw [State.beginRound_eq, State.foldl_sealRequest_notOpen, member]
  · exact seals
  · rw [member]
    exact fun opened => ContainerState.noConfusion (seals.symm.trans opened)

/-- An OPEN member with appends in flight is seal requested (R128, R138). -/
theorem State.beginRound_busy (opened : (s.container k).state = .opened) (busy : (s.container k).inFlight ≠ []) :
    (s.beginRound.container k).state = .opened ∧
      (s.beginRound.container k).sealRequested = some ((s.container k).sealRequested.getD .round) := by
  have member := State.roundOpened_member wf taken
  rw [State.beginRound_eq, State.foldl_sealRequest_busy (State.mem_openOrder wf taken opened) (by rw [member]; exact opened)
    (by rw [member]; exact busy), member]
  exact ⟨opened, rfl⟩

/-- An OPEN member with nothing in flight turns SEALING for ROUND (R128, R129, R138). -/
theorem State.beginRound_turns (opened : (s.container k).state = .opened) (idle : (s.container k).inFlight = [])
    (unasked : (s.container k).sealRequested = none) :
    s.beginRound.AwaitsFlush k { s.container k with round := some (nextRound s.sealUnit.counter) } .round ∧
      (s.beginRound.container k).state = .seals := by
  have member := State.roundOpened_member wf taken
  have turns := State.foldl_sealRequest_turns (r := .round) (State.mem_openOrder wf taken opened)
    (by rw [member]; exact opened) (by rw [member]; exact idle) (by rw [member]; exact unasked)
  rw [member] at turns
  exact turns

end Member

/-- A round that takes containers in is under way at the end of the step (R138). -/
theorem State.beginRound_underWay (clear : s.store.port ≠ .idle ∨ s.flushesPass s.takesIn) :
    s.roundUnderWay s.takesIn s.sealUnit s.beginRound.settle := by
  have settled := State.beginRound_flushesClear wf clear
  have sealUnit := State.settle_sealUnit_of_clear settled
  rw [State.beginRound_sealUnit] at sealUnit
  have container : ∀ {k}, s.takesIn k → s.beginRound.settle.container k = s.beginRound.container k := by
    intro k taken
    have containers := State.settle_containers_of_clear settled
    rw [State.container, containers]
    exact State.serveOpenWait_container (State.beginRound_used taken)
  refine ⟨?_, fun k => ?_, fun k taken => ?_, fun k taken idle opened unasked => ?_, fun k taken seals => ?_,
    fun k taken opened busy => ?_⟩
  · rw [sealUnit]
    rfl
  · rw [sealUnit]
    exact State.mem_roundMembers wf k
  · rw [container taken]
    exact State.beginRound_round wf taken
  · obtain ⟨awaits, state⟩ := State.beginRound_turns wf taken opened idle unasked
    exact ⟨by rw [container taken]; exact state, awaits.settle⟩
  · rw [container taken]
    exact State.beginRound_seals wf taken seals
  · rw [container taken]
    exact State.beginRound_busy wf taken opened busy

end UnderWay

/-! ## A round that takes nothing in -/

/-- What a stream owes when a round completes (R112). -/
theorem Stream.owe_eq (x : Stream) (r : Half) (lost : Bool) :
    x.owe r (if lost then .broken else .clean) = { x with owedMark := x.owes r lost } := by
  simp only [Stream.owe, Stream.owes]
  split
  · cases owed : x.owedMark with
    | none => simp
    | some m => cases lost <;> simp
  · rfl

/-- A round without members has started and completed at once (R138, R140). -/
def State.emptyRound (s : State) : State :=
  { s with
    sealUnit := { s.sealUnit.afterEmptyRound with inProgress := none }
    streams := s.streams.map (fun x => x.owe s.sealUnit.nextNumber (if s.sealUnit.lostCarry then .broken else .clean)) }

theorem State.emptyRound_stream (s : State) (i : Fin 16) : s.emptyRound.stream i =
    { s.stream i with owedMark := (s.stream i).owes s.sealUnit.nextNumber s.sealUnit.lostCarry } := by
  rw [← Stream.owe_eq]
  simp [State.emptyRound, State.stream]

theorem State.startRound_of_none {s : State} (none : s.roundMembers = []) (once : s.sealUnit.roundAgain = false) :
    s.startRound = s.emptyRound := by
  have begun : s.beginRound = s.roundOpened := by
    rw [State.beginRound_eq, State.openMembers, none]
    rfl
  have opened : s.roundOpened = { s with sealUnit := { s.sealUnit with
      counter := nextRound s.sealUnit.counter, inProgress := some (nextRound s.sealUnit.counter), members := []
      roundLost := s.sealUnit.lostCarry, lostCarry := false } } := by
    rw [State.roundOpened, none]
    rfl
  simp only [State.startRound, State.completeRound, State.finishRound, begun, opened, once, if_true, Bool.false_eq_true,
    if_false, State.emptyRound, SealUnit.afterEmptyRound]
  rfl

theorem State.emptyRound_settle {s : State} (none : s.sealUnit.inProgress = none) (queue : s.store.flushQueue = []) :
    s.emptyRound.settle.sealUnit = s.sealUnit.afterEmptyRound ∧
      (s.management.fresh = [] → s.containers.openWait = [] → ∀ i, emitterLooked
        { s.stream i with owedMark := (s.stream i).owes s.sealUnit.nextNumber s.sealUnit.lostCarry }
        (s.emptyRound.settle.stream i)) := by
  have settled : s.emptyRound.FlushesClear := State.flushesClear_of_nil queue
  refine ⟨?_, fun fresh openWait i => ?_⟩
  · rw [State.settle_sealUnit_of_clear settled]
    simp only [State.emptyRound, SealUnit.afterEmptyRound, none]
  · have looked : s.emptyRound.looked.management.fresh = [] := by
      rw [State.looked_management_of_clear settled]
      exact fresh
    have idle : s.emptyRound.serveOpenWait = s.emptyRound := State.serveOpenWait_of_nil openWait
    rw [State.settle_stream, State.placeReports_of_none looked,
      State.stream_of_streams (State.looked_streams_of_clear settled), idle, State.emitRecords_stream,
      State.emptyRound_stream]
    exact Stream.emitted_looked _

/-! ## A round asked for -/

/-- A pulse or a hold has its round: in progress already, empty, or under way (R137 to R141). -/
theorem State.askRound_settle (s : State) : s.roundAskedFor s.sealUnit s.askRound.settle := by
  refine ⟨fun busy clear => ?_, fun none once canonical nothing queue => ?_, fun none canonical clear some => ?_⟩
  · have again : s.askRound = { s with sealUnit := { s.sealUnit with roundAgain := true } } := if_neg busy
    have settled : s.askRound.FlushesClear := by
      rw [again]
      exact clear.imp_right And.left
    rw [State.settle_sealUnit_of_clear settled, again]
  · have members : s.roundMembers = [] := List.eq_nil_iff_forall_not_mem.2
      (fun k member => nothing k ((State.mem_roundMembers canonical.2.2 k).1 member))
    rw [State.askRound, if_pos none, State.startRound_of_none members once]
    exact State.emptyRound_settle none queue
  · obtain ⟨k, taken⟩ := some
    have members : s.beginRound.sealUnit.members ≠ [] := by
      rw [State.beginRound_sealUnit]
      exact List.ne_nil_of_mem ((State.mem_roundMembers canonical.2.2 k).2 taken)
    rw [State.askRound, if_pos none, State.startRound, if_neg members]
    exact State.beginRound_underWay canonical.2.2 clear

/-- What is said of a round is read from the containers, the streams, the Store Port and the settings before it. -/
theorem State.roundAskedFor.of_same {s v t : State} {u : SealUnit} (h : v.roundAskedFor u t)
    (containers : v.containers = s.containers) (streams : v.streams = s.streams) (store : v.store = s.store)
    (settings : v.settings = s.settings) (fresh : v.management.fresh = s.management.fresh)
    (canonical : s.canonical → v.canonical) : s.roundAskedFor u t := by
  have container : ∀ k, v.container k = s.container k := fun k => by rw [State.container, containers, State.container]
  have stream : ∀ i, v.stream i = s.stream i := fun i => State.stream_of_streams streams
  have takes : v.takesIn = s.takesIn := by
    funext k
    rw [State.takesIn, container, State.takesIn]
  obtain ⟨again, empty, underWay⟩ := h
  simp only [State.flushesPass, State.roundUnderWay, container, stream, takes, store, settings, fresh,
    containers] at again empty underWay
  exact ⟨again, fun none once isCanonical => empty none once (canonical isCanonical),
    fun none isCanonical => underWay none (canonical isCanonical)⟩

end Sys2Proof.Machine
end

