-- ==== Sys2Proof/Proofs/ClearWalk.lean ====
section
/-! PROOFS. A step of the clear walk (R54), and the station's entry into RUNNING or HOLDING behind the last bucket (R136, R137,
R141, R162). -/

namespace Sys2Proof.Machine

/-! ## The seal timer and the detect state through a round -/

/-- What a round never touches: the seal timer and the detect state (R136, R137). -/
def SealUnit.clocks (u : SealUnit) : Option Nat × Detect := (u.timer, u.detect)

theorem State.beginRound_clocks (s : State) : s.beginRound.sealUnit.clocks = s.sealUnit.clocks := by
  rw [State.beginRound_sealUnit]
  rfl

theorem State.finishRound_clocks (s : State) : s.finishRound.sealUnit.clocks = s.sealUnit.clocks := by
  simp only [State.finishRound]
  split <;> rfl

theorem State.completeRound_clocks (s : State) : s.completeRound.sealUnit.clocks = s.sealUnit.clocks := by
  have begun := (State.beginRound_clocks { s.finishRound with
    sealUnit := { s.finishRound.sealUnit with roundAgain := false } }).trans s.finishRound_clocks
  simp only [State.completeRound]
  split
  · split
    · exact (State.finishRound_clocks _).trans begun
    · exact begun
  · exact s.finishRound_clocks

theorem State.askRound_clocks (s : State) : s.askRound.sealUnit.clocks = s.sealUnit.clocks := by
  simp only [State.askRound, State.startRound]
  split
  · split
    · exact (State.completeRound_clocks _).trans s.beginRound_clocks
    · exact s.beginRound_clocks
  · rfl

theorem State.containerNotice_clocks (s : State) (slot : Nat) (lost : Bool) :
    (s.containerNotice slot lost).sealUnit.clocks = s.sealUnit.clocks := by
  simp only [State.containerNotice]
  split
  · split
    · exact State.completeRound_clocks _
    · rfl
  · split <;> rfl

theorem State.refuseFlush_clocks (s : State) (j : FlushJob) (rest : List FlushJob) :
    (s.refuseFlush j rest).sealUnit.clocks = s.sealUnit.clocks := by
  simp only [State.refuseFlush, State.emitRecords_sealUnit, State.serveOpenWait_sealUnit, State.flushOutcome, if_true]
  exact State.containerNotice_clocks _ _ _

/-- The last part of a step leaves the seal timer and the detect state. -/
theorem State.settle_clocks (s : State) : s.settle.sealUnit.clocks = s.sealUnit.clocks := by
  have looks := looking_reading (g := fun t : State => t.sealUnit.clocks) (fun _ _ _ _ => rfl) State.refuseFlush_clocks
  rw [State.settle_eq_looked, State.refresh_sealUnit, State.placeReports_sealUnit]
  refine (looks.lookAtPort _).trans ?_
  simp only [State.emitRecords_sealUnit, State.serveOpenWait_sealUnit]

/-! ## The walk -/

/-- The station once the walk has emptied its bucket and moved on (R54). -/
def State.bucketCleared (s : State) : State :=
  { s.setBucket s.clearPosition [] with clearPosition := s.clearPosition + 1 }

theorem State.bucketCleared_bucket (s : State) (b : Nat) :
    s.bucketCleared.bucket b = if b = s.clearPosition then [] else s.bucket b :=
  s.bucket_setBucket s.clearPosition b []

/-- The station behind the last bucket with HOLD asserted, before its hold round (R141, R164). -/
def State.heldAtOnce (s : State) : State := { s.bucketCleared.enterRunning with station := .holding }

section Walk

variable {s : State} (clearing : s.station = .clearing)
include clearing

theorem execClearWalkStep_walks (more : s.clearPosition + 1 < 2 ^ s.settings.indexExponent) :
    exec .clearWalkStep s = .next s.bucketCleared := by
  simp only [exec, execClearWalkStep, clearing, if_true]
  exact congrArg _ (if_pos more)

section Last

variable (last : ¬ s.clearPosition + 1 < 2 ^ s.settings.indexExponent)
include last

theorem execClearWalkStep_runs (free : s.hold = false) :
    exec .clearWalkStep s = .next s.bucketCleared.enterRunning.refresh := by
  simp only [exec, execClearWalkStep, clearing, if_true]
  exact congrArg _ ((if_neg last).trans (if_neg (by exact free ▸ Bool.false_ne_true)))

theorem execClearWalkStep_holds (held : s.hold = true) : exec .clearWalkStep s = .next s.heldAtOnce.askRound.settle := by
  simp only [exec, execClearWalkStep, clearing, if_true]
  exact congrArg _ ((if_neg last).trans (if_pos held))

end Last

end Walk

/-- What the rest of the step leaves of the station behind the last bucket. -/
theorem State.heldAtOnce_same (s : State) : let t := s.heldAtOnce.askRound.settle
    t.index = s.bucketCleared.index ∧ t.clearPosition = s.clearPosition + 1 ∧ t.station = .holding ∧
      t.settings = s.settings ∧ t.hold = s.hold ∧ t.engines = s.engines ∧ t.lastAssigned = s.lastAssigned ∧
      t.digestQueue = s.digestQueue ∧ t.resolution = s.resolution ∧ t.staging = s.staging ∧ t.now = s.now := by
  simp only [State.settle_index, State.settle_clearPosition, State.settle_station, State.settle_settings,
    State.settle_hold, State.settle_engines, State.settle_lastAssigned, State.settle_digestQueue,
    State.settle_resolution, State.settle_staging, State.settle_now, State.askRound_index, State.askRound_clearPosition,
    State.askRound_station, State.askRound_settings, State.askRound_hold, State.askRound_engines,
    State.askRound_lastAssigned, State.askRound_digestQueue, State.askRound_resolution, State.askRound_staging,
    State.askRound_now]
  exact ⟨rfl, rfl, rfl, rfl, rfl, rfl, rfl, rfl, rfl, rfl, rfl⟩

/-- The hold round behind the last bucket (R141). -/
theorem State.heldAtOnce_round (s : State) :
    s.roundAskedFor s.heldAtOnce.sealUnit s.heldAtOnce.askRound.settle :=
  s.heldAtOnce.askRound_settle.of_same rfl rfl rfl rfl rfl
    (fun ⟨staging, buckets, containers⟩ => ⟨staging, Sparse.wf_put [] s.clearPosition [] _ buckets, containers⟩)

/-- Settles O7: one bucket is emptied; behind the last one the seal unit starts, and with HOLD asserted its hold round. -/
theorem clearWalkEmptiesBuckets : Obligations.ClearWalkEmptiesBuckets := by
  intro s clearing
  by_cases more : s.clearPosition + 1 < 2 ^ s.settings.indexExponent
  · refine ⟨_, execClearWalkStep_walks clearing more, s.bucketCleared_bucket, rfl, ?_, rfl, rfl, rfl, rfl, rfl, rfl, rfl, rfl⟩
    rw [if_pos more]
    exact ⟨clearing, rfl, rfl, rfl⟩
  cases held : s.hold with
  | false =>
    refine ⟨_, execClearWalkStep_runs clearing more held, s.bucketCleared_bucket, rfl, ?_, rfl, held, rfl, rfl, rfl, rfl,
      rfl, rfl⟩
    rw [if_neg more]
    exact ⟨rfl, rfl, fun drive => if_pos drive, fun _ => ⟨rfl, rfl, rfl⟩, fun asserted => absurd asserted Bool.false_ne_true⟩
  | true =>
    obtain ⟨index, position, station, settings, hold, engines, assigned, digests, resolution, staging, now⟩ := s.heldAtOnce_same
    have clocks := (State.settle_clocks _).trans s.heldAtOnce.askRound_clocks
    obtain ⟨timer, detect⟩ := Prod.mk.inj clocks
    refine ⟨_, execClearWalkStep_holds clearing more held, fun b => ?_, position, ?_, settings, hold.trans held, engines,
      assigned, digests, resolution, staging, now⟩
    · rw [State.bucket, index]
      exact s.bucketCleared_bucket b
    · rw [if_neg more]
      exact ⟨station, detect, fun drive => timer.trans (if_pos drive),
        fun free => absurd free.symm Bool.false_ne_true, fun _ => s.heldAtOnce_round⟩

end Sys2Proof.Machine
end

