-- ==== Sys2Proof/Proofs/AskTableKept.lean ====
section
/-! PROOFS. What a part of a step may do to the ask table without breaking its bound, its distinct fingerprints and its
distinct tags (R63, R64). -/

namespace Sys2Proof.Machine

/-! ## Parts of a step -/

/-- A part of a step that keeps the ask table sound. -/
def State.KeepsAsks (s t : State) : Prop := s.askTableSound → t.askTableSound

theorem State.KeepsAsks.of_eq {s t : State} (h : t.resolution = s.resolution) : s.KeepsAsks t := by
  simp only [State.KeepsAsks, State.askTableSound, h, imp_self]

theorem State.KeepsAsks.refl (s : State) : s.KeepsAsks s := id

theorem State.KeepsAsks.trans {s t u : State} (h : s.KeepsAsks t) (g : t.KeepsAsks u) : s.KeepsAsks u := g ∘ h

/-- The same with the last part of the work first. -/
theorem State.KeepsAsks.after {s t u : State} (g : t.KeepsAsks u) (h : s.KeepsAsks t) : s.KeepsAsks u := h.trans g

/-- A part that leaves the Resolution Unit, behind one that keeps the table. -/
theorem State.KeepsAsks.thenEq {s t u : State} (h : s.KeepsAsks t) (e : u.resolution = t.resolution) : s.KeepsAsks u :=
  h.trans (.of_eq e)

theorem State.KeepsAsks.settle {s t : State} (h : s.KeepsAsks t) : s.KeepsAsks t.settle := h.thenEq t.settle_resolution

theorem State.KeepsAsks.fold {β : Type} {f : State → β → State} (h : ∀ (s : State) b, s.KeepsAsks (f s b)) (l : List β)
    (s : State) : s.KeepsAsks (l.foldl f s) := by
  induction l generalizing s with
  | nil => exact .refl s
  | cons b rest ih => exact (h s b).trans (ih _)

/-- The entries change in nothing that the table's soundness reads. -/
theorem State.KeepsAsks.of_entries {s t : State} (change : AskEntry → AskEntry)
    (entries : t.resolution.entries = s.resolution.entries.map change)
    (prints : s.askTableSound → ∀ x ∈ s.resolution.entries, (change x).fingerprint = x.fingerprint)
    (tags : ∀ x ∈ s.resolution.entries, (change x).tag = x.tag) : s.KeepsAsks t := by
  intro sound
  have samePrints : t.resolution.entries.map (·.fingerprint) = s.resolution.entries.map (·.fingerprint) := by
    rw [entries, List.map_map]
    exact List.map_congr_left (prints sound)
  have sameTags : t.resolution.entries.map (·.tag) = s.resolution.entries.map (·.tag) := by
    rw [entries, List.map_map]
    exact List.map_congr_left tags
  obtain ⟨few, fingerprints, distinct⟩ := sound
  exact ⟨by rwa [entries, List.length_map], samePrints ▸ fingerprints, sameTags ▸ distinct⟩

/-! ## Entries changed, made and freed -/

/-- An entry is replaced by one of its fingerprint and tag. -/
theorem State.setAsk_keepsAsks {s : State} {a e : AskEntry} (listed : a ∈ s.resolution.entries) (tag : e.tag = a.tag)
    (print : e.fingerprint = a.fingerprint) : s.KeepsAsks (s.setAsk e) := by
  refine .of_entries _ rfl (fun sound x hx => ?_) (fun x _ => ?_)
  · split
    next same =>
      obtain rfl := List.inj_on_of_nodup_map sound.2.2 hx listed (same.trans tag)
      exact print
    next => rfl
  · split
    next same => exact same.symm
    next => rfl

theorem State.mem_of_askTagged {s : State} {tag : Byte} {e : AskEntry} (entry : s.askTagged tag = some e) :
    e ∈ s.resolution.entries := List.mem_of_find?_eq_some entry

theorem State.joinAsk_keepsAsks {s : State} {e : AskEntry} (listed : e ∈ s.resolution.entries) (w : Waiter) :
    s.KeepsAsks (s.joinAsk e w) :=
  (State.setAsk_keepsAsks (e := { e with waiters := e.waiters ++ [w] }) listed rfl rfl).thenEq rfl

/-- A value new to a list of distinct ones leaves them distinct. -/
theorem nodup_map_append_new {α β : Type} {g : α → β} {l : List α} {x : α} (distinct : (l.map g).Nodup)
    (new : ∀ y ∈ l, g y ≠ g x) : ((l ++ [x]).map g).Nodup := by
  rw [List.map_append, List.map_singleton, ← List.concat_eq_append]
  exact distinct.concat (by simpa using new)

/-- An entry made for a fingerprint that has none, while a place is free, takes a tag that has none (R59, R64). -/
theorem State.makeAsk_keepsAsks {s : State} {f : Fingerprint} (unmatched : s.askFor f = none)
    (room : s.resolution.entries.length < 64) (w : Waiter) : s.KeepsAsks (s.makeAsk f w) := by
  rintro ⟨-, fingerprints, tags⟩
  rw [State.askTableSound, State.makeAsk_entries]
  exact ⟨by simpa using room, nodup_map_append_new fingerprints (State.fingerprint_ne_of_askFor unmatched),
    nodup_map_append_new tags (Resolution.freeTag_unused (room.trans (by omega)) _)⟩

theorem State.recheck_keepsAsks (s : State) (f : Fingerprint) (w : Waiter) : s.KeepsAsks (s.recheck f w) := by
  simp only [State.recheck]
  split
  next e entry => exact State.joinAsk_keepsAsks (State.mem_of_askFor entry).1 w
  next none =>
    split
    next room => exact State.makeAsk_keepsAsks none room w
    next => exact id

theorem State.workWaitQueueUpTo_keepsAsks (s : State) (n : Nat) : s.KeepsAsks (s.workWaitQueueUpTo n) := by
  induction n generalizing s with
  | zero => exact .refl s
  | succ n ih =>
    simp only [State.workWaitQueueUpTo]
    split
    · exact .refl s
    next w rest _ =>
      have left : s.KeepsAsks (s.withoutHead rest) := id
      split
      · exact .refl s
      · split
        next e entry =>
          exact left.trans ((State.joinAsk_keepsAsks (s := s.withoutHead rest) (State.mem_of_askFor entry).1 w).trans (ih _))
        next none =>
          split
          next room => exact left.trans ((State.makeAsk_keepsAsks (s := s.withoutHead rest) none room w).trans (ih _))
          next => exact .refl s

/-- An entry freed leaves the others, and the ask-wait queue is worked (R66). -/
theorem State.freeAsk_keepsAsks (s : State) (e : AskEntry) : s.KeepsAsks (s.freeAsk e) := by
  have gone : s.KeepsAsks (s.askGone e) := fun sound => sound.askGone e
  rw [State.freeAsk_eq]
  exact gone.trans (State.workWaitQueueUpTo_keepsAsks _ _)

theorem State.storeOrFree_keepsAsks {s : State} {e : AskEntry} (listed : e ∈ s.resolution.entries) :
    s.KeepsAsks (s.storeOrFree e) := by
  simp only [State.storeOrFree]
  split
  · exact s.freeAsk_keepsAsks e
  · refine (State.setAsk_keepsAsks listed ?_ ?_).thenEq (State.requestAppend_resolution _ _) <;> rfl

/-! ## What the Resolution Unit is asked for -/

theorem State.resolveStored_resolution (s : State) (ws : List Waiter) (l : Location) :
    (s.resolveStored ws l).resolution = s.resolution := by rw [State.resolveStored_changes]

theorem State.takeInsert_keepsAsks (s : State) (slot ordinal : Nat) (tag : Byte) :
    s.KeepsAsks (s.takeInsert slot ordinal tag) := by
  simp only [State.takeInsert]
  split
  · exact .refl s
  next e entry =>
    split
    · exact (State.freeAsk_keepsAsks _ e).after (.of_eq (State.resolveStored_resolution s _ _))
    · exact State.storeOrFree_keepsAsks (s := s.lowerReferences slot) (State.mem_of_askTagged entry)

theorem State.remoteFound_keepsAsks (s : State) (f : Fingerprint) (l : Location) (holder : Bool) :
    s.KeepsAsks (s.remoteFound f l holder) := by
  simp only [State.remoteFound]
  split
  · exact .refl s
  · split
    · exact .refl s
    · exact (State.freeAsk_keepsAsks _ _).after (.of_eq (State.resolveAll_resolution s _ _ _ _))

theorem State.yieldTo_keepsAsks (s : State) (sender : Byte) (f : Fingerprint) : s.KeepsAsks (s.yieldTo sender f) := by
  simp only [State.yieldTo]
  split
  · exact .refl s
  next e entry =>
    split
    · exact State.setAsk_keepsAsks (s := { s with bus := s.bus.removeAsk e.tag e.fingerprint })
        (State.mem_of_askFor entry).1 rfl rfl
    · exact .refl s

theorem State.askLeft_keepsAsks (s : State) (tag : Byte) (f : Fingerprint) : s.KeepsAsks (s.askLeft tag f) := by
  simp only [State.askLeft]
  split
  · exact .refl s
  next e entry =>
    split
    · exact State.setAsk_keepsAsks (State.mem_of_askTagged entry) rfl rfl
    · exact .refl s

theorem State.appendDone_keepsAsks (s : State) (slot ordinal : Nat) (a : Append) :
    s.KeepsAsks (s.appendDone slot ordinal a) := by
  simp only [State.appendDone]
  refine State.KeepsAsks.thenEq ?_ rfl
  split
  · exact .refl s
  next e entry => exact State.setAsk_keepsAsks (State.mem_of_askTagged entry) rfl rfl

theorem State.checkChunk_keepsAsks (s : State) (w : Waiter) (f : Fingerprint) (q : Word) :
    s.KeepsAsks (s.checkChunk w f q) := by
  simp only [State.checkChunk]
  split
  next e _ entry => exact State.joinAsk_keepsAsks (State.mem_of_askFor entry).1 w
  next => exact .of_eq rfl

/-! ## Streams torn down -/

theorem State.withdrawFor_keepsAsks (s : State) (tag : Byte) : s.KeepsAsks (s.withdrawFor tag) := by
  simp only [State.withdrawFor]
  split
  · exact .of_eq rfl
  next e entry => exact State.storeOrFree_keepsAsks (s := s.withdrawAppend tag) (State.mem_of_askTagged entry)

theorem State.anyOrder_resolution {α : Type} (s : State) (l : List α) : (s.anyOrder l).2.resolution = s.resolution := by
  simp only [State.anyOrder]
  split <;> rfl

/-- The waiters of a stream leave the lists; the entries stay (R77). -/
theorem State.removeWaiters_keepsAsks (s : State) (i : Fin 16) : s.KeepsAsks (s.removeWaiters i) :=
  .of_entries _ rfl (fun _ _ _ => rfl) (fun _ _ => rfl)

theorem State.dropWaiters_keepsAsks (s : State) (i : Fin 16) : s.KeepsAsks (s.dropWaiters i) :=
  (State.KeepsAsks.fold State.withdrawFor_keepsAsks _ _).after
    ((s.removeWaiters_keepsAsks i).thenEq (State.anyOrder_resolution _ _))

theorem State.tearDown_keepsAsks (s : State) (i : Fin 16) (fate : DigestFate) : s.KeepsAsks (s.tearDown i fate) := by
  have stopped : s.KeepsAsks { s.stopEngines i with
      digestQueue := dropDigests i fate s.digestQueue, index := s.index.voidLookups i } := .of_eq rfl
  simp only [State.tearDown]
  exact (stopped.trans (State.dropWaiters_keepsAsks _ i)).thenEq (by simp)

end Sys2Proof.Machine
end

