-- ==== Sys2Proof/Proofs/AskTableStays.lean ====
section
/-! PROOFS. Command by command: every one keeps the ask table at its bound, with distinct fingerprints and distinct tags
(R63, R64). Most leave the Resolution Unit alone. -/

namespace Sys2Proof.Machine

section Commands

variable {s t : State}

/-! ### The intake link -/

theorem State.intakeGate_keepsAsks {b : Byte} {k : SegmentKind} {q : Half} {own : Fin 16 → State}
    (h : ∀ i, s.KeepsAsks (own i)) : s.KeepsAsks (s.intakeGate b k q own) := by
  simp only [State.intakeGate]
  split
  · exact .refl s
  · split
    · exact .of_eq rfl
    · split
      · exact .of_eq rfl
      · split
        · exact .of_eq rfl
        · exact h _

theorem State.takeOpen_resolution (s : State) (i : Fin 16) (q : Half) (branch base size : Word) :
    (s.takeOpen i q branch base size).resolution = s.resolution := by
  simp only [State.takeOpen]
  repeat' split
  all_goals rfl

theorem State.acceptData_resolution (s : State) (i : Fin 16) (q : Half) (payload : List Byte) :
    (s.acceptData i q payload).resolution = s.resolution := by
  simp only [State.acceptData]
  rw [State.addBytes_same]
  rfl

theorem State.takeData_resolution (s : State) (i : Fin 16) (q : Half) (payload : List Byte) :
    (s.takeData i q payload).resolution = s.resolution := by
  simp only [State.takeData]
  split
  · rfl
  · repeat' split
    · rfl
    · rfl
    · rfl
    · rfl
    · exact s.acceptData_resolution i q payload

theorem State.takeClose_resolution (s : State) (i : Fin 16) (q : Half) :
    (s.takeClose i q).resolution = s.resolution := by
  simp only [State.takeClose]
  repeat' split
  all_goals rfl

theorem State.abortNow_keepsAsks (s : State) (i : Fin 16) : s.KeepsAsks (s.abortNow i) := by
  have aborting : s.KeepsAsks ((s.modStream i (fun x => { x with state := .aborting })).withdrawClosed i) := .of_eq rfl
  have replied : ∀ u : State, u.KeepsAsks (u.reply (BitVec.ofNat 8 i.val) .abort 0 .accepted 64) := fun _ => .of_eq rfl
  have released : ∀ u : State, u.KeepsAsks (u.abortRelease i) := fun u => .of_eq (u.abortRelease_resolution i)
  simp only [State.abortNow]
  exact ((replied _).after ((released _).after ((State.tearDown_keepsAsks _ i .awaited).after aborting))).settle

theorem State.takeAbort_keepsAsks (s : State) (i : Fin 16) : s.KeepsAsks (s.takeAbort i) := by
  simp only [State.takeAbort]
  split
  · exact .of_eq rfl
  · exact .of_eq rfl
  · exact s.abortNow_keepsAsks i
  · exact s.abortNow_keepsAsks i
  · exact s.abortNow_keepsAsks i

/-! ### The station states -/

/-- After RESET the ask table is empty (R80, R162). -/
theorem execResetAssert_keepsAsks (h : execResetAssert s = .next t) : s.KeepsAsks t := by
  obtain rfl := Host.Outcome.next.inj h
  exact fun _ => ⟨Nat.zero_le _, List.nodup_nil, List.nodup_nil⟩

theorem State.enterHolding_resolution (s : State) : s.enterHolding.resolution = s.resolution :=
  State.askRound_resolution _

theorem execClearWalkStep_resolution (h : execClearWalkStep s = .next t) : t.resolution = s.resolution := by
  obtain rfl := Host.Outcome.next.inj h
  dsimp only
  repeat' split
  · rfl
  · exact (State.settle_resolution _).trans (State.enterHolding_resolution _)
  · rfl
  · rfl

theorem execHoldAssert_resolution (h : execHoldAssert s = .next t) : t.resolution = s.resolution := by
  obtain rfl := Host.Outcome.next.inj h
  split
  · exact (State.settle_resolution _).trans (State.enterHolding_resolution _)
  · rfl

/-! ### Chunking and fingerprints -/

theorem State.closeHead_resolution (s : State) (i : Fin 16) : (s.closeHead i).resolution = s.resolution := by
  simp only [State.closeHead, State.settle_resolution, State.closeCheck_resolution, State.modStream_resolution,
    State.writeBack]
  split
  · split <;> rfl
  · rfl

theorem execEngineAssign_resolution (h : execEngineAssign s = .next t) : t.resolution = s.resolution := by
  obtain rfl := Host.Outcome.next.inj h
  split
  · simp only [State.assign]
    split
    · rfl
    · exact State.closeHead_resolution _ _
    · rfl
  · rfl

theorem State.consumeEntry_resolution (s : State) (e : Fin 4) (i : Fin 16) (c : ChunkerContext) :
    (s.consumeEntry e i c).resolution = s.resolution := by
  simp only [State.consumeEntry]
  rw [State.creditNotice_same]
  rfl

theorem State.takeByte_resolution (s : State) (e : Fin 4) (i : Fin 16) (c : ChunkerContext) (p : Fin 32) (y : Byte)
    (position length : Nat) : (s.takeByte e i c p y position length).resolution = s.resolution := by
  simp only [State.takeByte]
  split
  · rw [State.consumeEntry_resolution]
    split <;> rfl
  · rw [State.setEngine_resolution]
    split <;> rfl

theorem State.engineStep_resolution (s : State) (e : Fin 4) : (s.engineStep e).resolution = s.resolution := by
  have allocated : ∀ i p c, (s.allocate i p c).1.resolution = s.resolution := by
    intro i p c
    simp only [State.allocate]
    rw [State.sequenceAfter_same]
    rfl
  simp only [State.engineStep]
  repeat' split
  · rfl
  · rfl
  · rfl
  · exact s.takeByte_resolution _ _ _ _ _ _ _
  · rfl
  · exact (State.takeByte_resolution _ _ _ _ _ _ _ _).trans (allocated _ _ _)
  · rfl

theorem execFingerprintComplete_keepsAsks (h : execFingerprintComplete s = .next t) : s.KeepsAsks t := by
  obtain rfl := Host.Outcome.next.inj h
  simp only [State.completeDigest]
  repeat' split
  · exact .refl s
  · exact .of_eq (by simp)
  · exact .of_eq rfl
  · exact (State.checkChunk_keepsAsks _ _ _ _).after (.of_eq rfl)
  · exact .refl s

/-! ### The Chunk Index -/

theorem State.resolveSurvey_resolution (s : State) (w : Waiter) (hit : Bool) :
    (s.resolveSurvey w hit).resolution = s.resolution := State.closeCheck_resolution _ _

/-- Only the miss of a NORMAL chunk comes to the ask table (R58). -/
theorem State.takeLookup_keepsAsks (s : State) (f : Fingerprint) (w : Waiter) (kind : StreamKind) (hit : Option IndexEntry) :
    s.KeepsAsks (s.takeLookup f w kind hit) := by
  simp only [State.takeLookup]
  split
  · split
    · exact .of_eq (s.resolveSurvey_resolution w true)
    · exact .of_eq rfl
  · split
    · exact .of_eq (s.resolveSurvey_resolution w false)
    · exact s.recheck_keepsAsks f w

theorem execResolutionLookupComplete_keepsAsks (h : execResolutionLookupComplete s = .next t) : s.KeepsAsks t := by
  obtain rfl := Host.Outcome.next.inj h
  dsimp only
  split
  next f i p _ kind void _ _ =>
    have found : s.KeepsAsks (s.lookedUp f) := .of_eq rfl
    split
    · exact found
    · exact (found.trans (State.takeLookup_keepsAsks _ f (i, p) kind _)).settle
  · exact .refl s

theorem State.makeAnswer_resolution (s : State) : s.makeAnswer.resolution = s.resolution := by
  rw [State.makeAnswer_changes]

theorem execAnswerLookupComplete_resolution (h : execAnswerLookupComplete s = .next t) : t.resolution = s.resolution := by
  obtain rfl := Host.Outcome.next.inj h
  split
  · exact State.makeAnswer_resolution _
  · rfl

theorem execInsertComplete_keepsAsks (h : execInsertComplete s = .next t) : s.KeepsAsks t := by
  obtain rfl := Host.Outcome.next.inj h
  dsimp only
  split
  next slot ordinal _ tag _ _ =>
    refine State.KeepsAsks.settle ((State.takeInsert_keepsAsks _ slot ordinal tag).after ?_)
    split <;> exact .of_eq rfl
  · exact .refl s

theorem execScrubStepComplete_resolution (h : execScrubStepComplete s = .next t) : t.resolution = s.resolution := by
  obtain rfl := Host.Outcome.next.inj h
  dsimp only
  repeat' split
  · rfl
  · exact (State.settle_resolution _).trans
      (State.endWalk_keeps State.resolution (fun _ _ _ => rfl) (fun _ _ => rfl) (fun _ _ _ => rfl) _)
  · rfl

/-! ### The ask timers and appends -/

theorem execCompareAExpiry_keepsAsks {tag : Byte} (h : execCompareAExpiry tag s = .next t) : s.KeepsAsks t := by
  obtain rfl := Host.Outcome.next.inj h
  split
  next e _ entry =>
    split
    · simp only [State.compareA]
      split <;> exact fun sound => State.setAsk_keepsAsks (State.mem_of_askTagged entry) rfl rfl sound
    · exact .refl s
  · exact .refl s

theorem execCompareBExpiry_keepsAsks {tag : Byte} (h : execCompareBExpiry tag s = .next t) : s.KeepsAsks t := by
  obtain rfl := Host.Outcome.next.inj h
  split
  next e _ entry =>
    repeat' split
    · refine State.KeepsAsks.settle (State.KeepsAsks.after (State.storeOrFree_keepsAsks ?_) (.of_eq rfl))
      exact State.mem_of_askTagged entry
    · exact .refl s
    · exact .refl s
  · exact .refl s

theorem State.sealAfterAppend_resolution (s : State) (slot : Nat) :
    (s.sealAfterAppend slot).resolution = s.resolution := by rw [State.sealAfterAppend_changes]

theorem execAppendComplete_keepsAsks {slot offset : Nat} (h : execAppendComplete slot offset s = .next t) :
    s.KeepsAsks t := by
  obtain rfl := Host.Outcome.next.inj h
  split
  next a _ _ =>
    have copied : s.KeepsAsks ((s.copyAppend (s.container slot) a).setContainer slot ((s.container slot).completed a)) := by
      rw [State.copyAppend_same]
      exact .of_eq rfl
    exact (((copied.trans (State.appendDone_keepsAsks _ slot _ a)).thenEq
      (State.sealAfterAppend_resolution _ slot)).thenEq (State.abortRelease_resolution _ a.stream)).settle
  · exact .refl s

/-! ### The peer bus -/

theorem execAttemptStart_resolution (h : execAttemptStart s = .next t) : t.resolution = s.resolution := by
  obtain rfl := Host.Outcome.next.inj h
  repeat' split
  all_goals rfl

/-- An ASK that leaves turns its entry ASKED (R67). -/
theorem State.headLeaves_keepsAsks (s : State) (f : TxFrame) : s.KeepsAsks (s.headLeaves f) := by
  have dropped : s.KeepsAsks { s with bus := s.bus.dropHead } := .of_eq rfl
  simp only [State.headLeaves]
  split
  · exact dropped.trans (State.askLeft_keepsAsks _ _ _)
  · exact dropped
  · exact dropped

theorem execFrameComplete_keepsAsks (h : execFrameComplete s = .next t) : s.KeepsAsks t := by
  obtain rfl := Host.Outcome.next.inj h
  split
  · exact (State.headLeaves_keepsAsks _ _).after (.of_eq rfl)
  · exact .refl s

theorem execCollision_resolution {bit : Nat} (h : execCollision bit s = .next t) : t.resolution = s.resolution := by
  obtain rfl := Host.Outcome.next.inj h
  repeat' split
  all_goals rfl

theorem execJamEnd_keepsAsks (h : execJamEnd s = .next t) : s.KeepsAsks t := by
  have abandoned : ∀ u : State, u.KeepsAsks (u.latch .busAbandon).refresh := fun _ => .of_eq rfl
  obtain rfl := Host.Outcome.next.inj h
  dsimp only
  repeat' split
  · exact .of_eq rfl
  · exact (abandoned _).after ((State.headLeaves_keepsAsks _ _).after (.of_eq rfl))
  · exact .refl s

theorem execFrameBegins_resolution (h : execFrameBegins s = .next t) : t.resolution = s.resolution := by
  obtain rfl := Host.Outcome.next.inj h
  split <;> rfl

theorem State.endReception_resolution (s : State) (bits : Nat) : (s.endReception bits).resolution = s.resolution := by
  simp only [State.endReception]
  split <;> rfl

theorem State.dispatchAsk_keepsAsks (s : State) (sender tag : Byte) (f : Fingerprint) :
    s.KeepsAsks (s.dispatchAsk sender tag f) := by
  refine (s.yieldTo_keepsAsks sender f).thenEq ?_
  rw [(s.dispatchAsk_changes sender tag f).1]

theorem State.receive_keepsAsks (s : State) (r : Received) : s.KeepsAsks (s.receive r) := by
  simp only [State.receive]
  split
  · exact .refl s
  · split
    · exact .of_eq rfl
    · cases r with
      | ask => exact s.dispatchAsk_keepsAsks _ _ _
      | holds => exact (s.remoteFound_keepsAsks _ _ _).settle
      | claim => exact (s.remoteFound_keepsAsks _ _ _).settle

theorem State.frameEnds_keepsAsks (s : State) (r : Received) (bits : Nat) : s.KeepsAsks (s.frameEnds r bits) := by
  have ended : s.KeepsAsks (s.endReception bits) := .of_eq (s.endReception_resolution bits)
  simp only [State.frameEnds]
  split
  · exact ended.trans (State.receive_keepsAsks _ r)
  · exact ended

theorem execCandidateFrame_keepsAsks {bits : List Bool} (h : execCandidateFrame bits s = .next t) : s.KeepsAsks t := by
  obtain rfl := Host.Outcome.next.inj h
  split
  · exact s.frameEnds_keepsAsks _ _
  · exact .of_eq (s.endReception_resolution _)

/-! ### The seal line -/

theorem execSealTimerExpiry_resolution (h : execSealTimerExpiry s = .next t) : t.resolution = s.resolution := by
  obtain rfl := Host.Outcome.next.inj h
  split <;> rfl

theorem execDriveEnd_resolution (h : execDriveEnd s = .next t) : t.resolution = s.resolution := by
  obtain rfl := Host.Outcome.next.inj h
  split <;> rfl

theorem execPulseDetected_resolution (h : execPulseDetected s = .next t) : t.resolution = s.resolution := by
  obtain rfl := Host.Outcome.next.inj h
  dsimp only
  split
  · by_cases off : s.sealUnit.mode = .off
    · rw [if_pos off]
      rfl
    · rw [if_neg off]
      exact (State.settle_resolution _).trans (State.askRound_resolution _)
  · rfl

theorem execSealLineHigh_resolution (h : execSealLineHigh s = .next t) : t.resolution = s.resolution := by
  obtain rfl := Host.Outcome.next.inj h
  split <;> rfl

/-! ### The store port -/

theorem State.faultStream_keepsAsks (s : State) (i : Fin 16) : s.KeepsAsks (s.faultStream i) := by
  have faulted : s.KeepsAsks (s.modStream i (fun y => { y with
      state := .faulted, writeInFlight := none, endProgress := .none })) := .of_eq rfl
  have reported : ∀ (u : State) r, u.KeepsAsks (u.makeReport r) := fun _ _ => .of_eq rfl
  simp only [State.faultStream]
  exact (reported _ _).after ((State.tearDown_keepsAsks _ i .dropped).after faulted)

theorem State.recordWritten_resolution (s : State) (i : Fin 16) (kind : RecordKind) :
    (s.recordWritten i kind).resolution = s.resolution := by
  have recorded : (s.recordChunk i).resolution = s.resolution := by
    simp only [State.recordChunk]
    split
    · rfl
    · exact State.releaseChunk_resolution s _
  simp only [State.recordWritten]
  cases kind with
  | chunk => exact (State.closeCheck_resolution _ i).trans recorded
  | mark => exact State.closeCheck_resolution _ i
  | last => rfl

/-- Only the fault of a stream comes to the ask table (R77, R115). -/
theorem State.recipeCompleted_keepsAsks (s : State) (i : Fin 16) (kind : RecordKind) (error : Bool) :
    s.KeepsAsks (s.recipeCompleted i kind error) := by
  have done : s.KeepsAsks (if error then s.faultStream i else s.recordWritten i kind) := by
    split
    · exact s.faultStream_keepsAsks i
    · exact .of_eq (s.recordWritten_resolution i kind)
  simp only [State.recipeCompleted]
  split
  · exact done
  · exact done
  · exact .of_eq (State.abortRelease_resolution _ i)
  · exact .refl s
  · exact .refl s

theorem State.burstCompleted_resolution (s : State) (f : ActiveFlush) (error : Bool) :
    (s.burstCompleted f error).resolution = s.resolution := by
  simp only [State.burstCompleted]
  split
  · rfl
  · exact State.flushOutcome_resolution _ _ _

theorem execCompletion_keepsAsks {status : Byte} (h : execCompletion status s = .next t) : s.KeepsAsks t := by
  have freed : s.KeepsAsks { s with store := { s.store with port := .idle } } := .of_eq rfl
  have settled : ∀ u : State, u.KeepsAsks u.settleCompletion := fun u => .of_eq u.settleCompletion_resolution
  obtain rfl := Host.Outcome.next.inj h
  dsimp only
  split
  · exact .refl s
  · refine (settled _).after ((State.recipeCompleted_keepsAsks _ _ _ _).after ?_)
    split
    · exact freed.thenEq rfl
    · exact freed
  · split
    · exact freed.trans (settled _)
    · exact (freed.thenEq (State.burstCompleted_resolution _ _ _)).trans (settled _)

/-! ### The management port -/

theorem State.commandGate_resolution {own : State} (h : own.resolution = s.resolution) :
    (s.commandGate own).resolution = s.resolution := by
  simp only [State.commandGate]
  split
  · rfl
  · split
    · rfl
    · exact h

theorem State.popReport_resolution (s : State) : s.popReport.resolution = s.resolution := by
  simp only [State.popReport, State.admitHeld]
  repeat' split
  · rfl
  · rfl
  · exact State.enterReport_resolution _ _

theorem execRecipeTaken_resolution {stream : Byte} {count : Word} (h : execRecipeTaken stream count s = .next t) :
    t.resolution = s.resolution := by
  obtain rfl := Host.Outcome.next.inj h
  refine State.commandGate_resolution ?_
  split
  · rfl
  · exact State.settle_resolution _

theorem execPurge_resolution {slot : Half} (h : execPurge slot s = .next t) : t.resolution = s.resolution := by
  obtain rfl := Host.Outcome.next.inj h
  refine State.commandGate_resolution ?_
  simp only [State.purgeSlot, State.retire]
  repeat' split
  all_goals rfl

theorem execReadStream_resolution {stream : Byte} (h : execReadStream stream s = .next t) : t.resolution = s.resolution := by
  obtain rfl := Host.Outcome.next.inj h
  refine State.commandGate_resolution ?_
  split <;> rfl

end Commands

/-! ### Every command -/

theorem exec_keepsAsks {c : Instr} {s t : State} (h : exec c s = .next t) : s.KeepsAsks t := by
  cases c with
  | openSegment =>
    obtain rfl := Host.Outcome.next.inj h
    exact State.intakeGate_keepsAsks (fun i => .of_eq (s.takeOpen_resolution i _ _ _ _))
  | dataSegment =>
    obtain rfl := Host.Outcome.next.inj h
    exact State.intakeGate_keepsAsks (fun i => .of_eq (s.takeData_resolution i _ _))
  | closeSegment =>
    obtain rfl := Host.Outcome.next.inj h
    exact State.intakeGate_keepsAsks (fun i => .of_eq (s.takeClose_resolution i _))
  | abortSegment =>
    obtain rfl := Host.Outcome.next.inj h
    exact State.intakeGate_keepsAsks s.takeAbort_keepsAsks
  | malformedSegment =>
    obtain rfl := Host.Outcome.next.inj h
    repeat' split
    all_goals exact .of_eq rfl
  | resetAssert => exact execResetAssert_keepsAsks h
  | resetRelease =>
    obtain rfl := Host.Outcome.next.inj h
    split <;> exact .of_eq rfl
  | settingsLoaded =>
    obtain rfl := Host.Outcome.next.inj h
    dsimp only
    repeat' split
    all_goals exact .of_eq rfl
  | clearWalkStep => exact .of_eq (execClearWalkStep_resolution h)
  | holdAssert => exact .of_eq (execHoldAssert_resolution h)
  | holdRelease =>
    obtain rfl := Host.Outcome.next.inj h
    split <;> exact .of_eq rfl
  | engineAssign => exact .of_eq (execEngineAssign_resolution h)
  | engineTakeByte e =>
    obtain rfl := Host.Outcome.next.inj h
    split
    · exact .of_eq (s.engineStep_resolution e)
    · exact .refl s
  | fingerprintComplete => exact execFingerprintComplete_keepsAsks h
  | indexServiceStart =>
    obtain rfl := Host.Outcome.next.inj h
    split <;> exact .of_eq rfl
  | scrubStepStart =>
    obtain rfl := Host.Outcome.next.inj h
    split <;> exact .of_eq rfl
  | resolutionLookupComplete => exact execResolutionLookupComplete_keepsAsks h
  | answerLookupComplete => exact .of_eq (execAnswerLookupComplete_resolution h)
  | insertComplete => exact execInsertComplete_keepsAsks h
  | scrubStepComplete => exact .of_eq (execScrubStepComplete_resolution h)
  | compareAExpiry => exact execCompareAExpiry_keepsAsks h
  | compareBExpiry => exact execCompareBExpiry_keepsAsks h
  | appendComplete => exact execAppendComplete_keepsAsks h
  | attemptStart => exact .of_eq (execAttemptStart_resolution h)
  | frameComplete => exact execFrameComplete_keepsAsks h
  | collision => exact .of_eq (execCollision_resolution h)
  | jamEnd => exact execJamEnd_keepsAsks h
  | askReceived => exact Host.Outcome.next.inj h ▸ s.frameEnds_keepsAsks _ _
  | haveReceived => exact Host.Outcome.next.inj h ▸ s.frameEnds_keepsAsks _ _
  | claimReceived => exact Host.Outcome.next.inj h ▸ s.frameEnds_keepsAsks _ _
  | candidateFrame => exact execCandidateFrame_keepsAsks h
  | sealTimerExpiry => exact .of_eq (execSealTimerExpiry_resolution h)
  | driveEnd => exact .of_eq (execDriveEnd_resolution h)
  | pulseDetected => exact .of_eq (execPulseDetected_resolution h)
  | sealLineHigh => exact .of_eq (execSealLineHigh_resolution h)
  | completion => exact execCompletion_keepsAsks h
  | readStatus =>
    obtain rfl := Host.Outcome.next.inj h
    split <;> exact .of_eq rfl
  | readReport => exact Host.Outcome.next.inj h ▸ .of_eq (State.commandGate_resolution s.popReport_resolution)
  | ackEvents mask =>
    have acknowledged : (s.acknowledge mask).resolution = s.resolution := rfl
    exact Host.Outcome.next.inj h ▸ .of_eq (State.commandGate_resolution acknowledged)
  | recipeTaken => exact .of_eq (execRecipeTaken_resolution h)
  | purge => exact .of_eq (execPurge_resolution h)
  | readStream => exact .of_eq (execReadStream_resolution h)
  | unknownCommand =>
    obtain rfl := Host.Outcome.next.inj h
    split <;> exact .of_eq rfl
  | transactionDiscarded => exact Host.Outcome.next.inj h ▸ .refl s
  | sealLineLow =>
    obtain rfl := Host.Outcome.next.inj h
    exact .of_eq rfl
  | frameBegins => exact .of_eq (execFrameBegins_resolution h)

/-- Settles O57: every part of every command keeps the ask table sound. -/
theorem askTableStaysSound : Obligations.AskTableStaysSound := by
  intro s t sound stepped
  simp only [step] at stepped
  split at stepped
  · obtain rfl := Host.Outcome.next.inj stepped
    exact sound
  next c rest _ => exact exec_keepsAsks (s := { s with pending := rest }) stepped sound

end Sys2Proof.Machine
end

