-- ==== Sys2Proof/Proofs/TagsAndReasks.lean ====
section
/-! PROOFS. The tag of a new ask entry (R64), and compare A of an ASKED entry (R68, R69). -/

namespace Sys2Proof.Machine

/-- The search for a free tag passes tags in use only, counting modulo 256 (R64). -/
theorem Resolution.freeTag_passes (r : Resolution) (tag : Byte) (n : Nat) : ∃ passed,
    r.freeTag tag n = tag + BitVec.ofNat 8 passed ∧ ∀ d < passed, ∃ a ∈ r.entries, a.tag = tag + BitVec.ofNat 8 d := by
  induction n generalizing tag with
  | zero => exact ⟨0, (BitVec.add_zero tag).symm, fun d hd => absurd hd (Nat.not_lt_zero d)⟩
  | succ n ih =>
    have next : ∀ d, tag + 1 + BitVec.ofNat 8 d = tag + BitVec.ofNat 8 (d + 1) := fun d => by
      rw [BitVec.ofNat_add, BitVec.add_assoc, BitVec.add_comm 1]
      rfl
    simp only [Resolution.freeTag]
    split
    next used =>
      obtain ⟨passed, found, before⟩ := ih (tag + 1)
      refine ⟨passed + 1, found.trans (next passed), fun d hd => ?_⟩
      cases d with
      | zero => simpa using used
      | succ d => exact next d ▸ before d (by omega)
    next => exact ⟨0, (BitVec.add_zero tag).symm, fun d hd => absurd hd (Nat.not_lt_zero d)⟩

/-- Settles O35: the search ends at a tag of no entry, and every tag before it has one. -/
theorem newTagIsFree : Obligations.NewTagIsFree := by
  intro r few tag
  refine ⟨Resolution.freeTag_unused few r.nextTag, fun d near => ?_⟩
  obtain ⟨passed, found, before⟩ := r.freeTag_passes r.nextTag 256
  refine before d (near.trans_le ?_)
  calc (tag - r.nextTag).toNat = (BitVec.ofNat 8 passed).toNat := by
        rw [show tag = r.nextTag + BitVec.ofNat 8 passed from found, BitVec.add_comm, BitVec.add_sub_cancel]
    _ ≤ passed := by
        rw [BitVec.toNat_ofNat]
        exact Nat.mod_le _ _

/-- A timer that runs with compare A armed on an ASKED entry reaches it (R69). -/
theorem execCompareAExpiry_eq {s : State} {a : AskEntry} {since : Nat} {armedB : Bool} (active : s.active = true)
    (entry : s.askTagged a.tag = some a) (asked : a.state = .asked) (timer : a.timer = .running since true armedB) :
    exec (.compareAExpiry a.tag) s = .next (s.compareA a since armedB) := by
  simp only [exec, execCompareAExpiry, active, entry, asked, timer]

/-- Settles O32: the second ASK depends on the room of the transmit queue alone. -/
theorem compareAAsksAgain : Obligations.CompareAAsksAgain := by
  intro s a since armedB active sound listed asked timer
  rw [execCompareAExpiry_eq active (State.askTagged_of_mem sound.2.2 listed) asked timer]
  by_cases room : s.bus.txQueue.length < 32
  · rw [if_pos room, State.compareA, if_pos (by exact room)]
    rfl
  · rw [if_neg room, State.compareA, if_neg (by exact room)]
    rfl

end Sys2Proof.Machine
end

