-- ==== Sys2Proof/Proofs/FramesSent.lean ====
section
/-! PROOFS. This station's own frames: an attempt, a frame driven whole, a collision with its jam, the back-off and the
abandonment (R67, R81 to R84, R86, R87). -/

namespace Sys2Proof.Machine

/-! ## Attempts -/

/-- Another station that began driving earlier holds an attempt off (R81, R90). -/
theorem State.attemptMoment_driven {s : State} {since : Nat} (line : s.bus.line = .driven since) (earlier : since ≠ s.now)
    (retry : Option (Nat × Nat)) : s.attemptMoment retry = none := by
  simp only [State.attemptMoment, line]
  exact if_neg (fun both => earlier both.1)

/-- On an idle line the attempt begins once the gap and the back-off wait are over (R81, R83, R91). -/
theorem execAttemptStart_idle {s : State} {head : TxFrame} {rest : List TxFrame} {since : Nat}
    {retry : Option (Nat × Nat)} (active : s.active = true) (queue : s.bus.txQueue = head :: rest)
    (waiting : s.bus.transmitter = .waiting retry) (idle : s.bus.line = .idle since) : exec .attemptStart s =
      .next (s.beginAttempt (earliestAttempt (max since s.bus.watchedSince) retry)) := by
  simp only [exec, execAttemptStart, active, waiting, queue, State.attemptMoment, idle]

theorem State.beginAttempt_eq {s : State} {head : TxFrame} {rest : List TxFrame} (queue : s.bus.txQueue = head :: rest)
    (moment : Nat) : s.beginAttempt moment = { s with
      now := max s.now moment
      bus := { s.bus with
        txQueue := { head with attempts := head.attempts + 1 } :: rest
        transmitter := .sending (max s.now moment), receiver := .listening } } := by
  have counted : (s.clockTo moment).bus.countAttempt =
      { s.bus with txQueue := { head with attempts := head.attempts + 1 } :: rest } := by
    simp only [PeerBus.countAttempt, State.clockTo, queue]
  simp only [State.beginAttempt, counted]
  rfl

theorem execAttemptStart_held {s : State} (held : ∀ retry, s.attemptMoment retry = none) :
    exec .attemptStart s = .next s := by
  simp only [exec, execAttemptStart, held]
  split <;> rfl

/-! ## The head frame leaves the queue -/

/-- The frames behind the head, with the held ASKs that its place lets in (R86). -/
def PeerBus.queueAfter (b : PeerBus) (rest : List TxFrame) : List TxFrame :=
  rest ++ (b.askHolding.take (32 - rest.length)).map (fun p => { frame := .ask p.1 p.2, attempts := 0 })

theorem PeerBus.dropHead_eq {b : PeerBus} {head : TxFrame} {rest : List TxFrame} (queue : b.txQueue = head :: rest) :
    b.dropHead = { b with
      txQueue := b.queueAfter rest, askHolding := b.askHolding.drop (32 - rest.length)
      transmitter := if b.queueAfter rest = [] then .empty else .waiting none } := by
  simp only [PeerBus.dropHead, PeerBus.refill, queue, List.tail_cons]
  rfl

/-- The ask table once the ASK of this tag and fingerprint has left the transmit queue: its entry, if SENDING, is ASKED and
its timer runs from that moment (R67, R68). -/
def Resolution.askSent (r : Resolution) (tag : Byte) (f : Fingerprint) (moment : Nat) : Resolution :=
  { r with entries := r.entries.map (fun a =>
      if a.tag = tag ∧ a.fingerprint = f ∧ a.state = .sending then
        { a with state := .asked, timer := .running moment true true }
      else a) }

/-- With no entry to turn ASKED the table stands. -/
theorem Resolution.askSent_of_none {r : Resolution} {tag : Byte} {f : Fingerprint} {moment : Nat}
    (none : ∀ a ∈ r.entries, ¬ (a.tag = tag ∧ a.fingerprint = f ∧ a.state = .sending)) :
    r.askSent tag f moment = r :=
  congrArg (fun entries => { r with entries := entries })
    ((List.map_congr_left (g := id) (fun a ha => if_neg (none a ha))).trans (List.map_id _))

theorem State.askLeft_resolution {s : State} (sound : s.askTableSound) (tag : Byte) (f : Fingerprint) :
    (s.askLeft tag f).resolution = s.resolution.askSent tag f s.now := by
  obtain ⟨-, -, tags⟩ := sound
  simp only [State.askLeft]
  split
  next unused =>
    refine (Resolution.askSent_of_none (fun a ha named => ?_)).symm
    have there := State.askTagged_of_mem tags ha
    rw [named.1, unused] at there
    cases there
  next e entry =>
    have listed : e ∈ s.resolution.entries := List.mem_of_find?_eq_some entry
    have tagged : e.tag = tag := by simpa using List.find?_some entry
    have only : ∀ a ∈ s.resolution.entries, a.tag = tag → a = e := fun a ha same =>
      List.inj_on_of_nodup_map tags ha listed (same.trans tagged.symm)
    split
    next sending =>
      refine congrArg (fun entries => { s.resolution with entries := entries }) (List.map_congr_left (fun a ha => ?_))
      by_cases same : a.tag = tag
      · obtain rfl := only a ha same
        rw [if_pos rfl, if_pos ⟨tagged, sending⟩]
      · rw [if_neg (fun h => same (h.trans tagged)), if_neg (fun h => same h.1)]
    next other =>
      refine (Resolution.askSent_of_none (fun a ha named => ?_)).symm
      obtain rfl := only a ha named.1
      exact other named.2

theorem State.headLeaves_changes (s : State) (t : TxFrame) : s.headLeaves t = { s with
    bus := s.bus.dropHead, resolution := (s.headLeaves t).resolution } := by
  simp only [State.headLeaves]
  split
  · rw [State.askLeft_changes]
  · rfl
  · rfl

theorem State.headLeaves_resolution_ask {s : State} {t : TxFrame} {tag : Byte} {f : Fingerprint}
    (frame : t.frame = .ask tag f) (sound : s.askTableSound) :
    (s.headLeaves t).resolution = s.resolution.askSent tag f s.now := by
  simp only [State.headLeaves, frame]
  exact State.askLeft_resolution (s := { s with bus := s.bus.dropHead }) sound tag f

theorem State.headLeaves_resolution_other {s : State} {t : TxFrame} (other : ∀ tag f, t.frame ≠ .ask tag f) :
    (s.headLeaves t).resolution = s.resolution := by
  simp only [State.headLeaves]
  split
  next tag f frame => exact absurd frame (other tag f)
  next => rfl
  next => rfl

/-! ## Frames driven whole -/

/-- The station once the head frame, begun at `since`, has been driven whole, before it leaves the queue (R81). -/
def State.frameDriven (s : State) (head : TxFrame) (since : Nat) : State :=
  { s with
    now := max s.now (since + head.frame.bitCount + 1)
    bus := { s.bus with line := .idle (max s.now (since + head.frame.bitCount + 1) - 1) }
    sent := s.sent ++ [.bus (bitsOf (head.frame.bytes s.settings.station))] }

/-- The station once the head frame, begun at `since`, has been cut at a bit, and its jam begins (R82). -/
def State.frameCut (s : State) (head : TxFrame) (since bit : Nat) : State :=
  { s with
    now := max s.now (since + bit), bus := { s.bus with transmitter := .jamming (max s.now (since + bit)) }
    sent := s.sent ++ [.bus ((bitsOf (head.frame.bytes s.settings.station)).take bit)] }

section Sending

variable {s : State} {head : TxFrame} {rest : List TxFrame} {since : Nat} (active : s.active = true)
  (queue : s.bus.txQueue = head :: rest)
include active queue

theorem execFrameComplete_eq (sending : s.bus.transmitter = .sending since) :
    exec .frameComplete s = .next ((s.frameDriven head since).headLeaves head) := by
  simp only [exec, execFrameComplete, active, sending, queue]
  rfl

theorem execCollision_eq (sending : s.bus.transmitter = .sending since) {bit : Nat} (first : 1 ≤ bit)
    (last : bit ≤ head.frame.bitCount) : exec (.collision bit) s = .next (s.frameCut head since bit) := by
  simp only [exec, execCollision, active, sending, queue, if_pos (And.intro first last)]
  rfl

end Sending

/-- Settles O40: the attempt by the state of the line, the frame by what the head's leaving does. -/
theorem attemptsAndCompleteFrames : Obligations.AttemptsAndCompleteFrames := by
  intro s head rest since active queue
  refine ⟨fun retry waiting idle => ?_, fun driven earlier => ?_, fun sending => ?_⟩
  · rw [execAttemptStart_idle active queue waiting idle, State.beginAttempt_eq queue]
    cases retry <;> rfl
  · exact execAttemptStart_held (State.attemptMoment_driven driven earlier)
  · intro moment places queued
    refine ⟨_, execFrameComplete_eq active queue sending, ?_, fun tag f frame sound => ?_, fun other => ?_⟩
    · rw [State.headLeaves_changes, PeerBus.dropHead_eq (b := (s.frameDriven head since).bus) queue]
      rfl
    · exact State.headLeaves_resolution_ask (s := s.frameDriven head since) frame sound
    · exact State.headLeaves_resolution_other other

/-! ## Jams -/

/-- The station once the jam begun at `since` has been driven (R82). -/
def State.jamDriven (s : State) (since : Nat) : State :=
  { s with
    now := max s.now (since + 32)
    bus := { s.bus with line := .idle (max s.now (since + 32)) }
    sent := s.sent ++ [.bus ((List.range 32).map (fun k => decide (k % 2 = 0)))] }

section Jamming

variable {s : State} {head : TxFrame} {rest : List TxFrame} {since : Nat} (active : s.active = true)
  (queue : s.bus.txQueue = head :: rest) (jamming : s.bus.transmitter = .jamming since)
include active queue jamming

/-- Before its eighth attempt the frame waits for its back-off (R83). -/
theorem execJamEnd_backsOff (few : head.attempts < 8) : exec .jamEnd s = .next { s.jamDriven since with
    bus := { (s.jamDriven since).bus with
      transmitter := .waiting (some (max s.now (since + 32), backoffWait s.settings.station head.attempts)) } } := by
  simp only [exec, execJamEnd, active, jamming, queue, if_pos few]
  rfl

/-- At its eighth attempt the frame is abandoned (R84). -/
theorem execJamEnd_abandons (many : 8 ≤ head.attempts) : exec .jamEnd s =
    .next (((s.jamDriven since).headLeaves head).latch .busAbandon).refresh := by
  simp only [exec, execJamEnd, active, jamming, queue, if_neg (Nat.not_lt.2 many)]
  rfl

end Jamming

/-- BUS_ABANDON stands once it is latched (R168). -/
theorem State.latch_busAbandon_refresh (s : State) :
    (s.latch .busAbandon).refresh.management.flags &&& 0x04#8 = 0x04#8 := by
  have latched := congrArg (· &&& 0x04#8) (s.latch .busAbandon).refresh_latched
  simp only [BitVec.and_assoc, State.latch_flags] at latched
  refine latched.trans ?_
  rw [BitVec.and_or_distrib_right]
  exact BitVec.eq_of_getLsbD_eq (by simp [EventFlag.mask])

/-- Settles O41: the jam's end by the attempt count, and what an abandoned head's leaving does. -/
theorem collisionsBackOff : Obligations.CollisionsBackOff := by
  intro s head rest since bit active queue
  refine ⟨fun sending first last => execCollision_eq active queue sending first last, fun jamming => ?_⟩
  intro moment jammed
  refine ⟨fun _ few => execJamEnd_backsOff active queue jamming few, fun many => ?_⟩
  have changes := (s.jamDriven since).headLeaves_changes head
  rw [PeerBus.dropHead_eq (b := (s.jamDriven since).bus) queue] at changes
  refine ⟨_, execJamEnd_abandons active queue jamming many, State.latch_busAbandon_refresh _, ?_, ?_, ?_, ?_, ?_, ?_,
    fun tag f frame sound => ?_, fun other => ?_, ?_⟩
  · rw [changes]; rfl
  · rw [changes]; rfl
  · rw [changes]; rfl
  · rw [changes]; rfl
  · rw [changes]; rfl
  · rw [changes]; rfl
  · exact State.headLeaves_resolution_ask (s := s.jamDriven since) frame sound
  · exact State.headLeaves_resolution_other (s := s.jamDriven since) other
  · rw [changes]
    exact ⟨rfl, rfl, rfl, rfl, rfl, rfl, rfl, rfl⟩

end Sys2Proof.Machine
end

