-- ==== Sys2Proof/Proofs/LookupsMissed.lean ====
section
/-! PROOFS. A resolution lookup that misses, of a NORMAL chunk: the re-check (R58 to R60, R65, R86, R87). -/

namespace Sys2Proof.Machine

/-! ## The chunk waits -/

/-- Turning a waiter's phase writes that pending slot and nothing else. -/
theorem State.setPhase_stream (s : State) (w : Waiter) (phase : Phase) (j : Fin 16) :
    (s.setPhase w phase).stream j = { s.stream j with
      pending := (s.stream j).pending.map (fun q => if (j, q.number) = w then { q with phase := phase } else q) } := by
  obtain ⟨i, p⟩ := w
  rw [State.setPhase, State.stream_modStream]
  by_cases same : j = i
  · subst same
    simp [Stream.modSlot]
  · simp [same]

/-- However the re-check goes, the chunk turns WAITING and no stream changes in anything else (R59, R60). -/
theorem State.recheck_stream (s : State) (f : Fingerprint) (w : Waiter) (j : Fin 16) :
    (s.recheck f w).stream j = { s.stream j with
      pending := (s.stream j).pending.map (fun q => if (j, q.number) = w then { q with phase := .waiting } else q) } := by
  simp only [State.recheck]
  split
  · exact State.setPhase_stream _ w .waiting j
  · split
    · exact State.setPhase_stream _ w .waiting j
    · exact State.setPhase_stream _ w .waiting j

/-! ## The three ways of the re-check -/

section Recheck

variable {s : State} {f : Fingerprint} (w : Waiter)

/-- The chunk joins the entry for its fingerprint (R59). -/
theorem State.recheck_joins (sound : s.askTableSound) {a : AskEntry} (listed : a ∈ s.resolution.entries)
    (print : a.fingerprint = f) : (s.recheck f w).bus = s.bus ∧
      (s.recheck f w).resolution = { s.resolution with entries := s.resolution.entries.map (fun a =>
        if a.fingerprint = f then { a with waiters := a.waiters ++ [w] } else a) } := by
  subst print
  have joined : s.recheck a.fingerprint w = s.joinAsk a w := by
    simp only [State.recheck, State.askFor_of_mem sound.2.1 listed]
  rw [joined, ← sound.map_tag_eq listed (fun a => { a with waiters := a.waiters ++ [w] })]
  refine ⟨rfl, ?_⟩
  rw [State.joinAsk, State.setPhase_resolution,
    State.setAsk_eq_map (f := fun a => { a with waiters := a.waiters ++ [w] }) sound.2.2 listed rfl]

theorem State.recheck_makes (unmatched : ∀ a ∈ s.resolution.entries, a.fingerprint ≠ f)
    (room : s.resolution.entries.length < 64) : s.recheck f w = s.makeAsk f w := by
  simp only [State.recheck, State.askFor_none unmatched, if_pos room]

/-- With every place taken the chunk waits for an entry (R60). -/
theorem State.recheck_waits (unmatched : ∀ a ∈ s.resolution.entries, a.fingerprint ≠ f)
    (full : s.resolution.entries.length = 64) : (s.recheck f w).bus = s.bus ∧
      (s.recheck f w).resolution = { s.resolution with waitQueue := s.resolution.waitQueue ++ [w] } := by
  simp only [State.recheck, State.askFor_none unmatched, full, Nat.lt_irrefl, if_false]
  exact ⟨rfl, rfl⟩

end Recheck

/-- Settles O26: the re-check by its three ways, and the last part of the step keeps what it has done. -/
theorem lookupMissAsksOrWaits : Obligations.LookupMissAsksOrWaits := by
  intro s f i p q b r tag active service sound missed
  have ran := execResolutionLookupComplete_eq active service
  have miss : hitIn (s.liveEntries (s.bucketNumber f)) f = none := (s.hitIn_eq_none_iff b f).2 missed
  rw [miss] at ran
  set u := s.lookedUp f with isU
  have taken : u.takeLookup f (i, p) .normal none = u.recheck f (i, p) := rfl
  rw [taken] at ran
  obtain ⟨tidied, index⟩ := State.lookedUp_tidied (s := s) f (t := (u.recheck f (i, p)).settle)
    (by rw [State.settle_index, State.recheck_index])
  have kept := (u.recheck f (i, p)).settle_kept
  have stands : ∀ j, u.stream j = s.stream j := fun _ => rfl
  refine ⟨_, ran, tidied, index, ?_, fun known => ?_, fun unmatched room => ?_, fun unmatched full => ?_,
    fun j => ⟨?_, fun other => ?_⟩, ?_⟩
  · rw [(kept i).pending, State.recheck_stream, stands]
    simp only [Prod.mk.injEq, true_and]
  · obtain ⟨a, listed, print⟩ := known
    rw [State.settle_bus, State.settle_resolution]
    exact State.recheck_joins (s := u) (i, p) sound listed print
  · rw [State.settle_bus, State.settle_resolution, State.recheck_makes (s := u) (i, p) unmatched room]
    exact ⟨(State.makeAsk_bus u f (i, p)).trans (PeerBus.handAsk_eq_withFirstAsk s.bus tag f), rfl⟩
  · rw [State.settle_bus, State.settle_resolution]
    exact State.recheck_waits (s := u) (i, p) unmatched full
  · refine Stream.sameWork.trans ?_ (kept j).sameWork
    rw [State.recheck_stream, stands]
    exact Stream.sameWork.of_pending _ _
  · rw [(kept j).pending, State.recheck_stream, stands]
    exact List.map_id'' (fun r => if_neg (fun same => other (congrArg Prod.fst same))) _
  · simp only [State.settle_engines, State.settle_digestQueue, State.settle_staging, State.settle_settings,
      State.settle_station, State.settle_now, State.recheck_engines, State.recheck_digestQueue, State.recheck_staging,
      State.recheck_settings, State.recheck_station, State.recheck_now]
    exact ⟨rfl, rfl, rfl, rfl, rfl, rfl⟩

end Sys2Proof.Machine
end

