-- ==== Sys2Proof/Proofs/PlacesReceived.lean ====
section
/-! PROOFS. A HAVE or a CLAIM received: the waiters of its fingerprint's entry are resolved REMOTE and the entry is freed, unless
this station is storing the chunk (R60, R66, R70, R88, R94). -/

namespace Sys2Proof.Machine

/-! ## The frame handed on -/

/-- A frame in range of another station that names a place comes to the Resolution Unit at the end of its reception (R70,
R94). -/
def State.placeReceived (s : State) (since bits : Nat) (f : Fingerprint) (l : Location) (holder : Bool) : State :=
  ((s.received since bits).remoteFound f l holder).settle

section Frames

variable {s : State} {sender target tag : Byte} {f : Fingerprint} {incarnation slot ordinal : Half} {since : Nat}
  (active : s.active = true) (gathering : s.bus.receiver = .gathering) (driven : s.bus.line = .driven since)
  (inRange : sender.toNat ≤ 15) (other : sender ≠ s.settings.station) (slots : slot.toNat ≤ 4095)
  (ordinals : ordinal.toNat ≤ 1023)
include active gathering driven inRange other slots ordinals

theorem execHaveReceived_eq (targets : target.toNat ≤ 15) (holder : Bool) :
    exec (.haveReceived sender target tag f incarnation slot ordinal (if holder then 1#8 else 0#8)) s =
      .next (s.placeReceived since 360 f { station := sender, incarnation := incarnation, slot := slot.toNat
                                           ordinal := ordinal.toNat } holder) := by
  have good : (Received.holds sender target tag f incarnation slot ordinal (if holder then 1#8 else 0#8)).inRange =
      true := by
    cases holder <;> simp [Received.inRange, inRange, targets, slots, ordinals]
  refine congrArg Host.Outcome.next ((State.frameEnds_dispatch active gathering driven good other 360).trans ?_)
  cases holder <;> rfl

theorem execClaimReceived_eq : exec (.claimReceived sender f incarnation slot ordinal 0#8) s =
    .next (s.placeReceived since 344 f { station := sender, incarnation := incarnation, slot := slot.toNat
                                         ordinal := ordinal.toNat } false) := by
  have good : (Received.claim sender f incarnation slot ordinal 0#8).inRange = true := by
    simp [Received.inRange, inRange, slots, ordinals]
  exact congrArg Host.Outcome.next (State.frameEnds_dispatch active gathering driven good other 344)

end Frames

/-! ## The place taken -/

section Place

variable {s : State} (since bits : Nat) {f : Fingerprint} (l : Location) (holder : Bool)

/-- For an entry being stored, or none, nothing is resolved (R70). -/
theorem State.placeReceived_ignored (ignored : ∀ a ∈ s.resolution.entries, a.fingerprint = f → a.state = .storing) :
    s.placeReceived since bits f l holder = (s.received since bits).settle := by
  have stays : (s.received since bits).remoteFound f l holder = s.received since bits := by
    simp only [State.remoteFound]
    split
    · rfl
    next a entry =>
      obtain ⟨listed, print⟩ := State.mem_of_askFor entry
      rw [if_pos (ignored a listed print)]
  rw [State.placeReceived, stays]

variable {a : AskEntry} (sound : s.askTableSound) (listed : a ∈ s.resolution.entries) (print : a.fingerprint = f)
  (notStoring : a.state ≠ .storing)
include sound listed print notStoring

theorem State.placeReceived_taken : s.placeReceived since bits f l holder =
    (((s.received since bits).resolveAll a.waiters .remote l (some holder)).freeAsk a).settle := by
  have entry : (s.received since bits).askFor f = some a :=
    print ▸ State.askFor_of_mem (s := s.received since bits) sound.2.1 listed
  simp only [State.placeReceived, State.remoteFound, entry, if_neg notStoring]

/-- The ask-wait queue is worked (R60, R66). -/
theorem State.placeReceived_worksQueue (known : ∀ w ∈ s.resolution.waitQueue, s.fingerprintOf w ≠ none) :
    s.waitQueueWorked (s.placeReceived since bits f l holder) a.tag := by
  rw [State.placeReceived_taken since bits l holder sound listed print notStoring]
  set v := (s.received since bits).resolveAll a.waiters .remote l (some holder)
  have table : v.resolution = s.resolution := State.resolveAll_resolution _ _ _ _ _
  have prints : s.StreamsBy Stream.SamePrints v :=
    samePrints_resolving.before (samePrints_resolving.resolveAll (s.received since bits) _ _ _ _) rfl
  exact State.freeAsk_waitQueueWorked sound known table (State.fingerprintOf_eq prints) (State.settle_resolution _)
    (State.settle_bus _)

/-- With nothing in the ask-wait queue, the waiters are resolved at the place and the entry and its unsent ASK are gone
(R66, R70, R88). -/
theorem State.placeReceived_resolves (queue : s.resolution.waitQueue = []) :
    let t := s.placeReceived since bits f l holder
    t.now = max s.now (since + bits + 1) ∧ t.bus.line = .idle (t.now - 1) ∧ t.bus.receiver = .listening ∧
      ¬ t.bus.hasUnsentAsk a.tag f ∧
      t.resolution = { s.resolution with entries := s.resolution.entries.filter (fun e => e.tag ≠ a.tag) } ∧
      (∀ j, (s.stream j).sameWork (t.stream j) ∧
        (t.stream j).pending = (s.stream j).pending.map (fun q =>
          if (j, q.number) ∈ a.waiters then q.resolvedAs .remote l (some holder) else q)) ∧
      t.index = s.index ∧ t.staging = s.staging ∧ t.engines = s.engines ∧ t.digestQueue = s.digestQueue ∧
      t.settings = s.settings ∧ t.station = s.station := by
  intro t
  set v := (s.received since bits).resolveAll a.waiters .remote l (some holder)
  have table : v.resolution = s.resolution := State.resolveAll_resolution _ _ _ _ _
  have bus : v.bus = (s.received since bits).bus := State.resolveAll_bus _ _ _ _ _
  have streams : ∀ j, v.stream j = { s.stream j with pending := (s.stream j).pending.map (fun q =>
      if (j, q.number) ∈ a.waiters then q.resolvedAs .remote l (some holder) else q) } :=
    State.resolveAll_stream _ _ _ _ _
  have none : v.resolution.waitQueue = [] := by rw [table]; exact queue
  obtain ⟨resolution, unsent, -, pending⟩ := State.freeAsk_settle a none
  have taken : t = (v.askGone a).settle := by
    rw [← State.freeAsk_of_nil a none]
    exact State.placeReceived_taken since bits l holder sound listed print notStoring
  rw [State.freeAsk_of_nil a none, ← taken] at resolution unsent pending
  rw [table] at resolution
  have now : t.now = max s.now (since + bits + 1) := by
    rw [taken, State.settle_now]
    exact State.resolveAll_now _ _ _ _ _
  have line : t.bus.line = (s.received since bits).bus.line ∧ t.bus.receiver = (s.received since bits).bus.receiver := by
    rw [taken, State.settle_bus, ← bus]
    exact ⟨rfl, rfl⟩
  obtain ⟨line, receiver⟩ := line
  refine ⟨now, ?_, receiver, print ▸ unsent, resolution, fun j => ⟨?_, ?_⟩, ?_⟩
  · rw [now]
    exact line
  · rw [taken]
    refine Stream.sameWork.trans ?_ ((v.askGone a).settle_kept j).sameWork
    have same : (v.askGone a).stream j = v.stream j := rfl
    rw [same, streams]
    exact Stream.sameWork.of_pending _ _
  · rw [pending, streams]
  · rw [taken, State.settle_index, State.settle_staging, State.settle_engines, State.settle_digestQueue,
      State.settle_settings, State.settle_station]
    exact ⟨State.resolveAll_index _ _ _ _ _, State.resolveAll_staging _ _ _ _ _, State.resolveAll_engines _ _ _ _ _,
      State.resolveAll_digestQueue _ _ _ _ _, State.resolveAll_settings _ _ _ _ _, State.resolveAll_station _ _ _ _ _⟩

end Place

/-- Settles O37: a HAVE and a CLAIM come to the same place taken, with the holder's flag of each. -/
theorem remotePlaceResolvesWaiters : Obligations.RemotePlaceResolvesWaiters := by
  intro s sender target tag f incarnation slot ordinal holder since active sound gathering driven inRange other targets
    slots ordinals l outcome
  have each : ∀ (c : Instr) (bits : Nat) (sealedThere : Bool),
      exec c s = .next (s.placeReceived since bits f l sealedThere) → outcome c bits sealedThere := by
    intro c bits sealedThere ran
    refine ⟨fun a listed print notStoring queue => ?_, fun a listed print notStoring known => ?_, fun ignored => ?_⟩
    · exact ⟨_, ran, State.placeReceived_resolves since bits l sealedThere sound listed print notStoring queue⟩
    · exact ⟨_, ran, State.placeReceived_worksQueue since bits l sealedThere sound listed print notStoring known⟩
    · rw [State.placeReceived_ignored since bits l sealedThere ignored] at ran
      have kept := (s.received since bits).settle_kept
      refine ⟨_, ran, ?_, ?_, ?_, ?_, fun j => ⟨(kept j).sameWork, (kept j).pending⟩⟩
      · rw [State.settle_now]; rfl
      · rw [State.settle_resolution]; rfl
      · rw [State.settle_bus, State.settle_now]; rfl
      · rw [State.settle_index]; rfl
  exact ⟨each _ _ _ (execHaveReceived_eq active gathering driven inRange other slots ordinals targets holder),
    each _ _ _ (execClaimReceived_eq active gathering driven inRange other slots ordinals)⟩

end Sys2Proof.Machine
end

