-- ==== Sys2Proof/Proofs/StoringWhileFlushed.lean ====
section
/-! PROOFS. Compare B fails as a statement about every state, on the same kind of state as in FlushedWhileOpen: the flush queue
already names the stream's container while it is still OPEN with an append in flight. The chunk that turns to be stored does
not fit, so the container is seal requested FULL, but in the same step the IDLE port finds the queued flush, its range check
fails (R148) and the container is LOST, where the statement says it stays OPEN and seal requested. No run reaches such a
state, and no hypothesis of the statement excludes it. -/

namespace Sys2Proof.Machine

/-- A chunk of 256 bytes that waits for its ask entry. -/
def waitingChunk : PendingSlot :=
  { number := 0, sequence := 0, length := 256, fingerprint := some 0, phase := .waiting, disposition := none
    location := none, holderSealed := none }

/-- The ask entry of that chunk, ASKED, its timer running with both compares armed. -/
def askedEntry : AskEntry :=
  { fingerprint := 0, tag := 0, state := .asked, yielded := false, timer := .running 0 true true, found := none
    waiters := [(0, 0)], storingWaiter := none }

/-- Container 5 with no room for the chunk. -/
def fullWithAppend : Container := { openWithAppend with fill := 4194304 }

/-- A station as in FlushedWhileOpen whose stream 0 has the chunk waiting, the ask entry in use and container 5 full. -/
def storingWhileFlushed : State :=
  { flushedWhileOpen { openStream with pending := [waitingChunk] } .idle with
    containers := { ContainerManager.initial with table := [(5, fullWithAppend)] }
    resolution := { Resolution.initial with entries := [askedEntry] } }

theorem storingWhileFlushed_sound : storingWhileFlushed.askTableSound :=
  ⟨Nat.le_of_ble_eq_true rfl, List.nodup_singleton _, List.nodup_singleton _⟩

theorem fullWithAppend_hasNoRoom : ¬ fullWithAppend.hasRoom 256 := fun room => absurd room.1 (by decide)

theorem compareB_loses_container {t : State} (h : exec (.compareBExpiry 0) storingWhileFlushed = .next t) :
    (t.container 5).state = .lost := by
  obtain rfl := Host.Outcome.next.inj h
  decide +kernel

/-- Refutes O33: the container that the chunk does not fit, with an append in flight, is LOST in the step of the seal request
when the flush queue names it already and the range check fails; the statement has it OPEN and seal requested. -/
theorem not_compareBStoresOrFrees : ¬ Obligations.CompareBStoresOrFrees := by
  intro h
  obtain ⟨-, -, -, stores⟩ := h storingWhileFlushed askedEntry 0 true rfl storingWhileFlushed_sound List.mem_cons_self
    (.inl rfl) rfl
  obtain ⟨t, ran, -, -, full, -⟩ := stores (0, 0) [] waitingChunk rfl rfl
  have taken := full 5 (fun _ waits => absurd waits List.not_mem_nil) rfl fullWithAppend_hasNoRoom
  obtain ⟨stays, -⟩ := (taken rfl rfl).2 (List.cons_ne_nil _ _)
  rw [compareB_loses_container ran] at stays
  exact absurd stays (by decide)

end Sys2Proof.Machine
end

