-- ==== Sys2Proof/Proofs/FrameBytes.lean ====
section
/-! PROOFS. The layouts of R173 and their reading: the bits of a frame, gathered again, are the frame (R89, R90, R92, R94). -/

namespace Sys2Proof.Machine

/-! ## Bytes and bits -/

theorem leNat_leBytes {width x : Nat} (fits : x < 256 ^ width) : leNat (leBytes width x) = x := by
  induction width generalizing x with
  | zero => exact (Nat.lt_one_iff.1 fits).symm
  | succ n ih =>
    have rest : leNat (leBytes n (x / 256)) = x / 256 :=
      ih (Nat.div_lt_of_lt_mul (by rwa [Nat.pow_succ, Nat.mul_comm] at fits))
    rw [leBytes, leNat, rest, BitVec.toNat_ofNat]
    exact Nat.mod_add_div x 256

theorem leBytes_leNat (bytes : List Byte) : leBytes bytes.length (leNat bytes) = bytes := by
  induction bytes with
  | nil => rfl
  | cons b rest ih =>
    have low : BitVec.ofNat 8 (leNat (b :: rest)) = b := BitVec.eq_of_toNat_eq (by
      rw [BitVec.toNat_ofNat, leNat, Nat.add_mul_mod_self_left, Nat.mod_eq_of_lt b.isLt])
    have high : leNat (b :: rest) / 256 = leNat rest := by have := b.isLt; simp only [leNat]; omega
    rw [List.length_cons, leBytes, low, high, ih]

theorem byteBits_eq (b : Byte) : byteBits b =
    [b.getMsbD 0, b.getMsbD 1, b.getMsbD 2, b.getMsbD 3, b.getMsbD 4, b.getMsbD 5, b.getMsbD 6, b.getMsbD 7] := rfl

theorem byteBits_length (b : Byte) : (byteBits b).length = 8 := rfl

theorem byteOfBits_getMsbD (b : Byte) :
    byteOfBits (b.getMsbD 0) (b.getMsbD 1) (b.getMsbD 2) (b.getMsbD 3) (b.getMsbD 4) (b.getMsbD 5) (b.getMsbD 6)
      (b.getMsbD 7) = b := by
  revert b
  decide +kernel

theorem bitsOf_cons (b : Byte) (rest : List Byte) : bitsOf (b :: rest) = byteBits b ++ bitsOf rest := rfl

theorem bitsOf_length (bytes : List Byte) : (bitsOf bytes).length = 8 * bytes.length := by
  induction bytes with
  | nil => rfl
  | cons b rest ih => rw [bitsOf_cons, List.length_append, byteBits_length, ih, List.length_cons, Nat.mul_succ, Nat.add_comm]

/-- Bits gathered are the bytes that were driven (R81, R90). -/
theorem bytesOfBits_bitsOf (bytes : List Byte) : bytesOfBits (bitsOf bytes) = some bytes := by
  induction bytes with
  | nil => rfl
  | cons b rest ih =>
    rw [bitsOf_cons, byteBits_eq]
    simp only [List.cons_append, List.nil_append, bytesOfBits, ih, byteOfBits_getMsbD, Option.map_some]

/-- Bytes gathered take eight bits each (R90). -/
theorem length_of_bytesOfBits {bits : List Bool} {bytes : List Byte} (h : bytesOfBits bits = some bytes) :
    bits.length = 8 * bytes.length := by
  induction bits using bytesOfBits.induct generalizing bytes with
  | case1 => obtain rfl := Option.some.inj h; rfl
  | case2 b7 b6 b5 b4 b3 b2 b1 b0 rest ih =>
    obtain ⟨tail, gathered, rfl⟩ := Option.map_eq_some_iff.1 h
    have := ih gathered
    simp only [List.length_cons]
    omega
  | case3 bits notNil notEight =>
    rw [bytesOfBits] at h
    · cases h
    · exact notNil
    · exact notEight

theorem fingerprintBytes_length (f : Fingerprint) : (fingerprintBytes f).length = 32 := by
  rw [fingerprintBytes, List.length_reverse, leBytes_length]

/-! ## The check -/

theorem withCheck_length (body : List Byte) : (withCheck body).length = body.length + 2 := by
  rw [withCheck, List.length_append, leBytes_length]

/-- The check carried behind a body is the one computed over it (R89). -/
theorem checkAgrees_withCheck (body : List Byte) : checkAgrees (withCheck body) = true := by
  rw [checkAgrees, withCheck_length, Nat.add_sub_cancel, withCheck, frameHalf, List.drop_left, List.take_left,
    List.take_of_length_le (leBytes_length _ _).le, leNat_leBytes (frameCheck body).isLt, BitVec.ofNat_toNat,
    BitVec.setWidth_eq, beq_self_eq_true]

/-- A check that agrees is the one carried, byte for byte (R89). -/
theorem carried_of_checkAgrees {bytes : List Byte} (agrees : checkAgrees bytes = true) (two : 2 ≤ bytes.length) :
    leBytes 2 (frameCheck (bytes.take (bytes.length - 2))).toNat = bytes.drop (bytes.length - 2) := by
  have width : (bytes.drop (bytes.length - 2)).length = 2 := by rw [List.length_drop]; omega
  have fits : leNat (bytes.drop (bytes.length - 2)) < 2 ^ 16 := (leNat_lt _).trans_eq (by rw [width]; rfl)
  rw [← eq_of_beq agrees, frameHalf, List.take_of_length_le width.le, BitVec.toNat_ofNat, Nat.mod_eq_of_lt fits]
  have whole := leBytes_leNat (bytes.drop (bytes.length - 2))
  rwa [width] at whole

/-! ## The fields -/

section Fields

variable {before after : List Byte} {offset : Nat} (place : before.length = offset)
include place

theorem getD_of_place (b : Byte) : (before ++ b :: after).getD offset 0 = b := by
  subst place
  rw [List.getD_eq_getElem?_getD, List.getElem?_append_right le_rfl, Nat.sub_self]
  rfl

theorem frameHalf_of_place (x : Half) : frameHalf (before ++ (leBytes 2 x.toNat ++ after)) offset = x := by
  subst place
  rw [frameHalf, List.drop_left, List.take_left' (leBytes_length _ _), leNat_leBytes x.isLt, BitVec.ofNat_toNat,
    BitVec.setWidth_eq]

theorem frameFingerprint_of_place (f : Fingerprint) :
    frameFingerprint (before ++ (fingerprintBytes f ++ after)) offset = f := by
  subst place
  rw [frameFingerprint, List.drop_left, List.take_left' (fingerprintBytes_length f), fingerprintOf, fingerprintBytes,
    List.reverse_reverse, leNat_leBytes f.isLt, BitVec.ofNat_toNat, BitVec.setWidth_eq]

end Fields

theorem flagByte_eq_ofNat (b : Bool) : flagByte b = BitVec.ofNat 8 b.toNat := by
  cases b <;> rfl

/-! ## The layouts of R173 -/

/-- What a HAVE and a CLAIM have in common behind their header: the fingerprint, the place and the holder byte (R173). -/
def locationBytes (f : Fingerprint) (incarnation slot ordinal : Half) (holder : Byte) : List Byte :=
  fingerprintBytes f ++ (leBytes 2 incarnation.toNat ++ (leBytes 2 slot.toNat ++ (leBytes 2 ordinal.toNat ++ [holder])))

section Layouts

variable (sender target tag : Byte) (f : Fingerprint) (incarnation slot ordinal : Half)

theorem locationBytes_length (holder : Byte) : (locationBytes f incarnation slot ordinal holder).length = 39 := by
  simp only [locationBytes, List.length_append, fingerprintBytes_length, leBytes_length, List.length_singleton]

/-- Each field of the common part is read where it stands. -/
theorem locationFields {before : List Byte} {offset : Nat} (place : before.length = offset) (holder : Byte)
    (after : List Byte) : let bytes := before ++ (locationBytes f incarnation slot ordinal holder ++ after)
    frameFingerprint bytes offset = f ∧ frameHalf bytes (offset + 32) = incarnation ∧
      frameHalf bytes (offset + 34) = slot ∧ frameHalf bytes (offset + 36) = ordinal ∧
      bytes.getD (offset + 38) 0 = holder := by
  subst place
  simp only [locationBytes, List.append_assoc]
  refine ⟨frameFingerprint_of_place rfl f, ?_, ?_, ?_, ?_⟩
  · rw [← List.append_assoc before]
    exact frameHalf_of_place (by simp only [List.length_append, fingerprintBytes_length]) _
  · rw [← List.append_assoc before, ← List.append_assoc (before ++ _)]
    exact frameHalf_of_place (by simp only [List.length_append, fingerprintBytes_length, leBytes_length]) _
  · rw [← List.append_assoc before, ← List.append_assoc (before ++ _), ← List.append_assoc (before ++ _ ++ _)]
    exact frameHalf_of_place (by simp only [List.length_append, fingerprintBytes_length, leBytes_length]) _
  · rw [← List.append_assoc before, ← List.append_assoc (before ++ _), ← List.append_assoc (before ++ _ ++ _),
      ← List.append_assoc (before ++ _ ++ _ ++ _)]
    exact getD_of_place (by simp only [List.length_append, fingerprintBytes_length, leBytes_length]) _

theorem Frame.bytes_ask : (Frame.ask tag f).bytes sender = withCheck ([1#8, sender, tag] ++ fingerprintBytes f) := rfl

theorem Frame.bytes_holds (holder : Bool) :
    (Frame.holds target tag f incarnation slot.toNat ordinal.toNat holder).bytes sender =
      withCheck ([2#8, sender, target, tag] ++ locationBytes f incarnation slot ordinal (flagByte holder)) := by
  simp only [Frame.bytes, Frame.body, locationBytes, List.append_assoc]

theorem Frame.bytes_claim : (Frame.claim f incarnation slot.toNat ordinal.toNat).bytes sender =
    withCheck ([3#8, sender] ++ locationBytes f incarnation slot ordinal 0#8) := by
  simp only [Frame.bytes, Frame.body, locationBytes, List.append_assoc]

/-- The place and the holder byte are the consecutive fields of R173. -/
theorem locationBytes_eq_fieldBytes (holder : Bool) : locationBytes f incarnation slot ordinal (flagByte holder) =
    fingerprintBytes f ++
      fieldBytes [(2, incarnation.toNat), (2, slot.toNat), (2, ordinal.toNat), (1, holder.toNat)] := by
  rw [locationBytes, flagByte_eq_ofNat]
  rfl

/-! ### The fields read back -/

theorem readFrame_ask : readFrame (withCheck ([1#8, sender, tag] ++ fingerprintBytes f)) =
    some (.ask sender tag f) := by
  set bytes := withCheck ([1#8, sender, tag] ++ fingerprintBytes f) with sent
  have whole : bytes.length = 37 := by
    rw [sent, withCheck_length, List.length_append, fingerprintBytes_length]
    rfl
  rw [withCheck, List.append_assoc] at sent
  have print : frameFingerprint bytes 3 = f := by
    rw [sent]
    exact frameFingerprint_of_place rfl f
  rw [readFrame, whole, print, sent]
  rfl

theorem readFrame_holds (holder : Byte) :
    readFrame (withCheck ([2#8, sender, target, tag] ++ locationBytes f incarnation slot ordinal holder)) =
      some (.holds sender target tag f incarnation slot ordinal holder) := by
  set bytes := withCheck ([2#8, sender, target, tag] ++ locationBytes f incarnation slot ordinal holder) with sent
  have whole : bytes.length = 45 := by
    rw [sent, withCheck_length, List.length_append, locationBytes_length]
    rfl
  rw [withCheck, List.append_assoc] at sent
  obtain ⟨print, incarnations, slots, ordinals, holders⟩ :=
    sent ▸ locationFields f incarnation slot ordinal (before := [2#8, sender, target, tag]) (offset := 4) rfl holder _
  rw [readFrame, whole, print, incarnations, slots, ordinals, holders, sent]
  rfl

theorem readFrame_claim (holder : Byte) :
    readFrame (withCheck ([3#8, sender] ++ locationBytes f incarnation slot ordinal holder)) =
      some (.claim sender f incarnation slot ordinal holder) := by
  set bytes := withCheck ([3#8, sender] ++ locationBytes f incarnation slot ordinal holder) with sent
  have whole : bytes.length = 43 := by
    rw [sent, withCheck_length, List.length_append, locationBytes_length]
    rfl
  rw [withCheck, List.append_assoc] at sent
  obtain ⟨print, incarnations, slots, ordinals, holders⟩ :=
    sent ▸ locationFields f incarnation slot ordinal (before := [3#8, sender]) (offset := 2) rfl holder _
  rw [readFrame, whole, print, incarnations, slots, ordinals, holders, sent]
  rfl

end Layouts

/-! ## Candidates -/

/-- A frame is read only when its length and its kind byte agree (R92, step 1). -/
theorem kind_of_readFrame {bytes : List Byte} {r : Received} (read : readFrame bytes = some r) :
    (bytes.getD 0 0 = 1#8 ∧ bytes.length = 37 ∧ r.bitCount = 296) ∨
      (bytes.getD 0 0 = 2#8 ∧ bytes.length = 45 ∧ r.bitCount = 360) ∨
      (bytes.getD 0 0 = 3#8 ∧ bytes.length = 43 ∧ r.bitCount = 344) := by
  simp only [readFrame] at read
  split at read
  next ask =>
    obtain ⟨length, kind⟩ := ask
    obtain rfl := Option.some.inj read
    exact .inl ⟨kind, length, rfl⟩
  split at read
  next holds =>
    obtain ⟨length, kind⟩ := holds
    obtain rfl := Option.some.inj read
    exact .inr (.inl ⟨kind, length, rfl⟩)
  split at read
  next claim =>
    obtain ⟨length, kind⟩ := claim
    obtain rfl := Option.some.inj read
    exact .inr (.inr ⟨kind, length, rfl⟩)
  cases read

/-- A candidate is a frame only when its bits are whole bytes, the carried check agrees and the bytes are those of a kind
(R90, R92). -/
theorem candidateOf_eq_some {bits : List Bool} {r : Received} : candidateOf bits = some r ↔
    ∃ bytes, bytesOfBits bits = some bytes ∧ checkAgrees bytes = true ∧ readFrame bytes = some r := by
  simp only [candidateOf]
  split
  next bytes gathered => simp [gathered]
  next gathered => simp [gathered]

/-- The bits of a checked body are taken as the frame the body spells. -/
theorem execCandidateFrame_sent {body : List Byte} {r : Received} (read : readFrame (withCheck body) = some r) (s : State) :
    exec (.candidateFrame (bitsOf (withCheck body))) s = .next (s.frameEnds r r.bitCount) := by
  have taken : candidateOf (bitsOf (withCheck body)) = some r :=
    candidateOf_eq_some.2 ⟨_, bytesOfBits_bitsOf _, checkAgrees_withCheck body, read⟩
  have length : (bitsOf (withCheck body)).length = r.bitCount := by
    rw [bitsOf_length]
    rcases kind_of_readFrame read with ⟨-, whole, count⟩ | ⟨-, whole, count⟩ | ⟨-, whole, count⟩ <;> rw [whole, count]
  simp only [exec, execCandidateFrame, taken, length]

/-- Settles O38: every kind's bytes are a checked body, whose fields are read back where R173 puts them. -/
theorem sentFramesAreReceived : Obligations.SentFramesAreReceived := by
  intro s sender target tag f incarnation slot ordinal holder checked
  refine ⟨Frame.bytes_ask sender tag f, ?_, ?_, ?_, ?_, ?_⟩
  · rw [Frame.bytes_holds, locationBytes_eq_fieldBytes, ← List.append_assoc]
    rfl
  · rw [Frame.bytes_claim]
    exact congrArg (fun location => withCheck ([3#8, sender] ++ location))
      (locationBytes_eq_fieldBytes f incarnation slot ordinal false)
  · rw [Frame.bytes_ask]
    exact execCandidateFrame_sent (readFrame_ask sender tag f) s
  · rw [Frame.bytes_holds]
    exact execCandidateFrame_sent (readFrame_holds sender target tag f incarnation slot ordinal (flagByte holder)) s
  · rw [Frame.bytes_claim]
    exact execCandidateFrame_sent (readFrame_claim sender f incarnation slot ordinal 0#8) s

end Sys2Proof.Machine
end

