-- ==== Sys2Proof/Proofs/FramesDropped.lean ====
section
/-! PROOFS. Frames that begin, candidates that are no frame, fields out of range and the clash of station numbers (R90 to R92). -/

namespace Sys2Proof.Machine

/-! ## Frames begin -/

/-- The gap since the station began to watch the line is seen once the gap of the line itself has been waited for (R90, R91). -/
theorem PeerBus.seesGap_of_waited {b : PeerBus} {since moment : Nat} (waited : since + 25 ≤ moment) :
    b.seesGap since moment = decide (b.watchedSince + 25 ≤ moment) := by
  simp only [PeerBus.seesGap, idleGap, microseconds]
  congr 1
  exact propext (by omega)

/-- On an idle line a frame begins after the gap, and the receiver gathers if it listens and has seen the gap (R90, R91). -/
theorem execFrameBegins_idle {s : State} {since : Nat} (idle : s.bus.line = .idle since) :
    exec .frameBegins s = .next { s with
      now := max s.now (since + 25)
      bus := { s.bus with
        line := .driven (max s.now (since + 25))
        receiver := if (s.active && decide (s.bus.watchedSince + 25 ≤ max s.now (since + 25))) && s.bus.quiet
          then .gathering else s.bus.receiver } } := by
  rw [← PeerBus.seesGap_of_waited (le_max_right _ _), Bool.and_right_comm]
  simp only [exec, execFrameBegins, idle]
  rfl

theorem execFrameBegins_driven {s : State} {since : Nat} (driven : s.bus.line = .driven since) :
    exec .frameBegins s = .next s := by
  simp only [exec, execFrameBegins, driven]

/-! ## Frames dropped -/

theorem execCandidateFrame_dropped {s : State} {since : Nat} {bits : List Bool} (driven : s.bus.line = .driven since)
    (none : candidateOf bits = none) : exec (.candidateFrame bits) s = .next (s.received since bits.length) := by
  simp only [exec, execCandidateFrame, none, State.endReception_driven driven]

/-- Bits of no frame's length are no frame (R92, step 1). -/
theorem candidateOf_of_length {bits : List Bool} (length : bits.length ≠ 296 ∧ bits.length ≠ 344 ∧ bits.length ≠ 360) :
    candidateOf bits = none := by
  refine Option.eq_none_iff_forall_ne_some.2 (fun r taken => ?_)
  obtain ⟨bytes, gathered, -, read⟩ := candidateOf_eq_some.1 taken
  have eight := length_of_bytesOfBits gathered
  have kind := kind_of_readFrame read
  omega

/-- Bytes whose last two are not the check over the others are no frame (R92, step 2). -/
theorem candidateOf_of_check {bytes : List Byte} (two : 2 ≤ bytes.length)
    (wrong : leBytes 2 (frameCheck (bytes.take (bytes.length - 2))).toNat ≠ bytes.drop (bytes.length - 2)) :
    candidateOf (bitsOf bytes) = none := by
  refine Option.eq_none_iff_forall_ne_some.2 (fun r taken => ?_)
  obtain ⟨gathered, same, agrees, -⟩ := candidateOf_eq_some.1 taken
  obtain rfl := Option.some.inj ((bytesOfBits_bitsOf bytes).symm.trans same)
  exact wrong (carried_of_checkAgrees agrees two)

/-- Bytes whose first does not name the kind of their length are no frame (R92, step 1). -/
theorem candidateOf_of_kind {kind : Byte} {bytes : List Byte} (ask : ¬ (kind = 1#8 ∧ bytes.length = 36))
    (holds : ¬ (kind = 2#8 ∧ bytes.length = 44)) (claim : ¬ (kind = 3#8 ∧ bytes.length = 42)) :
    candidateOf (bitsOf (kind :: bytes)) = none := by
  refine Option.eq_none_iff_forall_ne_some.2 (fun r taken => ?_)
  obtain ⟨gathered, same, -, read⟩ := candidateOf_eq_some.1 taken
  obtain rfl := Option.some.inj ((bytesOfBits_bitsOf _).symm.trans same)
  rcases kind_of_readFrame read with ⟨first, length, -⟩ | ⟨first, length, -⟩ | ⟨first, length, -⟩
  · exact ask ⟨first, Nat.succ.inj length⟩
  · exact holds ⟨first, Nat.succ.inj length⟩
  · exact claim ⟨first, Nat.succ.inj length⟩

/-- A frame with a field out of range only ends its transmission (R92, step 3). -/
theorem State.frameEnds_outOfRange {s : State} {since : Nat} {r : Received} (driven : s.bus.line = .driven since)
    (outOfRange : r.inRange = false) (bits : Nat) : s.frameEnds r bits = s.received since bits := by
  simp only [State.frameEnds, State.receive, outOfRange, State.endReception_driven driven, Bool.not_false, if_true,
    ite_self]

/-! ## The clash -/

/-- A frame in range in this station's own name latches STATION_CLASH (R92, step 4). -/
theorem State.frameEnds_clash {s : State} {since : Nat} {r : Received} (active : s.active = true)
    (gathering : s.bus.receiver = .gathering) (driven : s.bus.line = .driven since) (inRange : r.inRange = true)
    (own : r.sender = s.settings.station) (bits : Nat) :
    s.frameEnds r bits = ((s.received since bits).latch .stationClash).refresh := by
  have own' : r.sender = (s.received since bits).settings.station := own
  simp only [State.frameEnds, active, gathering, decide_true, Bool.and_self, if_true, State.endReception_driven driven,
    State.receive, inRange, Bool.not_true, Bool.false_eq_true, if_false, if_pos own']

/-- A refresh keeps each of the latched flags (R168). -/
theorem State.refresh_latched_of_mask (s : State) {m : Byte} (inside : 0x1F#8 &&& m = m) :
    s.refresh.management.flags &&& m = s.management.flags &&& m := by
  rw [← inside, ← BitVec.and_assoc, ← BitVec.and_assoc, State.refresh_latched]

/-- Latching a flag and refreshing sets that flag and changes no other latched one (R168). -/
theorem State.latch_refresh_flags (s : State) (f : EventFlag) {others : Byte} (latched : 0x1F#8 &&& f.mask = f.mask)
    (inside : 0x1F#8 &&& others = others) (apart : f.mask &&& others = 0#8) :
    (s.latch f).refresh.management.flags &&& f.mask = f.mask ∧
      (s.latch f).refresh.management.flags &&& others = s.management.flags &&& others := by
  rw [State.refresh_latched_of_mask _ latched, State.refresh_latched_of_mask _ inside, State.latch_flags]
  constructor
  · ext i
    simp +contextual
  · rw [BitVec.and_or_distrib_right, apart, BitVec.or_zero]

/-- A clash changes nothing beyond the end of the reception but the flag and the outputs that follow the flags (R92, R168). -/
theorem State.frameEnds_clash_changes {s : State} {since : Nat} {r : Received} (active : s.active = true)
    (gathering : s.bus.receiver = .gathering) (driven : s.bus.line = .driven since) (inRange : r.inRange = true)
    (own : r.sender = s.settings.station) (bits : Nat) :
    let t := s.frameEnds r bits
    t.management.flags &&& 0x02#8 = 0x02#8 ∧ t.management.flags &&& 0x1D#8 = s.management.flags &&& 0x1D#8 ∧
      t = { s.received since bits with
        quiet := t.quiet
        management := { s.management with flags := t.management.flags, attn := t.management.attn } } := by
  intro t
  obtain ⟨clash, others⟩ := (s.received since bits).latch_refresh_flags .stationClash (others := 0x1D#8) rfl rfl rfl
  rw [← State.frameEnds_clash active gathering driven inRange own bits] at clash others
  refine ⟨clash, others, ?_⟩
  simp only [t, State.frameEnds_clash active gathering driven inRange own bits]
  rfl

/-- Settles O39: a broken candidate contradicts what a frame must have (`candidateOf_eq_some`), and of a whole frame the range
of its fields and the name of its sender decide (R92). -/
theorem framesBeginAndBrokenOnesEnd : Obligations.FramesBeginAndBrokenOnesEnd := by
  intro s since bits sender target tag f incarnation slot ordinal holder started dropped
  refine ⟨fun idle => ?_, execFrameBegins_driven, fun driven broken => ?_, fun driven => ⟨fun range => ?_, fun range => ?_,
    fun range => ?_⟩, fun driven active gathering ownRange => ?_⟩
  · rw [execFrameBegins_idle idle]
    cases s.active && decide (s.bus.watchedSince + 25 ≤ max s.now (since + 25)) with
    | false => rfl
    | true => cases transmitter : s.bus.transmitter <;> simp only [PeerBus.quiet, transmitter] <;> rfl
  · refine execCandidateFrame_dropped driven ?_
    rcases broken with length | ⟨bytes, rfl, two, wrong⟩ | ⟨kind, bytes, rfl, ask, holds, claim⟩
    · exact candidateOf_of_length length
    · exact candidateOf_of_check two wrong
    · exact candidateOf_of_kind ask holds claim
  · exact congrArg Host.Outcome.next (State.frameEnds_outOfRange (r := .ask sender tag f) driven
      (decide_eq_false (Nat.not_le.2 range)) 296)
  · refine congrArg Host.Outcome.next (State.frameEnds_outOfRange driven ?_ 360)
    simp only [Received.inRange, Bool.and_eq_false_iff, decide_eq_false_iff_not, Nat.not_le, or_assoc]
    exact range
  · refine congrArg Host.Outcome.next (State.frameEnds_outOfRange driven ?_ 344)
    simp only [Received.inRange, Bool.and_eq_false_iff, decide_eq_false_iff_not, Nat.not_le, or_assoc,
      beq_eq_false_iff_ne]
    exact range.imp_right (Or.imp_right (Or.imp_right (BitVec.toNat_ne_iff_ne (y := 0#8)).2))
  · intro own places c n frame
    obtain ⟨r, ran, inRange, ownName⟩ : ∃ r : Received, exec c s = .next (s.frameEnds r n) ∧ r.inRange = true ∧
        r.sender = s.settings.station := by
      rcases frame with ⟨rfl, rfl⟩ | ⟨rfl, rfl, targets, ⟨slots, ordinals⟩, holders⟩ | ⟨rfl, rfl, ⟨slots, ordinals⟩, rfl⟩
      · exact ⟨.ask own tag f, rfl, decide_eq_true ownRange, rfl⟩
      · exact ⟨.holds own target tag f incarnation slot ordinal holder, rfl,
          by simp [Received.inRange, own, ownRange, targets, slots, ordinals, holders], rfl⟩
      · exact ⟨.claim own f incarnation slot ordinal 0#8, rfl,
          by simp [Received.inRange, own, ownRange, slots, ordinals], rfl⟩
    exact ⟨_, ran, State.frameEnds_clash_changes active gathering driven inRange ownName n⟩

end Sys2Proof.Machine
end

