-- ==== Sys2Proof/Proofs/SettleValues.lean ====
section
/-! PROOFS. The settle value of a CHUNK record at issue (R108). -/

namespace Sys2Proof.Machine

section Settle

variable {s : State} {q : PendingSlot} {l : Location} (located : q.location = some l)

theorem State.settleOf_remote (remote : q.disposition = some .remote) :
    s.settleOf q = if q.holderSealed = some true then .settled else .holderPending := if_pos remote

/-! A local chunk, whose location stands, settles by its container. -/

variable (notRemote : q.disposition ≠ some .remote)
include located notRemote

theorem State.settleOf_sealed (isSealed : (s.container l.slot).state = .sealed) : s.settleOf q = .settled := by
  simp only [State.settleOf, if_neg notRemote, located, isSealed]

theorem State.settleOf_lost (lost : (s.container l.slot).state = .lost) : s.settleOf q = .lost := by
  simp only [State.settleOf, if_neg notRemote, located, lost]

theorem State.settleOf_unsealed (live : (s.container l.slot).state = .opened ∨ (s.container l.slot).state = .seals) :
    s.settleOf q =
      if s.sealUnit.inProgress ≠ none ∧ (s.container l.slot).round = s.sealUnit.inProgress then
        .byRound ((s.container l.slot).round.getD 0)
      else .byRound (nextRound s.sealUnit.counter) := by
  rcases live with opened | seals
  · simp only [State.settleOf, if_neg notRemote, located, opened]
  · simp only [State.settleOf, if_neg notRemote, located, seals]

end Settle

/-- Settles O45: a REMOTE chunk by the holder sealed flag, a local one by the state of its container, and while that is OPEN or
SEALING by its membership in the round in progress. -/
theorem settleFollowsTheContainer : Obligations.SettleFollowsTheContainer := by
  intro s q l located c local' after
  have notRemote : local' → q.disposition ≠ some .remote := by
    rintro (new | dup)
    · rw [new]; decide
    · rw [dup]; decide
  refine ⟨fun remote isSealed => ?_, fun remote unsealed => ?_,
    fun here => State.settleOf_sealed located (notRemote here), fun here => State.settleOf_lost located (notRemote here),
    fun here live r inProgress member => ?_, fun here live outside => ?_⟩
  · rw [State.settleOf_remote remote, isSealed]
    rfl
  · rw [State.settleOf_remote remote, unsealed]
    rfl
  · rw [State.settleOf_unsealed located (notRemote here) live, inProgress, if_pos ⟨Option.some_ne_none r, member⟩, member]
    rfl
  · rw [State.settleOf_unsealed located (notRemote here) live, if_neg]
    · rfl
    · exact fun ⟨running, member⟩ => outside.elim running (fun other => other member)

end Sys2Proof.Machine
end

