-- ==== Sys2Proof/Proofs/PulseRounds.lean ====
section
/-! PROOFS. A pulse detected on the seal line, and the round that it asks for (R137 to R140). -/

namespace Sys2Proof.Machine

/-- The station once a pulse is detected, before its round: the timer restarts in DRIVE (R137). -/
def State.pulsed (s : State) (since : Nat) : State :=
  { s with
    now := max s.now (since + 125)
    sealUnit := { s.sealUnit with
      detect := .lowDetected
      timer := if s.sealUnit.mode = .drive then some (max s.now (since + 125)) else s.sealUnit.timer } }

section Pulse

variable {s : State} {since : Nat} (active : s.active = true) (low : s.sealUnit.detect = .lowUndetected since)
include active low

theorem execPulseDetected_eq : exec .pulseDetected s =
    .next (if s.sealUnit.mode = .off then s.pulsed since else (s.pulsed since).askRound.settle) := by
  simp only [exec, execPulseDetected, active, low]
  rfl

end Pulse

/-- What the round of a pulse leaves of the rest of the station. -/
theorem State.pulsed_same (s : State) (since : Nat) : let t := (s.pulsed since).askRound.settle
    t.now = max s.now (since + 125) ∧ t.bus = s.bus ∧ t.index = s.index ∧ t.resolution = s.resolution ∧
      t.engines = s.engines ∧ t.staging = s.staging ∧ t.settings = s.settings ∧ t.station = s.station := by
  simp only [State.settle_now, State.settle_bus, State.settle_index, State.settle_resolution, State.settle_engines,
    State.settle_staging, State.settle_settings, State.settle_station, State.askRound_now, State.askRound_bus,
    State.askRound_index, State.askRound_resolution, State.askRound_engines, State.askRound_staging,
    State.askRound_settings, State.askRound_station]
  exact ⟨rfl, rfl, rfl, rfl, rfl, rfl, rfl, rfl⟩

/-- Settles O43: the round that a pulse asks for is the one `State.askRound_settle` speaks of. -/
theorem pulseMakesARound : Obligations.PulseMakesARound := by
  intro s since active low moment u
  refine ⟨fun off => ?_, fun on => ?_⟩
  · rw [execPulseDetected_eq active low, if_pos off]
    rfl
  · rw [execPulseDetected_eq active low, if_neg on]
    obtain ⟨now, bus, index, resolution, engines, staging, settings, station⟩ := s.pulsed_same since
    have kept : s.StreamsKept (s.pulsed since).askRound.settle :=
      .before rfl ((s.pulsed since).askRound_kept.trans (State.settle_kept _))
    exact ⟨_, rfl, now, (s.pulsed since).askRound_settle.of_same rfl rfl rfl rfl rfl id, bus, index, resolution, engines,
      staging, settings, station, fun j => ⟨(kept j).sameWork, (kept j).pending⟩⟩

end Sys2Proof.Machine
end

