-- ==== Sys2Proof/Proofs/RecipeTaken.lean ====
section
/-! PROOFS. RECIPE_TAKEN (R110): the clamp, and the record that the emitter then hands to the port (R105 to R107, R111, R113,
R145, R151, R174, R175). -/

namespace Sys2Proof.Machine

/-! ## What the end of a step puts out -/

/-- What has been put out stands, with more behind it (log entry 5). -/
def State.PutsOut (s t : State) : Prop := ∃ more, t.sent = s.sent ++ more

theorem State.PutsOut.of_eq {s t : State} (h : t.sent = s.sent) : s.PutsOut t := ⟨[], by rw [h, List.append_nil]⟩

theorem State.PutsOut.before {s t u : State} (e : t.sent = s.sent) (h : t.PutsOut u) : s.PutsOut u := by
  obtain ⟨more, sent⟩ := h
  exact ⟨more, by rw [sent, e]⟩

theorem State.arbitrate_putsOut (s : State) (n : Nat) : s.PutsOut (s.arbitrate n) := by
  induction n generalizing s with
  | zero => exact .of_eq rfl
  | succ n ih =>
    simp only [State.arbitrate]
    split
    · exact ⟨[_], rfl⟩
    · split
      · exact ⟨[_], rfl⟩
      · split
        · split
          · exact ⟨[_], rfl⟩
          · exact .before (State.refuseFlush_sent _ _ _) (ih _)
        · exact .of_eq rfl

theorem State.takeHandedOver_putsOut (s : State) (n : Nat) : s.PutsOut (s.takeHandedOver n) := by
  induction n generalizing s with
  | zero => exact .of_eq rfl
  | succ n ih =>
    simp only [State.takeHandedOver]
    split
    · split
      · exact ⟨[_], rfl⟩
      · split
        · exact ⟨[_], rfl⟩
        · exact .before (State.refuseFlush_sent { s with choices := s.choices + 1 } _ _) (ih _)
    · split
      · exact ⟨[_], rfl⟩
      · exact .before (State.refuseFlush_sent _ _ _) (ih _)
    · exact s.arbitrate_putsOut _

theorem State.lookAtPort_putsOut (s : State) : s.PutsOut s.lookAtPort := by
  simp only [State.lookAtPort]
  split
  · exact s.takeHandedOver_putsOut _
  · exact .of_eq rfl

theorem State.settle_putsOut (s : State) : s.PutsOut s.settle := by
  obtain ⟨more, sent⟩ := s.serveOpenWait.emitRecords.lookAtPort_putsOut
  refine ⟨more, ?_⟩
  simpa [State.settle] using sent

/-! ## A step in which no container is opened, no report made and no range check fails -/

section Still

variable {s : State} (openWait : s.containers.openWait = []) (fresh : s.management.fresh = [])
include openWait fresh

theorem State.settle_of_still (clear : s.FlushesClear) : s.settle = s.emitRecords.lookAtPort.refresh := by
  have management := State.looked_management_of_clear clear
  rw [State.looked, State.serveOpenWait_of_nil openWait] at management
  rw [State.settle, State.serveOpenWait_of_nil openWait, State.placeReports_of_none (by rw [management]; exact fresh)]

theorem State.settle_stream_of_still (clear : s.FlushesClear) (j : Fin 16) : s.settle.stream j = (s.stream j).emitted := by
  have streams := State.looked_streams_of_clear clear
  rw [State.looked, State.serveOpenWait_of_nil openWait] at streams
  rw [State.settle_of_still openWait fresh clear, State.stream_of_streams (State.refresh_streams _),
    State.stream_of_streams streams, State.emitRecords_stream]

end Still

/-! ## The port's look when one record at most is due -/

theorem State.emitRecords_of_only {s : State} {i : Fin 16} (others : ∀ j, j ≠ i → (s.stream j).dueRecord = none) :
    s.emitRecords = s.issueRecord i := by
  by_cases undue : (s.stream i).dueRecord = none
  · have none : (List.finRange 16).filter (fun j => (s.stream j).dueRecord ≠ none) = [] :=
      List.filter_eq_nil_iff.2 (fun j _ => by
        by_cases here : j = i
        · simp [here, undue]
        · simp [others j here])
    simp only [State.emitRecords, none, State.anyOrder, State.issueRecord, undue]
    rfl
  · have one : (List.finRange 16).filter (fun j => (s.stream j).dueRecord ≠ none) = [i] := by
      rw [List.filter_congr (q := fun j => j == i) (fun j _ => ?_), List.filter_beq, 
        List.count_eq_one_of_mem (List.nodup_finRange 16) (List.mem_finRange i)]
      · rfl
      · by_cases here : j = i
        · simp [here, undue]
        · simp [others j here, here]
    simp only [State.emitRecords, one, State.anyOrder]
    rfl

theorem State.issueRecord_of_none {s : State} {i : Fin 16} (undue : (s.stream i).dueRecord = none) : s.issueRecord i = s := by
  simp only [State.issueRecord, undue]

/-- The write that carries a stream's next record of a kind to its place in the ring (R105, R145). -/
def State.recordWrite (s : State) (i : Fin 16) (kind : RecordKind) : RecipeWrite :=
  { stream := i, kind := kind, number := (s.stream i).written, address := BitVec.ofNat 32 (s.stream i).recordAddress
    bytes := s.recordBytes (s.stream i) kind }

theorem State.recipeTransaction_recordWrite {s : State} {i : Fin 16} {kind : RecordKind}
    (fits : (s.stream i).recordAddress < 4294967296) : recipeTransaction (s.recordWrite i kind) =
      [1#8, 0#8, 0#8, 0#8] ++ leBytes 4 (s.stream i).recordAddress ++ s.recordBytes (s.stream i) kind := by
  simp only [recipeTransaction, State.recordWrite, BitVec.toNat_ofNat, Nat.mod_eq_of_lt fits]

/-- The record due goes to the tail of the recipe write queue (R106, R145). -/
theorem State.issueRecord_of_some {s : State} {i : Fin 16} {kind : RecordKind} (due : (s.stream i).dueRecord = some kind)
    (fits : (s.stream i).recordAddress < 4294967296) : s.issueRecord i =
      ({ s with store := { s.store with recipeQueue := s.store.recipeQueue ++ [s.recordWrite i kind] } } : State).modStream i
        (fun y => y.issued kind) := by
  simp only [State.issueRecord, due, State.addressWord, if_pos fits]
  rfl

section Port

variable {s : State} (flushes : s.store.flushQueue = []) (inactive : s.store.active = none)
include flushes inactive

/-- A port finds nothing to take. -/
theorem State.lookAtPort_of_nil (writes : s.store.recipeQueue = []) : s.lookAtPort = s := by
  simp only [State.lookAtPort, State.looks, State.takeHandedOver, State.arbitrate, State.dueBurst, flushes, inactive, writes,
    Option.filter_none, ite_self]

/-- An IDLE port takes the one recipe write at once (R145, R151). -/
theorem State.lookAtPort_of_one (idle : s.store.port = .idle) {w : RecipeWrite} (writes : s.store.recipeQueue = [w]) :
    s.lookAtPort = s.issueRecipe w [] := by
  simp only [State.lookAtPort, State.looks, State.takeHandedOver, State.arbitrate, State.dueBurst, flushes, inactive, writes,
    Option.filter_none, if_pos idle]

end Port

theorem State.lookAtPort_of_busy {s : State} (busy : s.store.port ≠ .idle) : s.lookAtPort = s := if_neg busy

/-! ## The record's bytes -/

theorem settleFields_code (x : Settle) : BitVec.ofNat 8 (settleFields x).1 = x.code := by cases x <;> rfl

theorem settleFields_round (x : Settle) : (settleFields x).2 = x.round.toNat := by cases x <;> rfl

theorem leBytes_zero (n : Nat) : leBytes n 0 = unused n := by
  induction n with
  | zero => rfl
  | succ n ih => exact congrArg (0#8 :: ·) ih

/-- The bytes of the record due are those of its layout (R107, R111, R113, R174). -/
theorem State.recordBytes_content {s : State} {x : Stream} {kind : RecordKind} :
    s.recordContent x kind (s.recordBytes x kind) := by
  cases kind with
  | mark =>
    intro m owed
    have status : m.status.code = BitVec.ofNat 8 (if m.status = .clean then 0 else 1) := by cases m.status <;> rfl
    simp [State.recordBytes, owed, markRecord, status, fieldBytes, leBytes_one, leBytes_zero]
  | chunk =>
    intro q rest d l f pending disposition location fingerprint recorded
    have code : d.code = BitVec.ofNat 8 (if d = .localNew then 1 else if d = .localDup then 2 else 3) := by
      rcases recorded with rfl | rfl | rfl <;> rfl
    simp [State.recordBytes, pending, disposition, location, fingerprint, chunkRecord, code, fieldBytes, leBytes_one,
      leBytes_zero, settleFields_code, settleFields_round]
  | last => simp [State.recordContent, State.recordBytes, endRecord, fieldBytes, leBytes_one, leBytes_zero]

theorem Stream.dueRecord_eq_none_iff (x : Stream) : x.dueRecord = none ↔ ∀ kind, ¬ x.recordDue kind := by
  simp only [Option.eq_none_iff_forall_ne_some, ne_eq, Stream.dueRecord_eq_some_iff]

/-! ## RECIPE_TAKEN -/

theorem Stream.takenAfter_toNat (x : Stream) (count : Word) :
    (x.takenAfter count).toNat = min (x.taken.toNat + count.toNat) x.written.toNat := by
  have bound := x.written.isLt
  simp only [Stream.takenAfter]
  split
  next below =>
    rw [BitVec.toNat_add, Nat.mod_eq_of_lt (by omega)]
    omega
  next => omega

/-- Stream `i` with records taken raised by a count. -/
def State.tookRecords (s : State) (i : Fin 16) (count : Word) : Stream :=
  { s.stream i with taken := (s.stream i).takenAfter count }

/-- The station once records taken are raised and the value is answered, before the emitter looks (R110). -/
def State.recipeTook (s : State) (i : Fin 16) (count : Word) : State :=
  (s.setStream i (s.tookRecords i count)).answer .ok (leBytes 4 ((s.stream i).takenAfter count).toNat)

section Taken

variable {s : State} (i : Fin 16) (count : Word)

theorem execRecipeTaken_range {stream : Byte} (active : s.active = true) (above : 16 ≤ stream.toNat) :
    exec (.recipeTaken stream count) s = .next { s with sent := s.sent ++ [.management [3#8]] } := by
  simp only [exec, execRecipeTaken, State.commandGate_active active, streamOf_none above]
  rfl

theorem execRecipeTaken_eq (active : s.active = true) :
    exec (.recipeTaken (streamByte i) count) s = .next (s.recipeTook i count).settle := by
  simp only [exec, execRecipeTaken, State.commandGate_active active, streamOf_streamByte]
  rfl

theorem State.recipeTook_stream_same : (s.recipeTook i count).stream i = s.tookRecords i count :=
  s.stream_setStream_same i _

theorem State.recipeTook_stream_other {j : Fin 16} (other : j ≠ i) : (s.recipeTook i count).stream j = s.stream j :=
  (s.stream_setStream i j _).trans (if_neg other)

theorem State.recipeTook_sent : (s.recipeTook i count).sent =
    s.sent ++ [.management (0#8 :: leBytes 4 ((s.stream i).takenAfter count).toNat)] := rfl

end Taken

/-! ## The emitter's one record, and the port -/

/-- A port at work, or an IDLE one with nothing to do. -/
def StorePort.workingOrClear (p : StorePort) : Prop :=
  p.port ≠ .idle ∨ (p.recipeQueue = [] ∧ p.flushQueue = [] ∧ p.active = none)

theorem StorePort.workingOrClear.flushesClear {s : State} (h : s.store.workingOrClear) : s.FlushesClear := by
  rcases h with busy | ⟨-, flushes, -⟩
  · exact .inl busy
  · exact State.flushesClear_of_nil flushes

section OneRecord

variable {s : State} {i : Fin 16} (openWait : s.containers.openWait = []) (fresh : s.management.fresh = [])
  (others : ∀ j, j ≠ i → (s.stream j).dueRecord = none) (port : s.store.workingOrClear)
include openWait fresh others port

theorem State.settle_of_oneRecord : s.settle = (s.issueRecord i).lookAtPort.refresh := by
  rw [State.settle_of_still openWait fresh port.flushesClear, State.emitRecords_of_only others]

/-- With nothing due the port is left as it is. -/
theorem State.settle_of_undue (undue : (s.stream i).dueRecord = none) : s.settle.store = s.store ∧ s.settle.sent = s.sent := by
  have left : s.lookAtPort = s := port.elim State.lookAtPort_of_busy
    (fun ⟨writes, flushes, inactive⟩ => State.lookAtPort_of_nil flushes inactive writes)
  rw [State.settle_of_oneRecord openWait fresh others port, State.issueRecord_of_none undue, left]
  exact ⟨rfl, rfl⟩

variable {kind : RecordKind} (due : (s.stream i).dueRecord = some kind) (fits : (s.stream i).recordAddress < 4294967296)
include due fits

/-- A port at work leaves the record at the tail of the recipe write queue (R145). -/
theorem State.settle_of_due_busy (busy : s.store.port ≠ .idle) : s.settle.sent = s.sent ∧
    s.settle.store = { s.store with recipeQueue := s.store.recipeQueue ++ [s.recordWrite i kind] } := by
  rw [State.settle_of_oneRecord openWait fresh others port, State.issueRecord_of_some due fits,
    State.lookAtPort_of_busy (by exact busy)]
  exact ⟨rfl, rfl⟩

/-- An IDLE port takes the record at once (R145, R151, R175). -/
theorem State.settle_of_due_idle (idle : s.store.port = .idle) :
    s.settle.sent = s.sent ++ [.store (recipeTransaction (s.recordWrite i kind))] ∧
    s.settle.store = { s.store with port := .recipe i kind (s.stream i).written, ahead := s.store.ahead - 1 } := by
  obtain ⟨writes, flushes, inactive⟩ := port.resolve_left (absurd idle)
  rw [State.settle_of_oneRecord openWait fresh others port, State.issueRecord_of_some due fits,
    State.lookAtPort_of_one (w := s.recordWrite i kind) (by exact flushes) (by exact inactive) (by exact idle)
      (by exact congrArg (· ++ [_]) writes)]
  exact ⟨rfl, congrArg (fun left => ({ s.store with
    port := .recipe i kind (s.stream i).written, recipeQueue := left, ahead := s.store.ahead - 1 } : StorePort)) writes.symm⟩

end OneRecord

/-- What the step leaves of the rest of the station. -/
theorem State.recipeTook_same (s : State) (i : Fin 16) (count : Word) : let t := (s.recipeTook i count).settle
    t.index = s.index ∧ t.resolution = s.resolution ∧ t.bus = s.bus ∧ t.engines = s.engines ∧ t.staging = s.staging ∧
      t.settings = s.settings ∧ t.station = s.station ∧ t.now = s.now := by
  simp only [State.settle_index, State.settle_resolution, State.settle_bus, State.settle_engines, State.settle_staging,
    State.settle_settings, State.settle_station, State.settle_now]
  exact ⟨rfl, rfl, rfl, rfl, rfl, rfl, rfl, rfl⟩

/-- Settles O51: the clamp by `Stream.takenAfter_toNat`, the record due by `Stream.emitted_looked`, its bytes by
`State.recordBytes_content`, its way to the port by the two cases of the port. -/
theorem recipeTakenIsClamped : Obligations.RecipeTakenIsClamped := by
  intro s i stream count active
  refine ⟨execRecipeTaken_range count active, ?_⟩
  intro x
  set u := s.recipeTook i count with taken
  have kept := u.settle_kept
  have ours : u.stream i = s.tookRecords i count := State.recipeTook_stream_same i count
  have records : (u.settle.stream i).taken = x.takenAfter count := by
    rw [(kept i).taken, ours]
    rfl
  obtain ⟨more, sent⟩ := u.settle_putsOut
  obtain ⟨index, resolution, bus, engines, staging, settings, station, now⟩ := s.recipeTook_same i count
  refine ⟨u.settle, more, execRecipeTaken_eq i count active, ?_, ?_, ?_, ?_, ?_, ?_, fun j other => ?_, index, resolution,
    bus, engines, staging, settings, station, now, ?_⟩
  · rw [records]
    exact x.takenAfter_toNat count
  · rw [sent, records, taken, State.recipeTook_sent, List.append_assoc]
    rfl
  · rw [(kept i).written, ours]
    rfl
  · rw [(kept i).pending, ours]
    rfl
  · rw [(kept i).chunker, ours]
    rfl
  · rw [(kept i).bytesAccepted, ours]
    rfl
  · have same : u.stream j = s.stream j := State.recipeTook_stream_other i count other
    rw [← same]
    exact ⟨(kept j).sameWork, (kept j).pending⟩
  intro y place p noneWaits none undue port
  have openWait : u.containers.openWait = [] := noneWaits
  have fresh : u.management.fresh = [] := none
  have clear : u.store.workingOrClear := port
  have isTaken : y = u.stream i := by
    rw [ours, State.tookRecords, ← records]
  have others : ∀ j, j ≠ i → (u.stream j).dueRecord = Option.none := fun j other => by
    rw [State.recipeTook_stream_other i count other]
    exact (Stream.dueRecord_eq_none_iff _).2 (undue j other)
  have silent : ∀ {out}, u.settle.sent = u.sent ++ out → more = out := fun all =>
    List.append_cancel_left (sent.symm.trans all)
  rw [isTaken]
  refine ⟨?_, fun nothing => ?_, fun kind due fits => ?_⟩
  · rw [State.settle_stream_of_still openWait fresh clear.flushesClear]
    exact Stream.emitted_looked _
  · obtain ⟨store, all⟩ := State.settle_of_undue openWait fresh others clear ((Stream.dueRecord_eq_none_iff _).2 nothing)
    exact ⟨store, silent (all.trans (List.append_nil _).symm)⟩
  · have isDue := ((u.stream i).dueRecord_eq_some_iff kind).2 due
    have placed : (u.stream i).recordAddress = place := by
      rw [ours]
      rfl
    have written : (u.stream i).written = x.written := by
      rw [ours]
      rfl
    rw [← placed] at fits
    refine ⟨u.recordBytes (u.stream i) kind, State.recordBytes_content, fun busy => ?_, fun idle => ?_⟩
    · obtain ⟨all, store⟩ := State.settle_of_due_busy openWait fresh others clear isDue fits busy
      rw [State.recordWrite, placed, written] at store
      exact ⟨silent (all.trans (List.append_nil _).symm), store⟩
    · obtain ⟨all, store⟩ := State.settle_of_due_idle openWait fresh others clear isDue fits idle
      rw [State.recipeTransaction_recordWrite fits, placed] at all
      rw [written] at store
      exact ⟨silent all, store⟩

end Sys2Proof.Machine
end

