-- ==== Sys2Proof/Proofs/CompletionLooks.lean ====
section
/-! PROOFS. What a completion chooses next at the Store Port: a burst, a recipe write, a new flush, or a refusal (R148 to R151). -/

namespace Sys2Proof.Machine

/-! ## The looks of a step that takes a completion -/

/-- The state in which the reports of a step that takes a completion are placed (R143, R151). -/
def State.chosen (s : State) : State := s.serveOpenWait.emitRecords.arbitrate s.serveOpenWait.emitRecords.looks

theorem State.settleCompletion_eq_chosen (s : State) : s.settleCompletion = s.chosen.placeReports.refresh := rfl

theorem and_storeFault (flags : Byte) : (flags ||| EventFlag.storeFault.mask) &&& 0x08#8 = 0x08#8 := by
  rw [BitVec.and_or_distrib_right]
  exact BitVec.eq_of_getLsbD_eq (by simp [EventFlag.mask])

section Settled

variable (s : State)

theorem State.settleCompletion_store : s.settleCompletion.store = s.chosen.store := by
  rw [State.settleCompletion_eq_chosen, State.refresh_store, State.placeReports_store]

theorem State.settleCompletion_sent : s.settleCompletion.sent = s.chosen.sent := by
  rw [State.settleCompletion_eq_chosen, State.refresh_sent, State.placeReports_sent]

theorem State.settleCompletion_sealUnit : s.settleCompletion.sealUnit = s.chosen.sealUnit := by
  rw [State.settleCompletion_eq_chosen, State.refresh_sealUnit, State.placeReports_sealUnit]

theorem State.settleCompletion_container (k : Nat) : s.settleCompletion.container k = s.chosen.container k :=
  s.container_settleCompletion k

theorem State.chosen_addsLost : s.AddsLost s.chosen :=
  (State.AddsLost.of_eq (by rw [State.emitRecords_management, State.serveOpenWait_management])).trans
    (State.arbitrate_addsLost _ _)

theorem State.mem_chosen_fresh {r : Report} (made : r ∈ s.management.fresh) : r ∈ s.chosen.management.fresh := by
  obtain ⟨-, -, lost, added, -⟩ := s.chosen_addsLost
  rw [added]
  exact List.mem_append_left _ made

/-- A report made stands in the report queue or is held at the end of the step (R169). -/
theorem State.mem_settleCompletion {r : Report} (made : r ∈ s.chosen.management.fresh) :
    r ∈ s.settleCompletion.management.reports ++ s.settleCompletion.management.held := by
  rw [State.settleCompletion_eq_chosen, State.refresh_reports, State.refresh_held]
  exact State.mem_placeReports made

/-- With none but LOST reports made the streams are as the looks leave them (R169). -/
theorem State.settleCompletion_streams (lost : ∀ r ∈ s.management.fresh, r.isLost = true) :
    s.settleCompletion.streams = s.chosen.streams := by
  obtain ⟨-, -, more, added, allLost⟩ := s.chosen_addsLost
  rw [State.settleCompletion_eq_chosen, State.refresh_streams, State.placeReports_streams_of_lost]
  intro r made
  rw [added] at made
  exact (List.mem_append.1 made).elim (lost r) (allLost r)

/-- No look of the arbiter clears STORE_FAULT (R131, R168). -/
theorem State.chosen_storeFault (latched : s.management.flags &&& 0x08#8 = 0x08#8) :
    s.chosen.management.flags &&& 0x08#8 = 0x08#8 := by
  have looks : Looking (fun s t : State => s.management.flags &&& 0x08#8 = 0x08#8 → t.management.flags &&& 0x08#8 = 0x08#8) :=
    { trans := fun h g => g ∘ h
      issued := fun _ _ _ _ => id
      refused := fun s j rest _ => by
        simp only [State.refuseFlush, State.emitRecords_management, State.serveOpenWait_management, State.flushOutcome,
          State.containerNotice_management, if_true]
        exact and_storeFault _ }
  exact looks.arbitrate s.serveOpenWait.emitRecords s.serveOpenWait.emitRecords.looks
    (by rw [State.emitRecords_management, State.serveOpenWait_management]; exact latched)

/-- STORE_FAULT, once latched, stands at the end of the step (R168). -/
theorem State.settleCompletion_storeFault (latched : s.chosen.management.flags &&& 0x08#8 = 0x08#8) :
    s.settleCompletion.management.flags &&& 0x08#8 = 0x08#8 := by
  have kept := congrArg (· &&& 0x08#8) s.chosen.placeReports.refresh_latched
  have bit : (0x1F#8 : Byte) &&& 0x08#8 = 0x08#8 := rfl
  simp only [BitVec.and_assoc, State.placeReports_flags, bit] at kept
  rw [State.settleCompletion_eq_chosen, kept]
  exact latched

end Settled

/-! ## The arbiter's look (R151) -/

section Arbiter

variable {s : State}

theorem State.arbitrate_of_burst {f : ActiveFlush} (due : s.dueBurst = some f) : s.arbitrate s.looks = s.issueBurst f := by
  simp only [State.looks, State.arbitrate, due]

variable (notDue : s.dueBurst = none)
include notDue

theorem State.arbitrate_of_write {w : RecipeWrite} {rest : List RecipeWrite} (writes : s.store.recipeQueue = w :: rest) :
    s.arbitrate s.looks = s.issueRecipe w rest := by
  simp only [State.looks, State.arbitrate, notDue, writes]

variable (writes : s.store.recipeQueue = [])
include writes

theorem State.arbitrate_of_nil (flushes : s.store.flushQueue = []) (n : Nat) : s.arbitrate n = s := by
  cases n with
  | zero => rfl
  | succ n =>
    simp only [State.arbitrate, notDue, writes, flushes]
    split
    next started => exact absurd started (List.cons_ne_nil _ _).symm
    next => rfl

variable (inactive : s.store.active = none) {j : FlushJob} {rest : List FlushJob} (flushes : s.store.flushQueue = j :: rest)
include inactive flushes

theorem State.arbitrate_of_start (pass : j.inRegion s.settings) : s.arbitrate s.looks = s.startFlush j rest := by
  simp only [State.looks, State.arbitrate, notDue, writes, inactive, flushes, (s.inStoreRegion_iff j).2 pass, if_true]

theorem State.arbitrate_of_refusal (fails : ¬ j.inRegion s.settings) :
    ∃ n, s.arbitrate s.looks = (s.refuseFlush j rest).arbitrate n := by
  refine ⟨s.store.flushQueue.length + s.containers.table.length, ?_⟩
  simp only [State.looks, State.arbitrate, notDue, writes, inactive, flushes, mt (s.inStoreRegion_iff j).1 fails]
  rfl

end Arbiter

/-! ## The emitter before it -/

theorem State.emitRecords_of_none {s : State} (none : ∀ i, (s.stream i).dueRecord = none) : s.emitRecords = s := by
  rw [State.emitRecords_of_only (i := 0) (fun i _ => none i), State.issueRecord_of_none (none 0)]

/-- The emitter hands its records to the tail of the recipe write queue, and the port is otherwise as it was (R106, R145). -/
theorem State.emitRecords_store (s : State) : ∃ more, s.emitRecords.store =
    { s.store with recipeQueue := s.store.recipeQueue ++ more } := by
  have issue : ∀ (t : State) i, ∃ more, (t.issueRecord i).store =
      { t.store with recipeQueue := t.store.recipeQueue ++ more } := by
    intro t i
    simp only [State.issueRecord]
    split
    · exact ⟨[], by rw [List.append_nil]⟩
    · simp only [State.addressWord]
      split <;> exact ⟨[_], rfl⟩
  have fold : ∀ (l : List (Fin 16)) (t : State), ∃ more, (l.foldl State.issueRecord t).store =
      { t.store with recipeQueue := t.store.recipeQueue ++ more } := by
    intro l
    induction l with
    | nil => exact fun t => ⟨[], by rw [List.append_nil]; rfl⟩
    | cons i rest ih =>
      intro t
      obtain ⟨first, one⟩ := issue t i
      obtain ⟨later, all⟩ := ih (t.issueRecord i)
      exact ⟨first ++ later, by rw [List.foldl_cons, all, one, List.append_assoc]⟩
  obtain ⟨more, handed⟩ := fold _ (s.anyOrder ((List.finRange 16).filter (fun i => (s.stream i).dueRecord ≠ none))).2
  exact ⟨more, handed.trans (by rw [State.anyOrder_store])⟩

/-! ## Where no range check fails -/

section Pass

variable {s : State} (pass : ∀ j ∈ s.store.flushQueue, j.inRegion s.settings)
include pass

theorem State.chosen_portOnly : s.serveOpenWait.emitRecords.PortOnly s.chosen := by
  refine State.arbitrate_portOnly (fun j queued => (State.inStoreRegion_iff _ j).2 ?_) _
  rw [State.emitRecords_flushQueue, State.serveOpenWait_store] at queued
  rw [State.emitRecords_settings, State.serveOpenWait_settings]
  exact pass j queued

theorem State.settleCompletion_sealUnit_of_pass : s.settleCompletion.sealUnit = s.sealUnit := by
  rw [State.settleCompletion_sealUnit, State.chosen_portOnly pass]
  simp

theorem State.settleCompletion_container_of_pass {k : Nat} (used : (s.container k).state ≠ .free) :
    s.settleCompletion.container k = s.container k := by
  have containers : s.chosen.containers = s.serveOpenWait.containers := by
    rw [State.chosen_portOnly pass]
    exact State.emitRecords_containers _
  rw [State.settleCompletion_container, State.container, containers]
  exact State.serveOpenWait_container used

theorem State.settleCompletion_stream_of_pass (lost : ∀ r ∈ s.management.fresh, r.isLost = true)
    (openWait : s.containers.openWait = []) (i : Fin 16) : s.settleCompletion.stream i = (s.stream i).emitted := by
  have looked : s.chosen.streams = s.emitRecords.streams := by
    rw [State.chosen_portOnly pass, State.serveOpenWait_of_nil openWait]
  rw [State.stream_of_streams (s.settleCompletion_streams lost), State.stream_of_streams looked, State.emitRecords_stream]

end Pass

/-- The station once a burst has completed with more to follow (R150, R151). -/
def State.burstDone (s : State) (f : ActiveFlush) (failed : Bool) : State :=
  { s with store := { s.store with
    port := .idle, active := some { f with error := failed }, ahead := s.store.recipeQueue.length } }

/-- The station once the last burst has completed, before the outcome of its flush (R150). -/
def State.lastBurstDone (s : State) : State := { s with store := { s.store with port := .idle, active := none, ahead := 0 } }

section Completion

variable {s : State} {f : ActiveFlush} (status : Byte) (port : s.store.port = .burst) (active : s.store.active = some f)
include port active

theorem execCompletion_more (more : f.next < f.length) : exec (.completion status) s =
    .next (s.burstDone f (f.error || decide (status ≠ 0#8))).settleCompletion := by
  simp only [exec, execCompletion, port, active, State.burstCompleted, if_pos more]
  rfl

theorem execCompletion_last (last : f.length ≤ f.next) : exec (.completion status) s =
    .next (s.lastBurstDone.flushOutcome f.slot (f.error || decide (status ≠ 0#8))).settleCompletion := by
  simp only [exec, execCompletion, port, active, State.burstCompleted, if_neg (Nat.not_lt.2 last)]
  rfl

end Completion

/-! ## The next burst -/

/-- One burst on the link is the last one exactly when it reaches the container's end (R149, R175). -/
theorem ActiveFlush.burst_last {f : ActiveFlush} (more : f.next ≤ f.length) :
    (f.next + f.burstLength = f.length) ↔ f.length ≤ f.next + 65536 := by
  rw [ActiveFlush.burstLength]
  omega

theorem State.issueBurst_sent {s : State} {f : ActiveFlush} (more : f.next ≤ f.length) : (s.issueBurst f).sent =
    s.sent ++ [.store (containerWrite (decide (f.length ≤ f.next + 65536)) f.slot f.next
      (((s.containerRun f.slot f.header).drop f.next).take (min 65536 (f.length - f.next))))] := by
  rw [← decide_eq_decide.2 (ActiveFlush.burst_last more), ← burstTransaction_eq_containerWrite]
  rfl

theorem State.dueBurst_of_ahead {s : State} (ahead : s.store.ahead ≠ 0) : s.dueBurst = none :=
  Option.filter_eq_none_iff.2 (fun _ _ => by simp [ahead])

theorem State.dueBurst_of_inactive {s : State} (inactive : s.store.active = none) : s.dueBurst = none := by
  rw [State.dueBurst, inactive]
  rfl

section Burst

variable {s : State} {f : ActiveFlush} {failed : Bool}

/-- With nothing else to do the next burst follows at once (R149, R150). -/
theorem State.burstDone_follows (more : f.next < f.length) (openWait : s.containers.openWait = [])
    (none : ∀ i, (s.stream i).dueRecord = none) (writes : s.store.recipeQueue = []) :
    (s.burstDone f failed).chosen = (s.burstDone f failed).issueBurst { f with error := failed } := by
  have due : (s.burstDone f failed).dueBurst = some { f with error := failed } := by
    simp [State.dueBurst, State.burstDone, writes, more]
  rw [State.chosen, State.serveOpenWait_of_nil (by exact openWait), State.emitRecords_of_none (by exact none),
    State.arbitrate_of_burst due]

/-- The recipe writes queued at the completion go before the next burst (R150, R151). -/
theorem State.burstDone_writes {w : RecipeWrite} {rest : List RecipeWrite} (writes : s.store.recipeQueue = w :: rest) :
    ∃ more, (s.burstDone f failed).chosen.store = { (s.burstDone f failed).store with
        port := .recipe w.stream w.kind w.number, recipeQueue := rest ++ more, ahead := rest.length } ∧
      (s.burstDone f failed).chosen.sent = s.sent ++ [.store (recipeTransaction w)] := by
  set u := (s.burstDone f failed).serveOpenWait.emitRecords with handed
  obtain ⟨more, store⟩ : ∃ more, u.store = { (s.burstDone f failed).store with
      recipeQueue := s.store.recipeQueue ++ more } := by
    obtain ⟨more, store⟩ := (s.burstDone f failed).serveOpenWait.emitRecords_store
    rw [State.serveOpenWait_store] at store
    exact ⟨more, store⟩
  have ahead : u.store.ahead = rest.length + 1 := by
    rw [store]
    exact congrArg List.length writes
  have sent : u.sent = s.sent := by
    rw [handed, State.emitRecords_sent, State.serveOpenWait_sent]
    rfl
  have taken : (s.burstDone f failed).chosen = u.issueRecipe w (rest ++ more) := by
    refine State.arbitrate_of_write (State.dueBurst_of_ahead ?_) ?_
    · rw [← handed, ahead]
      exact Nat.succ_ne_zero _
    · rw [← handed, store, writes]
      rfl
  refine ⟨more, ?_, ?_⟩
  · rw [taken, State.issueRecipe, State.send, ahead, store]
    rfl
  · rw [taken, ← sent]
    rfl

end Burst

end Sys2Proof.Machine
end

