-- ==== Sys2Proof/Proofs/FlushOutcomes.lean ====
section
/-! PROOFS. The outcome of a flush: the container SEALED or LOST, and the Seal Unit told of it (R131, R139, R140). -/

namespace Sys2Proof.Machine

/-! ## The container of a flush outcome -/

/-- The station once a flush outcome is known, before the Seal Unit is told: the container is SEALED or LOST with its area free,
and a loss is reported (R131). -/
def State.flushed (s : State) (slot : Nat) (lost : Bool) : State :=
  let c := s.container slot
  let ended := s.setContainer slot { c with state := if lost then .lost else .sealed, area := none }
  if lost then (ended.latch .storeFault).makeReport (c.lostReport slot) else ended

theorem State.flushOutcome_eq (s : State) (slot : Nat) (lost : Bool) :
    s.flushOutcome slot lost = (s.flushed slot lost).containerNotice slot lost := rfl

section Flushed

variable (s : State) (slot : Nat) (lost : Bool)

/-- Containers, flags and reports are all that a flush outcome changes by itself. -/
theorem State.flushed_changes : s.flushed slot lost = { s with
    containers := (s.flushed slot lost).containers, management := (s.flushed slot lost).management } := by
  simp only [State.flushed]
  split <;> rfl

theorem State.flushed_containers : (s.flushed slot lost).containers =
    (s.setContainer slot { s.container slot with state := if lost then .lost else .sealed, area := none }).containers := by
  simp only [State.flushed]
  split <;> rfl

theorem State.flushed_container (k : Nat) : (s.flushed slot lost).container k =
    if k = slot then { s.container slot with state := if lost then .lost else .sealed, area := none } else s.container k := by
  rw [State.container, State.flushed_containers]
  exact s.container_setContainer slot k _

theorem State.flushed_openWait : (s.flushed slot lost).containers.openWait = s.containers.openWait := by
  rw [State.flushed_containers]
  rfl

theorem State.flushed_wf (wf : Sparse.wf Container.initial s.containers.table = true) :
    Sparse.wf Container.initial (s.flushed slot lost).containers.table = true := by
  rw [State.flushed_containers]
  exact Sparse.wf_put _ _ _ _ wf

theorem State.flushed_sealUnit : (s.flushed slot lost).sealUnit = s.sealUnit := by rw [State.flushed_changes]
theorem State.flushed_store : (s.flushed slot lost).store = s.store := by rw [State.flushed_changes]
theorem State.flushed_streams : (s.flushed slot lost).streams = s.streams := by rw [State.flushed_changes]
theorem State.flushed_settings : (s.flushed slot lost).settings = s.settings := by rw [State.flushed_changes]
theorem State.flushed_sent : (s.flushed slot lost).sent = s.sent := by rw [State.flushed_changes]

theorem State.flushed_ended : ((s.flushed slot lost).container slot).state ≠ .free ∧
    ((s.flushed slot lost).container slot).state ≠ .opened ∧ ((s.flushed slot lost).container slot).state ≠ .seals := by
  rw [State.flushed_container, if_pos rfl]
  cases lost <;> exact ⟨nofun, nofun, nofun⟩

/-- A container that has been flushed is not taken into a round (R138). -/
theorem State.flushed_takesIn (k : Nat) : (s.flushed slot lost).takesIn k ↔ k ≠ slot ∧ s.takesIn k := by
  by_cases here : k = slot
  · subst here
    obtain ⟨-, notOpen, notSeals⟩ := s.flushed_ended k lost
    exact ⟨fun taken => taken.elim (absurd · notSeals) (absurd ·.1 notOpen), fun taken => absurd rfl taken.1⟩
  · rw [State.takesIn, State.flushed_container, if_neg here]
    exact (and_iff_right here).symm

/-- A loss latches STORE_FAULT and makes the LOST report (R131). -/
theorem State.flushed_lost : (s.flushed slot true).management.flags &&& 0x08#8 = 0x08#8 ∧
    (s.container slot).lostReport slot ∈ (s.flushed slot true).management.fresh :=
  ⟨and_storeFault _, List.mem_append_right _ List.mem_cons_self⟩

/-- A flush outcome makes LOST reports only. -/
theorem State.flushed_fresh (fresh : s.management.fresh = []) :
    ∀ r ∈ (s.flushed slot lost).management.fresh, r.isLost = true := by
  obtain ⟨-, -, more, added, allLost⟩ := s.flushOutcome_addsLost slot lost
  rw [State.flushOutcome_eq, State.containerNotice_management, fresh, List.nil_append] at added
  rw [added]
  exact allLost

end Flushed

/-! ## The Seal Unit told -/

/-- A container has left the round in progress (R139). -/
def State.memberLeft (s : State) (slot : Nat) (lost : Bool) : State :=
  { s with sealUnit := { s.sealUnit with
    members := s.sealUnit.members.erase slot, roundLost := s.sealUnit.roundLost || lost } }

section Notice

variable {s : State} {slot : Nat} {r : Half} (lost : Bool)

theorem State.containerNotice_of_outside
    (outside : s.sealUnit.inProgress = none ∨ (s.container slot).round ≠ s.sealUnit.inProgress) :
    s.containerNotice slot lost = { s with sealUnit := { s.sealUnit with lostCarry := s.sealUnit.lostCarry || lost } } := by
  rw [State.containerNotice, if_neg (fun member => outside.elim member.1 (absurd member.2))]
  cases lost with
  | false =>
    rw [Bool.or_false]
    rfl
  | true =>
    rw [Bool.or_true]
    rfl

variable (inProgress : s.sealUnit.inProgress = some r) (member : (s.container slot).round = some r)
include inProgress member

theorem State.containerNotice_of_member : s.containerNotice slot lost =
    if s.sealUnit.members.erase slot = [] then (s.memberLeft slot lost).completeRound else s.memberLeft slot lost := by
  rw [State.containerNotice, if_pos ⟨by rw [inProgress]; exact Option.some_ne_none r, member.trans inProgress.symm⟩]
  rfl

end Notice

/-- The Seal Unit once the round in progress has completed (R140). -/
def SealUnit.completed (u : SealUnit) (r : Half) : SealUnit :=
  { u with
    inProgress := none, roundLost := false, lastCompleted := r
    lastStatus := if u.roundLost then .broken else .clean
    lastBroken := if u.roundLost then r else u.lastBroken }

/-- A completed round once the round-again flag has been cleared for the next (R140). -/
def State.cleared (s : State) : State :=
  { s.finishRound with sealUnit := { s.finishRound.sealUnit with roundAgain := false } }

section Finish

variable {s : State} {r : Half} (inProgress : s.sealUnit.inProgress = some r)
include inProgress

theorem State.finishRound_of_some : s.finishRound = { s with
    sealUnit := s.sealUnit.completed r
    streams := s.streams.map (fun x => x.owe r (if s.sealUnit.roundLost then .broken else .clean)) } := by
  simp only [State.finishRound, inProgress]
  rfl

theorem State.finishRound_stream (i : Fin 16) :
    s.finishRound.stream i = { s.stream i with owedMark := (s.stream i).owes r s.sealUnit.roundLost } := by
  rw [← Stream.owe_eq, State.finishRound_of_some inProgress]
  simp [State.stream]

theorem State.completeRound_of_once (once : s.sealUnit.roundAgain = false) : s.completeRound = s.finishRound := by
  have still : s.finishRound.sealUnit.roundAgain = false := by
    rw [State.finishRound_of_some inProgress]
    exact once
  simp only [State.completeRound, still, Bool.false_eq_true, if_false]

theorem State.completeRound_of_again (again : s.sealUnit.roundAgain = true) : s.completeRound = s.cleared.startRound := by
  have still : s.finishRound.sealUnit.roundAgain = true := by
    rw [State.finishRound_of_some inProgress]
    exact again
  have begun := s.cleared.beginRound_sealUnit
  have last : s.cleared.beginRound.completeRound = s.cleared.beginRound.finishRound :=
    State.completeRound_of_once (congrArg SealUnit.inProgress begun) (congrArg SealUnit.roundAgain begun)
  rw [State.startRound, last]
  simp only [State.completeRound, still, if_true]
  rfl

end Finish

/-! ## A container whose flush is over -/

/-- Container `k`, neither FREE nor OPEN and not waiting for a flush, keeps all but its membership in a round, and is handed to
the Store Port by nothing (R129, R131). -/
def State.LeavesAlone (k : Nat) (s t : State) : Prop :=
  (s.container k).state ≠ .free → (s.container k).state ≠ .opened → (∀ j ∈ s.store.flushQueue, j.slot ≠ k) →
    t.container k = { s.container k with round := (t.container k).round } ∧ ∀ j ∈ t.store.flushQueue, j.slot ≠ k

section Alone

variable {k : Nat} {s t u : State}

/-- The container stands, and what joins the flush queue is another's. -/
theorem State.LeavesAlone.of_stands (stands : s.Stands k t)
    (queue : (s.container k).state ≠ .opened → ∀ j ∈ t.store.flushQueue, j ∈ s.store.flushQueue ∨ j.slot ≠ k) :
    s.LeavesAlone k t := fun notFree notOpen unqueued =>
  ⟨stands notFree notOpen, fun j queued => (queue notOpen j queued).elim (unqueued j) id⟩

theorem State.LeavesAlone.of_eq (container : t.container k = s.container k) (queue : t.store.flushQueue = s.store.flushQueue) :
    s.LeavesAlone k t :=
  .of_stands (.of_eq container) (fun _ j queued => .inl (by rwa [queue] at queued))

theorem State.LeavesAlone.trans (h : s.LeavesAlone k t) (g : t.LeavesAlone k u) : s.LeavesAlone k u := by
  intro notFree notOpen unqueued
  obtain ⟨first, still⟩ := h notFree notOpen unqueued
  obtain ⟨second, last⟩ := g (by rw [first]; exact notFree) (by rw [first]; exact notOpen) still
  exact ⟨by rw [second, first], last⟩

theorem State.LeavesAlone.before (container : t.container k = s.container k)
    (queue : t.store.flushQueue = s.store.flushQueue) (h : t.LeavesAlone k u) : s.LeavesAlone k u :=
  (State.LeavesAlone.of_eq container queue).trans h

theorem State.LeavesAlone.fold {β : Type} {f : State → β → State} (h : ∀ (s : State) b, s.LeavesAlone k (f s b))
    (l : List β) (s : State) : s.LeavesAlone k (l.foldl f s) := by
  induction l generalizing s with
  | nil => exact .of_eq rfl rfl
  | cons b rest ih => exact (h s b).trans (ih _)

end Alone

section Operations

variable (k : Nat) (s : State)

theorem State.sealRequest_leavesAlone (slot : Nat) (r : SealReason) : s.LeavesAlone k (s.sealRequest slot r) := by
  by_cases here : slot = k
  · subst here
    refine .of_stands (s.sealRequest_stands slot slot r) (fun notOpen j queued => .inl ?_)
    rwa [State.sealRequest, if_neg (fun asked => notOpen asked.1)] at queued
  · exact .of_stands (s.sealRequest_stands k slot r) (fun _ j queued =>
      (State.sealRequest_queue queued).imp_right (fun ⟨slot, _⟩ => slot ▸ here))

theorem State.beginRound_leavesAlone : s.LeavesAlone k s.beginRound := by
  have enrolled : s.LeavesAlone k s.roundOpened := by
    refine .of_stands ?_ (fun _ j queued => .inl (by rwa [s.roundOpened_store] at queued))
    exact State.Stands.fold (fun t j => t.enrol_stands k (nextRound s.sealUnit.counter) j) s.roundMembers s
  rw [State.beginRound_eq]
  refine enrolled.trans (.before (s.roundOpened.anyOrder_container s.openMembers k)
    (congrArg StorePort.flushQueue (s.roundOpened.anyOrder_store s.openMembers)) ?_)
  exact .fold (fun t j => t.sealRequest_leavesAlone k j .round) _ _

theorem State.finishRound_leavesAlone : s.LeavesAlone k s.finishRound :=
  .of_stands (s.finishRound_stands k) (fun _ j queued => .inl (by rwa [s.finishRound_store] at queued))

theorem State.completeRound_leavesAlone : s.LeavesAlone k s.completeRound := by
  have again : s.LeavesAlone k s.cleared.beginRound :=
    (s.finishRound_leavesAlone k).trans (.before rfl rfl (s.cleared.beginRound_leavesAlone k))
  simp only [State.completeRound]
  split
  · split
    · exact again.trans (State.finishRound_leavesAlone k _)
    · exact again
  · exact s.finishRound_leavesAlone k

theorem State.containerNotice_leavesAlone (slot : Nat) (lost : Bool) : s.LeavesAlone k (s.containerNotice slot lost) := by
  simp only [State.containerNotice]
  split
  · split
    · exact .before (t := s.memberLeft slot lost) rfl rfl (State.completeRound_leavesAlone k _)
    · exact .of_eq rfl rfl
  · split <;> exact .of_eq rfl rfl

theorem State.flushOutcome_leavesAlone {slot : Nat} (other : k ≠ slot) (lost : Bool) :
    s.LeavesAlone k (s.flushOutcome slot lost) := by
  rw [State.flushOutcome_eq]
  refine .before ?_ ?_ (State.containerNotice_leavesAlone k _ slot lost)
  · rw [State.flushed_container, if_neg other]
  · rw [State.flushed_store]

theorem State.serveOpenWait_leavesAlone : s.LeavesAlone k s.serveOpenWait :=
  .of_stands (s.serveOpenWait_stands k) (fun _ j queued => .inl (by rwa [s.serveOpenWait_store] at queued))

theorem State.emitRecords_leavesAlone : s.LeavesAlone k s.emitRecords :=
  .of_eq (s.emitRecords_container k) s.emitRecords_flushQueue

/-- A refused container is another one (R148). -/
theorem State.refuseFlush_leavesAlone {j : FlushJob} {rest : List FlushJob} (queue : s.store.flushQueue = j :: rest) :
    s.LeavesAlone k (s.refuseFlush j rest) := by
  intro notFree notOpen unqueued
  have other : k ≠ j.slot := (unqueued j (by rw [queue]; exact List.mem_cons_self)).symm
  have left : ∀ i ∈ rest, i.slot ≠ k := fun i waits => unqueued i (by rw [queue]; exact List.mem_cons_of_mem j waits)
  set taken : State := { s with store := { s.store with flushQueue := rest } }
  have refused : taken.LeavesAlone k (s.refuseFlush j rest) := (taken.flushOutcome_leavesAlone k other true).trans
    ((State.serveOpenWait_leavesAlone k _).trans (State.emitRecords_leavesAlone k _))
  exact refused notFree notOpen left

theorem State.arbitrate_leavesAlone (n : Nat) : s.LeavesAlone k (s.arbitrate n) := by
  induction n generalizing s with
  | zero => exact .of_eq rfl rfl
  | succ n ih =>
    simp only [State.arbitrate]
    split
    · exact .of_eq rfl rfl
    · split
      · exact .of_eq rfl rfl
      · split
        next queue =>
          split
          · refine .of_stands (.of_eq rfl) (fun _ j queued => .inl ?_)
            rw [queue]
            exact List.mem_cons_of_mem _ queued
          · exact (s.refuseFlush_leavesAlone k queue).trans (ih _)
        next => exact .of_eq rfl rfl

theorem State.chosen_leavesAlone : s.LeavesAlone k s.chosen :=
  (s.serveOpenWait_leavesAlone k).trans ((State.emitRecords_leavesAlone k _).trans (State.arbitrate_leavesAlone k _ _))

end Operations

end Sys2Proof.Machine
end

