-- ==== Sys2Proof/Proofs/RoundsAgain.lean ====
section
/-! PROOFS. The round that a flush outcome completes, the round started again, and the flush that follows (R138 to R140, R148). -/

namespace Sys2Proof.Machine

/-! ## What a round that starts leaves of a stream -/

/-- Of a stream nothing but the current container has changed. -/
def State.CurrentsOnly (s t : State) : Prop := ∀ i, t.stream i = { s.stream i with current := (t.stream i).current }

section Currents

variable {s t u : State}

theorem State.CurrentsOnly.of_eq (h : t.streams = s.streams) : s.CurrentsOnly t := fun i => by
  rw [State.stream_of_streams h]

theorem State.CurrentsOnly.trans (h : s.CurrentsOnly t) (g : t.CurrentsOnly u) : s.CurrentsOnly u := fun i => by
  rw [g i, h i]

theorem State.CurrentsOnly.fold {β : Type} {f : State → β → State} (h : ∀ (s : State) b, s.CurrentsOnly (f s b))
    (l : List β) (s : State) : s.CurrentsOnly (l.foldl f s) := by
  induction l generalizing s with
  | nil => exact .of_eq rfl
  | cons b rest ih => exact (h s b).trans (ih _)

theorem State.dropCurrent_currentsOnly (s : State) (slot : Nat) (o : Option (Fin 16)) :
    s.CurrentsOnly (s.dropCurrent slot o) := by
  cases o with
  | none => exact .of_eq rfl
  | some i =>
    intro j
    simp only [State.dropCurrent, State.stream_modStream]
    split
    next here =>
      subst here
      split <;> rfl
    next => rfl

theorem State.sealRequest_currentsOnly (s : State) (slot : Nat) (r : SealReason) :
    s.CurrentsOnly (s.sealRequest slot r) := by
  have dropped := s.dropCurrent_currentsOnly slot (s.container slot).owner
  simp only [State.sealRequest]
  split
  · split
    · exact dropped.trans (.of_eq rfl)
    · exact dropped.trans (.of_eq rfl)
  · exact .of_eq rfl

theorem State.beginRound_currentsOnly (s : State) : s.CurrentsOnly s.beginRound := by
  have opened : s.roundOpened.streams = s.streams :=
    foldl_keep State.streams (fun t j => t.enrol (nextRound s.sealUnit.counter) j) (fun _ _ => rfl) s s.roundMembers
  rw [State.beginRound_eq]
  exact (State.CurrentsOnly.of_eq ((s.roundOpened.anyOrder_streams s.openMembers).trans opened)).trans
    (.fold (fun t k => t.sealRequest_currentsOnly k .round) _ _)

end Currents

theorem Stream.emitted_current (x : Stream) : x.emitted.current = x.current := by
  rw [Stream.emitted]
  split <;> rfl

/-! ## A round started in the step of a completion -/

theorem State.AwaitsFlush.settleCompletion {s : State} {k : Nat} {c : Container} {reason : SealReason}
    (h : s.AwaitsFlush k c reason) : s.settleCompletion.turnedSealing k c reason := by
  have chosen := h.serveOpenWait.emitRecords.arbitrate s.serveOpenWait.emitRecords.looks
  simpa [State.turnedSealing, State.container, State.settleCompletion] using chosen

section Round

variable {s : State} (wf : Sparse.wf Container.initial s.containers.table = true)
include wf

theorem State.startRound_of_taken (taken : ∃ k, s.takesIn k) : s.startRound = s.beginRound := by
  obtain ⟨k, taken⟩ := taken
  have members : s.beginRound.sealUnit.members ≠ [] := by
    rw [State.beginRound_sealUnit]
    exact List.ne_nil_of_mem ((State.mem_roundMembers wf k).2 taken)
  rw [State.startRound, if_neg members]

theorem State.roundMembers_eq_nil (nothing : ∀ k, ¬ s.takesIn k) : s.roundMembers = [] :=
  List.eq_nil_iff_forall_not_mem.2 (fun k member => nothing k ((State.mem_roundMembers wf k).1 member))

section UnderWay

variable (idle : s.store.port = .idle) (pass : s.flushesPass s.takesIn)
include idle pass

theorem State.beginRound_pass : ∀ j ∈ s.beginRound.store.flushQueue, j.inRegion s.beginRound.settings :=
  (State.beginRound_flushesClear wf (.inr pass)).resolve_left (fun busy => busy (s.beginRound_joins.1.trans idle))

/-- A round started in the step of a completion is under way at its end (R138). -/
theorem State.beginRound_underWay_completion :
    s.roundUnderWay s.takesIn s.sealUnit s.beginRound.settleCompletion := by
  have settled := State.beginRound_pass wf idle pass
  have sealUnit := State.settleCompletion_sealUnit_of_pass settled
  rw [State.beginRound_sealUnit] at sealUnit
  have container : ∀ {k}, s.takesIn k → s.beginRound.settleCompletion.container k = s.beginRound.container k :=
    fun taken => State.settleCompletion_container_of_pass settled (State.beginRound_used taken)
  refine ⟨?_, fun k => ?_, fun k taken => ?_, fun k taken inFlight opened unasked => ?_, fun k taken seals => ?_,
    fun k taken opened busy => ?_⟩
  · rw [sealUnit]
    rfl
  · rw [sealUnit]
    exact State.mem_roundMembers wf k
  · rw [container taken]
    exact State.beginRound_round wf taken
  · obtain ⟨awaits, state⟩ := State.beginRound_turns wf taken opened inFlight unasked
    exact ⟨by rw [container taken]; exact state, awaits.settleCompletion⟩
  · rw [container taken]
    exact State.beginRound_seals wf taken seals
  · rw [container taken]
    exact State.beginRound_busy wf taken opened busy

/-- The emitter then looks at each stream, whose current container the round may have sealed (R106, R128). -/
theorem State.beginRound_looked (lost : ∀ r ∈ s.management.fresh, r.isLost = true) (openWait : s.containers.openWait = [])
    (i : Fin 16) : emitterLooked { s.stream i with current := (s.beginRound.settleCompletion.stream i).current }
      (s.beginRound.settleCompletion.stream i) := by
  have looked := State.settleCompletion_stream_of_pass (State.beginRound_pass wf idle pass)
    (by rw [State.beginRound_management]; exact lost) (s.beginRound_openWait.trans openWait) i
  have same : { s.stream i with current := (s.beginRound.stream i).current } = s.beginRound.stream i :=
    (s.beginRound_currentsOnly i).symm
  rw [looked, Stream.emitted_current, same]
  exact Stream.emitted_looked _

end UnderWay

/-- A round that takes nothing in is over in the step of the completion (R138, R140). -/
theorem State.startRound_empty_completion (nothing : ∀ k, ¬ s.takesIn k) (none : s.sealUnit.inProgress = none)
    (once : s.sealUnit.roundAgain = false) (flushes : s.store.flushQueue = []) :
    s.startRound.settleCompletion.sealUnit = s.sealUnit.afterEmptyRound ∧
      ((∀ r ∈ s.management.fresh, r.isLost = true) → s.containers.openWait = [] → ∀ i,
        (s.startRound.settleCompletion.stream i).current = (s.stream i).current ∧ emitterLooked
          { s.stream i with owedMark := (s.stream i).owes s.sealUnit.nextNumber s.sealUnit.lostCarry }
          (s.startRound.settleCompletion.stream i)) := by
  have empty : s.startRound = s.emptyRound := State.startRound_of_none (State.roundMembers_eq_nil wf nothing) once
  have pass : ∀ j ∈ s.emptyRound.store.flushQueue, j.inRegion s.emptyRound.settings := by
    intro j queued
    rw [State.emptyRound, flushes] at queued
    exact absurd queued List.not_mem_nil
  rw [empty]
  refine ⟨?_, fun lost openWait i => ?_⟩
  · rw [State.settleCompletion_sealUnit_of_pass pass]
    simp only [State.emptyRound, SealUnit.afterEmptyRound, none]
  · rw [State.settleCompletion_stream_of_pass pass (by exact lost) (by exact openWait), Stream.emitted_current,
      State.emptyRound_stream]
    exact ⟨rfl, Stream.emitted_looked _⟩

end Round

/-- What is said of a round under way is read from the containers that it takes in. -/
theorem State.roundUnderWay.of_same {s v t : State} {taken named : Nat → Prop} {u : SealUnit} (h : v.roundUnderWay taken u t)
    (iff : ∀ k, taken k ↔ named k) (same : ∀ k, named k → v.container k = s.container k) : s.roundUnderWay named u t := by
  obtain rfl : taken = named := funext (fun k => propext (iff k))
  obtain ⟨sealUnit, members, round, turns, seals, busy⟩ := h
  refine ⟨sealUnit, members, round, fun k here => ?_, fun k here => ?_, fun k here => ?_⟩
  · rw [← same k here]
    exact turns k here
  · rw [← same k here]
    exact seals k here
  · rw [← same k here]
    exact busy k here

/-! ## The end of a flush -/

section Outcome

variable {v : State} {slot : Nat} {lost : Bool}

/-- The container at the end of the step is SEALED or LOST with its area free (R131). -/
theorem State.flushOutcome_container (unqueued : ∀ j ∈ v.store.flushQueue, j.slot ≠ slot) :
    let t := (v.flushOutcome slot lost).settleCompletion
    t.container slot = { v.container slot with
      state := if lost then .lost else .sealed, area := none, round := (t.container slot).round } := by
  obtain ⟨notFree, notOpen, -⟩ := v.flushed_ended slot lost
  obtain ⟨stands, -⟩ := ((State.containerNotice_leavesAlone slot (v.flushed slot lost) slot lost).trans
    (State.chosen_leavesAlone slot _)) notFree notOpen (by rw [State.flushed_store]; exact unqueued)
  rw [State.flushed_container, if_pos rfl] at stands
  rw [← State.settleCompletion_container, ← State.flushOutcome_eq] at stands
  exact stands

/-- A loss has latched STORE_FAULT and made its report (R131, R169). -/
theorem State.flushOutcome_lost : let t := (v.flushOutcome slot true).settleCompletion
    t.management.flags &&& 0x08#8 = 0x08#8 ∧
      (v.container slot).lostReport slot ∈ t.management.reports ++ t.management.held := by
  obtain ⟨flags, report⟩ := v.flushed_lost slot
  rw [← State.containerNotice_management (v.flushed slot true) slot true, ← State.flushOutcome_eq] at flags report
  exact ⟨State.settleCompletion_storeFault _ (State.chosen_storeFault _ flags),
    State.mem_settleCompletion _ (State.mem_chosen_fresh _ report)⟩

theorem State.flushed_round : ((v.flushed slot lost).container slot).round = (v.container slot).round := by
  rw [State.flushed_container, if_pos rfl]

/-- The station once the flush of a container that is no member is over: a loss is carried into the next round (R139). -/
def State.flushedOutside (v : State) (slot : Nat) (lost : Bool) : State :=
  { v.flushed slot lost with sealUnit := { v.sealUnit with lostCarry := v.sealUnit.lostCarry || lost } }

theorem State.flushOutcome_of_outside
    (outside : v.sealUnit.inProgress = none ∨ (v.container slot).round ≠ v.sealUnit.inProgress) :
    v.flushOutcome slot lost = v.flushedOutside slot lost := by
  rw [State.flushedOutside, State.flushOutcome_eq, State.containerNotice_of_outside, State.flushed_sealUnit]
  rwa [State.flushed_sealUnit, State.flushed_round]

/-- The station once a member has left the round in progress (R139). -/
def State.flushedMember (v : State) (slot : Nat) (lost : Bool) : State := (v.flushed slot lost).memberLeft slot lost

theorem State.flushedMember_sealUnit : (v.flushedMember slot lost).sealUnit = { v.sealUnit with
    members := v.sealUnit.members.erase slot, roundLost := v.sealUnit.roundLost || lost } := by
  rw [State.flushedMember, State.memberLeft, State.flushed_sealUnit]

theorem State.flushedMember_stream (i : Fin 16) : (v.flushedMember slot lost).stream i = v.stream i :=
  State.stream_of_streams (v.flushed_streams slot lost)

theorem State.flushedMember_store : (v.flushedMember slot lost).store = v.store := v.flushed_store slot lost

section Member

variable {r : Half} (inProgress : v.sealUnit.inProgress = some r)

include inProgress in
theorem State.flushOutcome_of_member (member : (v.container slot).round = some r) : v.flushOutcome slot lost =
    if v.sealUnit.members.erase slot = [] then (v.flushedMember slot lost).completeRound else v.flushedMember slot lost := by
  rw [State.flushOutcome_eq, State.containerNotice_of_member lost (by rw [State.flushed_sealUnit]; exact inProgress)
    (by rw [State.flushed_round]; exact member), State.flushed_sealUnit]
  rfl

/-- The Seal Unit once its last member has left a round (R140). -/
def SealUnit.lastLeft (u : SealUnit) (r : Half) (lost : Bool) : SealUnit :=
  { u with
    inProgress := none, members := [], roundLost := false, lastCompleted := r
    lastStatus := if u.roundLost || lost then .broken else .clean
    lastBroken := if u.roundLost || lost then r else u.lastBroken }

variable (gone : v.sealUnit.members.erase slot = [])
include inProgress gone

theorem State.flushedMember_finish : (v.flushedMember slot lost).finishRound.sealUnit = v.sealUnit.lastLeft r lost ∧
    ∀ i, (v.flushedMember slot lost).finishRound.stream i =
      { v.stream i with owedMark := (v.stream i).owes r (v.sealUnit.roundLost || lost) } := by
  have running : (v.flushedMember slot lost).sealUnit.inProgress = some r := by
    rw [State.flushedMember_sealUnit]
    exact inProgress
  refine ⟨?_, fun i => ?_⟩
  · rw [State.finishRound_of_some running, State.flushedMember_sealUnit, gone]
    rfl
  · rw [State.finishRound_stream running, State.flushedMember_stream, State.flushedMember_sealUnit]

end Member

end Outcome

/-! ## The next flush -/

/-- With other containers waiting for their flush. -/
def State.withFlushes (s : State) (waiting : List FlushJob) : State := { s with store := { s.store with flushQueue := waiting } }

section Next

variable {s : State} {j : FlushJob} {rest : List FlushJob} (openWait : s.containers.openWait = [])
  (undue : ∀ i, (s.stream i).dueRecord = none) (writes : s.store.recipeQueue = []) (inactive : s.store.active = none)
include openWait undue writes inactive

/-- The next container's flush begins with its first burst (R148, R149). -/
theorem State.chosen_of_start (flushes : s.store.flushQueue = j :: rest) (pass : j.inRegion s.settings) :
    s.chosen = s.startFlush j rest := by
  rw [State.chosen, State.serveOpenWait_of_nil openWait, State.emitRecords_of_none undue,
    State.arbitrate_of_start (State.dueBurst_of_inactive inactive) writes inactive flushes pass]

/-- The one container waiting fails the range check (R148). -/
theorem State.chosen_of_refusal (flushes : s.store.flushQueue = [j]) (outside : s.sealUnit.inProgress = none)
    (fails : ¬ j.inRegion s.settings) :
    s.chosen = (s.withFlushes []).flushedOutside j.slot true := by
  obtain ⟨n, refused⟩ := State.arbitrate_of_refusal (State.dueBurst_of_inactive inactive) writes inactive flushes fails
  set u := (s.withFlushes []).flushedOutside j.slot true
  have lost : (s.withFlushes []).flushOutcome j.slot true = u := State.flushOutcome_of_outside (.inl outside)
  have streams : ∀ i, u.stream i = s.stream i := fun i =>
    State.stream_of_streams ((s.withFlushes []).flushed_streams j.slot true)
  have waits : u.containers.openWait = [] := ((s.withFlushes []).flushed_openWait j.slot true).trans openWait
  have still : s.refuseFlush j [] = u := by
    rw [State.refuseFlush, ← State.withFlushes, lost, State.serveOpenWait_of_nil waits,
      State.emitRecords_of_none (fun i => by rw [streams]; exact undue i)]
  have store : u.store = { s.store with flushQueue := [] } := (s.withFlushes []).flushed_store j.slot true
  rw [State.chosen, State.serveOpenWait_of_nil openWait, State.emitRecords_of_none undue, refused, still]
  exact State.arbitrate_of_nil (State.dueBurst_of_inactive (by rw [store]; exact inactive)) (by rw [store]; exact writes)
    (by rw [store]) n

/-- The first burst is issued, and the others wait on (R148, R149, R175). -/
theorem State.settleCompletion_of_start (flushes : s.store.flushQueue = j :: rest) (pass : j.inRegion s.settings) :
    s.settleCompletion.store = { s.store with
      port := .burst, flushQueue := rest
      active := some { slot := j.slot, length := j.length, header := j.header, next := min 65536 j.length, error := false } } ∧
    s.settleCompletion.sent = s.sent ++ [.store (containerWrite (decide (j.length ≤ 65536)) j.slot 0
      ((s.containerRun j.slot j.header).take (min 65536 j.length)))] := by
  rw [State.settleCompletion_store, State.settleCompletion_sent,
    State.chosen_of_start openWait undue writes inactive flushes pass, State.startFlush]
  refine ⟨?_, ?_⟩
  · simp only [State.issueBurst, ActiveFlush.burstLength, FlushJob.start, Nat.sub_zero, Nat.zero_add]
    rfl
  · have burst := State.issueBurst_sent (s := s.withFlushes rest) (f := j.start) (Nat.zero_le _)
    simp only [FlushJob.start, Nat.sub_zero, Nat.zero_add, List.drop_zero] at burst
    exact burst

/-- The refused container is LOST with its area free and its report made, the port is left IDLE, and the loss is carried into
the next round (R131, R139, R148). -/
theorem State.settleCompletion_of_refusal (flushes : s.store.flushQueue = [j]) (outside : s.sealUnit.inProgress = none)
    (fails : ¬ j.inRegion s.settings) : let t := s.settleCompletion
    (t.container j.slot).state = .lost ∧ (t.container j.slot).area = none ∧ t.store = { s.store with flushQueue := [] } ∧
      t.sent = s.sent ∧ t.management.flags &&& 0x08#8 = 0x08#8 ∧ t.sealUnit.lostCarry = true ∧
      (s.container j.slot).lostReport j.slot ∈ t.management.reports ++ t.management.held := by
  have chosen := State.chosen_of_refusal openWait undue writes inactive flushes outside fails
  obtain ⟨flags, report⟩ := (s.withFlushes []).flushed_lost j.slot
  have container : s.settleCompletion.container j.slot = { s.container j.slot with state := .lost, area := none } := by
    rw [State.settleCompletion_container, chosen]
    exact ((s.withFlushes []).flushed_container j.slot true j.slot).trans (if_pos rfl)
  refine ⟨congrArg Container.state container, congrArg Container.area container, ?_, ?_,
    State.settleCompletion_storeFault s (by rw [chosen]; exact flags), ?_,
    State.mem_settleCompletion s (by rw [chosen]; exact report)⟩
  · rw [State.settleCompletion_store, chosen]
    exact (s.withFlushes []).flushed_store j.slot true
  · rw [State.settleCompletion_sent, chosen]
    exact (s.withFlushes []).flushed_sent j.slot true
  · rw [State.settleCompletion_sealUnit, chosen]
    exact Bool.or_true _

end Next

/-! ## The round that a flush outcome completes -/

section Rounds

variable {v : State} {slot : Nat} {lost : Bool} {r : Half}

theorem State.pass_of_nil {s : State} (flushes : s.store.flushQueue = []) :
    ∀ j ∈ s.store.flushQueue, j.inRegion s.settings := by
  rw [flushes]
  exact fun _ queued => absurd queued List.not_mem_nil

section Member

variable (flushes : v.store.flushQueue = []) (inProgress : v.sealUnit.inProgress = some r)
  (member : (v.container slot).round = some r)
include flushes inProgress member

/-- A member that is not the last leaves the round (R139). -/
theorem State.flushOutcome_member_leaves (more : v.sealUnit.members.erase slot ≠ []) :
    (v.flushOutcome slot lost).settleCompletion.sealUnit = { v.sealUnit with
      members := v.sealUnit.members.erase slot, roundLost := v.sealUnit.roundLost || lost } := by
  rw [State.flushOutcome_of_member inProgress member, if_neg more,
    State.settleCompletion_sealUnit_of_pass (State.pass_of_nil (by rw [State.flushedMember_store]; exact flushes)),
    State.flushedMember_sealUnit]

variable (gone : v.sealUnit.members.erase slot = [])
include gone

/-- With its last member gone the round completes, and its MARK is owed (R112, R139, R140). -/
theorem State.flushOutcome_completes (once : v.sealUnit.roundAgain = false) :
    let t := (v.flushOutcome slot lost).settleCompletion
    t.sealUnit = v.sealUnit.lastLeft r lost ∧
      (v.management.fresh = [] → v.containers.openWait = [] → ∀ i, emitterLooked
        { v.stream i with owedMark := (v.stream i).owes r (v.sealUnit.roundLost || lost) } (t.stream i)) := by
  obtain ⟨sealUnit, streams⟩ := State.flushedMember_finish (lost := lost) inProgress gone
  have finished : v.flushOutcome slot lost = (v.flushedMember slot lost).finishRound := by
    rw [State.flushOutcome_of_member inProgress member, if_pos gone]
    exact State.completeRound_of_once (r := r) (by rw [State.flushedMember_sealUnit]; exact inProgress)
      (by rw [State.flushedMember_sealUnit]; exact once)
  have pass := State.pass_of_nil (s := (v.flushedMember slot lost).finishRound)
    (by rw [State.finishRound_store, State.flushedMember_store]; exact flushes)
  rw [finished]
  refine ⟨(State.settleCompletion_sealUnit_of_pass pass).trans sealUnit, fun fresh openWait i => ?_⟩
  rw [State.settleCompletion_stream_of_pass pass (by
      rw [State.finishRound_management]
      exact v.flushed_fresh slot lost fresh)
    (by rw [State.finishRound_openWait]; exact (v.flushed_openWait slot lost).trans openWait), streams]
  exact Stream.emitted_looked _

end Member

/-! ### A round started again in the same step -/

/-- The station between the round that a flush outcome completes and the next that its round-again flag starts (R140). -/
def State.betweenRounds (v : State) (slot : Nat) (lost : Bool) : State := (v.flushedMember slot lost).cleared

section Between

theorem State.betweenRounds_container (k : Nat) :
    (v.betweenRounds slot lost).container k = (v.flushed slot lost).container k := by
  simp only [State.betweenRounds, State.cleared, State.container, State.finishRound_containers]
  rfl

theorem State.betweenRounds_containers :
    (v.betweenRounds slot lost).containers = (v.flushed slot lost).containers :=
  (v.flushedMember slot lost).finishRound_containers

theorem State.betweenRounds_store : (v.betweenRounds slot lost).store = v.store :=
  (v.flushedMember slot lost).finishRound_store.trans State.flushedMember_store

theorem State.betweenRounds_management : (v.betweenRounds slot lost).management = (v.flushed slot lost).management :=
  (v.flushedMember slot lost).finishRound_management

theorem State.betweenRounds_settings : (v.betweenRounds slot lost).settings = v.settings :=
  (v.flushedMember slot lost).finishRound_settings.trans (v.flushed_settings slot lost)

theorem State.betweenRounds_takesIn (k : Nat) : (v.betweenRounds slot lost).takesIn k ↔ k ≠ slot ∧ v.takesIn k := by
  rw [← v.flushed_takesIn slot lost, State.takesIn, State.betweenRounds_container]
  rfl

theorem State.betweenRounds_same {k : Nat} (taken : k ≠ slot ∧ v.takesIn k) :
    (v.betweenRounds slot lost).container k = v.container k := by
  rw [State.betweenRounds_container, State.flushed_container, if_neg taken.1]

theorem State.betweenRounds_wf (wf : Sparse.wf Container.initial v.containers.table = true) :
    Sparse.wf Container.initial (v.betweenRounds slot lost).containers.table = true := by
  rw [State.betweenRounds_containers]
  exact v.flushed_wf slot lost wf

theorem State.betweenRounds_pass (pass : v.flushesPass (fun k => k ≠ slot ∧ v.takesIn k)) :
    (v.betweenRounds slot lost).flushesPass (v.betweenRounds slot lost).takesIn := by
  obtain ⟨waiting, named⟩ := pass
  rw [State.flushesPass, State.betweenRounds_store, State.betweenRounds_settings]
  refine ⟨waiting, fun k taken => ?_⟩
  have here := (State.betweenRounds_takesIn k).1 taken
  rw [State.betweenRounds_same here]
  exact named k here

end Between

section Again

variable (flushes : v.store.flushQueue = []) (inProgress : v.sealUnit.inProgress = some r)
  (member : (v.container slot).round = some r) (gone : v.sealUnit.members.erase slot = [])
include inProgress gone

theorem State.betweenRounds_sealUnit :
    (v.betweenRounds slot lost).sealUnit = { v.sealUnit.lastLeft r lost with roundAgain := false } := by
  rw [State.betweenRounds, State.cleared, (State.flushedMember_finish inProgress gone).1]

theorem State.betweenRounds_stream (i : Fin 16) : (v.betweenRounds slot lost).stream i =
    { v.stream i with owedMark := (v.stream i).owes r (v.sealUnit.roundLost || lost) } :=
  (State.flushedMember_finish inProgress gone).2 i

include member in
theorem State.flushOutcome_of_again (again : v.sealUnit.roundAgain = true) :
    v.flushOutcome slot lost = (v.betweenRounds slot lost).startRound := by
  rw [State.flushOutcome_of_member inProgress member, if_pos gone]
  exact State.completeRound_of_again (r := r) (by rw [State.flushedMember_sealUnit]; exact inProgress)
    (by rw [State.flushedMember_sealUnit]; exact again)

/-- What a stream owes between the rounds, with the current container it has at the end of the step (R112). -/
def State.owing (v t : State) (r : Half) (lost : Bool) (i : Fin 16) : Stream :=
  { v.stream i with
    owedMark := (v.stream i).owes r (v.sealUnit.roundLost || lost), current := (t.stream i).current }

include member

include flushes in
/-- With nothing to take in the next round is over at once (R138, R140). -/
theorem State.flushOutcome_again_empty (wf : Sparse.wf Container.initial v.containers.table = true)
    (again : v.sealUnit.roundAgain = true) (nothing : ∀ k, ¬ (k ≠ slot ∧ v.takesIn k)) :
    let t := (v.flushOutcome slot lost).settleCompletion
    let done : SealUnit := { v.sealUnit.lastLeft r lost with roundAgain := false }
    t.sealUnit = done.afterEmptyRound ∧
      (v.management.fresh = [] → v.containers.openWait = [] → ∀ i, emitterLooked
        { v.owing t r lost i with owedMark := (v.owing t r lost i).owes done.nextNumber v.sealUnit.lostCarry }
        (t.stream i)) := by
  have sealUnit := State.betweenRounds_sealUnit (lost := lost) inProgress gone
  obtain ⟨completed, looks⟩ := State.startRound_empty_completion (s := v.betweenRounds slot lost)
    (State.betweenRounds_wf wf) (fun k taken => nothing k ((State.betweenRounds_takesIn k).1 taken))
    (by rw [sealUnit]; rfl) (by rw [sealUnit]) (by rw [State.betweenRounds_store]; exact flushes)
  rw [← State.flushOutcome_of_again inProgress member gone again, sealUnit] at completed looks
  refine ⟨completed, fun fresh openWait i => ?_⟩
  obtain ⟨current, looked⟩ := looks (by rw [State.betweenRounds_management]; exact v.flushed_fresh slot lost fresh)
    (by rw [State.betweenRounds_containers]; exact (v.flushed_openWait slot lost).trans openWait) i
  rw [State.betweenRounds_stream inProgress gone] at current looked
  rw [State.owing, current]
  exact looked

/-- With containers to take in the next round is under way at the end of the step (R138, R140). -/
theorem State.flushOutcome_again_underWay (wf : Sparse.wf Container.initial v.containers.table = true)
    (idle : v.store.port = .idle) (again : v.sealUnit.roundAgain = true) (some : ∃ k, k ≠ slot ∧ v.takesIn k)
    (pass : v.flushesPass (fun k => k ≠ slot ∧ v.takesIn k)) :
    let t := (v.flushOutcome slot lost).settleCompletion
    v.roundUnderWay (fun k => k ≠ slot ∧ v.takesIn k) { v.sealUnit.lastLeft r lost with roundAgain := false } t ∧
      (v.management.fresh = [] → v.containers.openWait = [] → ∀ i, emitterLooked (v.owing t r lost i) (t.stream i)) := by
  have wf' := State.betweenRounds_wf (slot := slot) (lost := lost) wf
  have idle' : (v.betweenRounds slot lost).store.port = .idle := by rw [State.betweenRounds_store]; exact idle
  have pass' := State.betweenRounds_pass (lost := lost) pass
  have begun : v.flushOutcome slot lost = (v.betweenRounds slot lost).beginRound :=
    (State.flushOutcome_of_again inProgress member gone again).trans
      (State.startRound_of_taken wf' (some.imp (fun k => (State.betweenRounds_takesIn k).2)))
  have underWay := State.beginRound_underWay_completion wf' idle' pass'
  have looks := State.beginRound_looked wf' idle' pass'
  rw [← begun] at underWay looks
  rw [State.betweenRounds_sealUnit inProgress gone] at underWay
  refine ⟨underWay.of_same State.betweenRounds_takesIn (fun k => State.betweenRounds_same), fun fresh openWait i => ?_⟩
  have looked := looks (by rw [State.betweenRounds_management]; exact v.flushed_fresh slot lost fresh)
    (by rw [State.betweenRounds_containers]; exact (v.flushed_openWait slot lost).trans openWait) i
  rw [State.betweenRounds_stream inProgress gone] at looked
  exact looked

end Again

end Rounds

end Sys2Proof.Machine
end

