-- ==== Sys2Proof/Proofs/FlushesEnd.lean ====
section
/-! PROOFS. COMPLETION of a burst (R131, R138 to R140, R143, R148 to R151). -/

namespace Sys2Proof.Machine

/-! ## COMPLETION of a burst -/

/-- What the end of a flush leaves of the rest of the station. -/
theorem State.flushOutcome_same (v : State) (slot : Nat) (lost : Bool) :
    let t := (v.flushOutcome slot lost).settleCompletion
    t.index = v.index ∧ t.bus = v.bus ∧ t.staging = v.staging ∧ t.station = v.station := by
  simp only [State.settleCompletion_index, State.settleCompletion_bus, State.settleCompletion_staging,
    State.settleCompletion_station, State.flushOutcome_index, State.flushOutcome_bus, State.flushOutcome_staging,
    State.flushOutcome_station, and_self]

section Outside

variable (v : State) (slot : Nat) (lost : Bool)

theorem State.flushedOutside_store : (v.flushedOutside slot lost).store = v.store := v.flushed_store slot lost

theorem State.flushedOutside_sent : (v.flushedOutside slot lost).sent = v.sent := v.flushed_sent slot lost

theorem State.flushedOutside_settings : (v.flushedOutside slot lost).settings = v.settings := v.flushed_settings slot lost

theorem State.flushedOutside_openWait : (v.flushedOutside slot lost).containers.openWait = v.containers.openWait :=
  v.flushed_openWait slot lost

theorem State.flushedOutside_stream (i : Fin 16) : (v.flushedOutside slot lost).stream i = v.stream i :=
  State.stream_of_streams (v.flushed_streams slot lost)

theorem State.flushedOutside_container {k : Nat} (other : k ≠ slot) :
    (v.flushedOutside slot lost).container k = v.container k := (v.flushed_container slot lost k).trans (if_neg other)

theorem State.flushedOutside_containerRun {k : Nat} (other : k ≠ slot) (header : List Byte) :
    (v.flushedOutside slot lost).containerRun k header = v.containerRun k header := by
  have staging : (v.flushedOutside slot lost).staging = v.staging := by
    rw [State.flushedOutside, State.flushed_changes]
  simp only [State.containerRun, State.flushedOutside_container v slot lost other, staging]

end Outside

/-- A LOST report names the reason that the container was sealed for (R131). -/
theorem Container.lostReport_eq {c : Container} {reason : SealReason} (sealedFor : c.sealedFor = some reason) (slot : Nat) :
    c.lostReport slot = .lost slot reason (c.round.getD 0) c.count c.payload := by
  rw [Container.lostReport, sealedFor, Option.getD_some]

section NextFlush

variable {s : State} {slot : Nat} {lost : Bool} {j : FlushJob} {rest : List FlushJob}

/-- What a flush that ends outside a round leaves for the next one to begin with. -/
theorem State.lastBurst_outside (outside : s.sealUnit.inProgress = none) (other : j.slot ≠ slot) :
    ∃ v, s.lastBurstDone.flushOutcome slot lost = v ∧ v.store = s.lastBurstDone.store ∧ v.settings = s.settings ∧
      v.sent = s.sent ∧ v.containers.openWait = s.containers.openWait ∧ (∀ i, v.stream i = s.stream i) ∧
      v.sealUnit.inProgress = none ∧ v.container j.slot = s.container j.slot ∧
      v.containerRun j.slot j.header = s.containerRun j.slot j.header :=
  ⟨_, State.flushOutcome_of_outside (v := s.lastBurstDone) (.inl outside), s.lastBurstDone.flushedOutside_store slot lost,
    s.lastBurstDone.flushedOutside_settings slot lost, s.lastBurstDone.flushedOutside_sent slot lost,
    s.lastBurstDone.flushedOutside_openWait slot lost, s.lastBurstDone.flushedOutside_stream slot lost, outside,
    s.lastBurstDone.flushedOutside_container slot lost other,
    s.lastBurstDone.flushedOutside_containerRun slot lost other j.header⟩

variable (unqueued : ∀ j ∈ s.store.flushQueue, j.slot ≠ slot) (writes : s.store.recipeQueue = [])
  (openWait : s.containers.openWait = []) (undue : ∀ i, (s.stream i).dueRecord = none) (outside : s.sealUnit.inProgress = none)
include unqueued writes openWait undue outside

/-- With nothing due before it the next container's flush begins with its first burst (R148 to R150). -/
theorem State.lastBurst_startsNext (flushes : s.store.flushQueue = j :: rest) (pass : j.inRegion s.settings) :
    let t := (s.lastBurstDone.flushOutcome slot lost).settleCompletion
    t.store = { s.store with
      port := .burst, ahead := 0, flushQueue := rest
      active := some { slot := j.slot, length := j.length, header := j.header, next := min 65536 j.length, error := false } } ∧
    t.sent = s.sent ++ [.store (containerWrite (decide (j.length ≤ 65536)) j.slot 0
      ((s.containerRun j.slot j.header).take (min 65536 j.length)))] := by
  obtain ⟨v, ended, store, settings, sent, waits, streams, -, -, run⟩ :=
    State.lastBurst_outside (lost := lost) outside (unqueued j (flushes ▸ List.mem_cons_self))
  have begins := State.settleCompletion_of_start (s := v) (waits.trans openWait) (fun i => by rw [streams]; exact undue i)
    (by rw [store]; exact writes) (by rw [store]; rfl) (by rw [store]; exact flushes) (by rw [settings]; exact pass)
  rw [store, sent, run] at begins
  rw [ended]
  exact begins

/-- The one container waiting is lost where it fails the range check (R131, R148). -/
theorem State.lastBurst_refusesNext (flushes : s.store.flushQueue = [j]) (fails : ¬ j.inRegion s.settings) :
    let t := (s.lastBurstDone.flushOutcome slot lost).settleCompletion
    (t.container j.slot).state = .lost ∧ (t.container j.slot).area = none ∧
      t.store = { s.store with port := .idle, ahead := 0, flushQueue := [], active := none } ∧
      t.sent = s.sent ∧ t.management.flags &&& 0x08#8 = 0x08#8 ∧ t.sealUnit.lostCarry = true ∧
      (s.container j.slot).lostReport j.slot ∈ t.management.reports ++ t.management.held := by
  obtain ⟨v, ended, store, settings, sent, waits, streams, still, container, -⟩ :=
    State.lastBurst_outside (lost := lost) outside (unqueued j (flushes ▸ List.mem_cons_self))
  have refused := State.settleCompletion_of_refusal (s := v) (waits.trans openWait)
    (fun i => by rw [streams]; exact undue i) (by rw [store]; exact writes) (by rw [store]; rfl)
    (by rw [store]; exact flushes) still (by rw [settings]; exact fails)
  rw [store, sent, container] at refused
  rw [ended]
  exact refused

end NextFlush

/-- Outside a round a loss is carried into the next one (R139). -/
theorem State.flushOutcome_carries {v : State} {slot : Nat} {lost : Bool} (flushes : v.store.flushQueue = [])
    (outside : v.sealUnit.inProgress = none ∨ (v.container slot).round ≠ v.sealUnit.inProgress) :
    (v.flushOutcome slot lost).settleCompletion.sealUnit =
      { v.sealUnit with lostCarry := v.sealUnit.lostCarry || lost } := by
  rw [State.flushOutcome_of_outside outside, State.settleCompletion_sealUnit_of_pass
    (State.pass_of_nil (by rw [State.flushedOutside_store]; exact flushes))]
  rfl

/-- Settles O48: a burst that leaves more to write is followed by what goes next; the last one ends its flush, and the end is
followed through the round that it may complete and the flush that may begin. -/
theorem burstsFollowAndFlushesEnd : Obligations.BurstsFollowAndFlushesEnd := by
  intro s status f failed c u port active
  have ranMore : f.next < f.length → exec (.completion status) s = .next (s.burstDone f failed).settleCompletion :=
    execCompletion_more status port active
  have ranLast : f.length ≤ f.next → exec (.completion status) s =
      .next (s.lastBurstDone.flushOutcome f.slot failed).settleCompletion := execCompletion_last status port active
  clear_value failed
  refine ⟨fun more openWait undue writes => ?_, fun more w rest writes => ?_, fun last unqueued _ => ?_⟩
  · have follows := State.burstDone_follows (failed := failed) more openWait undue writes
    refine ⟨_, ranMore more, ?_, ?_⟩
    · have ahead : (s.burstDone f failed).store.ahead = 0 := congrArg List.length writes
      rw [State.settleCompletion_store, follows, State.issueBurst, ← ahead]
      rfl
    · rw [State.settleCompletion_sent, follows]
      exact State.issueBurst_sent (s := s.burstDone f failed) (f := { f with error := failed }) more.le
  · obtain ⟨later, store, sent⟩ := State.burstDone_writes (f := f) (failed := failed) writes
    rw [← State.settleCompletion_store] at store
    rw [← State.settleCompletion_sent] at sent
    exact ⟨_, ranMore more, by rw [store], by rw [store], by rw [store]; rfl, sent⟩
  have container := State.flushOutcome_container (v := s.lastBurstDone) (lost := failed) unqueued
  obtain ⟨index, bus, staging, station⟩ := s.lastBurstDone.flushOutcome_same f.slot failed
  refine ⟨_, ranLast last, by rw [container], by rw [container], by rw [container]; rfl, by rw [container]; rfl,
    fun isLost => ?_, fun flushes => ⟨fun r inProgress member => ⟨fun more => ?_, fun gone once => ?_,
      fun gone again canonical => ?_⟩, fun outside => ?_⟩,
    fun j rest flushes writes openWait undue outside => ⟨fun pass => ?_, fun fails alone => ?_⟩,
    index, bus, staging, station⟩
  · subst isLost
    obtain ⟨flags, report⟩ := State.flushOutcome_lost (v := s.lastBurstDone) (slot := f.slot)
    exact ⟨flags, fun reason sealedFor => Container.lostReport_eq sealedFor f.slot ▸ report⟩
  · exact State.flushOutcome_member_leaves (v := s.lastBurstDone) flushes inProgress member more
  · obtain ⟨completed, looks⟩ :=
      State.flushOutcome_completes (v := s.lastBurstDone) (lost := failed) flushes inProgress member gone once
    exact ⟨completed, looks⟩
  · intro taken done owing
    have left : done = { s.sealUnit.lastLeft r failed with roundAgain := false } := rfl
    have owed : owing = s.owing (s.lastBurstDone.flushOutcome f.slot failed).settleCompletion r failed := rfl
    clear_value done owing
    subst left owed
    obtain ⟨-, -, wf⟩ := canonical
    refine ⟨fun nothing => ?_, fun some pass => ?_⟩
    · obtain ⟨completed, looks⟩ := State.flushOutcome_again_empty (v := s.lastBurstDone) (lost := failed) flushes inProgress
        member gone wf again nothing
      exact ⟨completed, looks⟩
    · obtain ⟨underWay, looks⟩ := State.flushOutcome_again_underWay (v := s.lastBurstDone) (lost := failed) inProgress
        member gone wf rfl again some pass
      exact ⟨underWay.of_same (fun k => Iff.rfl) (fun k _ => rfl), looks⟩
  · exact State.flushOutcome_carries (v := s.lastBurstDone) flushes outside
  · exact State.lastBurst_startsNext unqueued writes openWait undue outside flushes pass
  · subst alone
    obtain ⟨state, area, store, sent, flags, carry, report⟩ :=
      State.lastBurst_refusesNext (lost := failed) unqueued writes openWait undue outside flushes (Nat.not_le.2 fails)
    exact ⟨state, area, store, sent, flags, carry,
      fun reason sealedFor => Container.lostReport_eq sealedFor j.slot ▸ report⟩

end Sys2Proof.Machine
end

