-- ==== Sys2Proof/Proofs/TablesPrepared.lean ====
section
/-! PROOFS. What a part of a step may do to the tables of the station before the blocks look at what the step hands them: the
canonical form of staging memory, index memory and the container table stands, and the station state, the settings and the
allocation cursor are as they were. -/

namespace Sys2Proof.Machine

/-! ## Parts of a step -/

/-- What a part of a step does before the looks: the tables stay canonical, and the station state, the settings and the
allocation cursor stand. -/
structure State.Prepares (s t : State) : Prop where
  canonical : s.canonical → t.canonical
  station : t.station = s.station
  settings : t.settings = s.settings
  cursor : t.containers.cursor = s.containers.cursor

/-- The tables that have a canonical form. -/
def State.tables (s : State) := (s.staging, s.index.buckets, s.containers.table)

/-- What a preparation is read from. -/
def State.preparedFields (s : State) := (s.tables, s.station, s.settings, s.containers.cursor)

theorem State.canonical.of_eq {s t : State} (h : s.canonical) (same : t.tables = s.tables) : t.canonical := by
  simp only [State.tables, Prod.mk.injEq] at same
  obtain ⟨staging, buckets, table⟩ := same
  rwa [State.canonical, staging, buckets, table]

theorem State.Prepares.of_eq {s t : State} (h : t.preparedFields = s.preparedFields) : s.Prepares t := by
  simp only [State.preparedFields, Prod.mk.injEq] at h
  obtain ⟨tables, station, settings, cursor⟩ := h
  exact ⟨fun canonical => canonical.of_eq tables, station, settings, cursor⟩

theorem State.Prepares.trans {s t u : State} (h : s.Prepares t) (g : t.Prepares u) : s.Prepares u :=
  ⟨g.canonical ∘ h.canonical, g.station.trans h.station, g.settings.trans h.settings, g.cursor.trans h.cursor⟩

/-- The same with the last part of the work first. -/
theorem State.Prepares.after {s t u : State} (g : t.Prepares u) (h : s.Prepares t) : s.Prepares u := h.trans g

theorem State.Prepares.fold {β : Type} {f : State → β → State} (h : ∀ (s : State) b, s.Prepares (f s b)) (l : List β)
    (s : State) : s.Prepares (l.foldl f s) := by
  induction l generalizing s with
  | nil => exact .of_eq rfl
  | cons b rest ih => exact (h s b).trans (ih _)

/-! ### Writes of the tables -/

theorem State.setContainer_prepares (s : State) (slot : Nat) (c : Container) : s.Prepares (s.setContainer slot c) where
  canonical := fun ⟨staging, buckets, table⟩ => ⟨staging, buckets, Sparse.wf_put _ slot c _ table⟩
  station := rfl
  settings := rfl
  cursor := rfl

theorem State.setBucket_prepares (s : State) (b : Nat) (entries : List IndexEntry) : s.Prepares (s.setBucket b entries) where
  canonical := fun ⟨staging, buckets, table⟩ => ⟨staging, Sparse.wf_put _ b entries _ buckets, table⟩
  station := rfl
  settings := rfl
  cursor := rfl

theorem State.writeStaging_prepares (s : State) (address : Nat) (bytes : List Byte) :
    s.Prepares { s with staging := writeBytes s.staging address bytes } where
  canonical := fun ⟨staging, buckets, table⟩ => ⟨writeBytes_wf _ address bytes staging, buckets, table⟩
  station := rfl
  settings := rfl
  cursor := rfl

theorem State.makeRequest_prepares (s : State) (p : Producer) (r : IndexRequest) : s.Prepares (s.makeRequest p r) :=
  .of_eq (by simp [State.preparedFields, State.tables, State.makeRequest, Index.make_buckets])

theorem State.modStream_prepares (s : State) (i : Fin 16) (f : Stream → Stream) : s.Prepares (s.modStream i f) := .of_eq rfl

theorem State.anyOrder_prepares {α : Type} (s : State) (l : List α) : s.Prepares (s.anyOrder l).2 := by
  simp only [State.anyOrder]
  split <;> exact .of_eq rfl

/-! ### Seals and appends -/

theorem State.dropCurrent_prepares (s : State) (slot : Nat) (o : Option (Fin 16)) : s.Prepares (s.dropCurrent slot o) :=
  .of_eq (by simp [State.preparedFields, State.tables])

theorem State.turnSealing_prepares (s : State) (slot : Nat) (r : SealReason) : s.Prepares (s.turnSealing slot r) := by
  have queued : ∀ (u : State) store, u.Prepares { u with store := store } := fun _ _ => .of_eq rfl
  exact (queued _ _).after ((State.setContainer_prepares _ slot _).after (s.dropCurrent_prepares slot _))

theorem State.sealRequest_prepares (s : State) (slot : Nat) (r : SealReason) : s.Prepares (s.sealRequest slot r) := by
  simp only [State.sealRequest]
  split
  · split
    · exact s.turnSealing_prepares slot r
    · exact (State.setContainer_prepares _ slot _).after (s.dropCurrent_prepares slot _)
  · exact .of_eq rfl

theorem State.sealCurrent_prepares (s : State) (i : Fin 16) (r : SealReason) : s.Prepares (s.sealCurrent i r) := by
  simp only [State.sealCurrent]
  split
  · exact (s.sealRequest_prepares _ r).trans (State.modStream_prepares _ i _)
  · exact .of_eq rfl

theorem State.issueAppend_prepares (s : State) (slot : Nat) (r : AppendRequest) : s.Prepares (s.issueAppend slot r) :=
  s.setContainer_prepares slot _

theorem State.issueFollowers_prepares (s : State) (slot : Nat) (i : Fin 16) (l : List AppendRequest) :
    s.Prepares (s.issueFollowers slot i l).1 := by
  induction l generalizing s with
  | nil => exact .of_eq rfl
  | cons r rest ih =>
    simp only [State.issueFollowers]
    split
    · split
      · exact (s.issueAppend_prepares slot r).trans (ih _)
      · exact s.sealRequest_prepares slot _
    · exact ih s

theorem State.requestAppend_prepares (s : State) (r : AppendRequest) : s.Prepares (s.requestAppend r) := by
  have joined : ∀ u : State, u.Prepares (u.joinOpenWait r) := fun _ => .of_eq rfl
  simp only [State.requestAppend]
  split
  · exact joined s
  · split
    · split
      · exact s.issueAppend_prepares _ r
      · exact (joined _).after (s.sealRequest_prepares _ _)
    · exact joined s

theorem State.lowerReferences_prepares (s : State) (slot : Nat) : s.Prepares (s.lowerReferences slot) :=
  s.setContainer_prepares slot _

theorem State.raiseReferences_prepares (s : State) (slot n : Nat) : s.Prepares (s.raiseReferences slot n) :=
  s.setContainer_prepares slot _

theorem State.releaseChunk_prepares (s : State) (q : PendingSlot) : s.Prepares (s.releaseChunk q) := by
  simp only [State.releaseChunk]
  split
  · exact s.lowerReferences_prepares _
  · exact .of_eq rfl

/-! ### The Resolution Unit -/

theorem State.freeAsk_prepares (s : State) (e : AskEntry) : s.Prepares (s.freeAsk e) :=
  .of_eq (by simp [State.preparedFields, State.tables])

theorem State.storeOrFree_prepares (s : State) (e : AskEntry) : s.Prepares (s.storeOrFree e) := by
  simp only [State.storeOrFree]
  split
  · exact s.freeAsk_prepares e
  · exact (State.requestAppend_prepares _ _).after (.of_eq rfl)

theorem State.remoteFound_prepares (s : State) (f : Fingerprint) (l : Location) (b : Bool) :
    s.Prepares (s.remoteFound f l b) := .of_eq (by simp [State.preparedFields, State.tables])

theorem State.withdrawFor_prepares (s : State) (tag : Byte) : s.Prepares (s.withdrawFor tag) := by
  simp only [State.withdrawFor]
  split
  · exact .of_eq rfl
  · exact (State.storeOrFree_prepares _ _).after (.of_eq rfl)

theorem State.dropWaiters_prepares (s : State) (i : Fin 16) : s.Prepares (s.dropWaiters i) :=
  (State.Prepares.fold State.withdrawFor_prepares _ _).after
    ((State.anyOrder_prepares _ _).after (.of_eq rfl))

/-! ### Streams -/

theorem State.discardPending_prepares (s : State) (i : Fin 16) : s.Prepares (s.discardPending i) := by
  simp only [State.discardPending]
  exact (State.Prepares.fold State.releaseChunk_prepares _ s).trans (State.modStream_prepares _ i _)

theorem State.tearDown_prepares (s : State) (i : Fin 16) (fate : DigestFate) : s.Prepares (s.tearDown i fate) := by
  have stopped : s.Prepares { s.stopEngines i with
    digestQueue := dropDigests i fate s.digestQueue, index := s.index.voidLookups i } := .of_eq rfl
  simp only [State.tearDown]
  exact (State.sealCurrent_prepares _ i .abort).after ((State.modStream_prepares _ i _).after
    ((State.discardPending_prepares _ i).after ((State.dropWaiters_prepares _ i).after stopped)))

theorem State.abortRelease_prepares (s : State) (i : Fin 16) : s.Prepares (s.abortRelease i) :=
  .of_eq (by simp [State.preparedFields, State.tables])

theorem State.closeCheck_prepares (s : State) (i : Fin 16) : s.Prepares (s.closeCheck i) := by
  simp only [State.closeCheck]
  split
  · split
    · split
      · exact (s.sealCurrent_prepares i .close).trans (State.modStream_prepares _ i _)
      · exact .of_eq rfl
    · split <;> exact .of_eq rfl
  · exact .of_eq rfl

/-! ### Rounds and flush outcomes -/

theorem State.beginRound_prepares (s : State) : s.Prepares s.beginRound := by
  have counted : ∀ (u : State) unit, u.Prepares { u with sealUnit := unit } := fun _ _ => .of_eq rfl
  exact (State.Prepares.fold (fun t slot => t.sealRequest_prepares slot .round) _ _).after
    ((State.anyOrder_prepares _ _).after ((counted _ _).after
      (State.Prepares.fold (fun t slot => t.setContainer_prepares slot _) _ s)))

theorem State.finishRound_prepares (s : State) : s.Prepares s.finishRound :=
  .of_eq (by simp [State.preparedFields, State.tables])

theorem State.completeRound_prepares (s : State) : s.Prepares s.completeRound := by
  have again : ∀ (u : State) unit, u.Prepares { u with sealUnit := unit } := fun _ _ => .of_eq rfl
  have begun := fun unit => (State.beginRound_prepares _).after ((again s.finishRound unit).after s.finishRound_prepares)
  simp only [State.completeRound]
  split
  · split
    · exact (begun _).trans (State.finishRound_prepares _)
    · exact begun _
  · exact s.finishRound_prepares

theorem State.askRound_prepares (s : State) : s.Prepares s.askRound := by
  simp only [State.askRound, State.startRound]
  split
  · split
    · exact s.beginRound_prepares.trans (State.completeRound_prepares _)
    · exact s.beginRound_prepares
  · exact .of_eq rfl

theorem State.containerNotice_prepares (s : State) (slot : Nat) (lost : Bool) : s.Prepares (s.containerNotice slot lost) := by
  have noted : ∀ (u : State) unit, u.Prepares { u with sealUnit := unit } := fun _ _ => .of_eq rfl
  simp only [State.containerNotice]
  split
  · split
    · exact (noted s _).trans (State.completeRound_prepares _)
    · exact .of_eq rfl
  · split <;> exact .of_eq rfl

theorem State.flushOutcome_prepares (s : State) (slot : Nat) (error : Bool) : s.Prepares (s.flushOutcome slot error) := by
  have reported : ∀ (u : State) f r, u.Prepares ((u.latch f).makeReport r) := fun _ _ _ => .of_eq rfl
  simp only [State.flushOutcome]
  refine (State.containerNotice_prepares _ slot error).after ?_
  split
  · exact (s.setContainer_prepares slot _).trans (reported _ _ _)
  · exact s.setContainer_prepares slot _

/-! ### Parts of single commands -/

theorem State.removeDead_prepares (s : State) (b : Nat) : s.Prepares (s.removeDead b) := s.setBucket_prepares b _

/-- A request or a scrub step is over and its bucket is tidied (R45). -/
theorem State.tidy_prepares (s : State) (b : Nat) : s.Prepares (s.removeDead b).endService :=
  (s.removeDead_prepares b).trans (.of_eq rfl)

theorem State.takeLookup_prepares (s : State) (f : Fingerprint) (w : Waiter) (kind : StreamKind) (hit : Option IndexEntry) :
    s.Prepares (s.takeLookup f w kind hit) := by
  have surveyed : ∀ b, s.Prepares (s.resolveSurvey w b) := fun _ =>
    (State.closeCheck_prepares _ _).after (s.modStream_prepares _ _)
  simp only [State.takeLookup]
  split
  · split
    · exact surveyed true
    · exact (s.raiseReferences_prepares _ 1).trans (State.modStream_prepares _ _ _)
  · split
    · exact surveyed false
    · exact .of_eq (by simp [State.preparedFields, State.tables])

theorem State.resolveStored_prepares (s : State) (ws : List Waiter) (l : Location) : s.Prepares (s.resolveStored ws l) := by
  have resolved : ∀ (u : State) rest, u.Prepares (u.resolveAll rest .localDup l none) := fun _ _ =>
    .of_eq (by simp [State.preparedFields, State.tables])
  cases ws with
  | nil => exact .of_eq rfl
  | cons w rest => exact (resolved _ _).after ((State.modStream_prepares _ _ _).after (s.raiseReferences_prepares _ _))

theorem State.takeInsert_prepares (s : State) (slot ordinal : Nat) (tag : Byte) :
    s.Prepares (s.takeInsert slot ordinal tag) := by
  simp only [State.takeInsert]
  split
  · exact s.lowerReferences_prepares slot
  · split
    · exact (State.freeAsk_prepares _ _).after ((State.lowerReferences_prepares _ slot).after
        (s.resolveStored_prepares _ _))
    · exact (s.lowerReferences_prepares slot).trans (State.storeOrFree_prepares _ _)

theorem State.endWalk_prepares (s : State) : s.Prepares s.endWalk := by
  have turned : ∀ (u : State) free walker, u.Prepares { u with
    containers := { u.containers with freeSlots := free }, walker := walker } := fun _ _ _ => .of_eq rfl
  have made : ∀ (u : State) r, u.Prepares (u.makeReport r) := fun _ _ => .of_eq rfl
  simp only [State.endWalk]
  exact (State.Prepares.fold (fun t slot => made t _) _ _).after
    ((turned _ _ _).after (State.Prepares.fold (fun t slot => t.setContainer_prepares slot _) _ s))

theorem State.copyAppend_prepares (s : State) (c : Container) (a : Append) : s.Prepares (s.copyAppend c a) := by
  simp only [State.copyAppend]
  split
  · exact .of_eq rfl
  · exact (s.writeStaging_prepares _ _).trans (State.writeStaging_prepares _ _ _)

theorem State.appendDone_prepares (s : State) (slot ordinal : Nat) (a : Append) : s.Prepares (s.appendDone slot ordinal a) := by
  have claimed : ∀ (u : State) bus, u.Prepares { u with bus := bus } := fun _ _ => .of_eq rfl
  simp only [State.appendDone]
  refine (claimed _ _).after ((State.makeRequest_prepares _ _ _).after ?_)
  split <;> exact .of_eq rfl

theorem State.sealAfterAppend_prepares (s : State) (slot : Nat) : s.Prepares (s.sealAfterAppend slot) := by
  simp only [State.sealAfterAppend]
  split
  · exact .of_eq rfl
  · split
    · exact s.turnSealing_prepares slot _
    · split
      · exact s.sealRequest_prepares slot .hold
      · exact .of_eq rfl

theorem State.faultStream_prepares (s : State) (i : Fin 16) : s.Prepares (s.faultStream i) := by
  have made : ∀ (u : State) r, u.Prepares (u.makeReport r) := fun _ _ => .of_eq rfl
  exact (made _ _).after ((State.tearDown_prepares _ i .dropped).after (s.modStream_prepares i _))

theorem State.recordWritten_prepares (s : State) (i : Fin 16) (kind : RecordKind) : s.Prepares (s.recordWritten i kind) := by
  have made : ∀ (u : State) r, u.Prepares (u.makeReport r) := fun _ _ => .of_eq rfl
  have recorded : s.Prepares (s.recordChunk i) := by
    simp only [State.recordChunk]
    split
    · exact .of_eq rfl
    · exact (s.releaseChunk_prepares _).trans (State.modStream_prepares _ i _)
  simp only [State.recordWritten]
  cases kind with
  | chunk => exact (State.closeCheck_prepares _ i).after (recorded.trans (State.modStream_prepares _ i _))
  | mark => exact (State.closeCheck_prepares _ i).after (s.modStream_prepares i _)
  | last => exact (s.modStream_prepares i _).trans (made _ _)

theorem State.recipeCompleted_prepares (s : State) (i : Fin 16) (kind : RecordKind) (error : Bool) :
    s.Prepares (s.recipeCompleted i kind error) := by
  have done : s.Prepares (if error then s.faultStream i else s.recordWritten i kind) := by
    split
    · exact s.faultStream_prepares i
    · exact s.recordWritten_prepares i kind
  simp only [State.recipeCompleted]
  split
  · exact done
  · exact done
  · exact (s.modStream_prepares i _).trans (State.abortRelease_prepares _ i)
  · exact .of_eq rfl
  · exact .of_eq rfl

theorem State.burstCompleted_prepares (s : State) (f : ActiveFlush) (error : Bool) : s.Prepares (s.burstCompleted f error) := by
  have stored : ∀ store, s.Prepares { s with store := store } := fun _ => .of_eq rfl
  simp only [State.burstCompleted]
  split
  · exact stored _
  · exact (stored _).trans (State.flushOutcome_prepares _ _ _)

end Sys2Proof.Machine
end

