-- ==== Sys2Proof/Proofs/OpenWaitLook.lean ====
section
/-! PROOFS. The look at the open-wait queue (R121, R123, R124, R126, R128): which request it serves, in which slot and with which
area, what one service does, and the queue that the look leaves. -/

namespace Sys2Proof.Machine

/-! ## The request, the slot and the area of a service -/

theorem State.ownsOpen_iff (s : State) (i : Fin 16) : s.ownsOpen i = true ↔ s.ownerOfOpen i := by
  simp [State.ownsOpen, State.ownerOfOpen]

/-- A stream owns an OPEN container that the table reads as OPEN and of that owner. -/
theorem State.ownerOfOpen_of_container {s : State} {k : Nat} {i : Fin 16} (opened : (s.container k).state = .opened)
    (owner : (s.container k).owner = some i) : s.ownerOfOpen i := by
  refine ⟨_, Sparse.mem_of_find_ne (d := Container.initial) (k := k) (fun free => ?_), opened, owner⟩
  rw [State.container, free] at opened
  exact ContainerState.noConfusion opened

/-- The oldest ready request: every one before it is not ready (R124). -/
theorem State.firstReady_eq_some_iff {s : State} {l others : List AppendRequest} {r : AppendRequest} :
    s.firstReady l = some (r, others) ↔ ∃ before after, l = before ++ r :: after ∧ others = before ++ after ∧
      (∀ q ∈ before, s.ownerOfOpen q.stream) ∧ ¬ s.ownerOfOpen r.stream := by
  constructor
  · intro h
    induction l generalizing others with
    | nil => exact absurd h (Option.some_ne_none _).symm
    | cons q rest ih =>
      simp only [State.firstReady] at h
      split at h
      next owned =>
        rw [State.ownsOpen_iff] at owned
        obtain ⟨⟨r', kept⟩, found, same⟩ := Option.map_eq_some_iff.1 h
        obtain ⟨rfl, rfl⟩ := Prod.mk.inj same
        obtain ⟨before, after, rfl, rfl, waiting, ready⟩ := ih found
        exact ⟨q :: before, after, rfl, rfl, List.forall_mem_cons.2 ⟨owned, waiting⟩, ready⟩
      next ready =>
        rw [State.ownsOpen_iff] at ready
        obtain ⟨rfl, rfl⟩ := Prod.mk.inj (Option.some.inj h)
        exact ⟨[], rest, rfl, rfl, fun _ none => absurd none List.not_mem_nil, ready⟩
  · rintro ⟨before, after, rfl, rfl, waiting, ready⟩
    induction before with
    | nil => simp [State.firstReady, State.ownsOpen_iff, ready]
    | cons q rest ih =>
      obtain ⟨owned, waiting⟩ := List.forall_mem_cons.1 waiting
      simp [State.firstReady, State.ownsOpen_iff, owned, ih waiting]

theorem State.firstReady_eq_none_iff {s : State} {l : List AppendRequest} :
    s.firstReady l = none ↔ ∀ r ∈ l, s.ownerOfOpen r.stream := by
  induction l with
  | nil => simp [State.firstReady]
  | cons r rest ih =>
    simp only [State.firstReady, List.forall_mem_cons, ← State.ownsOpen_iff]
    split
    next owned => simp [owned, ih, State.ownsOpen_iff]
    next ready => simp [ready]

/-- How many slots of `n` slot `j` stands behind slot `c`, counting modulo `n` (R121). -/
def slotsBehind (n c j : Nat) : Nat := (j + n - c) % n

theorem slotsBehind_eq {n c j : Nat} (hc : c < n) (hj : j < n) :
    slotsBehind n c j = if c ≤ j then j - c else j + n - c := by
  unfold slotsBehind
  split
  next le => rw [show j + n - c = j - c + n by omega, Nat.add_mod_right, Nat.mod_eq_of_lt (by omega)]
  next => exact Nat.mod_eq_of_lt (by omega)

theorem slotsBehind_eq_zero_iff {n c j : Nat} (hc : c < n) (hj : j < n) : slotsBehind n c j = 0 ↔ j = c := by
  rw [slotsBehind_eq hc hj]
  split <;> omega

theorem slotsBehind_succ {n c j : Nat} (hc : c < n) (hj : j < n) (other : j ≠ c) :
    slotsBehind n c j = slotsBehind n (if c + 1 = n then 0 else c + 1) j + 1 := by
  rw [slotsBehind_eq hc hj, slotsBehind_eq (by split <;> omega) hj]
  split <;> split <;> split <;> omega

section Slots

variable {s : State} {start k : Nat}

theorem State.nextStart_lt (hs : start < s.settings.slots) :
    (if start + 1 = s.settings.slots then 0 else start + 1) < s.settings.slots := by
  split <;> omega

theorem State.firstFreeSlot_lt {count : Nat} (hs : start < s.settings.slots) (h : s.firstFreeSlot start count = some k) :
    k < s.settings.slots := by
  induction count generalizing start with
  | zero => exact absurd h (Option.some_ne_none _).symm
  | succ count ih =>
    simp only [State.firstFreeSlot] at h
    split at h
    · exact Option.some.inj h ▸ hs
    · exact ih (State.nextStart_lt hs) h

/-- The search finds the FREE slot that comes first (R121). -/
theorem State.firstFreeSlot_eq_some {count : Nat} (hs : start < s.settings.slots) (hk : k < s.settings.slots)
    (free : (s.container k).state = .free) (within : slotsBehind s.settings.slots start k < count)
    (least : ∀ j, j < s.settings.slots → (s.container j).state = .free →
      slotsBehind s.settings.slots start k ≤ slotsBehind s.settings.slots start j) :
    s.firstFreeSlot start count = some k := by
  induction count generalizing start with
  | zero => exact absurd within (Nat.not_lt_zero _)
  | succ count ih =>
    simp only [State.firstFreeSlot]
    split
    next here =>
      have first := least start hs here
      rw [(slotsBehind_eq_zero_iff hs hs).2 rfl, Nat.le_zero, slotsBehind_eq_zero_iff hs hk] at first
      rw [first]
    next taken =>
      have behind : ∀ j, j < s.settings.slots → (s.container j).state = .free → slotsBehind s.settings.slots start j =
          slotsBehind s.settings.slots (if start + 1 = s.settings.slots then 0 else start + 1) j + 1 :=
        fun j hj unused => slotsBehind_succ hs hj (fun same => taken (same ▸ unused))
      refine ih (State.nextStart_lt hs) ?_ (fun j hj unused => ?_)
      · rw [behind k hk free] at within
        exact Nat.lt_of_succ_lt_succ within
      · have first := least j hj unused
        rw [behind k hk free, behind j hj unused] at first
        exact Nat.le_of_succ_le_succ first

/-- A search of so many slots that finds none has passed no FREE one. -/
theorem State.firstFreeSlot_eq_none {count : Nat} (hs : start < s.settings.slots) (h : s.firstFreeSlot start count = none)
    (hk : k < s.settings.slots) (within : slotsBehind s.settings.slots start k < count) : (s.container k).state ≠ .free := by
  induction count generalizing start with
  | zero => exact absurd within (Nat.not_lt_zero _)
  | succ count ih =>
    simp only [State.firstFreeSlot] at h
    split at h
    · exact absurd h (Option.some_ne_none _)
    next taken =>
      by_cases here : k = start
      · exact here ▸ taken
      · rw [slotsBehind_succ hs hk here] at within
        exact ih (State.nextStart_lt hs) h (Nat.lt_of_succ_lt_succ within)

end Slots

theorem State.nextSlot.firstFreeSlot {s : State} {k : Nat} (h : s.nextSlot k) :
    s.firstFreeSlot s.containers.cursor s.settings.slots = some k := by
  obtain ⟨cursor, slot, free, least⟩ := h
  exact State.firstFreeSlot_eq_some cursor slot free (Nat.mod_lt _ (Nat.zero_lt_of_lt slot)) least

/-- What the search for an area asks of each. -/
theorem State.areaFree_iff (s : State) (a : Nat) :
    s.containers.table.all (fun e => e.2.area ≠ some a) = true ↔ ¬ s.areaHeld a := by
  simp [State.areaHeld]

/-- The search finds the lowest-numbered free area (R120, R121). -/
theorem State.lowestFreeArea_eq_some_iff (s : State) (a : Nat) : s.lowestFreeArea = some a ↔ s.nextArea a := by
  simp only [State.lowestFreeArea, List.find?_range_eq_some, List.mem_range, Bool.not_eq_true', ← Bool.not_eq_true,
    State.areaFree_iff, not_not]
  exact and_left_comm

theorem State.lowestFreeArea_eq_none_iff (s : State) : s.lowestFreeArea = none ↔ ∀ a, a < 20 → s.areaHeld a := by
  simp only [State.lowestFreeArea, List.find?_eq_none, List.mem_range, State.areaFree_iff, not_not]

/-- Some request could be served: it is ready, a slot is FREE and an area is free (R124). -/
def State.mayServe (s : State) : Prop :=
  (∃ r ∈ s.containers.openWait, ¬ s.ownerOfOpen r.stream) ∧
  (∃ k, k < s.settings.slots ∧ (s.container k).state = .free) ∧ ∃ a, a < 20 ∧ ¬ s.areaHeld a

/-- A container just opened for a stream, with its area (R121). -/
def Container.openedFor (area : Nat) (i : Fin 16) : Container :=
  { Container.initial with state := .opened, area := some area, owner := some i }

/-! ## Appends issued one behind the other -/

/-- An append of a request at a payload offset (R126). -/
def AppendRequest.placed (r : AppendRequest) (offset : Nat) : Append :=
  { offset := offset, length := r.length, fingerprint := r.fingerprint, stream := r.stream, slot := r.slot, tag := r.tag }

/-- The appends of requests issued in order from a fill mark on (R126). -/
def placedFrom (fill : Nat) : List AppendRequest → List Append
  | [] => []
  | r :: rest => r.placed fill :: placedFrom (fill + r.length) rest

/-- The container once appends for these requests have been issued into it, in order (R126). -/
def Container.taking (c : Container) (l : List AppendRequest) : Container :=
  { c with fill := c.fill + (l.map (·.length)).sum, inFlight := c.inFlight ++ placedFrom c.fill l }

/-- Every append copies what its request named. -/
theorem placedFrom_requests (fill : Nat) (l : List AppendRequest) :
    (placedFrom fill l).map (fun a => (a.tag, a.stream, a.slot, a.fingerprint, a.length)) =
      l.map (fun q => (q.tag, q.stream, q.slot, q.fingerprint, q.length)) := by
  induction l generalizing fill with
  | nil => rfl
  | cons r rest ih => simp [placedFrom, AppendRequest.placed, ih]

/-- Every append stands behind those issued before it. -/
theorem placedFrom_offset {fill n : Nat} {l : List AppendRequest} (h : n < (placedFrom fill l).length) :
    (placedFrom fill l)[n].offset = fill + ((l.take n).map (·.length)).sum := by
  induction l generalizing fill n with
  | nil => exact absurd h (Nat.not_lt_zero n)
  | cons r rest ih =>
    cases n with
    | zero => rfl
    | succ n => simp [placedFrom, ih, Nat.add_assoc]

theorem Container.taking_nil (c : Container) : c.taking [] = c := by simp [Container.taking, placedFrom]

theorem Container.taking_cons (c : Container) (r : AppendRequest) (l : List AppendRequest) :
    (c.taking [r]).taking l = c.taking (r :: l) := by
  simp [Container.taking, placedFrom, Nat.add_assoc]

/-! ## The requests issued behind the first -/

/-- Slot `slot` is being filled for stream `i`: its container is OPEN, owned by the stream as its current one, not seal
requested, with an append in flight (R121, R124). -/
structure State.Filling (s : State) (slot : Nat) (i : Fin 16) : Prop where
  state : (s.container slot).state = .opened
  owner : (s.container slot).owner = some i
  unsealed : (s.container slot).sealRequested = none
  busy : (s.container slot).inFlight ≠ []
  current : (s.stream i).current = some slot

section Filling

variable {s : State} {slot : Nat} {i : Fin 16}

theorem State.issueAppend_container_same (s : State) (slot : Nat) (r : AppendRequest) :
    (s.issueAppend slot r).container slot = (s.container slot).taking [r] := s.container_setContainer_same slot _

theorem State.Filling.issueAppend (h : s.Filling slot i) (r : AppendRequest) : (s.issueAppend slot r).Filling slot i := by
  have taken := s.issueAppend_container_same slot r
  constructor
  · rw [taken]; exact h.state
  · rw [taken]; exact h.owner
  · rw [taken]; exact h.unsealed
  · rw [taken]; simp [Container.taking, placedFrom]
  · exact h.current

/-- A seal request while it is filled: the appends in flight go on, and the stream has no current container (R128). -/
theorem State.Filling.sealRequest (h : s.Filling slot i) (r : SealReason) : s.sealRequest slot r =
    (s.modStream i (fun x => { x with current := none })).setContainer slot
      { s.container slot with sealRequested := some r } := by
  simp only [State.sealRequest, h.state, h.unsealed, h.busy, h.owner, State.dropCurrent, State.modStream, h.current, and_self,
    if_true, if_false]

/-- What is left of the stream's requests once its container is filled: what fits is taken, and the first that does not asks
for the FULL seal (R123, R124). -/
theorem State.Filling.issueFollowers (h : s.Filling slot i) (l : List AppendRequest) :
    let t := (s.issueFollowers slot i l).1
    ∃ taken left, l.filter (fun q => q.stream = i) = taken ++ left ∧
      (s.issueFollowers slot i l).2.filter (fun q => q.stream = i) = left ∧
      t.container slot =
        { (s.container slot).taking taken with sealRequested := if left = [] then none else some .full } ∧
      (t.stream i).current = (if left = [] then some slot else none) ∧
      ∀ q rest, left = q :: rest → ((s.container slot).taking taken).fits q.length = false := by
  induction l generalizing s with
  | nil =>
    refine ⟨[], [], rfl, rfl, ?_, h.current, fun q rest none => absurd none.symm (List.cons_ne_nil q rest)⟩
    rw [Container.taking_nil, if_pos rfl, ← h.unsealed]
    rfl
  | cons r rest ih =>
    simp only [State.issueFollowers]
    split
    next same =>
      have mine : (r :: rest).filter (fun q => q.stream = i) = r :: rest.filter (fun q => q.stream = i) :=
        List.filter_cons_of_pos (by simpa using same)
      split
      next fits =>
        obtain ⟨taken, left, followers, kept, filled, current, full⟩ := ih (h.issueAppend r)
        rw [State.issueAppend_container_same, Container.taking_cons] at filled full
        exact ⟨r :: taken, left, by rw [mine, followers, List.cons_append], kept, filled, current, full⟩
      next full =>
        refine ⟨[], (r :: rest).filter (fun q => q.stream = i), rfl, rfl, ?_, ?_, fun q more first => ?_⟩
        · rw [mine, if_neg (List.cons_ne_nil _ _), h.sealRequest, State.container_setContainer_same, Container.taking_nil]
        · rw [mine, if_neg (List.cons_ne_nil _ _), h.sealRequest]
          exact (congrArg Stream.current (State.stream_of_streams rfl)).trans
            (congrArg Stream.current (s.stream_modStream_same i (fun x => { x with current := none })))
        · rw [mine] at first
          obtain ⟨rfl, -⟩ := List.cons.inj first
          rw [Container.taking_nil]
          exact Bool.eq_false_iff.2 full
    next other =>
      have skipped : ∀ l : List AppendRequest, (r :: l).filter (fun q => q.stream = i) = l.filter (fun q => q.stream = i) :=
        fun l => List.filter_cons_of_neg (by simpa using other)
      rw [skipped, skipped]
      exact ih h

/-- The requests of the other streams stay, and so do those streams (R124). -/
theorem State.Filling.issueFollowers_other (h : s.Filling slot i) {j : Fin 16} (other : j ≠ i) (l : List AppendRequest) :
    (s.issueFollowers slot i l).2.filter (fun q => q.stream = j) = l.filter (fun q => q.stream = j) ∧
      (s.issueFollowers slot i l).1.stream j = s.stream j := by
  induction l generalizing s with
  | nil => exact ⟨rfl, rfl⟩
  | cons r rest ih =>
    simp only [State.issueFollowers]
    split
    next same =>
      split
      · obtain ⟨kept, stream⟩ := ih (h.issueAppend r)
        refine ⟨?_, stream⟩
        rw [kept, List.filter_cons_of_neg (by simpa [same] using other.symm)]
      · rw [h.sealRequest]
        exact ⟨rfl, (State.stream_of_streams rfl).trans
          ((s.stream_modStream i j (fun x => { x with current := none })).trans (if_neg other))⟩
    next =>
      obtain ⟨kept, stream⟩ := ih h
      exact ⟨by simp only [List.filter_cons, kept], stream⟩

end Filling

theorem State.issueFollowers_sublist (s : State) (slot : Nat) (i : Fin 16) (l : List AppendRequest) :
    (s.issueFollowers slot i l).2.Sublist l := by
  induction l generalizing s with
  | nil => exact List.Sublist.refl _
  | cons r rest ih =>
    simp only [State.issueFollowers]
    split
    · split
      · exact (ih _).cons r
      · exact List.Sublist.refl _
    · exact (ih s).cons_cons r

/-! ## One service -/

/-- A container is opened for a request, which is issued, with the stream's later ones behind it (R121, R124). -/
def State.serveOne (s : State) (r : AppendRequest) (others : List AppendRequest) (slot area : Nat) : State :=
  let issued := ((s.openContainer slot area r.stream).issueAppend slot r).issueFollowers slot r.stream others
  { issued.1 with containers := { issued.1.containers with openWait := issued.2 } }

/-- What a service takes: the oldest ready request with the others in their order, a FREE slot and a free area (R124). -/
structure State.Serves (s : State) (r : AppendRequest) (others : List AppendRequest) (slot area : Nat) : Prop where
  request : s.firstReady s.containers.openWait = some (r, others)
  slot : s.firstFreeSlot s.containers.cursor s.settings.slots = some slot
  area : s.lowestFreeArea = some area

theorem State.Serves.serveOpenWaitUpTo {s : State} {r : AppendRequest} {others : List AppendRequest} {slot area : Nat}
    (h : s.Serves r others slot area) (n : Nat) :
    s.serveOpenWaitUpTo (n + 1) = (s.serveOne r others slot area).serveOpenWaitUpTo n := by
  simp only [State.serveOpenWaitUpTo, h.request, h.slot, h.area]
  rfl

/-- A look serves a request, or finds none that could be served. -/
theorem State.serveOpenWaitUpTo_cases (s : State) :
    (∃ r others slot area, s.Serves r others slot area) ∨
      (s.containers.cursor < s.settings.slots → ¬ s.mayServe) ∧ ∀ n, s.serveOpenWaitUpTo n = s := by
  cases request : s.firstReady s.containers.openWait with
  | none =>
    refine .inr ⟨fun _ ⟨⟨r, waits, ready⟩, _⟩ => ready (State.firstReady_eq_none_iff.1 request r waits), fun n => ?_⟩
    cases n <;> simp [State.serveOpenWaitUpTo, request]
  | some pair =>
    cases slot : s.firstFreeSlot s.containers.cursor s.settings.slots with
    | none =>
      refine .inr ⟨fun cursor ⟨_, ⟨k, lt, free⟩, _⟩ => ?_, fun n => ?_⟩
      · exact State.firstFreeSlot_eq_none cursor slot lt (Nat.mod_lt _ (Nat.zero_lt_of_lt lt)) free
      · cases n <;> simp [State.serveOpenWaitUpTo, request, slot]
    | some k =>
      cases area : s.lowestFreeArea with
      | none =>
        refine .inr ⟨fun _ ⟨_, _, a, lt, unheld⟩ => unheld ((State.lowestFreeArea_eq_none_iff s).1 area a lt), fun n => ?_⟩
        cases n <;> simp [State.serveOpenWaitUpTo, request, slot, area]
      | some a => exact .inl ⟨pair.1, pair.2, k, a, request, slot, area⟩

theorem State.openContainer_container_same (s : State) (slot area : Nat) (i : Fin 16) :
    (s.openContainer slot area i).container slot = .openedFor area i :=
  s.container_setContainer_same slot (.openedFor area i)

/-- The container just opened is being filled. -/
theorem State.openContainer_filling (s : State) (slot area : Nat) (r : AppendRequest) :
    ((s.openContainer slot area r.stream).issueAppend slot r).Filling slot r.stream := by
  have taken := (s.openContainer slot area r.stream).issueAppend_container_same slot r
  rw [State.openContainer_container_same] at taken
  constructor
  · rw [taken]; rfl
  · rw [taken]; rfl
  · rw [taken]; rfl
  · rw [taken]; exact List.cons_ne_nil _ _
  · simp [State.stream_of_streams (State.issueAppend_streams _ slot r), State.openContainer]

theorem State.openContainer_stream_of_ne (s : State) (slot area : Nat) {i j : Fin 16} (other : j ≠ i) :
    (s.openContainer slot area i).stream j = s.stream j := (State.stream_modStream _ i j _).trans (if_neg other)

section Service

variable {s : State} {r : AppendRequest} {others : List AppendRequest} {slot area : Nat}

theorem State.Serves.ready (h : s.Serves r others slot area) : ¬ s.ownerOfOpen r.stream := by
  obtain ⟨-, -, -, -, -, ready⟩ := State.firstReady_eq_some_iff.1 h.request
  exact ready

/-- A service leaves the requests and the context of every other stream (R124). -/
theorem State.Serves.other (h : s.Serves r others slot area) {j : Fin 16} (other : j ≠ r.stream) :
    (s.serveOne r others slot area).containers.openWait.filter (fun q => q.stream = j) =
        s.containers.openWait.filter (fun q => q.stream = j) ∧
      (s.serveOne r others slot area).stream j = s.stream j := by
  obtain ⟨before, after, queue, rfl, -, -⟩ := State.firstReady_eq_some_iff.1 h.request
  obtain ⟨kept, stream⟩ := (s.openContainer_filling slot area r).issueFollowers_other other (before ++ after)
  refine ⟨kept.trans ?_, stream.trans (State.openContainer_stream_of_ne s slot area other)⟩
  rw [queue, List.filter_append, List.filter_append, List.filter_cons_of_neg (by simpa using other.symm)]

/-- Each service takes a request out of the queue (R124). -/
theorem State.Serves.length_lt (h : s.Serves r others slot area) :
    (s.serveOne r others slot area).containers.openWait.length < s.containers.openWait.length := by
  obtain ⟨before, after, queue, rfl, -, -⟩ := State.firstReady_eq_some_iff.1 h.request
  refine (State.issueFollowers_sublist _ slot r.stream (before ++ after)).length_le.trans_lt ?_
  rw [queue]
  simp

/-- A service leaves every container that is not FREE. -/
theorem State.Serves.container (h : s.Serves r others slot area) {k : Nat} (used : (s.container k).state ≠ .free) :
    (s.serveOne r others slot area).container k = s.container k :=
  State.serveOpenWaitUpTo_container 1 used ▸ congrArg (State.container · k) (h.serveOpenWaitUpTo 0).symm

end Service

/-- While a stream owns an OPEN container, the look leaves its requests waiting and its context alone (R124). -/
theorem State.serveOpenWaitUpTo_of_owner {s : State} {k : Nat} {i : Fin 16} (n : Nat)
    (opened : (s.container k).state = .opened) (owner : (s.container k).owner = some i) :
    (s.serveOpenWaitUpTo n).containers.openWait.filter (fun q => q.stream = i) =
        s.containers.openWait.filter (fun q => q.stream = i) ∧
      (s.serveOpenWaitUpTo n).stream i = s.stream i := by
  induction n generalizing s with
  | zero => exact ⟨rfl, rfl⟩
  | succ n ih =>
    rcases s.serveOpenWaitUpTo_cases with ⟨r, others, slot, area, serves⟩ | ⟨-, idle⟩
    · have other : i ≠ r.stream := fun same => serves.ready (same ▸ State.ownerOfOpen_of_container opened owner)
      have stands := serves.container (k := k) (by rw [opened]; exact ContainerState.noConfusion)
      obtain ⟨waiting, stream⟩ := serves.other other
      rw [serves.serveOpenWaitUpTo]
      obtain ⟨waiting', stream'⟩ := ih (by rw [stands]; exact opened) (by rw [stands]; exact owner)
      exact ⟨waiting'.trans waiting, stream'.trans stream⟩
    · rw [idle]
      exact ⟨rfl, rfl⟩

/-! ## The queue left -/

theorem State.serveOne_settings (s : State) (r : AppendRequest) (others : List AppendRequest) (slot area : Nat) :
    (s.serveOne r others slot area).settings = s.settings :=
  (State.issueFollowers_prepares ((s.openContainer slot area r.stream).issueAppend slot r) slot r.stream others).settings

/-- A service moves the cursor to a slot (R121). -/
theorem State.Serves.cursor_lt {s : State} {r : AppendRequest} {others : List AppendRequest} {slot area : Nat}
    (h : s.Serves r others slot area) (cursor : s.containers.cursor < s.settings.slots) :
    (s.serveOne r others slot area).containers.cursor < s.settings.slots := by
  have moved : (s.serveOne r others slot area).containers.cursor = if slot + 1 = s.settings.slots then 0 else slot + 1 :=
    (State.issueFollowers_prepares _ slot r.stream others).cursor
  rw [moved]
  exact State.nextStart_lt (State.firstFreeSlot_lt cursor h.slot)

/-- A look that may serve as many requests as wait leaves none that could be served, and the cursor on a slot (R121, R124). -/
theorem State.serveOpenWaitUpTo_settles {s : State} {n : Nat} (enough : s.containers.openWait.length ≤ n)
    (cursor : s.containers.cursor < s.settings.slots) :
    (s.serveOpenWaitUpTo n).containers.cursor < s.settings.slots ∧ ¬ (s.serveOpenWaitUpTo n).mayServe := by
  induction n generalizing s with
  | zero =>
    have none : s.containers.openWait = [] := List.length_eq_zero_iff.1 (Nat.le_zero.1 enough)
    exact ⟨cursor, fun ⟨⟨r, waits, _⟩, _⟩ => absurd (none ▸ waits : r ∈ []) List.not_mem_nil⟩
  | succ n ih =>
    rcases s.serveOpenWaitUpTo_cases with ⟨r, others, slot, area, serves⟩ | ⟨none, idle⟩
    · rw [serves.serveOpenWaitUpTo, ← s.serveOne_settings r others slot area]
      refine ih (Nat.le_of_lt_succ (serves.length_lt.trans_le enough)) ?_
      rw [State.serveOne_settings]
      exact serves.cursor_lt cursor
    · rw [idle]
      exact ⟨cursor, none cursor⟩

theorem State.serveOpenWait_settles {s : State} (cursor : s.containers.cursor < s.settings.slots) :
    s.serveOpenWait.containers.cursor < s.settings.slots ∧ ¬ s.serveOpenWait.mayServe :=
  State.serveOpenWaitUpTo_settles le_rfl cursor

/-! ## The first service of a look -/

/-- The container opened for the oldest ready request, filled with it and the stream's later ones, as the whole look leaves it
(R121, R123, R124, R126, R128). -/
theorem State.Serves.opened {s : State} {r : AppendRequest} {others : List AppendRequest} {slot area : Nat}
    (h : s.Serves r others slot area) (n : Nat) :
    let t := s.serveOpenWaitUpTo (n + 1)
    let c : Container := .openedFor area r.stream
    ∃ taken left, others.filter (fun q => q.stream = r.stream) = taken ++ left ∧
      t.containers.openWait.filter (fun q => q.stream = r.stream) = left ∧
      t.container slot = { c.taking (r :: taken) with sealRequested := if left = [] then none else some .full } ∧
      (t.stream r.stream).current = (if left = [] then some slot else none) ∧
      ∀ q rest, left = q :: rest → (c.taking (r :: taken)).fits q.length = false := by
  obtain ⟨taken, left, followers, kept, filled, current, full⟩ :=
    (s.openContainer_filling slot area r).issueFollowers others
  rw [State.issueAppend_container_same, State.openContainer_container_same, Container.taking_cons] at filled full
  set u := s.serveOne r others slot area with served
  have state : (u.container slot).state = .opened := congrArg Container.state filled
  obtain ⟨waiting, stream⟩ := State.serveOpenWaitUpTo_of_owner n state (congrArg Container.owner filled)
  have stands : (u.serveOpenWaitUpTo n).container slot = u.container slot :=
    State.serveOpenWaitUpTo_container n (by rw [state]; exact ContainerState.noConfusion)
  dsimp only
  rw [h.serveOpenWaitUpTo, ← served, waiting, stream, stands]
  exact ⟨taken, left, followers, kept, filled, current, full⟩

/-- The service that a look makes for its oldest ready request (R121, R124). -/
theorem State.serves_of_oldest {s : State} {before after : List AppendRequest} {r : AppendRequest} {k b : Nat}
    (queue : s.containers.openWait = before ++ r :: after) (owned : ∀ q ∈ before, s.ownerOfOpen q.stream)
    (ready : ¬ s.ownerOfOpen r.stream) (slot : s.nextSlot k) (area : s.nextArea b) : s.Serves r (before ++ after) k b :=
  ⟨State.firstReady_eq_some_iff.2 ⟨before, after, queue, rfl, owned, ready⟩, slot.firstFreeSlot,
    (s.lowestFreeArea_eq_some_iff b).2 area⟩

end Sys2Proof.Machine
end

