-- ==== Sys2Proof/Proofs/OpenWaitKept.lean ====
section
/-! PROOFS. What a whole step makes of the open-wait queue (R121, R124, R133, R152, R153, R162) and of the flags, ATTN and QUIET
(R122, R165, R168): a step that settles serves the queue, every other step leaves it, and a step that changes a condition of the
outputs ends with the outputs following. -/

namespace Sys2Proof.Machine

/-! ## The outputs -/

/-- Each level flag stands in the flags exactly when its condition holds (R168, in the bits of R170). -/
theorem levelMasks_iff : ∀ low out ready : Bool,
    let flags := (if low then EventFlag.slotsLow.mask else 0) ||| (if out then EventFlag.slotsOut.mask else 0) |||
      (if ready then EventFlag.reportReady.mask else 0)
    (flags &&& 0x20#8 = 0x20#8 ↔ low = true) ∧ (flags &&& 0x40#8 = 0x40#8 ↔ out = true) ∧
      (flags &&& 0x80#8 = 0x80#8 ↔ ready = true) := by decide

/-- At the end of a step the flags, ATTN and QUIET follow their conditions (R122, R165, R168). -/
theorem State.refresh_outputsAgree (s : State) : s.refresh.outputsAgree := by
  have levels := levelMasks_iff
    (decide (s.station ≠ .reset ∧ s.station ≠ .loading ∧ s.containers.freeSlots ≤ s.settings.slotsLow))
    (decide (s.station ≠ .reset ∧ s.station ≠ .loading ∧ s.containers.freeSlots = 0)) (decide (s.management.reports ≠ []))
  simp only [decide_eq_true_eq] at levels
  obtain ⟨low, out, ready⟩ := levels
  refine ⟨?_, ?_, ?_, s.attn_refresh_iff, ?_⟩
  · rw [State.refresh_levels s rfl]
    exact low.trans and_assoc.symm
  · rw [State.refresh_levels s rfl]
    exact out.trans and_assoc.symm
  · rw [State.refresh_levels s rfl]
    exact ready
  · rw [State.refresh_quiet, ← State.quietHolds_refresh]
    exact State.quietHolds_iff _

/-- What the outputs and their conditions are read from. -/
def State.outputFields (s : State) := (s.station, s.quiet, s.settings, s.containers, s.store, s.management)

theorem State.outputsAgree.of_eq {s t : State} (h : s.outputsAgree) (same : t.outputFields = s.outputFields) :
    t.outputsAgree := by
  simp only [State.outputFields, Prod.mk.injEq] at same
  obtain ⟨station, quiet, settings, containers, store, management⟩ := same
  simpa only [State.outputsAgree, State.quietDue, station, quiet, settings, containers, store, management] using h

/-! ## The open-wait queue -/

/-- What every step keeps of the open-wait queue (R121, R124, R133, R152, R153, R162), in tables of canonical form. -/
def State.WaitSound (s : State) : Prop := s.canonical ∧ s.nothingWaitsUnlessActive ∧ s.openWaitSettled

/-- What the invariant of the open-wait queue is read from, beside the form of the tables. -/
def State.waitFields (s : State) := (s.station, s.settings, s.containers, s.store)

/-- Once S is loaded the allocation cursor names a slot (R121). -/
def State.cursorNamed (s : State) : Prop :=
  s.station ≠ .reset → s.station ≠ .loading → s.containers.cursor < s.settings.slots

theorem State.openWaitSettled_iff (s : State) : s.openWaitSettled ↔ s.cursorNamed ∧ ¬ s.mayServe := by
  simp only [State.openWaitSettled, State.cursorNamed, State.mayServe, State.ownerOfOpen, State.areaHeld, not_exists, not_and,
    ne_eq]

theorem State.mayServe_congr {s t : State} (containers : t.containers = s.containers) (settings : t.settings = s.settings) :
    t.mayServe ↔ s.mayServe := by
  simp only [State.mayServe, State.ownerOfOpen, State.areaHeld, State.container, containers, settings]

theorem State.WaitSound.of_eq {s t : State} (h : s.WaitSound) (canonical : s.canonical → t.canonical)
    (same : t.waitFields = s.waitFields) : t.WaitSound := by
  simp only [State.waitFields, Prod.mk.injEq] at same
  obtain ⟨station, settings, containers, store⟩ := same
  obtain ⟨form, idle, settled⟩ := h
  refine ⟨canonical form, ?_, ?_⟩
  · simpa only [State.nothingWaitsUnlessActive, State.active, station, containers, store] using idle
  · rw [State.openWaitSettled_iff, State.mayServe_congr containers settings, State.cursorNamed, station, containers, settings]
    exact s.openWaitSettled_iff.1 settled

/-- The queue has been served: the tables are canonical, the cursor names a slot, and no request could be served (R121,
R124). -/
structure State.WaitServed (s : State) : Prop where
  canonical : s.canonical
  cursor : s.containers.cursor < s.settings.slots
  served : ¬ s.mayServe

theorem State.WaitServed.of_eq {s t : State} (h : s.WaitServed) (tables : t.tables = s.tables)
    (containers : t.containers = s.containers) (settings : t.settings = s.settings) : t.WaitServed :=
  ⟨h.canonical.of_eq tables, by rw [containers, settings]; exact h.cursor,
    fun may => h.served ((State.mayServe_congr containers settings).1 may)⟩

/-- In RUNNING and HOLDING a queue that has been served is all there is to keep. -/
theorem State.WaitServed.sound {s : State} (h : s.WaitServed) (active : s.active = true) : s.WaitSound :=
  ⟨h.canonical, fun idle => absurd (active.symm.trans idle) (by decide),
    s.openWaitSettled_iff.2 ⟨fun _ _ => h.cursor, h.served⟩⟩

/-! ### The looks of a step -/

/-- What a look needs to serve the queue. -/
structure State.WaitReady (s : State) : Prop where
  canonical : s.canonical
  cursor : s.containers.cursor < s.settings.slots

theorem State.WaitServed.ready {s : State} (h : s.WaitServed) : s.WaitReady := ⟨h.canonical, h.cursor⟩

theorem State.WaitReady.prepared {s t : State} (h : s.WaitReady) (part : s.Prepares t) : t.WaitReady :=
  ⟨part.canonical h.canonical, by rw [part.cursor, part.settings]; exact h.cursor⟩

/-- In RUNNING and HOLDING a look can serve. -/
theorem State.WaitSound.ready {s : State} (h : s.WaitSound) (active : s.active = true) : s.WaitReady := by
  obtain ⟨canonical, -, settled⟩ := h
  refine ⟨canonical, (s.openWaitSettled_iff.1 settled).1 (fun reset => ?_) (fun loading => ?_)⟩
  · simp [State.active, reset] at active
  · simp [State.active, loading] at active

theorem State.serveOpenWaitUpTo_canonical {s : State} (n : Nat) (h : s.canonical) : (s.serveOpenWaitUpTo n).canonical := by
  induction n generalizing s with
  | zero => exact h
  | succ n ih =>
    rcases s.serveOpenWaitUpTo_cases with ⟨r, others, slot, area, serves⟩ | ⟨-, idle⟩
    · rw [serves.serveOpenWaitUpTo]
      have opened : (s.openContainer slot area r.stream).canonical :=
        ((s.setContainer_prepares slot (.openedFor area r.stream)).canonical h).of_eq rfl
      exact ih (((State.issueFollowers_prepares _ slot r.stream others).after
        (State.issueAppend_prepares _ slot r) |>.canonical opened).of_eq rfl)
    · rw [idle]
      exact h

theorem State.WaitReady.serveOpenWait {s : State} (h : s.WaitReady) : s.serveOpenWait.WaitServed := by
  obtain ⟨cursor, served⟩ := State.serveOpenWait_settles h.cursor
  exact ⟨State.serveOpenWaitUpTo_canonical _ h.canonical, by rw [State.serveOpenWait_settings]; exact cursor, served⟩

theorem State.WaitServed.emitRecords {s : State} (h : s.WaitServed) : s.emitRecords.WaitServed :=
  h.of_eq (by simp [State.tables]) s.emitRecords_containers s.emitRecords_settings

/-- A refused container frees its area, and the queue is served again (R131, R148). -/
theorem State.WaitReady.refuseFlush {s : State} (h : s.WaitReady) (j : FlushJob) (rest : List FlushJob) :
    (s.refuseFlush j rest).WaitServed := by
  have left : s.Prepares { s with store := { s.store with flushQueue := rest } } := .of_eq rfl
  exact (h.prepared (left.trans (State.flushOutcome_prepares _ j.slot true))).serveOpenWait.emitRecords

/-- The arbiter leaves a served queue served, whatever it does at its looks (R151). -/
theorem looking_waitServed : Looking (fun s t => s.WaitServed → t.WaitServed) where
  trans h g := g ∘ h
  issued _ _ _ _ h := h.of_eq rfl rfl rfl
  refused _ j rest h := h.ready.refuseFlush j rest

theorem State.WaitServed.concluded {s : State} (h : s.WaitServed) : s.placeReports.refresh.WaitServed :=
  h.of_eq (by simp [State.tables]) (by simp) (by simp)

/-- The last part of a step leaves the queue served (R124). -/
theorem State.WaitReady.settle {s : State} (h : s.WaitReady) : s.settle.WaitServed :=
  (looking_waitServed.lookAtPort _ h.serveOpenWait.emitRecords).concluded

theorem State.WaitReady.settleCompletion {s : State} (h : s.WaitReady) : s.settleCompletion.WaitServed :=
  (looking_waitServed.arbitrate _ _ h.serveOpenWait.emitRecords).concluded

/-! ## Steps -/

/-- A step that keeps the open-wait queue's invariant and leaves the outputs agreeing. -/
structure State.Upholds (s t : State) : Prop where
  waits : s.WaitSound → t.WaitSound
  outputs : s.outputsAgree → t.outputsAgree

theorem State.Upholds.trans {s t u : State} (h : s.Upholds t) (g : t.Upholds u) : s.Upholds u :=
  ⟨g.waits ∘ h.waits, g.outputs ∘ h.outputs⟩

/-- The same with the last part of the work first. -/
theorem State.Upholds.after {s t u : State} (g : t.Upholds u) (h : s.Upholds t) : s.Upholds u := h.trans g

/-- A step that touches nothing that either is read from. -/
theorem State.Upholds.of_prepares {s t : State} (h : s.Prepares t) (same : t.outputFields = s.outputFields) :
    s.Upholds t := by
  refine ⟨fun sound => sound.of_eq h.canonical ?_, fun agree => agree.of_eq same⟩
  simp only [State.outputFields, Prod.mk.injEq] at same
  obtain ⟨station, -, settings, containers, store, -⟩ := same
  simp only [State.waitFields, station, settings, containers, store]

theorem State.Upholds.of_eq {s t : State} (tables : t.tables = s.tables) (same : t.outputFields = s.outputFields) :
    s.Upholds t := by
  refine .of_prepares (.of_eq ?_) same
  simp only [State.outputFields, Prod.mk.injEq] at same
  obtain ⟨station, -, settings, containers, -, -⟩ := same
  simp only [State.preparedFields, tables, station, settings, containers]

/-- A step that ends with the outputs following, and before that touches nothing that the queue is read from. -/
theorem State.Upholds.refresh {s u : State} (h : s.WaitSound → u.WaitSound) : s.Upholds u.refresh :=
  ⟨fun sound => (h sound).of_eq (fun form => form.of_eq rfl) rfl, fun _ => u.refresh_outputsAgree⟩

theorem State.Upholds.refresh_of_eq {s u : State} (tables : u.tables = s.tables) (same : u.waitFields = s.waitFields) :
    s.Upholds u.refresh := .refresh (fun sound => sound.of_eq (fun form => form.of_eq tables) same)

theorem State.active_of_station {s t : State} (h : t.station = s.station) : t.active = s.active := by
  rw [State.active, State.active, h]

/-- A step that prepares and settles, from a station in RUNNING or HOLDING. -/
theorem State.Prepares.settle {s u : State} (h : s.Prepares u) (active : s.active = true) : s.Upholds u.settle where
  waits sound := ((sound.ready active).prepared h).settle.sound
    ((State.active_of_station (u.settle_station.trans h.station)).trans active)
  outputs _ := State.refresh_outputsAgree _

theorem State.Prepares.settleCompletion {s u : State} (h : s.Prepares u) (active : s.active = true) :
    s.Upholds u.settleCompletion where
  waits sound := ((sound.ready active).prepared h).settleCompletion.sound
    ((State.active_of_station (u.settleCompletion_station.trans h.station)).trans active)
  outputs _ := State.refresh_outputsAgree _

end Sys2Proof.Machine
end

