-- ==== Sys2Proof/Proofs/OpenWaitStays.lean ====
section
/-! PROOFS. Command by command: every one keeps the open-wait queue's invariant and leaves the outputs agreeing (R121, R122, R124,
R133, R152, R153, R162, R165, R168). -/

namespace Sys2Proof.Machine

section Commands

variable {s t : State}

/-! ### The intake link -/

theorem State.active_of_gate (reset : ¬ s.station = .reset) (starting : ¬ s.starting = true) : s.active = true := by
  cases station : s.station <;> simp_all [State.starting, State.active]

theorem State.intakeGate_upholds {b : Byte} {k : SegmentKind} {q : Half} {own : Fin 16 → State}
    (h : s.active = true → ∀ i, s.Upholds (own i)) : s.Upholds (s.intakeGate b k q own) := by
  simp only [State.intakeGate]
  split
  · exact .of_eq rfl rfl
  next reset =>
    split
    · exact .of_eq rfl rfl
    next starting =>
      split
      · exact .of_eq rfl rfl
      · split
        · exact .of_eq rfl rfl
        · exact h (State.active_of_gate reset starting) _

theorem State.takeOpen_upholds (s : State) (i : Fin 16) (q : Half) (branch base size : Word) :
    s.Upholds (s.takeOpen i q branch base size) := by
  simp only [State.takeOpen]
  repeat' split
  all_goals exact .of_eq rfl rfl

theorem State.acceptData_upholds (s : State) (i : Fin 16) (q : Half) (payload : List Byte) :
    s.Upholds (s.acceptData i q payload) := by
  simp only [State.acceptData]
  rw [State.addBytes_same]
  have counted : ∀ choices, s.Prepares { s with choices := choices } := fun _ => .of_eq rfl
  exact .of_prepares (((counted _).trans (State.writeStaging_prepares _ _ payload)).trans (.of_eq rfl)) rfl

theorem State.takeData_upholds (s : State) (i : Fin 16) (q : Half) (payload : List Byte) :
    s.Upholds (s.takeData i q payload) := by
  have replied : ∀ (u : State) status, u.Upholds (u.replyFor i .data q status) := fun _ _ => .of_eq rfl rfl
  simp only [State.takeData]
  split
  · exact replied s _
  · repeat' split
    · exact replied s _
    · exact replied s _
    · exact replied s _
    · exact replied s _
    · exact (s.acceptData_upholds i q payload).trans (replied _ _)

theorem State.takeClose_upholds (s : State) (i : Fin 16) (q : Half) : s.Upholds (s.takeClose i q) := by
  simp only [State.takeClose]
  repeat' split
  all_goals exact .of_eq rfl rfl

theorem State.abortNow_upholds (active : s.active = true) (i : Fin 16) : s.Upholds (s.abortNow i) := by
  have replied : ∀ (u : State) b k q status n, u.Prepares (u.reply b k q status n) := fun _ _ _ _ _ _ => .of_eq rfl
  have withdrawn : ∀ u : State, u.Prepares (u.withdrawClosed i) := fun _ => .of_eq rfl
  simp only [State.abortNow]
  exact State.Prepares.settle ((replied _ _ _ _ _ _).after ((State.abortRelease_prepares _ i).after
    ((State.tearDown_prepares _ i .awaited).after ((withdrawn _).after (s.modStream_prepares i _))))) active

theorem State.takeAbort_upholds (active : s.active = true) (i : Fin 16) : s.Upholds (s.takeAbort i) := by
  simp only [State.takeAbort]
  split
  · exact .of_eq rfl rfl
  · exact .of_eq rfl rfl
  · exact State.abortNow_upholds active i
  · exact State.abortNow_upholds active i
  · exact State.abortNow_upholds active i

/-! ### The station states -/

theorem State.reset_waitSound : State.reset.WaitSound ∧ State.reset.outputsAgree := by
  obtain ⟨canonical, -, -, -, -, -, -, -, -, -, agree, settled, idle⟩ := resetMeetsTheInvariants
  exact ⟨⟨canonical, idle, settled⟩, agree⟩

theorem Sparse.wf_cutBuckets (s : State) (h : Sparse.wf [] s.index.buckets = true) : Sparse.wf [] s.cutBuckets = true := by
  simp only [State.cutBuckets]
  split
  · exact h
  · exact Sparse.wf_put _ _ _ _ h

/-- After RESET the queue and the outputs are as reset has them (R133, R162). -/
theorem execResetAssert_upholds (h : execResetAssert s = .next t) : s.Upholds t := by
  obtain rfl := Host.Outcome.next.inj h
  obtain ⟨sound, agree⟩ := State.reset_waitSound
  exact ⟨fun ⟨⟨staging, buckets, _⟩, _⟩ => sound.of_eq (fun _ => ⟨staging, Sparse.wf_cutBuckets s buckets, rfl⟩) rfl,
    fun _ => agree.of_eq rfl⟩

/-- In LOADING, as in RESET, nothing waits and no slot flag stands (R133, R162). -/
theorem execResetRelease_upholds (h : execResetRelease s = .next t) : s.Upholds t := by
  obtain rfl := Host.Outcome.next.inj h
  split
  next reset =>
    refine ⟨fun ⟨canonical, idle, settled⟩ => ⟨canonical, fun _ => idle (by simp [State.active, reset]), ?_⟩, fun agree => ?_⟩
    · exact (State.openWaitSettled_iff _).2 ⟨fun _ loading => absurd rfl loading, (s.openWaitSettled_iff.1 settled).2⟩
    · simpa [State.outputsAgree, State.quietDue, reset] using agree
  · exact .of_eq rfl rfl

/-- Once S is loaded, a sound queue is a served one. -/
theorem State.WaitSound.served (h : s.WaitSound) (reset : s.station ≠ .reset) (loading : s.station ≠ .loading) :
    s.WaitServed := by
  obtain ⟨canonical, -, settled⟩ := h
  obtain ⟨cursor, served⟩ := s.openWaitSettled_iff.1 settled
  exact ⟨canonical, cursor reset loading, served⟩

/-- With the settings in force the table is empty and the cursor on slot 0 (R133). -/
theorem State.loadSettings_waitSound (h : s.WaitSound) (loading : s.station = .loading) {settings : Settings}
    (slots : 0 < settings.slots) : (s.loadSettings settings).WaitSound := by
  obtain ⟨⟨staging, buckets, -⟩, idle, -⟩ := h
  obtain ⟨store, -⟩ := idle (by simp [State.active, loading])
  exact ⟨⟨staging, buckets, rfl⟩, fun _ => ⟨store, rfl⟩, (State.openWaitSettled_iff _).2
    ⟨fun _ _ => slots, fun ⟨⟨r, waits, _⟩, _⟩ => absurd waits List.not_mem_nil⟩⟩

theorem execSettingsLoaded_upholds {a : Bool} {image : List Byte} (h : execSettingsLoaded a image s = .next t) :
    s.Upholds t := by
  obtain rfl := Host.Outcome.next.inj h
  split
  next loading =>
    refine .refresh (fun sound => ?_)
    obtain ⟨-, -, -, -, -, -, -, -, -, -, -, -, -, -, -, -, -, -, -, slots, -⟩ := Settings.inRange_load a image
    have loaded := State.loadSettings_waitSound sound loading (Nat.lt_of_lt_of_le (by decide) slots)
    split
    · exact loaded
    · exact loaded.of_eq id rfl
  · exact .of_eq rfl rfl

/-- A station that has entered HOLDING makes its hold round and settles (R141, R164). -/
theorem State.WaitServed.holds (h : s.WaitServed) : s.enterHolding.settle.WaitSound := by
  have holding : ({ s with station := .holding } : State).WaitServed := h.of_eq rfl rfl rfl
  refine (holding.ready.prepared (State.askRound_prepares _)).settle.sound ?_
  rw [State.active_of_station (State.settle_station _), State.active_of_station (State.askRound_prepares _).station]
  rfl

theorem execClearWalkStep_upholds (h : execClearWalkStep s = .next t) : s.Upholds t := by
  obtain rfl := Host.Outcome.next.inj h
  dsimp only
  split
  next clearing =>
    have cleared : s.Prepares { s.setBucket s.clearPosition [] with clearPosition := s.clearPosition + 1 } :=
      (s.setBucket_prepares _ _).trans (.of_eq rfl)
    have walked : s.Upholds { s.setBucket s.clearPosition [] with clearPosition := s.clearPosition + 1 } :=
      .of_prepares cleared rfl
    have running : s.WaitSound →
        ({ s.setBucket s.clearPosition [] with clearPosition := s.clearPosition + 1 } : State).enterRunning.WaitServed :=
      fun sound => ((walked.waits sound).served (by simp [clearing]) (by simp [clearing])).of_eq rfl rfl rfl
    split
    · exact walked
    · split
      · exact ⟨fun sound => (running sound).holds, fun _ => State.refresh_outputsAgree _⟩
      · exact .refresh (fun sound => (running sound).sound rfl)
  · exact .of_eq rfl rfl

theorem execHoldAssert_upholds (h : execHoldAssert s = .next t) : s.Upholds t := by
  obtain rfl := Host.Outcome.next.inj h
  split
  next running =>
    have asserted : s.WaitSound → ({ s with hold := true } : State).WaitServed :=
      fun sound => (sound.served (by simp [running]) (by simp [running])).of_eq rfl rfl rfl
    exact ⟨fun sound => (asserted sound).holds, fun _ => State.refresh_outputsAgree _⟩
  · exact .of_eq rfl rfl

theorem execHoldRelease_upholds (h : execHoldRelease s = .next t) : s.Upholds t := by
  obtain rfl := Host.Outcome.next.inj h
  split
  next holding =>
    have released : s.WaitSound → ({ s with hold := false, station := .running } : State).WaitServed :=
      fun sound => (sound.served (by simp [holding]) (by simp [holding])).of_eq rfl rfl rfl
    exact .refresh (fun sound => (released sound).sound rfl)
  · exact .of_eq rfl rfl

/-! ### Chunking and fingerprints -/

theorem State.closeHead_upholds (active : s.active = true) (i : Fin 16) : s.Upholds (s.closeHead i) := by
  have ended : ∀ p d, s.Prepares (s.endChunk i p d) := fun _ _ => .of_eq rfl
  simp only [State.closeHead]
  refine State.Prepares.settle ((State.closeCheck_prepares _ i).after ((State.modStream_prepares _ i _).after
    ((State.modStream_prepares _ i _).after ?_))) active
  split
  · split
    · exact ended _ _
    · exact .of_eq rfl
  · exact .of_eq rfl

/-- Streams are assigned in RUNNING only (R19). -/
theorem State.active_of_nextStream {i : Fin 16} (h : s.nextStream = some i) : s.active = true := by
  obtain ⟨running, -⟩ := (State.eligible_iff i).1 (List.find?_some h)
  simp [State.active, running]

theorem State.assign_upholds (active : s.active = true) (e : Fin 4) (i : Fin 16) : s.Upholds (s.assign e i) := by
  have turned : s.Upholds { s with lastAssigned := i } := .of_eq rfl rfl
  have same : ({ s with lastAssigned := i } : State).active = s.active := State.active_of_station rfl
  simp only [State.assign]
  split
  · exact .of_eq rfl rfl
  · exact turned.trans (State.closeHead_upholds (same.trans active) i)
  · exact .of_eq rfl rfl

theorem execEngineAssign_upholds (h : execEngineAssign s = .next t) : s.Upholds t := by
  obtain rfl := Host.Outcome.next.inj h
  split
  next next => exact State.assign_upholds (State.active_of_nextStream next) _ _
  · exact .of_eq rfl rfl

theorem State.takeByte_upholds (s : State) (e : Fin 4) (i : Fin 16) (c : ChunkerContext) (p : Fin 32) (y : Byte)
    (position length : Nat) : s.Upholds (s.takeByte e i c p y position length) := by
  have ended : ∀ (u : State) d b, u.Upholds (if b = true then u.endChunk i p d else u) := by
    intro u d b
    split <;> exact .of_eq rfl rfl
  have taken : ∀ address, s.Upholds { s.modStream i (fun x => x.modSlot p (fun q => { q with length := q.length + 1 })) with
      staging := writeByte s.staging address y } := fun address =>
    .of_prepares ((s.writeStaging_prepares address [y]).trans (.of_eq rfl)) rfl
  have set : ∀ (u : State) x, u.Upholds (u.setEngine e x) := fun _ _ => .of_eq rfl rfl
  have consumed : ∀ (u : State) c, u.Upholds (u.consumeEntry e i c) := by
    intro u c
    simp only [State.consumeEntry]
    rw [State.creditNotice_same]
    exact .of_eq rfl rfl
  simp only [State.takeByte]
  split
  · exact (consumed _ _).after ((ended _ _ _).after (taken _))
  · exact (set _ _).after ((ended _ _ _).after (taken _))

theorem State.engineStep_upholds (s : State) (e : Fin 4) : s.Upholds (s.engineStep e) := by
  have allocated : ∀ i p c, s.Upholds (s.allocate i p c).1 := by
    intro i p c
    simp only [State.allocate]
    rw [State.sequenceAfter_same]
    exact .of_eq rfl rfl
  simp only [State.engineStep]
  repeat' split
  · exact .of_eq rfl rfl
  · exact .of_eq rfl rfl
  · exact .of_eq rfl rfl
  · exact s.takeByte_upholds _ _ _ _ _ _ _
  · exact .of_eq rfl rfl
  · exact (allocated _ _ _).trans (State.takeByte_upholds _ _ _ _ _ _ _ _)
  · exact .of_eq rfl rfl

/-- A request made of the Chunk Index (R43). -/
theorem State.makeRequest_upholds (s : State) (p : Producer) (r : IndexRequest) : s.Upholds (s.makeRequest p r) :=
  .of_prepares (s.makeRequest_prepares p r) rfl

theorem State.completeDigest_upholds (s : State) (j : DigestJob) (rest : List DigestJob) :
    s.Upholds (s.completeDigest j rest) := by
  have left : s.Upholds { s with digestQueue := rest } := .of_eq rfl rfl
  have written : ∀ f, s.Upholds (({ s with digestQueue := rest } : State).modStream j.stream f) := fun _ => .of_eq rfl rfl
  have joined : ∀ (u : State) e w, u.Upholds (u.joinAsk e w) := fun _ _ _ => .of_eq rfl rfl
  simp only [State.completeDigest, State.checkChunk]
  split
  · exact left.trans (.refresh_of_eq (by simp [State.tables]) (by simp [State.waitFields]))
  · split
    · exact written _
    · split
      · exact (written _).trans (joined _ _ _)
      · exact (written _).trans (State.makeRequest_upholds _ _ _)

theorem execFingerprintComplete_upholds (h : execFingerprintComplete s = .next t) : s.Upholds t := by
  obtain rfl := Host.Outcome.next.inj h
  split
  · split
    · exact .of_eq rfl rfl
    · exact s.completeDigest_upholds _ _
  · exact .of_eq rfl rfl

/-! ### The Chunk Index -/

theorem execIndexServiceStart_upholds (h : execIndexServiceStart s = .next t) : s.Upholds t := by
  obtain rfl := Host.Outcome.next.inj h
  split
  · exact .of_eq (by simp [State.tables, Index.refill_buckets]) rfl
  · exact .of_eq rfl rfl

theorem execScrubStepStart_upholds (h : execScrubStepStart s = .next t) : s.Upholds t := by
  obtain rfl := Host.Outcome.next.inj h
  split <;> exact .of_eq rfl rfl

theorem execResolutionLookupComplete_upholds (h : execResolutionLookupComplete s = .next t) : s.Upholds t := by
  obtain rfl := Host.Outcome.next.inj h
  dsimp only
  split
  next active _ =>
    split
    · exact .of_prepares (s.tidy_prepares _) rfl
    · exact ((s.tidy_prepares _).trans (State.takeLookup_prepares _ _ _ _ _)).settle active
  · exact .of_eq rfl rfl

theorem State.makeAnswer_upholds (s : State) : s.Upholds s.makeAnswer := by
  have outstanding : s.Upholds { s with bus := { s.bus with answerOutstanding := true } } := .of_eq rfl rfl
  simp only [State.makeAnswer]
  split
  · exact .of_eq rfl rfl
  · split
    · exact .of_eq rfl rfl
    · exact outstanding.trans (State.makeRequest_upholds _ _ _)

theorem execAnswerLookupComplete_upholds (h : execAnswerLookupComplete s = .next t) : s.Upholds t := by
  have answered : ∀ (u : State) bus, u.Prepares { u with bus := bus } := fun _ _ => .of_eq rfl
  obtain rfl := Host.Outcome.next.inj h
  split
  · exact (State.makeAnswer_upholds _).after (.of_prepares ((s.tidy_prepares _).trans (answered _ _)) rfl)
  · exact .of_eq rfl rfl

theorem execInsertComplete_upholds (h : execInsertComplete s = .next t) : s.Upholds t := by
  obtain rfl := Host.Outcome.next.inj h
  dsimp only
  split
  next active _ =>
    have placed : ∀ b entries, s.Prepares ((s.setBucket b entries).endService) := fun b entries =>
      (s.setBucket_prepares b entries).trans (.of_eq rfl)
    refine ((State.takeInsert_prepares _ _ _ _).after ?_).settle active
    split
    · exact (placed _ _).trans (.of_eq rfl)
    · exact placed _ _
  · exact .of_eq rfl rfl

theorem execScrubStepComplete_upholds (h : execScrubStepComplete s = .next t) : s.Upholds t := by
  obtain rfl := Host.Outcome.next.inj h
  dsimp only
  split
  next active _ =>
    have moved : ∀ b walker, s.Prepares { (s.removeDead b).endService with walker := walker } := fun b _ =>
      (s.tidy_prepares b).trans (.of_eq rfl)
    split
    · exact .of_prepares (moved _ _) rfl
    · exact ((moved _ _).trans (State.endWalk_prepares _)).settle active
  · exact .of_eq rfl rfl

/-! ### The ask timers and appends -/

theorem execCompareAExpiry_upholds {tag : Byte} (h : execCompareAExpiry tag s = .next t) : s.Upholds t := by
  obtain rfl := Host.Outcome.next.inj h
  split
  · split
    · simp only [State.compareA]
      split <;> exact .of_eq rfl rfl
    · exact .of_eq rfl rfl
  · exact .of_eq rfl rfl

theorem State.compareB_upholds (active : s.active = true) (e : AskEntry) (since : Nat) :
    s.Upholds (s.compareB e since) := by
  have removed : ∀ now bus, s.Prepares { s with now := now, bus := bus } := fun _ _ => .of_eq rfl
  simp only [State.compareB]
  exact ((removed _ _).trans (State.storeOrFree_prepares _ e)).settle active

theorem execCompareBExpiry_upholds {tag : Byte} (h : execCompareBExpiry tag s = .next t) : s.Upholds t := by
  obtain rfl := Host.Outcome.next.inj h
  split
  next active _ =>
    split
    · split
      · exact State.compareB_upholds active _ _
      · exact .of_eq rfl rfl
    · exact .of_eq rfl rfl
  · exact .of_eq rfl rfl

theorem execAppendComplete_upholds {slot offset : Nat} (h : execAppendComplete slot offset s = .next t) : s.Upholds t := by
  obtain rfl := Host.Outcome.next.inj h
  split
  next active _ =>
    exact ((State.abortRelease_prepares _ _).after ((State.sealAfterAppend_prepares _ slot).after
      ((State.appendDone_prepares _ slot _ _).after ((State.setContainer_prepares _ slot _).after
        (s.copyAppend_prepares _ _))))).settle active
  · exact .of_eq rfl rfl

/-! ### The peer bus -/

theorem execAttemptStart_upholds (h : execAttemptStart s = .next t) : s.Upholds t := by
  obtain rfl := Host.Outcome.next.inj h
  repeat' split
  all_goals exact .of_eq rfl rfl

theorem State.headLeaves_upholds (s : State) (f : TxFrame) : s.Upholds (s.headLeaves f) := by
  simp only [State.headLeaves]
  split
  · exact .of_eq (by simp [State.tables]) (by simp [State.outputFields])
  · exact .of_eq rfl rfl
  · exact .of_eq rfl rfl

theorem execFrameComplete_upholds (h : execFrameComplete s = .next t) : s.Upholds t := by
  obtain rfl := Host.Outcome.next.inj h
  split
  · exact (State.headLeaves_upholds _ _).after (.of_eq rfl rfl)
  · exact .of_eq rfl rfl

theorem execCollision_upholds {bit : Nat} (h : execCollision bit s = .next t) : s.Upholds t := by
  obtain rfl := Host.Outcome.next.inj h
  repeat' split
  all_goals exact .of_eq rfl rfl

/-- A flag set in a step that ends with the outputs following (R168). -/
theorem State.latch_upholds (s : State) (f : EventFlag) : s.Upholds (s.latch f).refresh := .refresh_of_eq rfl rfl

theorem execJamEnd_upholds (h : execJamEnd s = .next t) : s.Upholds t := by
  obtain rfl := Host.Outcome.next.inj h
  dsimp only
  split
  · split
    · exact .of_eq rfl rfl
    · exact (State.latch_upholds _ _).after ((State.headLeaves_upholds _ _).after (.of_eq rfl rfl))
  · exact .of_eq rfl rfl

theorem execFrameBegins_upholds (h : execFrameBegins s = .next t) : s.Upholds t := by
  obtain rfl := Host.Outcome.next.inj h
  split <;> exact .of_eq rfl rfl

theorem State.dispatchAsk_upholds (s : State) (sender tag : Byte) (f : Fingerprint) :
    s.Upholds (s.dispatchAsk sender tag f) := by
  have yielded : s.Upholds (s.yieldTo sender f) := .of_eq (by simp [State.tables]) (by simp [State.outputFields])
  have entered : ∀ (u : State) bus, u.Upholds { u with bus := bus } := fun _ _ => .of_eq rfl rfl
  simp only [State.dispatchAsk]
  split
  · exact (State.makeAnswer_upholds _).after (yielded.trans (entered _ _))
  · exact yielded

theorem State.receive_upholds (active : s.active = true) (r : Received) : s.Upholds (s.receive r) := by
  simp only [State.receive]
  split
  · exact .of_eq rfl rfl
  · split
    · exact s.latch_upholds _
    · cases r with
      | ask => exact s.dispatchAsk_upholds _ _ _
      | holds => exact (s.remoteFound_prepares _ _ _).settle active
      | claim => exact (s.remoteFound_prepares _ _ _).settle active

theorem State.endReception_upholds (s : State) (bits : Nat) : s.Upholds (s.endReception bits) := by
  simp only [State.endReception]
  split <;> exact .of_eq rfl rfl

theorem State.endReception_station (s : State) (bits : Nat) : (s.endReception bits).station = s.station := by
  simp only [State.endReception]
  split <;> rfl

theorem State.frameEnds_upholds (s : State) (r : Received) (bits : Nat) : s.Upholds (s.frameEnds r bits) := by
  simp only [State.frameEnds]
  split
  next gathered =>
    rw [Bool.and_eq_true] at gathered
    refine (s.endReception_upholds bits).trans (State.receive_upholds ?_ r)
    rw [State.active_of_station (s.endReception_station bits), gathered.1]
  · exact s.endReception_upholds bits

theorem execCandidateFrame_upholds {bits : List Bool} (h : execCandidateFrame bits s = .next t) : s.Upholds t := by
  obtain rfl := Host.Outcome.next.inj h
  split
  · exact s.frameEnds_upholds _ _
  · exact s.endReception_upholds _

/-! ### The seal line -/

theorem execSealTimerExpiry_upholds (h : execSealTimerExpiry s = .next t) : s.Upholds t := by
  obtain rfl := Host.Outcome.next.inj h
  split <;> exact .of_eq rfl rfl

theorem execDriveEnd_upholds (h : execDriveEnd s = .next t) : s.Upholds t := by
  obtain rfl := Host.Outcome.next.inj h
  split <;> exact .of_eq rfl rfl

theorem execPulseDetected_upholds (h : execPulseDetected s = .next t) : s.Upholds t := by
  obtain rfl := Host.Outcome.next.inj h
  dsimp only
  split
  next active _ =>
    by_cases off : s.sealUnit.mode = .off
    · rw [if_pos off]
      exact .of_eq rfl rfl
    · rw [if_neg off]
      exact State.Prepares.settle ((State.askRound_prepares _).after (.of_eq rfl)) active
  · exact .of_eq rfl rfl

theorem execSealLineHigh_upholds (h : execSealLineHigh s = .next t) : s.Upholds t := by
  obtain rfl := Host.Outcome.next.inj h
  split <;> exact .of_eq rfl rfl

/-! ### The store port -/

/-- With the port not IDLE the station is in RUNNING or HOLDING (R144, R162). -/
theorem State.WaitSound.active_of_port (h : s.WaitSound) (busy : s.store.port ≠ .idle) : s.active = true := by
  obtain ⟨-, idle, -⟩ := h
  by_contra inactive
  obtain ⟨store, -⟩ := idle (Bool.eq_false_iff.2 inactive)
  exact busy (by rw [store]; rfl)

/-- A completion taken by a busy port. -/
theorem State.Prepares.completion {u : State} (h : s.Prepares u) (busy : s.store.port ≠ .idle) :
    s.Upholds u.settleCompletion where
  waits sound := (h.settleCompletion (sound.active_of_port busy)).waits sound
  outputs _ := State.refresh_outputsAgree _

theorem execCompletion_upholds {status : Byte} (h : execCompletion status s = .next t) : s.Upholds t := by
  have freed : s.Prepares { s with store := { s.store with port := .idle } } := .of_eq rfl
  obtain rfl := Host.Outcome.next.inj h
  dsimp only
  split
  · exact .of_eq rfl rfl
  next port =>
    refine ((State.recipeCompleted_prepares _ _ _ _).after ?_).completion (by rw [port]; exact PortState.noConfusion)
    split
    · exact freed.trans (.of_eq rfl)
    · exact freed
  next port =>
    have busy : s.store.port ≠ .idle := by rw [port]; exact PortState.noConfusion
    split
    · exact freed.completion busy
    · exact (freed.trans (State.burstCompleted_prepares _ _ _)).completion busy

/-! ### The management port -/

theorem State.commandGate_upholds {own : State} (h : s.active = true → s.Upholds own) : s.Upholds (s.commandGate own) := by
  simp only [State.commandGate]
  split
  · exact .of_eq rfl rfl
  next reset =>
    split
    · exact .of_eq rfl rfl
    next starting => exact h (State.active_of_gate reset starting)

theorem State.popReport_upholds (s : State) : s.Upholds s.popReport := by
  simp only [State.popReport, State.admitHeld]
  split
  · exact .of_eq rfl rfl
  · split
    · exact .refresh_of_eq rfl rfl
    · exact .refresh_of_eq (by simp [State.tables, State.answer]) (by simp [State.waitFields, State.answer])

theorem execRecipeTaken_upholds {stream : Byte} {count : Word} (h : execRecipeTaken stream count s = .next t) :
    s.Upholds t := by
  obtain rfl := Host.Outcome.next.inj h
  refine State.commandGate_upholds (fun active => ?_)
  split
  · exact .of_eq rfl rfl
  · exact State.Prepares.settle (.of_eq rfl) active

/-! #### PURGE -/

theorem State.ownerOfOpen_iff (wf : Sparse.wf Container.initial s.containers.table = true) (i : Fin 16) :
    s.ownerOfOpen i ↔ ∃ k, (s.container k).state = .opened ∧ (s.container k).owner = some i := by
  rw [← State.ownsOpen_iff, State.ownsOpen,
    State.any_container_iff (p := fun c => c.state = .opened && c.owner = some i) wf rfl]
  simp

theorem State.areaHeld_iff (wf : Sparse.wf Container.initial s.containers.table = true) (a : Nat) :
    s.areaHeld a ↔ ∃ k, (s.container k).area = some a := by
  have listed := State.any_container_iff (p := fun c => decide (c.area = some a)) wf rfl
  simpa [State.areaHeld] using listed

/-- A container that is neither OPEN nor FREE turns RETIRED: no request could be served that could not before (R124, R155). -/
theorem State.mayServe_of_retired (canonical : s.canonical) {slot : Nat} (closed : (s.container slot).state ≠ .opened)
    (h : (s.setContainer slot { s.container slot with state := .retired }).mayServe) : s.mayServe := by
  set u := s.setContainer slot { s.container slot with state := .retired } with retired
  have wf : Sparse.wf Container.initial u.containers.table = true := ((s.setContainer_prepares slot _).canonical canonical).2.2
  have reads : ∀ k, u.container k = if k = slot then { s.container slot with state := .retired } else s.container k :=
    fun k => s.container_setContainer slot k _
  obtain ⟨⟨r, waits, ready⟩, ⟨k, lt, free⟩, a, few, unheld⟩ := h
  rw [State.ownerOfOpen_iff wf] at ready
  rw [State.areaHeld_iff wf] at unheld
  refine ⟨⟨r, waits, ?_⟩, ⟨k, lt, ?_⟩, a, few, ?_⟩
  · rw [State.ownerOfOpen_iff canonical.2.2]
    rintro ⟨j, opened, owner⟩
    have other : j ≠ slot := fun same => closed (same ▸ opened)
    exact ready ⟨j, by rw [reads, if_neg other]; exact ⟨opened, owner⟩⟩
  · rw [reads] at free
    split at free
    · exact ContainerState.noConfusion free
    · exact free
  · rw [State.areaHeld_iff canonical.2.2]
    rintro ⟨j, area⟩
    refine unheld ⟨j, ?_⟩
    rw [reads]
    split
    next same => exact same ▸ area
    next => exact area

theorem State.WaitSound.retired (h : s.WaitSound) {slot : Nat} (closed : (s.container slot).state ≠ .opened) :
    (s.setContainer slot { s.container slot with state := .retired }).WaitSound := by
  obtain ⟨canonical, idle, settled⟩ := h
  obtain ⟨cursor, served⟩ := s.openWaitSettled_iff.1 settled
  exact ⟨(s.setContainer_prepares slot _).canonical canonical, idle,
    (State.openWaitSettled_iff _).2 ⟨cursor, fun may => served (State.mayServe_of_retired canonical closed may)⟩⟩

theorem execPurge_upholds {slot : Half} (h : execPurge slot s = .next t) : s.Upholds t := by
  obtain rfl := Host.Outcome.next.inj h
  refine State.commandGate_upholds (fun _ => ?_)
  simp only [State.purgeSlot]
  split
  · exact .of_eq rfl rfl
  · split
    · exact .of_eq rfl rfl
    next purgeable =>
      have closed : (s.container slot.toNat).state ≠ .opened := by
        intro opened
        simp [opened] at purgeable
      split
      · exact .of_eq rfl rfl
      · refine .refresh (fun sound => (sound.retired closed).of_eq (fun form => form.of_eq ?_) ?_)
        · simp only [State.retire]
          split <;> rfl
        · simp only [State.retire]
          split <;> rfl

end Commands

/-! ### Every command -/

theorem exec_upholds {c : Instr} {s t : State} (h : exec c s = .next t) : s.Upholds t := by
  cases c with
  | openSegment stream q branch base size =>
    exact Host.Outcome.next.inj h ▸ State.intakeGate_upholds (fun _ i => s.takeOpen_upholds i q branch base size)
  | dataSegment stream q payload =>
    exact Host.Outcome.next.inj h ▸ State.intakeGate_upholds (fun _ i => s.takeData_upholds i q payload)
  | closeSegment stream q =>
    exact Host.Outcome.next.inj h ▸ State.intakeGate_upholds (fun _ i => s.takeClose_upholds i q)
  | abortSegment stream => exact Host.Outcome.next.inj h ▸ State.intakeGate_upholds State.takeAbort_upholds
  | malformedSegment =>
    obtain rfl := Host.Outcome.next.inj h
    repeat' split
    all_goals exact .of_eq rfl rfl
  | resetAssert => exact execResetAssert_upholds h
  | resetRelease => exact execResetRelease_upholds h
  | settingsLoaded => exact execSettingsLoaded_upholds h
  | clearWalkStep => exact execClearWalkStep_upholds h
  | holdAssert => exact execHoldAssert_upholds h
  | holdRelease => exact execHoldRelease_upholds h
  | engineAssign => exact execEngineAssign_upholds h
  | engineTakeByte e =>
    obtain rfl := Host.Outcome.next.inj h
    split
    · exact s.engineStep_upholds e
    · exact .of_eq rfl rfl
  | fingerprintComplete => exact execFingerprintComplete_upholds h
  | indexServiceStart => exact execIndexServiceStart_upholds h
  | scrubStepStart => exact execScrubStepStart_upholds h
  | resolutionLookupComplete => exact execResolutionLookupComplete_upholds h
  | answerLookupComplete => exact execAnswerLookupComplete_upholds h
  | insertComplete => exact execInsertComplete_upholds h
  | scrubStepComplete => exact execScrubStepComplete_upholds h
  | compareAExpiry => exact execCompareAExpiry_upholds h
  | compareBExpiry => exact execCompareBExpiry_upholds h
  | appendComplete => exact execAppendComplete_upholds h
  | attemptStart => exact execAttemptStart_upholds h
  | frameComplete => exact execFrameComplete_upholds h
  | collision => exact execCollision_upholds h
  | jamEnd => exact execJamEnd_upholds h
  | askReceived => exact Host.Outcome.next.inj h ▸ s.frameEnds_upholds _ _
  | haveReceived => exact Host.Outcome.next.inj h ▸ s.frameEnds_upholds _ _
  | claimReceived => exact Host.Outcome.next.inj h ▸ s.frameEnds_upholds _ _
  | candidateFrame => exact execCandidateFrame_upholds h
  | sealTimerExpiry => exact execSealTimerExpiry_upholds h
  | driveEnd => exact execDriveEnd_upholds h
  | pulseDetected => exact execPulseDetected_upholds h
  | sealLineHigh => exact execSealLineHigh_upholds h
  | completion => exact execCompletion_upholds h
  | readStatus =>
    obtain rfl := Host.Outcome.next.inj h
    split <;> exact .of_eq rfl rfl
  | readReport => exact Host.Outcome.next.inj h ▸ State.commandGate_upholds (fun _ => s.popReport_upholds)
  | ackEvents mask =>
    have acknowledged : s.Upholds (s.acknowledge mask) := .refresh_of_eq rfl rfl
    exact Host.Outcome.next.inj h ▸ State.commandGate_upholds (fun _ => acknowledged)
  | recipeTaken => exact execRecipeTaken_upholds h
  | purge => exact execPurge_upholds h
  | readStream =>
    obtain rfl := Host.Outcome.next.inj h
    refine State.commandGate_upholds (fun _ => ?_)
    split <;> exact .of_eq rfl rfl
  | unknownCommand =>
    obtain rfl := Host.Outcome.next.inj h
    split <;> exact .of_eq rfl rfl
  | transactionDiscarded => exact Host.Outcome.next.inj h ▸ .of_eq rfl rfl
  | sealLineLow =>
    obtain rfl := Host.Outcome.next.inj h
    exact .of_eq rfl rfl
  | frameBegins => exact execFrameBegins_upholds h

theorem step_upholds {s t : State} (h : step s = .next t) : s.Upholds t := by
  simp only [step] at h
  split at h
  · obtain rfl := Host.Outcome.next.inj h
    exact .of_eq rfl rfl
  next c rest _ => exact State.Upholds.trans (t := { s with pending := rest }) (.of_eq rfl rfl) (exec_upholds h)

/-- Settles O59: a step ends with the flags, ATTN and QUIET following their conditions, or touches none of them. -/
theorem outputsStayInAgreement : Obligations.OutputsStayInAgreement := fun _ _ agree stepped =>
  (step_upholds stepped).outputs agree

/-! ### The look at the open-wait queue -/

theorem Container.fits_iff (c : Container) (n : Nat) : c.fits n = true ↔ c.hasRoom n := by
  simp [Container.fits, Container.hasRoom]

/-- Settles O44: the first service of a look opens the container that the statement describes, and the later ones leave it
alone; every step keeps the queue's invariant. -/
theorem openWaitIsServed : Obligations.OpenWaitIsServed := by
  refine ⟨fun s before after r k b queue owned ready slot area => ?_, fun s t sound stepped =>
    (step_upholds stepped).waits sound⟩
  have look : s.serveOpenWait = s.serveOpenWaitUpTo ((before ++ after).length + 1) := by
    rw [State.serveOpenWait, queue, List.length_append, List.length_append, List.length_cons, Nat.add_assoc]
  have behind : (before ++ after).filter (fun q => q.stream = r.stream) = after.filter (fun q => q.stream = r.stream) := by
    rw [List.filter_append, List.filter_eq_nil_iff.2, List.nil_append]
    intro q hq same
    exact ready (of_decide_eq_true same ▸ owned q hq)
  obtain ⟨taken, left, followers, kept, filled, current, full⟩ :=
    (State.serves_of_oldest queue owned ready slot area).opened (before ++ after).length
  rw [behind] at followers
  dsimp only
  rw [look, filled, current]
  refine ⟨taken, left, followers, rfl, rfl, rfl, rfl, rfl, rfl, rfl, Nat.zero_add _, placedFrom_requests 0 (r :: taken),
    fun n h => (placedFrom_offset h).trans (Nat.zero_add _), fun none => ⟨if_pos none, if_pos none⟩,
    fun q rest more => ?_, kept⟩
  have nonempty : left ≠ [] := more ▸ List.cons_ne_nil q rest
  refine ⟨if_neg nonempty, if_neg nonempty, fun ⟨bytes, entries⟩ => Bool.eq_false_iff.1 (full q rest more) ?_⟩
  exact (Container.fits_iff _ _).2 ⟨bytes, (Nat.zero_add _).trans_lt entries⟩

end Sys2Proof.Machine
end

/-! PROOFS. The seal timer, the drive and the level of the seal line (R134, R136, R137), and HOLD with its round (R138 to R141,
R162, R164). -/

namespace Sys2Proof.Machine

/-! ## The seal line -/

/-- The period of the seal timer, in units of 0.1 ms, on the model's clock (R135). -/
theorem SealUnit.periodTicks_eq (u : SealUnit) : u.periodTicks = 2500 * u.period := (Nat.mul_assoc 25 100 u.period).symm

theorem execSealTimerExpiry_of_stopped {s : State}
    (stopped : s.sealUnit.mode ≠ .drive ∨ s.sealUnit.timer = none) :
    exec .sealTimerExpiry s = .next s := by
  simp only [exec, execSealTimerExpiry]
  split
  next condition runs =>
    obtain ⟨-, drives⟩ := Bool.and_eq_true_iff.1 condition
    exact absurd stopped (not_or.2 ⟨not_not_intro (of_decide_eq_true drives), runs ▸ Option.some_ne_none _⟩)
  next => rfl

section Line

variable {s : State} {since : Nat} (active : s.active = true)
include active

theorem execSealTimerExpiry_pulls (drives : s.sealUnit.mode = .drive) (runs : s.sealUnit.timer = some since) :
    exec .sealTimerExpiry s = .next { s with
      now := max s.now (since + 2500 * s.sealUnit.period)
      sealUnit := { s.sealUnit with
        timer := none, drive := .driving (max s.now (since + 2500 * s.sealUnit.period)) } } := by
  have condition : (s.active && s.sealUnit.mode = .drive) = true := Bool.and_eq_true_iff.2 ⟨active, decide_eq_true drives⟩
  simp only [exec, execSealTimerExpiry, condition, runs, SealUnit.periodTicks_eq]
  rfl

theorem execDriveEnd_lets_go (driving : s.sealUnit.drive = .driving since) :
    exec .driveEnd s = .next { s with
      now := max s.now (since + 500)
      sealUnit := { s.sealUnit with
        drive := .idle, timer := some (s.sealUnit.timer.getD (max s.now (since + 500))) } } := by
  simp only [exec, execDriveEnd, active, driving]
  cases timer : s.sealUnit.timer with
  | none => simp only [State.clockTo, timer]; rfl
  | some t => simp only [State.clockTo, timer]; rfl

theorem execSealLineLow_eq : exec .sealLineLow s = .next { s with
    sealLineLow := true
    sealUnit := { s.sealUnit with
      detect := if s.sealUnit.detect = .lineHigh then .lowUndetected s.now else s.sealUnit.detect } } := by
  simp only [exec, execSealLineLow, active, true_and]

theorem execSealLineHigh_eq (released : s.sealUnit.drive = .idle) : exec .sealLineHigh s = .next { s with
    sealLineLow := false, sealUnit := { s.sealUnit with detect := .lineHigh } } := by
  simp only [exec, execSealLineHigh, released, active, if_true]

end Line

/-- Settles O42: one clause for each of the four commands of the line, the timer with and without an expiry. -/
theorem sealTimerDrivesTheLine : Obligations.SealTimerDrivesTheLine := fun _ _ active =>
  ⟨execSealTimerExpiry_pulls active, execSealTimerExpiry_of_stopped, execDriveEnd_lets_go active, execSealLineLow_eq active,
    execSealLineHigh_eq active⟩

/-! ## What the rest of a step leaves of the Seal Unit -/

/-- The Seal Unit from `u` to `v`, with rounds completing in between: the drive is left alone (R136), and without the
round-again flag no further round is numbered (R138, R140). -/
structure SealUnit.RunsOn (u v : SealUnit) : Prop where
  drive : v.drive = u.drive
  once : u.roundAgain = false → v.roundAgain = false ∧ v.counter = u.counter

theorem SealUnit.RunsOn.of_eq {u v : SealUnit} (drive : v.drive = u.drive) (again : v.roundAgain = u.roundAgain)
    (counter : v.counter = u.counter) : u.RunsOn v := ⟨drive, fun once => ⟨again.trans once, counter⟩⟩

theorem SealUnit.RunsOn.trans {u v w : SealUnit} (h : u.RunsOn v) (g : v.RunsOn w) : u.RunsOn w where
  drive := g.drive.trans h.drive
  once clear :=
    have ⟨still, counter⟩ := h.once clear
    (g.once still).imp_right (·.trans counter)

theorem State.beginRound_drive (s : State) : s.beginRound.sealUnit.drive = s.sealUnit.drive := by
  rw [State.beginRound_sealUnit]

section RunsOn

variable {u : SealUnit} {s : State} (h : u.RunsOn s.sealUnit)
include h

theorem SealUnit.RunsOn.finishRound : u.RunsOn s.finishRound.sealUnit := by
  simp only [State.finishRound]
  split
  · exact h
  · exact h.trans (.of_eq rfl rfl rfl)

theorem SealUnit.RunsOn.completeRound : u.RunsOn s.completeRound.sealUnit := by
  have finished := h.finishRound
  simp only [State.completeRound]
  split
  next again =>
    have drive := s.cleared.beginRound_drive.trans finished.drive
    refine ⟨?_, fun once => absurd again (Bool.eq_false_iff.1 (finished.once once).1)⟩
    split
    · exact (SealUnit.RunsOn.finishRound (.of_eq rfl rfl rfl)).drive.trans drive
    · exact drive
  next => exact finished

theorem SealUnit.RunsOn.containerNotice (slot : Nat) (lost : Bool) : u.RunsOn (s.containerNotice slot lost).sealUnit := by
  simp only [State.containerNotice]
  split
  · split
    · exact .completeRound (h.trans (.of_eq rfl rfl rfl))
    · exact h.trans (.of_eq rfl rfl rfl)
  · split
    · exact h.trans (.of_eq rfl rfl rfl)
    · exact h

theorem SealUnit.RunsOn.refuseFlush (j : FlushJob) (rest : List FlushJob) : u.RunsOn (s.refuseFlush j rest).sealUnit := by
  simp only [State.refuseFlush, State.emitRecords_sealUnit, State.serveOpenWait_sealUnit, State.flushOutcome, if_true]
  refine .containerNotice ?_ j.slot true
  exact h

end RunsOn

theorem looking_runsOn : Looking (fun s t => s.sealUnit.RunsOn t.sealUnit) where
  trans := .trans
  issued _ _ _ _ := .of_eq rfl rfl rfl
  refused _ j rest := .refuseFlush (.of_eq rfl rfl rfl) j rest

theorem State.settle_runsOn (s : State) : s.sealUnit.RunsOn s.settle.sealUnit := by
  have looked := looking_runsOn.lookAtPort s.serveOpenWait.emitRecords
  rw [State.emitRecords_sealUnit, State.serveOpenWait_sealUnit] at looked
  rw [State.settle_eq_looked, State.refresh_sealUnit, State.placeReports_sealUnit]
  exact looked

/-! ## The round that a hold asks for -/

theorem State.startRound_runsOn (s : State) : s.beginRound.sealUnit.RunsOn s.startRound.sealUnit := by
  simp only [State.startRound]
  split
  · exact .completeRound (.of_eq rfl rfl rfl)
  · exact .of_eq rfl rfl rfl

theorem State.askRound_drive (s : State) : s.askRound.sealUnit.drive = s.sealUnit.drive := by
  simp only [State.askRound]
  split
  · exact s.startRound_runsOn.drive.trans s.beginRound_drive
  · rfl

/-- A round asked for leaves the seal timer and the drive through the rest of the step (R136). -/
theorem State.askRound_settle_line (s : State) : s.askRound.settle.sealUnit.timer = s.sealUnit.timer ∧
    s.askRound.settle.sealUnit.drive = s.sealUnit.drive :=
  ⟨(Prod.mk.inj ((State.settle_clocks _).trans s.askRound_clocks)).1,
    (State.settle_runsOn _).drive.trans s.askRound_drive⟩

/-- A round that starts takes the next number, and is the last of its step without the round-again flag (R138, R140). -/
theorem State.askRound_settle_counter {s : State} (none : s.sealUnit.inProgress = none)
    (once : s.sealUnit.roundAgain = false) : s.askRound.settle.sealUnit.counter = s.sealUnit.nextNumber := by
  have begun : s.beginRound.sealUnit.roundAgain = false ∧ s.beginRound.sealUnit.counter = s.sealUnit.nextNumber := by
    rw [State.beginRound_sealUnit]
    exact ⟨once, rfl⟩
  rw [State.askRound, if_pos none]
  exact ((s.startRound_runsOn.trans (State.settle_runsOn _)).once begun.1).2.trans begun.2

/-! ## HOLD -/

/-- The station with HOLD asserted in RUNNING, before its hold round (R141, R164). -/
def State.holdAsserted (s : State) : State := { s with hold := true, station := .holding }

theorem execHoldAssert_running {s : State} (running : s.station = .running) :
    exec .holdAssert s = .next s.holdAsserted.askRound.settle := by
  simp only [exec, execHoldAssert, running, if_true]
  rfl

theorem execHoldAssert_elsewhere {s : State} (elsewhere : s.station ≠ .running) :
    exec .holdAssert s = .next { s with hold := true } := by
  simp only [exec, execHoldAssert, elsewhere, if_false]

theorem execHoldRelease_holding {s : State} (holding : s.station = .holding) :
    exec .holdRelease s = .next { s with hold := false, station := .running : State }.refresh := by
  simp only [exec, execHoldRelease, holding, if_true]

theorem execHoldRelease_elsewhere {s : State} (elsewhere : s.station ≠ .holding) :
    exec .holdRelease s = .next { s with hold := false } := by
  simp only [exec, execHoldRelease, elsewhere, if_false]

/-- What the hold round leaves of the rest of the station. -/
theorem State.holdAsserted_same (s : State) : let t := s.holdAsserted.askRound.settle
    t.station = .holding ∧ t.hold = true ∧ t.engines = s.engines ∧ t.lastAssigned = s.lastAssigned ∧
      t.digestQueue = s.digestQueue ∧ t.index = s.index ∧ t.resolution = s.resolution ∧ t.bus = s.bus ∧
      t.settings = s.settings ∧ t.staging = s.staging ∧ t.now = s.now := by
  simp only [State.settle_station, State.settle_hold, State.settle_engines, State.settle_lastAssigned,
    State.settle_digestQueue, State.settle_index, State.settle_resolution, State.settle_bus, State.settle_settings,
    State.settle_staging, State.settle_now, State.askRound_station, State.askRound_hold, State.askRound_engines,
    State.askRound_lastAssigned, State.askRound_digestQueue, State.askRound_index, State.askRound_resolution,
    State.askRound_bus, State.askRound_settings, State.askRound_staging, State.askRound_now]
  exact ⟨rfl, rfl, rfl, rfl, rfl, rfl, rfl, rfl, rfl, rfl, rfl⟩

theorem State.holdAsserted_kept (s : State) : s.StreamsKept s.holdAsserted.askRound.settle :=
  .before rfl (s.holdAsserted.askRound_kept.trans (State.settle_kept _))

/-- Settles O8: the hold round is the one `State.askRound_settle` speaks of. -/
theorem holdMakesARound : Obligations.HoldMakesARound := by
  intro s
  refine ⟨fun running => ?_, execHoldAssert_elsewhere, fun holding => ?_, execHoldRelease_elsewhere⟩
  · obtain ⟨station, hold, engines, assigned, digests, index, resolution, bus, settings, staging, now⟩ := s.holdAsserted_same
    obtain ⟨timer, drive⟩ := s.holdAsserted.askRound_settle_line
    exact ⟨_, execHoldAssert_running running, station, hold, s.holdAsserted.askRound_settle.of_same rfl rfl rfl rfl rfl id,
      State.askRound_settle_counter (s := s.holdAsserted), timer, drive, engines, assigned, digests, index, resolution, bus,
      settings, staging, now, fun i => (s.holdAsserted_kept i).sameWork⟩
  · exact ⟨_, execHoldRelease_holding holding, State.refresh_eq (fun still => StationState.noConfusion still),
      State.refresh_latched _⟩

end Sys2Proof.Machine

/-! PROOFS. PURGE: the checks of the command in their order, and what an accepted one does to the slot and the Scrub Walker (R154,
R155, R157). -/

namespace Sys2Proof.Machine

/-- In LOADING and CLEARING a management command is answered NOT_READY (R166). -/
theorem State.commandGate_starting {s : State} (starting : s.station = .loading ∨ s.station = .clearing) (own : State) :
    s.commandGate own = s.answer .notReady [] := by
  rcases starting with h | h <;> simp [State.commandGate, State.starting, h]

/-! ## The RETIRED slots -/

/-- A RETIRED slot is listed, whatever the form of the table (R157). -/
theorem State.mem_retiredSlots_of_retired {s : State} {k : Nat} (retired : (s.container k).state = .retired) :
    k ∈ s.retiredSlots := by
  have used : s.container k ≠ Container.initial := fun initial => by
    rw [initial] at retired
    exact ContainerState.noConfusion retired
  have listed : (k, s.container k) ∈ s.containers.table := Sparse.mem_of_find_ne used
  exact List.mem_map.2 ⟨_, List.mem_filter.2 ⟨listed, decide_eq_true retired⟩, rfl⟩

section Retire

variable (s : State) (slot : Nat)

/-- Retiring a slot reaches the container table and the Scrub Walker alone (R155). -/
theorem State.retire_changes : s.retire slot = { s with
    containers := { s.containers with table := (s.retire slot).containers.table }, walker := (s.retire slot).walker } := by
  simp only [State.retire]
  split <;> rfl

theorem State.retire_container (k : Nat) : (s.retire slot).container k =
    if k = slot then { s.container slot with state := .retired } else s.container k := by
  have table : (s.retire slot).containers.table =
      (s.setContainer slot { s.container slot with state := .retired }).containers.table := by
    simp only [State.retire]
    split <;> rfl
  rw [State.container, table]
  exact s.container_setContainer slot k _

variable {s}

/-- The present walk goes on; the slot waits for the one that follows (R155). -/
theorem State.retire_walker_of_busy (busy : s.walker.state ≠ .idle) : (s.retire slot).walker = s.walker := by
  rw [State.retire, if_neg busy]
  rfl

/-- An IDLE walker starts a walk for the slots RETIRED now (R157). -/
theorem State.retire_walker_of_idle (idle : s.walker.state = .idle) : (s.retire slot).walker =
    { s.walker with state := .walking, position := 0, snapshot := (s.retire slot).retiredSlots } := by
  rw [State.retire, if_pos idle]
  rfl

/-- The slot just retired is one of them. -/
theorem State.mem_retiredSlots_retire : slot ∈ (s.retire slot).retiredSlots :=
  State.mem_retiredSlots_of_retired (by rw [State.retire_container, if_pos rfl])

end Retire

/-! ## The checks in their order -/

section Checks

variable {s : State} {slot : Nat}

theorem State.purgeSlot_range (above : s.settings.slots ≤ slot) : s.purgeSlot slot = s.answer .range [] :=
  if_pos above

variable (below : slot < s.settings.slots)
include below

theorem State.purgeSlot_notSealed (unsettled : ¬ ((s.container slot).state = .sealed ∨ (s.container slot).state = .lost)) :
    s.purgeSlot slot = s.answer .notSealed [] :=
  (if_neg (Nat.not_le.2 below)).trans (if_pos (not_or.1 unsettled))

variable (settled : (s.container slot).state = .sealed ∨ (s.container slot).state = .lost)
include settled

theorem State.purgeSlot_inUse (pinned : 0 < (s.container slot).references) : s.purgeSlot slot = s.answer .inUse [] :=
  (if_neg (Nat.not_le.2 below)).trans ((if_neg (fun unsettled => not_or.2 unsettled settled)).trans (if_pos pinned))

theorem State.purgeSlot_accepted (unpinned : (s.container slot).references = 0) :
    s.purgeSlot slot = ((s.retire slot).answer .ok []).refresh :=
  (if_neg (Nat.not_le.2 below)).trans ((if_neg (fun unsettled => not_or.2 unsettled settled)).trans
    (if_neg (Nat.not_lt.2 unpinned.le)))

end Checks

/-! ## The command -/

section Command

variable {s : State} {slot : Half}

theorem execPurge_starting (starting : s.station = .loading ∨ s.station = .clearing) :
    exec (.purge slot) s = .next (s.answer .notReady []) :=
  congrArg Host.Outcome.next (State.commandGate_starting starting _)

theorem execPurge_active (active : s.station = .running ∨ s.station = .holding) :
    exec (.purge slot) s = .next (s.purgeSlot slot.toNat) := by
  have served : s.active = true := by simpa [State.active] using active
  exact congrArg Host.Outcome.next (State.commandGate_active served _)

end Command

/-- Settles O52: one equation for each of the checks, and what `State.retire` does where all of them pass. -/
theorem purgeRetiresASlot : Obligations.PurgeRetiresASlot := by
  intro s slot
  refine ⟨execPurge_starting, fun active => ?_⟩
  have served := execPurge_active (slot := slot) active
  refine ⟨fun above => ?range, fun below unsettled => ?notSealed, fun below settled pinned => ?inUse,
    fun below settled unpinned => ?accepted⟩
  case range => rw [served, State.purgeSlot_range above]; rfl
  case notSealed => rw [served, State.purgeSlot_notSealed below unsettled]; rfl
  case inUse => rw [served, State.purgeSlot_inUse below settled pinned]; rfl
  case accepted =>
    rw [State.purgeSlot_accepted below settled unpinned] at served
    refine ⟨_, served, s.retire_container slot.toNat, ?_, State.retire_walker_of_busy _, fun idle => ?_⟩
    · rw [State.retire_changes]
      rfl
    · have walker : ((s.retire slot.toNat).answer .ok []).refresh.walker = _ := State.retire_walker_of_idle slot.toNat idle
      rw [walker]
      exact ⟨rfl, rfl, rfl, State.mem_retiredSlots_retire _⟩

end Sys2Proof.Machine

/-! PROOFS. The reads of the management port: the gate in the states before RUNNING, and the bytes of READ_STATUS and
READ_STREAM field by field (R166, R167, R177). -/

namespace Sys2Proof.Machine

/-! ## The gate -/

/-- In RESET the port takes no command (R166). -/
theorem State.commandGate_reset {s : State} (reset : s.station = .reset) (own : State) : s.commandGate own = s :=
  if_pos reset

/-- The commands that LOADING and CLEARING answer NOT_READY all go through the gate. -/
theorem exec_eq_commandGate (s : State) (mask stream : Byte) (count : Word) (slot : Half) :
    ∀ c ∈ ([.readReport, .ackEvents mask, .recipeTaken stream count, .purge slot, .readStream stream] : List Instr),
      ∃ own, exec c s = .next (s.commandGate own) := by
  simp only [List.forall_mem_cons]
  exact ⟨⟨_, rfl⟩, ⟨_, rfl⟩, ⟨_, rfl⟩, ⟨_, rfl⟩, ⟨_, rfl⟩, fun c none => absurd none List.not_mem_nil⟩

/-! ## The codes: a state's place in its chapter's table (R176, R177) -/

theorem StationState.ofNat_idxOf (x : StationState) :
    BitVec.ofNat 8 (([.reset, .loading, .clearing, .running, .holding] : List StationState).idxOf x) = x.code := by
  cases x <;> rfl

theorem SealMode.ofNat_idxOf (x : SealMode) :
    BitVec.ofNat 8 (([.off, .follow, .drive] : List SealMode).idxOf x) = x.code := by
  cases x <;> rfl

theorem Credit.ofNat_idxOf (x : Credit) :
    BitVec.ofNat 8 (([.off, .four, .sixteen, .thirtyTwo] : List Credit).idxOf x) = x.code := by
  cases x <;> rfl

theorem WalkerState.ofNat_idxOf (x : WalkerState) :
    BitVec.ofNat 8 (([.idle, .walking, .reporting] : List WalkerState).idxOf x) = x.code := by
  cases x <;> rfl

theorem StreamState.ofNat_idxOf (x : StreamState) :
    BitVec.ofNat 8 (([.idle, .opened, .closing, .aborting, .faulted] : List StreamState).idxOf x) = x.code := by
  cases x <;> rfl

theorem StreamKind.ofNat_ite (x : StreamKind) : BitVec.ofNat 8 (if x = .normal then 0 else 1) = x.code := by
  cases x <;> rfl

theorem RoundStatus.ofNat_ite (x : RoundStatus) : BitVec.ofNat 8 (if x = .clean then 0 else 1) = x.code := by
  cases x <;> rfl

/-! ## The fields -/

theorem fieldBytes_nil : fieldBytes [] = [] := rfl

theorem fieldBytes_cons (width x : Nat) (fields : List (Nat × Nat)) :
    fieldBytes ((width, x) :: fields) = leBytes width x ++ fieldBytes fields := rfl

theorem fieldBytes_append (a b : List (Nat × Nat)) : fieldBytes (a ++ b) = fieldBytes a ++ fieldBytes b :=
  List.flatMap_append

/-- The bytes of READ_STATUS are its fields in the order of R167. -/
theorem State.statusBytes_eq_fieldBytes (s : State) : s.statusBytes = fieldBytes s.statusFields := by
  simp only [State.statusBytes, Settings.statusBytes, State.statusFields, fieldBytes_cons, fieldBytes_nil, leBytes_one,
    BitVec.ofNat_toNat, BitVec.setWidth_eq, flagByte_eq_ofNat, StationState.ofNat_idxOf, SealMode.ofNat_idxOf,
    Credit.ofNat_idxOf, WalkerState.ofNat_idxOf, RoundStatus.ofNat_ite, List.append_assoc, List.cons_append,
    List.nil_append, List.append_nil]

/-- The bytes of READ_STREAM are its fields in the order of R167: the counters, the owed MARK behind its presence mark, the
lengths of the two queues, and the current container behind its own. -/
theorem Stream.statusBytes_eq_fieldBytes (x : Stream) : x.statusBytes = fieldBytes x.statusFields := by
  rw [Stream.statusFields, fieldBytes_append, fieldBytes_append, fieldBytes_append]
  refine congrArg₂ (· ++ ·) (congrArg₂ (· ++ ·) (congrArg₂ (· ++ ·) ?counters ?owed) rfl) ?current
  case counters =>
    simp only [fieldBytes_cons, fieldBytes_nil, leBytes_one, StreamState.ofNat_idxOf, StreamKind.ofNat_ite,
      List.append_assoc, List.cons_append, List.nil_append, List.append_nil]
  case owed =>
    cases x.owedMark with
    | none => rfl
    | some m => simp only [fieldBytes_cons, fieldBytes_nil, leBytes_one, RoundStatus.ofNat_ite]; rfl
  case current => cases x.current <;> rfl

/-! ## The reads -/

section Reads

variable {s : State}

theorem execReadStatus_eq (out : s.station ≠ .reset) :
    exec .readStatus s = .next (s.answer .ok (fieldBytes s.statusFields)) := by
  rw [← s.statusBytes_eq_fieldBytes]
  exact congrArg Host.Outcome.next (if_neg out)

theorem execReadStatus_reset (reset : s.station = .reset) : exec .readStatus s = .next s :=
  congrArg Host.Outcome.next (if_pos reset)

theorem execReadStream_range {stream : Byte} (active : s.active = true) (above : 16 ≤ stream.toNat) :
    exec (.readStream stream) s = .next (s.answer .range []) := by
  simp only [exec, execReadStream, State.commandGate_active active, streamOf_none above]

theorem execReadStream_eq (active : s.active = true) (i : Fin 16) :
    exec (.readStream (streamByte i)) s = .next (s.answer .ok (fieldBytes (s.stream i).statusFields)) := by
  simp only [exec, execReadStream, State.commandGate_active active, streamOf_streamByte, Stream.statusBytes_eq_fieldBytes]

/-- A code outside R177's list is no command's, and it is answered UNKNOWN in LOADING and CLEARING too (log entry 4). -/
theorem execUnknownCommand_eq {code : Byte} (out : s.station ≠ .reset) (unlisted : code.toNat = 0 ∨ 7 ≤ code.toNat) :
    exec (.unknownCommand code) s = .next (s.answer .unknown []) := by
  have none : ¬ isManagementCode code = true := by
    simp only [isManagementCode, Bool.and_eq_true, decide_eq_true_eq]
    omega
  exact congrArg Host.Outcome.next (if_neg (not_or.2 ⟨out, none⟩))

theorem execUnknownCommand_reset (reset : s.station = .reset) (code : Byte) : exec (.unknownCommand code) s = .next s :=
  congrArg Host.Outcome.next (if_pos (.inl reset))

end Reads

/-- Settles O49: the gate decides before RUNNING, and the bytes of a read are those of its fields. -/
theorem readsAreAnswered : Obligations.ReadsAreAnswered := by
  intro s mask stream code count slot i
  have gated := exec_eq_commandGate s mask stream count slot
  refine ⟨rfl, fun reset => ?reset, fun starting c listed => ?starting, execReadStatus_eq, execUnknownCommand_eq,
    execReadStream_range, fun active => execReadStream_eq active i⟩
  case reset =>
    refine List.forall_mem_cons.2 ⟨execReadStatus_reset reset,
      List.forall_mem_cons.2 ⟨execUnknownCommand_reset reset code, fun c listed => ?_⟩⟩
    obtain ⟨own, served⟩ := gated c listed
    rw [served, State.commandGate_reset reset]
  case starting =>
    obtain ⟨own, served⟩ := gated c listed
    rw [served, State.commandGate_starting starting]
    rfl

end Sys2Proof.Machine

/-! PROOFS. What every command keeps of the station's surroundings and of its tables: the commands that wait, the clock and what
has been sent (log entries 1, 3, 5), and the canonical form (log entries 7, 8, 20). -/

namespace Sys2Proof.Machine

/-! ## Work that advances -/

/-- What stands beside the station's blocks: the commands that wait, the clock and what has been sent. -/
def State.journal (s : State) := (s.pending, s.now, s.sent)

/-- A part of a step that keeps the tables canonical, leaves the commands that wait, never turns the clock back and takes
back nothing that has been sent. -/
structure State.Advances (s t : State) : Prop where
  canonical : s.canonical → t.canonical
  pending : t.pending = s.pending
  now : s.now ≤ t.now
  sent : s.sent <+: t.sent

theorem State.Advances.trans {s t u : State} (h : s.Advances t) (g : t.Advances u) : s.Advances u :=
  ⟨g.canonical ∘ h.canonical, g.pending.trans h.pending, h.now.trans g.now, h.sent.trans g.sent⟩

/-- The same with the last part of the work first. -/
theorem State.Advances.after {s t u : State} (g : t.Advances u) (h : s.Advances t) : s.Advances u := h.trans g

/-- A preparation that touches neither the commands that wait nor the clock nor what has been sent. -/
theorem State.Prepares.advances {s t : State} (h : s.Prepares t) (same : t.journal = s.journal) : s.Advances t := by
  simp only [State.journal, Prod.mk.injEq] at same
  obtain ⟨pending, now, sent⟩ := same
  exact ⟨h.canonical, pending, now.ge, [], (List.append_nil _).trans sent.symm⟩

theorem State.Advances.of_eq {s t : State} (tables : t.tables = s.tables) (same : t.journal = s.journal) : s.Advances t := by
  simp only [State.journal, Prod.mk.injEq] at same
  obtain ⟨pending, now, sent⟩ := same
  exact ⟨fun canonical => canonical.of_eq tables, pending, now.ge, [], (List.append_nil _).trans sent.symm⟩

theorem State.Advances.refl (s : State) : s.Advances s := .of_eq rfl rfl

/-! ### What moves the clock and what sends -/

theorem State.clockTo_advances (s : State) (moment : Nat) : s.Advances (s.clockTo moment) :=
  ⟨fun canonical => canonical.of_eq rfl, rfl, Nat.le_max_left _ _, [], List.append_nil _⟩

theorem State.send_advances (s : State) (o : Output) : s.Advances (s.send o) :=
  ⟨fun canonical => canonical.of_eq rfl, rfl, le_rfl, _, rfl⟩

theorem State.issueBurst_advances (s : State) (f : ActiveFlush) : s.Advances (s.issueBurst f) :=
  (s.send_advances _).trans (.of_eq rfl rfl)

theorem State.issueRecipe_advances (s : State) (w : RecipeWrite) (rest : List RecipeWrite) :
    s.Advances (s.issueRecipe w rest) := (s.send_advances _).trans (.of_eq rfl rfl)

theorem State.startFlush_advances (s : State) (j : FlushJob) (rest : List FlushJob) : s.Advances (s.startFlush j rest) :=
  (State.issueBurst_advances _ _).after (.of_eq rfl rfl)

/-! ### The looks of a step -/

theorem State.serveOpenWait_advances (s : State) : s.Advances s.serveOpenWait :=
  ⟨State.serveOpenWaitUpTo_canonical _, s.serveOpenWait_pending, s.serveOpenWait_now.ge,
    [], (List.append_nil _).trans s.serveOpenWait_sent.symm⟩

theorem State.emitRecords_advances (s : State) : s.Advances s.emitRecords :=
  .of_eq (by simp [State.tables]) (by simp [State.journal])

theorem State.flushOutcome_advances (s : State) (slot : Nat) (error : Bool) : s.Advances (s.flushOutcome slot error) :=
  (s.flushOutcome_prepares slot error).advances (by simp [State.journal])

theorem State.refuseFlush_advances (s : State) (j : FlushJob) (rest : List FlushJob) :
    s.Advances (s.refuseFlush j rest) := by
  have left : s.Advances { s with store := { s.store with flushQueue := rest } } := .of_eq rfl rfl
  exact ((left.trans (State.flushOutcome_advances _ j.slot true)).trans (State.serveOpenWait_advances _)).trans
    (State.emitRecords_advances _)

/-- Whatever the arbiter chooses is sent behind what has been sent (R151). -/
theorem State.arbitrate_advances (s : State) (n : Nat) : s.Advances (s.arbitrate n) := by
  induction n generalizing s with
  | zero => exact .refl s
  | succ n ih =>
    simp only [State.arbitrate]
    split
    · exact s.issueBurst_advances _
    · split
      · exact s.issueRecipe_advances _ _
      · split
        · split
          · exact s.startFlush_advances _ _
          · exact (s.refuseFlush_advances _ _).trans (ih _)
        · exact .refl s

theorem State.takeHandedOver_advances (s : State) (n : Nat) : s.Advances (s.takeHandedOver n) := by
  induction n generalizing s with
  | zero => exact .refl s
  | succ n ih =>
    have chosen : s.Advances { s with choices := s.choices + 1 } := .of_eq rfl rfl
    simp only [State.takeHandedOver]
    split
    · split
      · exact chosen.trans (State.issueRecipe_advances _ _ _)
      · split
        · exact chosen.trans (State.startFlush_advances _ _ _)
        · exact (chosen.trans (State.refuseFlush_advances _ _ _)).trans (ih _)
    · split
      · exact s.startFlush_advances _ _
      · exact (s.refuseFlush_advances _ _).trans (ih _)
    · exact s.arbitrate_advances _

theorem State.lookAtPort_advances (s : State) : s.Advances s.lookAtPort := by
  simp only [State.lookAtPort]
  split
  · exact s.takeHandedOver_advances _
  · exact .refl s

theorem State.conclude_advances (s : State) : s.Advances s.conclude :=
  .of_eq (by simp [State.tables]) (by simp [State.journal])

theorem State.settle_advances (s : State) : s.Advances s.settle :=
  ((s.serveOpenWait_advances.trans (State.emitRecords_advances _)).trans (State.lookAtPort_advances _)).trans
    (State.conclude_advances _)

theorem State.settleCompletion_advances (s : State) : s.Advances s.settleCompletion :=
  ((s.serveOpenWait_advances.trans (State.emitRecords_advances _)).trans (State.arbitrate_advances _ _)).trans
    (State.conclude_advances _)

/-- A step that prepares and settles. -/
theorem State.Prepares.settles {s u : State} (h : s.Prepares u) (same : u.journal = s.journal) : s.Advances u.settle :=
  (h.advances same).trans u.settle_advances

end Sys2Proof.Machine

/-! PROOFS. Command by command: every one completes and advances (log entries 1, 2, 3, 5, 7, 8). -/

namespace Sys2Proof.Machine

/-! ## Parts of single commands -/

theorem State.setBucket_advances (s : State) (b : Nat) (entries : List IndexEntry) : s.Advances (s.setBucket b entries) :=
  (s.setBucket_prepares b entries).advances rfl

theorem State.writeStaging_advances (s : State) (address : Nat) (bytes : List Byte) :
    s.Advances { s with staging := writeBytes s.staging address bytes } :=
  (s.writeStaging_prepares address bytes).advances rfl

theorem State.abortRelease_advances (s : State) (i : Fin 16) : s.Advances (s.abortRelease i) :=
  (s.abortRelease_prepares i).advances (by simp [State.journal])

theorem State.tidy_advances (s : State) (b : Nat) : s.Advances (s.removeDead b).endService :=
  (s.tidy_prepares b).advances (by simp [State.journal])

theorem State.takeLookup_advances (s : State) (f : Fingerprint) (w : Waiter) (kind : StreamKind) (hit : Option IndexEntry) :
    s.Advances (s.takeLookup f w kind hit) := by
  have surveyed : ∀ b, (s.resolveSurvey w b).journal = s.journal := fun _ => by simp [State.resolveSurvey, State.journal]
  refine (s.takeLookup_prepares f w kind hit).advances ?_
  simp only [State.takeLookup]
  split
  · split
    · exact surveyed true
    · rfl
  · split
    · exact surveyed false
    · simp [State.journal]

theorem State.takeInsert_advances (s : State) (slot ordinal : Nat) (tag : Byte) :
    s.Advances (s.takeInsert slot ordinal tag) :=
  (s.takeInsert_prepares slot ordinal tag).advances (by rw [s.takeInsert_changes]; rfl)

theorem State.endWalk_advances (s : State) : s.Advances s.endWalk := by
  have freed : (s.walker.snapshot.foldl (fun t slot => t.setContainer slot Container.initial) s).journal = s.journal :=
    foldl_keep State.journal _ (by intros; rfl) s _
  have reported : ∀ (u : State) walks,
      (s.walker.snapshot.foldl (fun t slot => t.makeReport (.purged slot walks)) u).journal = u.journal := fun u walks =>
    foldl_keep State.journal _ (by intros; rfl) u _
  exact s.endWalk_prepares.advances ((reported _ _).trans freed)

theorem State.makeAnswer_advances (s : State) : s.Advances s.makeAnswer :=
  .of_eq (by rw [State.tables, s.makeAnswer_buckets, s.makeAnswer_changes]; rfl) (by rw [s.makeAnswer_changes]; rfl)

theorem State.copyAppend_advances (s : State) (c : Container) (a : Append) : s.Advances (s.copyAppend c a) := by
  refine (s.copyAppend_prepares c a).advances ?_
  simp only [State.copyAppend]
  split <;> rfl

theorem State.appendDone_advances (s : State) (slot ordinal : Nat) (a : Append) :
    s.Advances (s.appendDone slot ordinal a) := by
  refine (s.appendDone_prepares slot ordinal a).advances ?_
  simp only [State.appendDone]
  split <;> rfl

theorem State.finishAppend_advances (s : State) (slot : Nat) (a : Append) : s.Advances (s.finishAppend slot a) := by
  have sealing : ∀ u : State, u.Advances (u.sealAfterAppend slot) := fun u =>
    (u.sealAfterAppend_prepares slot).advances (by rw [u.sealAfterAppend_changes]; rfl)
  have completed : ∀ u : State, u.Advances (u.setContainer slot ((s.container slot).completed a)) := fun u =>
    (u.setContainer_prepares slot _).advances rfl
  exact (State.settle_advances _).after ((State.abortRelease_advances _ _).after ((sealing _).after
    ((State.appendDone_advances _ _ _ _).after ((completed _).after (s.copyAppend_advances _ _)))))

theorem State.headLeaves_advances (s : State) (f : TxFrame) : s.Advances (s.headLeaves f) :=
  .of_eq (by rw [s.headLeaves_changes]; rfl) (by rw [s.headLeaves_changes]; rfl)

theorem State.recordWritten_advances (s : State) (i : Fin 16) (kind : RecordKind) : s.Advances (s.recordWritten i kind) := by
  have recorded : (s.recordChunk i).journal = s.journal := by
    simp only [State.recordChunk]
    split <;> simp [State.journal]
  refine (s.recordWritten_prepares i kind).advances ?_
  simp only [State.recordWritten]
  cases kind with
  | chunk => simpa [State.journal] using recorded
  | mark => simp [State.journal]
  | last => rfl

theorem State.faultStream_advances (s : State) (i : Fin 16) : s.Advances (s.faultStream i) :=
  (s.faultStream_prepares i).advances (by simp [State.faultStream, State.journal])

theorem State.recipeCompleted_advances (s : State) (i : Fin 16) (kind : RecordKind) (error : Bool) :
    s.Advances (s.recipeCompleted i kind error) := by
  have done : s.Advances (if error then s.faultStream i else s.recordWritten i kind) := by
    split
    · exact s.faultStream_advances i
    · exact s.recordWritten_advances i kind
  have written : ∀ f, s.Advances (s.modStream i f) := fun _ => .of_eq rfl rfl
  simp only [State.recipeCompleted]
  split
  · exact done
  · exact done
  · exact (written _).trans (State.abortRelease_advances _ i)
  · exact .refl s
  · exact .refl s

theorem State.burstCompleted_advances (s : State) (f : ActiveFlush) (error : Bool) :
    s.Advances (s.burstCompleted f error) := by
  simp only [State.burstCompleted]
  split
  · exact .of_eq rfl rfl
  · exact (State.flushOutcome_advances _ _ _).after (.of_eq rfl rfl)

section Commands

variable {s t : State}

/-! ## The intake link -/

theorem State.intakeGate_advances {b : Byte} {k : SegmentKind} {q : Half} {own : Fin 16 → State}
    (h : ∀ i, s.Advances (own i)) : s.Advances (s.intakeGate b k q own) := by
  simp only [State.intakeGate]
  split
  · exact .refl s
  · split
    · exact s.send_advances _
    · split
      · exact s.send_advances _
      · split
        · exact s.send_advances _
        · exact h _

theorem State.takeOpen_advances (s : State) (i : Fin 16) (q : Half) (branch base size : Word) :
    s.Advances (s.takeOpen i q branch base size) := by
  have opened : ∀ x, s.Advances (s.setStream i x) := fun _ => .of_eq rfl rfl
  simp only [State.takeOpen]
  split
  · exact s.send_advances _
  · split
    · exact s.send_advances _
    · split
      · exact s.send_advances _
      · exact (opened _).trans (State.send_advances _ _)

theorem State.acceptData_advances (s : State) (i : Fin 16) (q : Half) (payload : List Byte) :
    s.Advances (s.acceptData i q payload) := by
  have counted : ∀ choices, s.Advances { s with choices := choices } := fun _ => .of_eq rfl rfl
  simp only [State.acceptData]
  rw [State.addBytes_same]
  exact ((counted _).trans (State.writeStaging_advances _ _ payload)).trans (.of_eq rfl rfl)

theorem State.takeData_advances (s : State) (i : Fin 16) (q : Half) (payload : List Byte) :
    s.Advances (s.takeData i q payload) := by
  simp only [State.takeData]
  split
  · exact s.send_advances _
  · repeat' split
    · exact s.send_advances _
    · exact s.send_advances _
    · exact s.send_advances _
    · exact s.send_advances _
    · exact (s.acceptData_advances i q payload).trans (State.send_advances _ _)

theorem State.takeClose_advances (s : State) (i : Fin 16) (q : Half) : s.Advances (s.takeClose i q) := by
  have closing : ∀ x, s.Advances (s.setStream i x) := fun _ => .of_eq rfl rfl
  simp only [State.takeClose]
  split
  · exact s.send_advances _
  · split
    · exact s.send_advances _
    · split
      · exact s.send_advances _
      · exact (closing _).trans (State.send_advances _ _)

theorem State.abortNow_advances (s : State) (i : Fin 16) : s.Advances (s.abortNow i) := by
  have aborting : s.Prepares ((s.modStream i (fun x => { x with state := .aborting })).withdrawClosed i) := .of_eq rfl
  have tornDown := ((State.abortRelease_prepares _ i).after ((State.tearDown_prepares _ i .awaited).after aborting)).advances
    (by simp [State.journal, State.withdrawClosed])
  exact (State.settle_advances _).after ((State.send_advances _ _).after tornDown)

theorem State.takeAbort_advances (s : State) (i : Fin 16) : s.Advances (s.takeAbort i) := by
  simp only [State.takeAbort]
  split
  · exact s.send_advances _
  · exact s.send_advances _
  · exact s.abortNow_advances i
  · exact s.abortNow_advances i
  · exact s.abortNow_advances i

theorem execMalformedSegment_advances {kind stream : Byte} {q : Half}
    (h : execMalformedSegment kind stream q s = .next t) : s.Advances t := by
  obtain rfl := Host.Outcome.next.inj h
  split
  · exact .refl s
  · split <;> exact s.send_advances _

/-! ## The station states -/

/-- RESET leaves the attached memories, but for the bucket in service, and what stands beside the blocks; the bits it cuts go
out behind what has been sent (R55, R100, R162). -/
theorem execResetAssert_advances (h : execResetAssert s = .next t) : s.Advances t := by
  obtain rfl := Host.Outcome.next.inj h
  exact ⟨fun ⟨staging, buckets, _⟩ => ⟨staging, Sparse.wf_cutBuckets s buckets, rfl⟩, rfl, le_rfl, _, rfl⟩

theorem execResetRelease_advances (h : execResetRelease s = .next t) : s.Advances t := by
  obtain rfl := Host.Outcome.next.inj h
  split <;> exact .of_eq rfl rfl

/-- With the settings in force the container table is empty (R133). -/
theorem State.loadSettings_advances (s : State) (settings : Settings) : s.Advances (s.loadSettings settings) :=
  ⟨fun ⟨staging, buckets, _⟩ => ⟨staging, buckets, rfl⟩, rfl, le_rfl, [], List.append_nil _⟩

theorem execSettingsLoaded_advances {a : Bool} {image : List Byte} (h : execSettingsLoaded a image s = .next t) :
    s.Advances t := by
  obtain rfl := Host.Outcome.next.inj h
  dsimp only
  split
  · split <;> exact (s.loadSettings_advances _).trans (.of_eq rfl rfl)
  · exact .refl s

theorem State.enterHolding_advances (s : State) : s.Advances s.enterHolding :=
  ((State.askRound_prepares _).advances (by simp [State.journal])).after (.of_eq rfl rfl)

theorem execClearWalkStep_advances (h : execClearWalkStep s = .next t) : s.Advances t := by
  have cleared : s.Advances { s.setBucket s.clearPosition [] with clearPosition := s.clearPosition + 1 } :=
    (s.setBucket_advances _ _).trans (.of_eq rfl rfl)
  have running : ∀ u : State, u.Advances u.enterRunning := fun _ => .of_eq rfl rfl
  obtain rfl := Host.Outcome.next.inj h
  dsimp only
  split
  · split
    · exact cleared
    · split
      · exact (State.settle_advances _).after ((State.enterHolding_advances _).after (cleared.trans (running _)))
      · exact (cleared.trans (running _)).trans (.of_eq rfl rfl)
  · exact .refl s

theorem execHoldAssert_advances (h : execHoldAssert s = .next t) : s.Advances t := by
  obtain rfl := Host.Outcome.next.inj h
  split
  · exact (State.settle_advances _).after ((State.enterHolding_advances _).after (.of_eq rfl rfl))
  · exact .of_eq rfl rfl

theorem execHoldRelease_advances (h : execHoldRelease s = .next t) : s.Advances t := by
  obtain rfl := Host.Outcome.next.inj h
  split <;> exact .of_eq rfl rfl

/-! ## Chunking and fingerprints -/

theorem State.closeHead_advances (s : State) (i : Fin 16) : s.Advances (s.closeHead i) := by
  have popped : ∀ (u : State) f g, u.Advances (((u.modStream i f).modStream i g).closeCheck i) := fun u f g =>
    (((u.modStream_prepares i f).trans (State.modStream_prepares _ i g)).trans (State.closeCheck_prepares _ i)).advances
      (by simp [State.journal])
  simp only [State.closeHead]
  refine (State.settle_advances _).after ((popped _ _ _).after ?_)
  split
  · split <;> exact .of_eq rfl rfl
  · exact .refl s

theorem execEngineAssign_advances (h : execEngineAssign s = .next t) : s.Advances t := by
  obtain rfl := Host.Outcome.next.inj h
  split
  · simp only [State.assign]
    split
    · exact .of_eq rfl rfl
    · exact (State.closeHead_advances _ _).after (.of_eq rfl rfl)
    · exact .refl s
  · exact .refl s

theorem State.consumeEntry_advances (s : State) (e : Fin 4) (i : Fin 16) (c : ChunkerContext) :
    s.Advances (s.consumeEntry e i c) := by
  have noticed : ∀ u : State, u.Advances (u.creditNotice i) := by
    intro u
    simp only [State.creditNotice]
    split
    · exact u.send_advances _
    · exact .refl u
  exact (noticed _).after (.of_eq rfl rfl)

theorem State.takeByte_advances (s : State) (e : Fin 4) (i : Fin 16) (c : ChunkerContext) (p : Fin 32) (y : Byte)
    (position length : Nat) : s.Advances (s.takeByte e i c p y position length) := by
  have taken : ∀ address, s.Advances { s.modStream i (fun x => x.modSlot p (fun q => { q with length := q.length + 1 })) with
      staging := writeByte s.staging address y } := fun address =>
    (s.writeStaging_advances address [y]).trans (.of_eq rfl rfl)
  have ended : ∀ (u : State) d b, u.Advances (if b = true then u.endChunk i p d else u) := by
    intro u d b
    split <;> exact .of_eq rfl rfl
  have served : ∀ (u : State) x, u.Advances (u.setEngine e x) := fun _ _ => .of_eq rfl rfl
  simp only [State.takeByte]
  split
  · exact (State.consumeEntry_advances _ _ _ _).after ((ended _ _ _).after (taken _))
  · exact (served _ _).after ((ended _ _ _).after (taken _))

theorem State.engineStep_advances (s : State) (e : Fin 4) : s.Advances (s.engineStep e) := by
  have allocated : ∀ i p c, s.Advances (s.allocate i p c).1 := by
    intro i p c
    simp only [State.allocate]
    rw [State.sequenceAfter_same]
    exact .of_eq rfl rfl
  simp only [State.engineStep]
  repeat' split
  · exact .refl s
  · exact .refl s
  · exact .refl s
  · exact s.takeByte_advances _ _ _ _ _ _ _
  · exact .of_eq rfl rfl
  · exact (allocated _ _ _).trans (State.takeByte_advances _ _ _ _ _ _ _ _)
  · exact .refl s

/-- A request made of the Chunk Index (R43). -/
theorem State.makeRequest_advances (s : State) (p : Producer) (r : IndexRequest) : s.Advances (s.makeRequest p r) :=
  (s.makeRequest_prepares p r).advances rfl

theorem State.completeDigest_advances (s : State) (j : DigestJob) (rest : List DigestJob) :
    s.Advances (s.completeDigest j rest) := by
  have left : s.Advances { s with digestQueue := rest } := .of_eq rfl rfl
  have written : ∀ f, s.Advances (({ s with digestQueue := rest } : State).modStream j.stream f) := fun _ => .of_eq rfl rfl
  have joined : ∀ (u : State) e w, u.Advances (u.joinAsk e w) := fun _ _ _ => .of_eq rfl rfl
  simp only [State.completeDigest, State.checkChunk]
  split
  · exact (left.trans (State.abortRelease_advances _ _)).trans (State.conclude_advances _)
  · split
    · exact written _
    · split
      · exact (written _).trans (joined _ _ _)
      · exact (written _).trans (State.makeRequest_advances _ _ _)

theorem execFingerprintComplete_advances (h : execFingerprintComplete s = .next t) : s.Advances t := by
  obtain rfl := Host.Outcome.next.inj h
  split
  · split
    · exact .refl s
    · exact s.completeDigest_advances _ _
  · exact .refl s

/-! ## The Chunk Index -/

theorem execIndexServiceStart_advances (h : execIndexServiceStart s = .next t) : s.Advances t := by
  obtain rfl := Host.Outcome.next.inj h
  split
  · exact .of_eq (by simp [State.tables, Index.refill_buckets]) rfl
  · exact .refl s

theorem execScrubStepStart_advances (h : execScrubStepStart s = .next t) : s.Advances t := by
  obtain rfl := Host.Outcome.next.inj h
  split <;> exact .of_eq rfl rfl

theorem execResolutionLookupComplete_advances (h : execResolutionLookupComplete s = .next t) : s.Advances t := by
  obtain rfl := Host.Outcome.next.inj h
  dsimp only
  split
  · split
    · exact s.tidy_advances _
    · exact ((s.tidy_advances _).trans (State.takeLookup_advances _ _ _ _ _)).trans (State.settle_advances _)
  · exact .refl s

theorem execAnswerLookupComplete_advances (h : execAnswerLookupComplete s = .next t) : s.Advances t := by
  have answered : ∀ (u : State) bus, u.Advances { u with bus := bus } := fun _ _ => .of_eq rfl rfl
  obtain rfl := Host.Outcome.next.inj h
  split
  · exact (State.makeAnswer_advances _).after ((s.tidy_advances _).trans (answered _ _))
  · exact .refl s

theorem execInsertComplete_advances (h : execInsertComplete s = .next t) : s.Advances t := by
  have placed : ∀ b entries, s.Advances (s.setBucket b entries).endService := fun b entries =>
    (s.setBucket_advances b entries).trans (.of_eq rfl rfl)
  obtain rfl := Host.Outcome.next.inj h
  dsimp only
  split
  · refine (State.settle_advances _).after ((State.takeInsert_advances _ _ _ _).after ?_)
    split
    · exact (placed _ _).trans (.of_eq rfl rfl)
    · exact placed _ _
  · exact .refl s

theorem execScrubStepComplete_advances (h : execScrubStepComplete s = .next t) : s.Advances t := by
  have moved : ∀ b walker, s.Advances { (s.removeDead b).endService with walker := walker } := fun b _ =>
    (s.tidy_advances b).trans (.of_eq rfl rfl)
  obtain rfl := Host.Outcome.next.inj h
  dsimp only
  split
  · split
    · exact moved _ _
    · exact ((moved _ _).trans (State.endWalk_advances _)).trans (State.settle_advances _)
  · exact .refl s

/-! ## The ask timers and appends -/

theorem execCompareAExpiry_advances {tag : Byte} (h : execCompareAExpiry tag s = .next t) : s.Advances t := by
  obtain rfl := Host.Outcome.next.inj h
  split
  · split
    · simp only [State.compareA]
      split <;> exact (s.clockTo_advances _).trans (.of_eq rfl rfl)
    · exact .refl s
  · exact .refl s

theorem State.compareB_advances (s : State) (e : AskEntry) (since : Nat) : s.Advances (s.compareB e since) := by
  have removed : ∀ (u : State) bus, u.Prepares { u with bus := bus } := fun _ _ => .of_eq rfl
  exact (s.clockTo_advances _).trans (((removed _ _).trans (State.storeOrFree_prepares _ e)).settles
    (by simp [State.journal]))

theorem execCompareBExpiry_advances {tag : Byte} (h : execCompareBExpiry tag s = .next t) : s.Advances t := by
  obtain rfl := Host.Outcome.next.inj h
  split
  · split
    · split
      · exact s.compareB_advances _ _
      · exact .refl s
    · exact .refl s
  · exact .refl s

theorem execAppendComplete_advances {slot offset : Nat} (h : execAppendComplete slot offset s = .next t) :
    s.Advances t := by
  obtain rfl := Host.Outcome.next.inj h
  split
  · exact s.finishAppend_advances _ _
  · exact .refl s

/-! ## The peer bus -/

theorem execAttemptStart_advances (h : execAttemptStart s = .next t) : s.Advances t := by
  obtain rfl := Host.Outcome.next.inj h
  split
  · split
    · exact (s.clockTo_advances _).trans (.of_eq rfl rfl)
    · exact .refl s
  · exact .refl s

/-- A moment that comes and what the station has driven until then (R81 to R83). -/
theorem State.drives_advances (s : State) (moment : Nat) (o : Output) : s.Advances ((s.clockTo moment).send o) :=
  (s.clockTo_advances moment).trans (State.send_advances _ o)

theorem execFrameComplete_advances (h : execFrameComplete s = .next t) : s.Advances t := by
  obtain rfl := Host.Outcome.next.inj h
  split
  · exact (State.headLeaves_advances _ _).after ((s.drives_advances _ _).trans (.of_eq rfl rfl))
  · exact .refl s

theorem execCollision_advances {bit : Nat} (h : execCollision bit s = .next t) : s.Advances t := by
  obtain rfl := Host.Outcome.next.inj h
  split
  · split
    · exact (s.drives_advances _ _).trans (.of_eq rfl rfl)
    · exact .refl s
  · exact .refl s

theorem execJamEnd_advances (h : execJamEnd s = .next t) : s.Advances t := by
  have latched : ∀ (u : State) f, u.Advances (u.latch f).refresh := fun _ _ => .of_eq rfl rfl
  obtain rfl := Host.Outcome.next.inj h
  dsimp only
  split
  · split
    · exact (s.drives_advances _ _).trans (.of_eq rfl rfl)
    · exact (latched _ _).after ((State.headLeaves_advances _ _).after ((s.drives_advances _ _).trans (.of_eq rfl rfl)))
  · exact .refl s

theorem execFrameBegins_advances (h : execFrameBegins s = .next t) : s.Advances t := by
  obtain rfl := Host.Outcome.next.inj h
  split
  · exact .refl s
  · exact (s.clockTo_advances _).trans (.of_eq rfl rfl)

theorem State.endReception_advances (s : State) (bits : Nat) : s.Advances (s.endReception bits) := by
  simp only [State.endReception]
  split
  · exact .refl s
  · exact (s.clockTo_advances _).trans (.of_eq rfl rfl)

theorem State.dispatchAsk_advances (s : State) (sender tag : Byte) (f : Fingerprint) :
    s.Advances (s.dispatchAsk sender tag f) := by
  have yielded : s.Advances (s.yieldTo sender f) := .of_eq (by simp [State.tables]) (by simp [State.journal])
  have entered : ∀ (u : State) bus, u.Advances { u with bus := bus } := fun _ _ => .of_eq rfl rfl
  simp only [State.dispatchAsk]
  split
  · exact (State.makeAnswer_advances _).after (yielded.trans (entered _ _))
  · exact yielded

/-- A place told by a HAVE or a CLAIM (R70). -/
theorem State.dispatchLocation_advances (s : State) (sender : Byte) (f : Fingerprint) (inc slot ordinal : Half)
    (holder : Bool) : s.Advances (s.dispatchLocation sender f inc slot ordinal holder) :=
  (s.remoteFound_prepares _ _ _).settles (by simp [State.journal])

theorem State.receive_advances (s : State) (r : Received) : s.Advances (s.receive r) := by
  simp only [State.receive]
  split
  · exact .refl s
  · split
    · exact .of_eq rfl rfl
    · cases r with
      | ask => exact s.dispatchAsk_advances _ _ _
      | holds => exact s.dispatchLocation_advances _ _ _ _ _ _
      | claim => exact s.dispatchLocation_advances _ _ _ _ _ _

theorem State.frameEnds_advances (s : State) (r : Received) (bits : Nat) : s.Advances (s.frameEnds r bits) := by
  simp only [State.frameEnds]
  split
  · exact (s.endReception_advances bits).trans (State.receive_advances _ r)
  · exact s.endReception_advances bits

theorem execCandidateFrame_advances {bits : List Bool} (h : execCandidateFrame bits s = .next t) : s.Advances t := by
  obtain rfl := Host.Outcome.next.inj h
  split
  · exact s.frameEnds_advances _ _
  · exact s.endReception_advances _

/-! ## The seal line -/

theorem execSealTimerExpiry_advances (h : execSealTimerExpiry s = .next t) : s.Advances t := by
  obtain rfl := Host.Outcome.next.inj h
  split
  · exact (s.clockTo_advances _).trans (.of_eq rfl rfl)
  · exact .refl s

theorem execDriveEnd_advances (h : execDriveEnd s = .next t) : s.Advances t := by
  obtain rfl := Host.Outcome.next.inj h
  split
  · exact (s.clockTo_advances _).trans (.of_eq rfl rfl)
  · exact .refl s

theorem execPulseDetected_advances (h : execPulseDetected s = .next t) : s.Advances t := by
  have noted : ∀ (u : State) unit, u.Advances { u with sealUnit := unit } := fun _ _ => .of_eq rfl rfl
  have asked : ∀ u : State, u.Advances u.askRound.settle := fun u => u.askRound_prepares.settles (by simp [State.journal])
  obtain rfl := Host.Outcome.next.inj h
  dsimp only
  split
  next since _ _ =>
    have detected := fun unit => (s.clockTo_advances (since + microseconds 5)).trans (noted _ unit)
    by_cases off : s.sealUnit.mode = .off
    · rw [if_pos off]
      exact detected _
    · rw [if_neg off]
      exact (detected _).trans (asked _)
  · exact .refl s

theorem execSealLineHigh_advances (h : execSealLineHigh s = .next t) : s.Advances t := by
  obtain rfl := Host.Outcome.next.inj h
  split <;> exact .of_eq rfl rfl

/-! ## The store port -/

theorem execCompletion_advances {status : Byte} (h : execCompletion status s = .next t) : s.Advances t := by
  have freed : s.Advances { s with store := { s.store with port := .idle } } := .of_eq rfl rfl
  obtain rfl := Host.Outcome.next.inj h
  dsimp only
  split
  · exact .refl s
  · refine (State.settleCompletion_advances _).after ((State.recipeCompleted_advances _ _ _ _).after ?_)
    split
    · exact freed.trans (.of_eq rfl rfl)
    · exact freed
  · split
    · exact freed.trans (State.settleCompletion_advances _)
    · exact (freed.trans (State.burstCompleted_advances _ _ _)).trans (State.settleCompletion_advances _)

/-! ## The management port -/

theorem State.commandGate_advances {own : State} (h : s.Advances own) : s.Advances (s.commandGate own) := by
  simp only [State.commandGate]
  split
  · exact .refl s
  · split
    · exact s.send_advances _
    · exact h

/-- A change of the Management Port's own fields, an answer, and the outputs that follow. -/
theorem State.Advances.answered {u : State} (h : s.Advances u) (status : CommandStatus) (data : List Byte) :
    s.Advances (u.answer status data).refresh :=
  (h.trans (u.send_advances _)).trans (.of_eq rfl rfl)

theorem State.popReport_advances (s : State) : s.Advances s.popReport := by
  simp only [State.popReport]
  split
  · exact s.send_advances _
  · refine State.Advances.answered ?_ _ _
    simp only [State.admitHeld]
    split
    · exact .of_eq rfl rfl
    · exact .of_eq (by simp [State.tables]) (by simp [State.journal])

theorem State.acknowledge_advances (s : State) (mask : Byte) : s.Advances (s.acknowledge mask) :=
  have cleared : ∀ management, s.Advances { s with management := management } := fun _ => .of_eq rfl rfl
  State.Advances.answered (cleared _) _ _

theorem execRecipeTaken_advances {stream : Byte} {count : Word} (h : execRecipeTaken stream count s = .next t) :
    s.Advances t := by
  have took : ∀ i f, s.Advances (s.modStream i f) := fun _ _ => .of_eq rfl rfl
  obtain rfl := Host.Outcome.next.inj h
  refine State.commandGate_advances ?_
  split
  · exact s.send_advances _
  · exact ((took _ _).trans (State.send_advances _ _)).trans (State.settle_advances _)

theorem State.retire_advances (s : State) (slot : Nat) : s.Advances (s.retire slot) := by
  have retired := (s.setContainer_prepares slot { s.container slot with state := .retired }).advances rfl
  simp only [State.retire]
  split
  · exact retired.trans (.of_eq rfl rfl)
  · exact retired

theorem State.purgeSlot_advances (s : State) (slot : Nat) : s.Advances (s.purgeSlot slot) := by
  simp only [State.purgeSlot]
  split
  · exact s.send_advances _
  · split
    · exact s.send_advances _
    · split
      · exact s.send_advances _
      · exact State.Advances.answered (s.retire_advances slot) _ _

end Commands

/-! ## Every command -/

theorem exec_advances {c : Instr} {s t : State} (h : exec c s = .next t) : s.Advances t := by
  cases c with
  | openSegment stream q branch base size =>
    exact Host.Outcome.next.inj h ▸ State.intakeGate_advances (fun i => s.takeOpen_advances i q branch base size)
  | dataSegment stream q payload =>
    exact Host.Outcome.next.inj h ▸ State.intakeGate_advances (fun i => s.takeData_advances i q payload)
  | closeSegment stream q => exact Host.Outcome.next.inj h ▸ State.intakeGate_advances (fun i => s.takeClose_advances i q)
  | abortSegment stream => exact Host.Outcome.next.inj h ▸ State.intakeGate_advances s.takeAbort_advances
  | malformedSegment => exact execMalformedSegment_advances h
  | resetAssert => exact execResetAssert_advances h
  | resetRelease => exact execResetRelease_advances h
  | settingsLoaded => exact execSettingsLoaded_advances h
  | clearWalkStep => exact execClearWalkStep_advances h
  | holdAssert => exact execHoldAssert_advances h
  | holdRelease => exact execHoldRelease_advances h
  | engineAssign => exact execEngineAssign_advances h
  | engineTakeByte e =>
    obtain rfl := Host.Outcome.next.inj h
    split
    · exact s.engineStep_advances e
    · exact .refl s
  | fingerprintComplete => exact execFingerprintComplete_advances h
  | indexServiceStart => exact execIndexServiceStart_advances h
  | scrubStepStart => exact execScrubStepStart_advances h
  | resolutionLookupComplete => exact execResolutionLookupComplete_advances h
  | answerLookupComplete => exact execAnswerLookupComplete_advances h
  | insertComplete => exact execInsertComplete_advances h
  | scrubStepComplete => exact execScrubStepComplete_advances h
  | compareAExpiry => exact execCompareAExpiry_advances h
  | compareBExpiry => exact execCompareBExpiry_advances h
  | appendComplete => exact execAppendComplete_advances h
  | attemptStart => exact execAttemptStart_advances h
  | frameComplete => exact execFrameComplete_advances h
  | collision => exact execCollision_advances h
  | jamEnd => exact execJamEnd_advances h
  | askReceived => exact Host.Outcome.next.inj h ▸ s.frameEnds_advances _ _
  | haveReceived => exact Host.Outcome.next.inj h ▸ s.frameEnds_advances _ _
  | claimReceived => exact Host.Outcome.next.inj h ▸ s.frameEnds_advances _ _
  | candidateFrame => exact execCandidateFrame_advances h
  | sealTimerExpiry => exact execSealTimerExpiry_advances h
  | driveEnd => exact execDriveEnd_advances h
  | pulseDetected => exact execPulseDetected_advances h
  | sealLineHigh => exact execSealLineHigh_advances h
  | completion => exact execCompletion_advances h
  | readStatus =>
    obtain rfl := Host.Outcome.next.inj h
    split
    · exact .refl s
    · exact s.send_advances _
  | readReport => exact Host.Outcome.next.inj h ▸ State.commandGate_advances s.popReport_advances
  | ackEvents mask =>
    exact Host.Outcome.next.inj h ▸ State.commandGate_advances (s.acknowledge_advances mask)
  | recipeTaken => exact execRecipeTaken_advances h
  | purge => exact Host.Outcome.next.inj h ▸ State.commandGate_advances (s.purgeSlot_advances _)
  | readStream =>
    obtain rfl := Host.Outcome.next.inj h
    refine State.commandGate_advances ?_
    split <;> exact s.send_advances _
  | unknownCommand =>
    obtain rfl := Host.Outcome.next.inj h
    split
    · exact .refl s
    · exact s.send_advances _
  | transactionDiscarded => exact Host.Outcome.next.inj h ▸ .refl s
  | sealLineLow =>
    obtain rfl := Host.Outcome.next.inj h
    exact .of_eq rfl rfl
  | frameBegins => exact execFrameBegins_advances h

/-- No command faults and none is refused. -/
theorem exec_completes (c : Instr) (s : State) : ∃ t, exec c s = .next t := by
  cases c <;> exact ⟨_, rfl⟩

/-! ## One step -/

theorem step_of_front (c : Instr) (rest : List Instr) (s : State) :
    step { s with pending := c :: rest } = exec c { s with pending := rest } := rfl

theorem step_of_empty {s : State} (empty : s.pending = []) : step s = .next s.tick := by
  simp only [step, empty]

theorem step_canonical {s t : State} (canonical : s.canonical) (h : step s = .next t) : t.canonical := by
  cases queue : s.pending with
  | nil =>
    obtain rfl := Host.Outcome.next.inj ((step_of_empty queue).symm.trans h)
    exact canonical.of_eq rfl
  | cons c rest =>
    have front := step_of_front c rest s
    rw [← queue] at front
    exact (exec_advances (front.symm.trans h)).canonical (canonical.of_eq rfl)

/-- Settles O54: what every command keeps of the tables' form, with the queue of commands taken off first. -/
theorem tablesStayCanonical : Obligations.TablesStayCanonical := fun _ _ => step_canonical

/-- Settles O2: no arm of the dispatch answers anything but a next state, and every command advances. -/
theorem commandsComplete : Obligations.CommandsComplete := fun c s =>
  have ⟨t, done⟩ := exec_completes c s
  have ⟨_, pending, now, sent⟩ := exec_advances done
  ⟨t, done, pending, now, sent⟩

/-- Settles O1: one equation for each form of the queue. -/
theorem stepRunsFrontCommand : Obligations.StepRunsFrontCommand := ⟨step_of_front, fun _ => step_of_empty⟩

end Sys2Proof.Machine
